-- ==== Sys2Proof/Word.lean ====
section
/-! DEFINITION. The widths the block works with: 32-bit words, 16-bit indices, 8-bit bytes (00_scope.md R13). -/

namespace Sys2Proof

/-- One 32-bit word of a packet, or a 32-bit register (R13, R90). -/
abbrev Word := BitVec 32

/-- One 16-bit index operand, field `F2` of `CMD` (R91). -/
abbrev Index := BitVec 16

/-- One byte of a byte stream, or an 8-bit field (R61, R91). -/
abbrev Byte := BitVec 8

end Sys2Proof
end

