-- ==== Sys2Proof/Syntax.lean ====
section
/-! DEFINITION. The command packet (30_encoding.md R90) and the 22 commands, one constructor per row of R95. -/

namespace Sys2Proof

/-- A command packet: three 32-bit words, in this order (R90). -/
structure Packet where
  cmd : Word
  a0 : Word
  a1 : Word
  deriving DecidableEq, Repr

/-- The commands of R95, with the operands R95 and R100 give each. A word R95 shows as "-" is no operand (R98). -/
inductive Instr where
  /-- `SRST` (44_system.md R250). -/
  | srst
  /-- `RDCSR csr` (R251). -/
  | rdcsr (csr : Index)
  /-- `SM_INIT m, N` (40_models.md R120). -/
  | smInit (m : Index) (n : Word)
  /-- `BM_INIT b` (R121). -/
  | bmInit (b : Index)
  /-- `SM_RD sel, m, j` (R122). -/
  | smRd (sel : Byte) (m : Index) (j : Word)
  /-- `BM_RD b` (R123). -/
  | bmRd (b : Index)
  /-- `ENC_START` (41_encoder.md R150). -/
  | encStart
  /-- `ENC_SYM m, s` (R154). -/
  | encSym (m : Index) (sym : Word)
  /-- `ENC_BIT b, bit` (R156). -/
  | encBit (b : Index) (bit : Word)
  /-- `ENC_BITS k, x` (R159). -/
  | encBits (k : Byte) (x : Word)
  /-- `ENC_DONE` (R160). -/
  | encDone
  /-- `DEC_START` (42_decoder.md R180). -/
  | decStart
  /-- `DEC_SYM m` (R183). -/
  | decSym (m : Index)
  /-- `DEC_BIT b` (R185). -/
  | decBit (b : Index)
  /-- `DEC_BITS k` (R188). -/
  | decBits (k : Byte)
  /-- `DEC_DONE` (R189). -/
  | decDone
  /-- `IC_CONFIG i, B, range` (43_intcomp.md R210). -/
  | icConfig (i : Byte) (b : Word) (range : Word)
  /-- `IC_SETUP i, C, BH, SMBASE, BMSLOT`; `zero` is the slice `A0[31:24]` that must be 0 (R211, R99). -/
  | icSetup (i : Byte) (c : Index) (bh : Byte) (zero : Byte) (smbase : Index) (bmslot : Index)
  /-- `IC_INIT i` (R213). -/
  | icInit (i : Byte)
  /-- `IC_COMPRESS i, c, p, v` (R216). -/
  | icCompress (i : Byte) (c : Index) (p : Word) (v : Word)
  /-- `IC_DECOMPRESS i, c, p` (R217). -/
  | icDecompress (i : Byte) (c : Index) (p : Word)
  /-- `IC_GETK i` (R218). -/
  | icGetk (i : Byte)
  deriving DecidableEq, Repr

end Sys2Proof
end

