-- ==== Sys2Proof/Decode.lean ====
section
/-! DEFINITION. The decoder of a command packet, total on any three words (30_encoding.md R94 to R99), and after it the
encoder, the opcode table of R95 and the packing of a packet into one number (log 18). -/

namespace Sys2Proof

/-- `OPC = CMD[31:24]` (R91). -/
def Packet.opc (p : Packet) : Byte := p.cmd.extractLsb' 24 8

/-- `F1 = CMD[23:16]` (R91). -/
def Packet.f1 (p : Packet) : Byte := p.cmd.extractLsb' 16 8

/-- `F2 = CMD[15:0]` (R91). -/
def Packet.f2 (p : Packet) : Index := p.cmd.extractLsb' 0 16

/-- Why a `CMD` selects no command (R96, R97, R262). Both are answered `E_ILLEGAL`. -/
inductive DecodeError where
  /-- `OPC` is in no row of R95 (R97). -/
  | unassignedOpcode
  /-- `OPC` is assigned and a field its format reserves is not zero (R96). -/
  | reservedField
  deriving DecidableEq, Repr

/-- Format `Z`: `F1` and `F2` reserved (R94). -/
def decodeZ (p : Packet) (i : Instr) : Except DecodeError Instr :=
  if p.f1 = 0 ∧ p.f2 = 0 then .ok i else .error .reservedField

/-- Format `S`: `F1` reserved (R94). -/
def decodeS (p : Packet) (i : Instr) : Except DecodeError Instr :=
  if p.f1 = 0 then .ok i else .error .reservedField

/-- Format `K`: `F2` reserved (R94). -/
def decodeK (p : Packet) (i : Instr) : Except DecodeError Instr :=
  if p.f2 = 0 then .ok i else .error .reservedField

/-- The decoder: the opcode map of R95, each row under its format (R94). `IC_SETUP`'s packed operands are R99's. -/
def decode (p : Packet) : Except DecodeError Instr :=
  match p.opc.toNat with
  | 0x01 => decodeZ p .srst
  | 0x02 => decodeS p (.rdcsr p.f2)
  | 0x10 => decodeS p (.smInit p.f2 p.a0)
  | 0x11 => decodeS p (.bmInit p.f2)
  | 0x12 => .ok (.smRd p.f1 p.f2 p.a0)
  | 0x13 => decodeS p (.bmRd p.f2)
  | 0x20 => decodeZ p .encStart
  | 0x21 => decodeS p (.encSym p.f2 p.a0)
  | 0x22 => decodeS p (.encBit p.f2 p.a0)
  | 0x23 => decodeK p (.encBits p.f1 p.a0)
  | 0x24 => decodeZ p .encDone
  | 0x30 => decodeZ p .decStart
  | 0x31 => decodeS p (.decSym p.f2)
  | 0x32 => decodeS p (.decBit p.f2)
  | 0x33 => decodeK p (.decBits p.f1)
  | 0x34 => decodeZ p .decDone
  | 0x40 => decodeK p (.icConfig p.f1 p.a0 p.a1)
  | 0x41 => decodeK p (.icSetup p.f1 (p.a0.extractLsb' 0 16) (p.a0.extractLsb' 16 8) (p.a0.extractLsb' 24 8)
      (p.a1.extractLsb' 0 16) (p.a1.extractLsb' 16 16))
  | 0x42 => decodeK p (.icInit p.f1)
  | 0x43 => .ok (.icCompress p.f1 p.f2 p.a0 p.a1)
  | 0x44 => .ok (.icDecompress p.f1 p.f2 p.a0)
  | 0x45 => decodeK p (.icGetk p.f1)
  | _ => .error .unassignedOpcode

/-- The `CMD` word with these three fields (R91). -/
def cmdWord (opc f1 : Byte) (f2 : Index) : Word := opc ++ f1 ++ f2

/-- The encoder: R95's row of each command; reserved fields and unused words are 0 (R96, R98). -/
def encode : Instr → Packet
  | .srst => ⟨cmdWord 0x01 0 0, 0, 0⟩
  | .rdcsr csr => ⟨cmdWord 0x02 0 csr, 0, 0⟩
  | .smInit m n => ⟨cmdWord 0x10 0 m, n, 0⟩
  | .bmInit b => ⟨cmdWord 0x11 0 b, 0, 0⟩
  | .smRd sel m j => ⟨cmdWord 0x12 sel m, j, 0⟩
  | .bmRd b => ⟨cmdWord 0x13 0 b, 0, 0⟩
  | .encStart => ⟨cmdWord 0x20 0 0, 0, 0⟩
  | .encSym m sym => ⟨cmdWord 0x21 0 m, sym, 0⟩
  | .encBit b bit => ⟨cmdWord 0x22 0 b, bit, 0⟩
  | .encBits k x => ⟨cmdWord 0x23 k 0, x, 0⟩
  | .encDone => ⟨cmdWord 0x24 0 0, 0, 0⟩
  | .decStart => ⟨cmdWord 0x30 0 0, 0, 0⟩
  | .decSym m => ⟨cmdWord 0x31 0 m, 0, 0⟩
  | .decBit b => ⟨cmdWord 0x32 0 b, 0, 0⟩
  | .decBits k => ⟨cmdWord 0x33 k 0, 0, 0⟩
  | .decDone => ⟨cmdWord 0x34 0 0, 0, 0⟩
  | .icConfig i b range => ⟨cmdWord 0x40 i 0, b, range⟩
  | .icSetup i c bh zero smbase bmslot => ⟨cmdWord 0x41 i 0, zero ++ bh ++ c, bmslot ++ smbase⟩
  | .icInit i => ⟨cmdWord 0x42 i 0, 0, 0⟩
  | .icCompress i c p v => ⟨cmdWord 0x43 i c, p, v⟩
  | .icDecompress i c p => ⟨cmdWord 0x44 i c, p, 0⟩
  | .icGetk i => ⟨cmdWord 0x45 i 0, 0, 0⟩

/-- One row of R95: a `CMD` selects the command iff `(CMD & mask) = pattern`. -/
structure OpcodeRow where
  pattern : Word
  mask : Word
  deriving DecidableEq, Repr

/-- The mask and pattern R95 gives a command's row. -/
def Instr.row : Instr → OpcodeRow
  | .srst => ⟨0x01000000, 0xFFFFFFFF⟩
  | .rdcsr _ => ⟨0x02000000, 0xFFFF0000⟩
  | .smInit _ _ => ⟨0x10000000, 0xFFFF0000⟩
  | .bmInit _ => ⟨0x11000000, 0xFFFF0000⟩
  | .smRd _ _ _ => ⟨0x12000000, 0xFF000000⟩
  | .bmRd _ => ⟨0x13000000, 0xFFFF0000⟩
  | .encStart => ⟨0x20000000, 0xFFFFFFFF⟩
  | .encSym _ _ => ⟨0x21000000, 0xFFFF0000⟩
  | .encBit _ _ => ⟨0x22000000, 0xFFFF0000⟩
  | .encBits _ _ => ⟨0x23000000, 0xFF00FFFF⟩
  | .encDone => ⟨0x24000000, 0xFFFFFFFF⟩
  | .decStart => ⟨0x30000000, 0xFFFFFFFF⟩
  | .decSym _ => ⟨0x31000000, 0xFFFF0000⟩
  | .decBit _ => ⟨0x32000000, 0xFFFF0000⟩
  | .decBits _ => ⟨0x33000000, 0xFF00FFFF⟩
  | .decDone => ⟨0x34000000, 0xFFFFFFFF⟩
  | .icConfig _ _ _ => ⟨0x40000000, 0xFF00FFFF⟩
  | .icSetup _ _ _ _ _ _ => ⟨0x41000000, 0xFF00FFFF⟩
  | .icInit _ => ⟨0x42000000, 0xFF00FFFF⟩
  | .icCompress _ _ _ _ => ⟨0x43000000, 0xFF000000⟩
  | .icDecompress _ _ _ => ⟨0x44000000, 0xFF000000⟩
  | .icGetk _ => ⟨0x45000000, 0xFF00FFFF⟩

/-- The 22 rows of R95, in its order. -/
def opcodeTable : List OpcodeRow :=
  [⟨0x01000000, 0xFFFFFFFF⟩, ⟨0x02000000, 0xFFFF0000⟩, ⟨0x10000000, 0xFFFF0000⟩, ⟨0x11000000, 0xFFFF0000⟩,
   ⟨0x12000000, 0xFF000000⟩, ⟨0x13000000, 0xFFFF0000⟩, ⟨0x20000000, 0xFFFFFFFF⟩, ⟨0x21000000, 0xFFFF0000⟩,
   ⟨0x22000000, 0xFFFF0000⟩, ⟨0x23000000, 0xFF00FFFF⟩, ⟨0x24000000, 0xFFFFFFFF⟩, ⟨0x30000000, 0xFFFFFFFF⟩,
   ⟨0x31000000, 0xFFFF0000⟩, ⟨0x32000000, 0xFFFF0000⟩, ⟨0x33000000, 0xFF00FFFF⟩, ⟨0x34000000, 0xFFFFFFFF⟩,
   ⟨0x40000000, 0xFF00FFFF⟩, ⟨0x41000000, 0xFF00FFFF⟩, ⟨0x42000000, 0xFF00FFFF⟩, ⟨0x43000000, 0xFF000000⟩,
   ⟨0x44000000, 0xFF000000⟩, ⟨0x45000000, 0xFF00FFFF⟩]

/-- The opcodes whose row of R95 uses the word `A0`; in the other rows it is ignored (R98). -/
def opcodesWithA0 : List Nat := [0x10, 0x12, 0x21, 0x22, 0x23, 0x40, 0x41, 0x43, 0x44]

/-- The opcodes whose row of R95 uses the word `A1`; in the other rows it is ignored (R98). -/
def opcodesWithA1 : List Nat := [0x40, 0x41, 0x43]

/-- A `CMD` word matches a row (R95). -/
def OpcodeRow.Selects (r : OpcodeRow) (cmd : Word) : Prop := cmd &&& r.mask = r.pattern

/-- The packet whose bits are `w`: `CMD` in bits 31:0, `A0` in bits 63:32, `A1` in bits 95:64 (R90, log 18). -/
def packetOfBits (w : Nat) : Packet :=
  ⟨BitVec.ofNat 32 w, BitVec.ofNat 32 (w / 2 ^ 32), BitVec.ofNat 32 (w / 2 ^ 64)⟩

/-- The command the decoder reads from a table row's bits; every bit at or above `nbits` is 0. -/
def decodeTableWord (nbits w : Nat) : Option Instr :=
  match decode (packetOfBits (w % 2 ^ nbits)) with
  | .ok i => some i
  | .error _ => none

end Sys2Proof
end

