-- ==== Sys2Proof/Config.lean ====
section
/-! DEFINITION. What an implementation fixes (00_scope.md R5), what no implementation may vary (R6), and the free values. -/

namespace Sys2Proof

/-- The nine implementation parameters of R5. They are arguments of the model: a state carries them (log 1). -/
structure Params where
  /-- `NSM`, the number of symbol-model slots. -/
  nsm : Nat
  /-- `NBM`, the number of bit-model slots. -/
  nbm : Nat
  /-- `NIC`, the number of integer-compressor instances. -/
  nic : Nat
  /-- `N_MAX`, the largest alphabet of a symbol model. -/
  nMax : Nat
  /-- `BH_MAX`, the largest `bits_high`. -/
  bhMax : Nat
  /-- `SYM_INC`, what a coded symbol's count grows by. -/
  symInc : Nat
  /-- `SYM_LIMIT`, the largest total a symbol model may hold when it is used. -/
  symLimit : Nat
  /-- `BM_SHIFT`, the adaptation shift of a bit model. -/
  bmShift : Nat
  /-- `PEND_BITS`, the width of `PEND`. -/
  pendBits : Nat
  deriving DecidableEq, Repr

/-- The default column of R5. -/
def Params.default : Params where
  nsm := 256
  nbm := 64
  nic := 16
  nMax := 4096
  bhMax := 12
  symInc := 32
  symLimit := 65536
  bmShift := 5
  pendBits := 32

namespace Config

/-- `TOP`, the renormalisation threshold (R6, R152). -/
def top : Nat := 0x01000000

/-- `BOTTOM`, the largest `SYM_LIMIT` (R6, R124). -/
def bottom : Nat := 0x00010000

/-- `BM_BITS`, the precision of a bit model's probability (R6). -/
def bmBits : Nat := 13

/-- The midpoint `2^12` of a bit model's probability (R6, R35). -/
def bmMid : Nat := 4096

/-- `RAW_DIRECT`, the widest raw field coded as one uniform symbol (R6, R158). -/
def rawDirect : Nat := 19

/-- `RAW_SPLIT`, the width of the first part of a wider raw field (R6, R158). -/
def rawSplit : Nat := 16

/-- `FLUSH_BYTES`, the number of shift-outs of `ENC_DONE` (R6, R160). -/
def flushBytes : Nat := 5

/-- The length both start commands give the interval (R27, R150, R180). -/
def fullLen : Nat := 0xFFFFFFFF

end Config

/-- The constraint column of R5. -/
abbrev Params.Ok (p : Params) : Prop :=
  (1 ≤ p.nsm ∧ p.nsm ≤ 65536) ∧ (1 ≤ p.nbm ∧ p.nbm ≤ 65536) ∧ (1 ≤ p.nic ∧ p.nic ≤ 240) ∧
  (64 ≤ p.nMax ∧ p.nMax = 2 ^ p.bhMax) ∧ 1 ≤ p.symInc ∧
  (p.nMax + p.symInc ≤ p.symLimit ∧ p.symLimit ≤ Config.bottom) ∧
  (1 ≤ p.bmShift ∧ p.bmShift ≤ 12) ∧ 1 ≤ p.pendBits

/-- The places whose contents the spec leaves open at some moment (93_implementation_defined.md U1, U2, U3, U12). -/
inductive FreeCell where
  | low | len | cache | pend | value
  | smValid (m : Nat) | smN (m : Nat) | smCnt (m j : Nat)
  | bmValid (b : Nat) | bmBs (b : Nat)
  | icSt (i : Nat) | icBits (i : Nat) | icRange (i : Nat) | icCtx (i : Nat) | icBh (i : Nat) | icCbits (i : Nat)
  | icCrange (i : Nat) | icCmin (i : Nat) | icCmax (i : Nat) | icSmbase (i : Nat) | icBmslot (i : Nat) | icK (i : Nat)
  /-- Whether the byte in flight at a hard reset was transferred (R291, U12). -/
  | inFlight
  deriving DecidableEq, Repr

/-- The free value of a cell at the moment numbered by the state's counter: nothing constrains it (logs 7, 8, 10). -/
opaque Config.free : Nat → FreeCell → Nat

end Sys2Proof
end

