-- ==== Sys2Proof/Machine/State.lean ====
section
/-! DEFINITION. The machine's state as plain data (10_state.md R20 to R43), its reset, and the reasons a step can stop. -/

namespace Sys2Proof.Machine

open Sys2Proof

/-- `MODE` (R23). -/
inductive Mode where
  /-- 0: no session open. -/
  | idle
  /-- 1: an encoding session is open. -/
  | enc
  /-- 2: a decoding session is open. -/
  | dec
  /-- 3: a sticky fault was taken. -/
  | fault
  deriving DecidableEq, Repr

/-- `IC[i].ST`, the life cycle of an instance (R38). -/
inductive IcSt where
  /-- 0: nothing known. -/
  | unconf
  /-- 1: `BITS`, `RANGE` valid. -/
  | conf
  /-- 2: corrector parameters and slots assigned. -/
  | setup
  /-- 3: models initialised. -/
  | ready
  deriving DecidableEq, Repr

/-- The status codes of a response: exactly eight (30_encoding.md R93, U10). -/
inductive Status where
  /-- 0: command done. -/
  | ok
  /-- 1: `CMD` matches no command (R262). -/
  | eIllegal
  /-- 2: command not allowed in the present `MODE` (R263). -/
  | eMode
  /-- 3: an operand is out of range (R264). -/
  | eOperand
  /-- 4: something the command needs was not set up (R265). -/
  | eUninit
  /-- 5: a byte transfer failed (R266). -/
  | eIo
  /-- 6: the block is in `FAULT` mode (R267). -/
  | eFaulted
  /-- 7: the pending-byte counter would overflow (R268). -/
  | ePendovf
  deriving DecidableEq, Repr

/-- A response packet: `ST` and `RES` (R92). -/
structure Response where
  st : Status
  res : Word
  deriving DecidableEq, Repr

/-- A symbol-model slot `SM[m]` (R32). `cnt` lists `CNT[0]`, `CNT[1]`, ...; an entry at or above `N` is no part of the
model and is not listed (log 12). -/
structure SmSlot where
  valid : Bool
  n : Nat
  cnt : List (BitVec 17)
  deriving DecidableEq, Repr

/-- A bit-model slot `BM[b]` (R35). `bs` is signed. -/
structure BmSlot where
  valid : Bool
  bs : BitVec 16
  deriving DecidableEq, Repr

/-- An integer-compressor instance `IC[i]` (R37). `cmin` and `cmax` are signed. -/
structure IcInst where
  st : IcSt
  bits : BitVec 6
  range : BitVec 32
  ctx : BitVec 16
  bh : BitVec 8
  cbits : BitVec 6
  crange : BitVec 32
  cmin : BitVec 32
  cmax : BitVec 32
  smbase : BitVec 16
  bmslot : BitVec 16
  k : BitVec 6
  deriving DecidableEq, Repr

/-- A slot at reset: `VALID = 0` (R290); `N` and `CNT` are unspecified there, and these values are the model's (log 11). -/
def SmSlot.reset : SmSlot := { valid := false, n := 0, cnt := [] }

/-- A slot at reset: `VALID = 0` (R290); `BS` is unspecified there, and this value is the model's (log 11). -/
def BmSlot.reset : BmSlot := { valid := false, bs := 0 }

/-- An instance at reset: every field 0 (R290). -/
def IcInst.reset : IcInst :=
  { st := .unconf, bits := 0, range := 0, ctx := 0, bh := 0, cbits := 0, crange := 0, cmin := 0, cmax := 0,
    smbase := 0, bmslot := 0, k := 0 }

/-- An answer of the byte stream to a `PutByte` (20_memory.md R61, R63, R64; log 4). -/
inductive PutAnswer where
  /-- Success: the byte is the new last byte of `OUT`. -/
  | accepted
  /-- Failure. -/
  | failed
  /-- No answer ever comes (R64). -/
  | silent
  /-- The hard reset is asserted while the transfer is blocked (R291; log 7). -/
  | resetDuring
  deriving DecidableEq, Repr

/-- An answer of the byte stream to a `GetByte` (R62, R63, R64; log 5). -/
inductive GetAnswer where
  /-- Success with this byte. -/
  | byte (b : Byte)
  /-- Failure. -/
  | failed
  /-- No answer ever comes (R64). -/
  | silent
  /-- The hard reset is asserted while the transfer is blocked (R291; log 7). What the stream answers to the next `GetByte` is
  the next entry, whatever it is (R63). -/
  | resetDuring
  deriving DecidableEq, Repr

/-- What the host does next (00_scope.md R8, 70_reset_and_hazards.md R291). -/
inductive HostEvent where
  /-- It sends a command packet (R90). -/
  | command (p : Packet)
  /-- The platform asserts the hard reset (R290, R291). -/
  | hardReset
  deriving DecidableEq, Repr

/-- The state. The first eleven fields are the block's architectural state, all of it (R20). The others are what R43 calls
parameters of a model's step relation: the implementation parameters, the host, and the byte-stream agent (logs 1 to 5),
and the counter of the free values (log 16). -/
structure State where
  /-- `MODE` (R23). -/
  mode : Mode
  /-- `CAUSE` (R24). -/
  cause : BitVec 8
  /-- `FINFO` (R25). -/
  finfo : BitVec 32
  /-- `LOW`; bit 32 is the carry flag (R26). -/
  low : BitVec 33
  /-- `LEN` (R27). -/
  len : BitVec 32
  /-- `CACHE` (R28). -/
  cache : BitVec 8
  /-- `PEND`, a count below `2^PEND_BITS` (R29; log 13). -/
  pend : Nat
  /-- `VALUE` (R30). -/
  value : BitVec 32
  /-- `SM[0..NSM-1]` (R32). -/
  sm : List SmSlot
  /-- `BM[0..NBM-1]` (R35). -/
  bm : List BmSlot
  /-- `IC[0..NIC-1]` (R37). -/
  ic : List IcInst
  /-- The implementation parameters (R5; log 1). -/
  par : Params
  /-- The host's events still to come, the next one first (log 2). -/
  inbox : List HostEvent
  /-- The responses given, the oldest first (R92, R305; log 3). -/
  responses : List Response
  /-- The bytes appended to `OUT`, in stream order (R60; log 4). -/
  out : List Byte
  /-- The answers to the coming `PutByte` calls; once none is left, success (log 4). -/
  sink : List PutAnswer
  /-- The answers to the coming `GetByte` calls; once none is left the stream has ended (log 5). -/
  source : List GetAnswer
  /-- How many bytes were taken from `IN` (R305; log 5). -/
  taken : Nat
  /-- Which batch of free values the next unspecified moment takes (log 16). -/
  freeCtr : Nat
  deriving DecidableEq, Repr

/-- The machine right after reset (R290): the default parameters (log 1), no event of the host, empty streams. -/
def State.reset : State :=
  { mode := .idle, cause := 0, finfo := 0, low := 0, len := 0, cache := 0, pend := 0, value := 0,
    sm := List.replicate Params.default.nsm SmSlot.reset,
    bm := List.replicate Params.default.nbm BmSlot.reset,
    ic := List.replicate Params.default.nic IcInst.reset,
    par := Params.default,
    inbox := [], responses := [], out := [], sink := [], source := [], taken := 0, freeCtr := 0 }

/-- What an outside observer can see of a run: exactly these three (R305). -/
structure Observed where
  /-- (a) The responses given, the oldest first. -/
  responses : List Response
  /-- (b) The bytes appended to `OUT`, in stream order. -/
  out : List Byte
  /-- (c) How many bytes were taken from `IN`. -/
  taken : Nat
  deriving DecidableEq, Repr

/-- Why the machine can take no further step. The block's own errors are responses, not these. -/
inductive Fault where
  /-- Raised by `putByte` and `getByte`: the byte stream never answers (R64, U13 `stuck`). `seen` is all that an observer has
  seen of the run by then, and ever will: the responses of the commands before, and every byte moved, those of the hanging
  command included (R69, R305). Safe: the hardware makes no further step either (log 6). -/
  | streamSilent (seen : Observed)
  /-- Raised by `renormEnc` and `renormDec` when `LEN` is 0: the loops of R152 and R181 never end. Safe: no run reaches it
  (R27, R161; log 14). -/
  | endlessRenorm
  /-- Raised by `encodeSymbol`, `decodeSymbol` and `decodeUniform`: R14's `div` with a divisor of 0. Safe: no run reaches
  it (R161, R191; log 14). -/
  | divisionByZero
  deriving DecidableEq, Repr

/-- Why an instruction has no meaning. -/
inductive Refusal where
  /-- Raised by `exec` alone, for an instruction that has no meaning yet. Safe. No instruction is in that case. -/
  | notModelled (mnemonic : String)
  deriving DecidableEq, Repr

/-- The outcome of a command. -/
abbrev Out := Host.Outcome State Fault Refusal

end Sys2Proof.Machine
end

