-- ==== Sys2Proof/Machine/Flags.lean ====
section
/-! DEFINITION. The single-bit state that plays the part of flags (10_state.md R40), the numeric codes of the named
values, and the level output `fault_o`. -/

namespace Sys2Proof.Machine

open Sys2Proof

/-- The carry flag `CARRY = LOW[32]` (R26, R40). -/
def State.carry (s : State) : Bool := s.low.getLsbD 32

/-- The carry as the number 0 or 1 (R151). -/
def State.carryNat (s : State) : Nat := if s.carry then 1 else 0

/-- The level output `fault_o`: 1 exactly while `MODE = FAULT` (60_exceptions.md R274). -/
def State.faultO (s : State) : Bool := decide (s.mode = .fault)

/-- The value of `MODE` (R23). -/
def Mode.code : Mode → Nat
  | .idle => 0
  | .enc => 1
  | .dec => 2
  | .fault => 3

/-- The value of `IC[i].ST` (R38). -/
def IcSt.code : IcSt → Nat
  | .unconf => 0
  | .conf => 1
  | .setup => 2
  | .ready => 3

/-- The life-cycle state of a 2-bit value (R38). -/
def IcSt.ofCode (n : Nat) : IcSt :=
  match n % 4 with
  | 0 => .unconf
  | 1 => .conf
  | 2 => .setup
  | _ => .ready

/-- The value of a status code (30_encoding.md R93). -/
def Status.code : Status → Nat
  | .ok => 0
  | .eIllegal => 1
  | .eMode => 2
  | .eOperand => 3
  | .eUninit => 4
  | .eIo => 5
  | .eFaulted => 6
  | .ePendovf => 7

end Sys2Proof.Machine
end

