-- ==== Sys2Proof/Machine/Operands.lean ====
section
/-! DEFINITION. Operand arithmetic: the primitives of 00_scope.md R14, the registers a CSR number names (10_state.md R41),
the sums of a symbol model (R33), and the pure procedures of the integer compressor (43_intcomp.md R211, R214, R215, R217). -/

namespace Sys2Proof.Machine

open Sys2Proof

/-- `wrap32(a)` (R14). -/
def wrap32 (a : Int) : Word := BitVec.ofInt 32 a

/-- `s32(a)` of a 32-bit word: its signed reading (R14). -/
def s32 (a : Word) : Int := a.toInt

/-- `bitlen(a)`: the number of bits needed to write `a` (R14). -/
def bitlen (a : Nat) : Nat := if a = 0 then 0 else Nat.log2 a + 1

/-- `CUM(m, j)`: the sum of the counts below `j` (R33). -/
def SmSlot.cum (sl : SmSlot) (j : Nat) : Nat := ((sl.cnt.take j).map BitVec.toNat).sum

/-- `TOTAL(m) = CUM(m, N)` (R33). -/
def SmSlot.total (sl : SmSlot) : Nat := sl.cum sl.n

/-- `CNT[j]` (R32). -/
def SmSlot.count (sl : SmSlot) (j : Nat) : Nat := (sl.cnt.getD j 0).toNat

/-- The position of the count that holds `t`: the search of R126 over the counts in order. -/
def findIn : List (BitVec 17) → Nat → Nat
  | [], _ => 0
  | c :: cs, t => if t < c.toNat then 0 else 1 + findIn cs (t - c.toNat)

/-- `FindSym(m, t)`: the symbol `s` with `CUM(m, s) <= t < CUM(m, s+1)` (R126). -/
def SmSlot.findSym (sl : SmSlot) (t : Nat) : Nat := findIn (sl.cnt.take sl.n) t

/-- `P0 = 4096 + BS`, the probability of a 0 bit in units of 2^-13 (R35). -/
def BmSlot.p0 (sl : BmSlot) : Int := (Config.bmMid : Int) + sl.bs.toInt

/-- `NV = min(CBITS, BH)`, the number of value models (R39). -/
def IcInst.nv (inst : IcInst) : Nat := min inst.cbits.toNat inst.bh.toNat

/-- The symbol-model slot of the magnitude model of context `c` (R39). -/
def IcInst.magSlot (inst : IcInst) (c : Nat) : Nat := inst.smbase.toNat + c

/-- The symbol-model slot of the value model of magnitude `k >= 1` (R39). -/
def IcInst.valSlot (inst : IcInst) (k : Nat) : Nat := inst.smbase.toNat + inst.ctx.toNat + k - 1

/-- The corrector parameters `IC_SETUP` derives (R211). -/
structure Corrector where
  cbits : Nat
  crange : Nat
  cmin : Int
  cmax : Int
  deriving DecidableEq, Repr

/-- The bit count of a configured range: its bit length, one less for an exact power of two (R211). -/
def rangeBits (range : Nat) : Nat :=
  if range = 2 ^ (bitlen range - 1) then bitlen range - 1 else bitlen range

/-- The three branches of R211: the range branch, the bits-only branch, the full range. -/
def deriveCorrector (bits range : Nat) : Corrector :=
  if range ≠ 0 then
    { cbits := rangeBits range, crange := range,
      cmin := -((range / 2 : Nat) : Int), cmax := -((range / 2 : Nat) : Int) + range - 1 }
  else if bits < 32 then
    { cbits := bits, crange := 2 ^ bits,
      cmin := -((2 ^ bits / 2 : Nat) : Int), cmax := -((2 ^ bits / 2 : Nat) : Int) + (2 ^ bits : Nat) - 1 }
  else
    { cbits := 32, crange := 0, cmin := -2 ^ 31, cmax := 2 ^ 31 - 1 }

/-- `absadj` of a corrector (R214). -/
def absAdj (corr : Int) : Nat := (if corr ≤ 0 then -corr else corr - 1).toNat

/-- The corrector after at most one fold (R214, steps 1 and 2). -/
def foldCorr (inst : IcInst) (p v : Word) : Int :=
  let corr := s32 (v - p)
  if inst.crange ≠ 0 then
    if corr < inst.cmin.toInt then corr + inst.crange.toNat
    else if corr > inst.cmax.toInt then corr - inst.crange.toNat
    else corr
  else corr

/-- The magnitude class of a corrector (R214, step 3). -/
def magnitude (corr : Int) : Nat := bitlen (absAdj corr)

/-- `Translate(corr, k)` for `k >= 1` (R215). -/
def translate (corr : Int) (k : Nat) : Nat :=
  (if corr < 0 then corr + (2 ^ k - 1) else corr - 1).toNat

/-- `Untranslate(t, k)` for `k >= 1` (R215). -/
def untranslate (t k : Nat) : Int :=
  if t ≥ 2 ^ (k - 1) then (t : Int) + 1 else (t : Int) - (2 ^ k - 1)

/-- The decoded value from the prediction and the corrector: exact sum, at most one fold back, then 32 bits (R217). -/
def unfoldValue (inst : IcInst) (p : Word) (corr : Int) : Word :=
  let real := s32 p + corr
  wrap32
    (if inst.crange ≠ 0 then
      if real < 0 then real + inst.crange.toNat
      else if real ≥ inst.crange.toNat then real - inst.crange.toNat
      else real
    else real)

/-- The field of an instance at an offset of R41's map. -/
def IcInst.csr (inst : IcInst) : Nat → Option Word
  | 0 => some (BitVec.ofNat 32 inst.st.code)
  | 1 => some (inst.bits.setWidth 32)
  | 2 => some inst.range
  | 3 => some (inst.ctx.setWidth 32)
  | 4 => some (inst.bh.setWidth 32)
  | 5 => some (inst.cbits.setWidth 32)
  | 6 => some inst.crange
  | 7 => some inst.cmin
  | 8 => some inst.cmax
  | 9 => some (inst.smbase.setWidth 32)
  | 10 => some (inst.bmslot.setWidth 32)
  | 11 => some (inst.k.setWidth 32)
  | _ => none

/-- The value a CSR number reads, or none where it names no register (R41). -/
def State.csr (s : State) (number : Nat) : Option Word :=
  match number with
  | 0x000 => some (BitVec.ofNat 32 s.mode.code)
  | 0x001 => some (s.cause.setWidth 32)
  | 0x002 => some s.finfo
  | 0x010 => some (s.low.setWidth 32)
  | 0x011 => some (BitVec.ofNat 32 s.carryNat)
  | 0x012 => some s.len
  | 0x013 => some (s.cache.setWidth 32)
  | 0x014 => some (BitVec.ofNat 32 s.pend)
  | 0x015 => some s.value
  | number =>
    if 0x100 ≤ number ∧ (number - 0x100) / 16 < s.par.nic then
      (s.ic.getD ((number - 0x100) / 16) IcInst.reset).csr ((number - 0x100) % 16)
    else none

end Sys2Proof.Machine
end

