-- ==== Sys2Proof/Machine/Ops.lean ====
section
/-! DEFINITION. The named operations: reads and writes of the register files, responses, the byte-stream port
(20_memory.md), taking a sticky fault and the reset that returns from one (60_exceptions.md R270, R271), the checks every
command begins with (30_encoding.md R101, R102), and the model updates (40_models.md R124, R125). -/

namespace Sys2Proof.Machine

open Sys2Proof

/-! ### Register files -/

/-- `SM[m]`. -/
def State.smAt (s : State) (m : Nat) : SmSlot := s.sm.getD m SmSlot.reset

/-- `BM[b]`. -/
def State.bmAt (s : State) (b : Nat) : BmSlot := s.bm.getD b BmSlot.reset

/-- `IC[i]`. -/
def State.icAt (s : State) (i : Nat) : IcInst := s.ic.getD i IcInst.reset

/-- `SM[m] <- slot`. -/
def State.setSm (s : State) (m : Nat) (slot : SmSlot) : State := { s with sm := s.sm.set m slot }

/-- `BM[b] <- slot`. -/
def State.setBm (s : State) (b : Nat) (slot : BmSlot) : State := { s with bm := s.bm.set b slot }

/-- `IC[i] <- inst`. -/
def State.setIc (s : State) (i : Nat) (inst : IcInst) : State := { s with ic := s.ic.set i inst }

/-- `MODE <- mode`. -/
def State.setMode (s : State) (mode : Mode) : State := { s with mode := mode }

/-- `LOW <- low; LEN <- len`, both reduced to the register's width (log 15). -/
def State.setInterval (s : State) (low len : Int) : State :=
  { s with low := BitVec.ofInt 33 low, len := BitVec.ofInt 32 len }

/-- `VALUE <- value; LEN <- len`, both reduced to the register's width (log 15). -/
def State.setWindow (s : State) (value len : Int) : State :=
  { s with value := BitVec.ofInt 32 value, len := BitVec.ofInt 32 len }

/-- `LEN <- len`. -/
def State.setLen (s : State) (len : Word) : State := { s with len := len }

/-- `VALUE <- value`. -/
def State.setValue (s : State) (value : Word) : State := { s with value := value }

/-- `LOW`, `CACHE` and `PEND` after a shift-out. -/
def State.setHeld (s : State) (low : BitVec 33) (cache : Byte) (pend : Nat) : State :=
  { s with low := low, cache := cache, pend := pend }

/-- The five coder registers, written together by the start commands. -/
def State.setCoder (s : State) (low : BitVec 33) (len : Word) (cache : Byte) (pend : Nat) (value : Word) : State :=
  { s with low := low, len := len, cache := cache, pend := pend, value := value }

/-- Byte `b` becomes the new last byte of `OUT`; the answers left are `rest` (R61). -/
def State.putOut (s : State) (b : Byte) (rest : List PutAnswer) : State :=
  { s with out := s.out ++ [b], sink := rest }

/-- The byte stream's next answer to a `PutByte` was given and moved nothing; the answers left are `rest` (R61). -/
def State.setSink (s : State) (rest : List PutAnswer) : State := { s with sink := rest }

/-- The byte stream's next answer to a `GetByte` was given and moved nothing; the answers left are `rest` (R62). -/
def State.setSource (s : State) (rest : List GetAnswer) : State := { s with source := rest }

/-- The host's events still to come are `rest` (log 2). -/
def State.setInbox (s : State) (rest : List HostEvent) : State := { s with inbox := rest }

/-- One byte of `IN` is consumed; the answers left are `rest` (R62). -/
def State.tookIn (s : State) (rest : List GetAnswer) : State :=
  { s with source := rest, taken := s.taken + 1 }

/-- The response `ST`, `RES` is given (R92). -/
def State.respond (s : State) (st : Status) (res : Word) : State :=
  { s with responses := s.responses ++ [⟨st, res⟩] }

/-- What an outside observer has seen of the run so far (R305 (a), (b), (c)). -/
def State.seen (s : State) : Observed := { responses := s.responses, out := s.out, taken := s.taken }

/-! ### Outcomes of a command -/

/-- A refusal: the response carries the code and `RES = 0`, nothing else changes (R260). -/
def refuse (s : State) (e : Status) : Out := .next (s.respond e 0)

/-- Status `OK` and this result word (R15, `return v`). -/
def answer (s : State) (v : Word) : Out := .next (s.respond .ok v)

/-- The sticky faults (R260). -/
inductive Sticky where
  | io
  | pendovf
  deriving DecidableEq, Repr

/-- The status code of a sticky fault (R261). -/
def Sticky.status : Sticky → Status
  | .io => .eIo
  | .pendovf => .ePendovf

/-- What a procedure does: it returns, raises a sticky fault, is abandoned by the hard reset, or never ends. -/
inductive Run (α : Type) where
  /-- It returned `a`. -/
  | done (a : α) (s : State)
  /-- It raised a sticky fault; what the command had done so far is in `s` (R260). -/
  | raised (e : Sticky) (s : State)
  /-- The hard reset came during a blocked transfer (R291). -/
  | aborted (s : State)
  /-- It never ends. -/
  | stopped (f : Fault)

/-- One procedure after another; the first that does not return ends the command. -/
def Run.bind {α β : Type} (r : Run α) (f : α → State → Run β) : Run β :=
  match r with
  | .done a s => f a s
  | .raised e s => .raised e s
  | .aborted s => .aborted s
  | .stopped g => .stopped g

/-! ### Reset, and taking a sticky fault -/

/-- A free value of `w` bits at the present moment (log 16). -/
def State.freeBits (s : State) (w : Nat) (c : FreeCell) : BitVec w := BitVec.ofNat w (Config.free s.freeCtr c)

/-- A free truth value at the present moment (log 16). -/
def State.freeBool (s : State) (c : FreeCell) : Bool := decide (Config.free s.freeCtr c % 2 = 1)

/-- Slot `m` of the symbol-model file with contents nothing constrains. `N` is `BH_MAX + 1` bits wide, 13 by default. -/
def State.freeSm (s : State) (valid : Bool) (m : Nat) : SmSlot :=
  { valid := valid, n := Config.free s.freeCtr (.smN m) % 2 ^ (s.par.bhMax + 1),
    cnt := (List.range s.par.nMax).map fun j => s.freeBits 17 (.smCnt m j) }

/-- Slot `b` of the bit-model file with contents nothing constrains. -/
def State.freeBm (s : State) (valid : Bool) (b : Nat) : BmSlot := { valid := valid, bs := s.freeBits 16 (.bmBs b) }

/-- Instance `i` with contents nothing constrains. -/
def State.freeIc (s : State) (i : Nat) : IcInst :=
  { st := IcSt.ofCode (Config.free s.freeCtr (.icSt i)), bits := s.freeBits 6 (.icBits i),
    range := s.freeBits 32 (.icRange i), ctx := s.freeBits 16 (.icCtx i), bh := s.freeBits 8 (.icBh i),
    cbits := s.freeBits 6 (.icCbits i), crange := s.freeBits 32 (.icCrange i), cmin := s.freeBits 32 (.icCmin i),
    cmax := s.freeBits 32 (.icCmax i), smbase := s.freeBits 16 (.icSmbase i), bmslot := s.freeBits 16 (.icBmslot i),
    k := s.freeBits 6 (.icK i) }

/-- The block's reset (R290), which `SRST` and the hard reset share (R250, R291). `N`, `CNT` and `BS` become unspecified
(log 10). The host and the byte stream are not reset. -/
def resetBlock (s : State) : State :=
  { s with
    mode := .idle, cause := 0, finfo := 0, low := 0, len := 0, cache := 0, pend := 0, value := 0,
    sm := (List.range s.par.nsm).map (s.freeSm false),
    bm := (List.range s.par.nbm).map (s.freeBm false),
    ic := List.replicate s.par.nic IcInst.reset,
    freeCtr := s.freeCtr + 1 }

/-- Fault entry (R270): `MODE`, `CAUSE`, `FINFO` and the response are fixed; everything else of the block becomes
unspecified (log 8), except that a valid slot stays valid (R40, U2; log 9). -/
def takeFault (s : State) (e : Sticky) (cmd : Word) : State :=
  { s with
    mode := .fault, cause := BitVec.ofNat 8 e.status.code, finfo := cmd,
    low := s.freeBits 33 .low, len := s.freeBits 32 .len, cache := s.freeBits 8 .cache,
    pend := Config.free s.freeCtr .pend % 2 ^ s.par.pendBits, value := s.freeBits 32 .value,
    sm := (List.range s.par.nsm).map fun m => s.freeSm ((s.smAt m).valid || s.freeBool (.smValid m)) m,
    bm := (List.range s.par.nbm).map fun b => s.freeBm ((s.bmAt b).valid || s.freeBool (.bmValid b)) b,
    ic := (List.range s.par.nic).map s.freeIc,
    responses := s.responses ++ [⟨e.status, 0⟩],
    freeCtr := s.freeCtr + 1 }

/-- How a command whose first word is `cmd` ends once execution has begun (R260, R270, R291). A command that hangs gives no
response; its fault holds what was seen of the run (R64, R305; log 6). -/
def finish (cmd : Word) (r : Run Word) : Out :=
  match r with
  | .done v s => answer s v
  | .raised e s => .next (takeFault s e cmd)
  | .aborted s => .next (resetBlock s)
  | .stopped f => .fault f

/-! ### The checks every command begins with -/

/-- Checks 1 and 3 of R101: `E_FAULTED` in `FAULT` mode, then `E_MODE` outside the modes R102 allows. -/
def guarded (s : State) (allowed : List Mode) (k : Out) : Out :=
  if s.mode = .fault then refuse s .eFaulted
  else if s.mode ∈ allowed then k
  else refuse s .eMode

/-- The modes in which the set-up and read commands are allowed (R102). -/
def anySession : List Mode := [.idle, .enc, .dec]

/-- A `CMD` that matches no row: `E_FAULTED` in `FAULT` mode, else `E_ILLEGAL` (R101, R262). -/
def refuseUndecoded (s : State) : Out :=
  if s.mode = .fault then refuse s .eFaulted else refuse s .eIllegal

/-! ### The byte-stream port -/

/-- `PutByte(b)` (R61). A byte whose transfer is never answered is not in `OUT` (R64, log 6). -/
def putByte (b : Byte) (s : State) : Run Unit :=
  match s.sink with
  | [] => .done () (s.putOut b [])
  | .accepted :: rest => .done () (s.putOut b rest)
  | .failed :: rest => .raised .io (s.setSink rest)
  | .silent :: _ => .stopped (.streamSilent s.seen)
  | .resetDuring :: rest =>
    if s.freeBool .inFlight then .aborted (s.putOut b rest) else .aborted (s.setSink rest)

/-- `repeat n times: PutByte(b)` (R151). -/
def putRepeat (b : Byte) : Nat → State → Run Unit
  | 0, s => .done () s
  | n + 1, s => (putByte b s).bind fun _ s' => putRepeat b n s'

/-- `GetByte()` (R62). A transfer that is never answered consumes nothing (R64, log 6). At a hard reset the byte in flight was consumed or not, a free value; either way the answers to the
`GetByte` calls of later commands are the rest of the list, any answers (R63, R291; log 7). -/
def getByte (s : State) : Run Byte :=
  match s.source with
  | [] => .raised .io s
  | .byte b :: rest => .done b (s.tookIn rest)
  | .failed :: rest => .raised .io (s.setSource rest)
  | .silent :: _ => .stopped (.streamSilent s.seen)
  | .resetDuring :: rest =>
    if s.freeBool .inFlight then .aborted (s.tookIn rest) else .aborted (s.setSource rest)

/-! ### The adaptive models -/

/-- A slot as `SM_INIT` leaves it: valid, alphabet `n`, every count 1 (R120). -/
def SmSlot.fresh (n : Nat) : SmSlot := { valid := true, n := n, cnt := List.replicate n 1 }

/-- A slot as `BM_INIT` leaves it (R121). -/
def BmSlot.fresh : BmSlot := { valid := true, bs := 0 }

/-- A count halved, rounding up (R124). -/
def halveCount (c : BitVec 17) : BitVec 17 := BitVec.ofNat 17 ((c.toNat + 1) / 2)

/-- The counts after symbol `sym` grew by `SYM_INC` (R124). -/
def SmSlot.bump (sl : SmSlot) (p : Params) (sym : Nat) : SmSlot :=
  { sl with cnt := sl.cnt.set sym (BitVec.ofNat 17 (sl.count sym + p.symInc)) }

/-- `SymUpdate` of a slot: grow the count, then halve every count if the total is above `SYM_LIMIT` (R124). -/
def SmSlot.update (sl : SmSlot) (p : Params) (sym : Nat) : SmSlot :=
  if (sl.bump p sym).total > p.symLimit then
    { sl with cnt := (sl.bump p sym).cnt.map halveCount }
  else sl.bump p sym

/-- `BitUpdate` of a slot (R125). -/
def BmSlot.update (sl : BmSlot) (p : Params) (bit : Bool) : BmSlot :=
  if bit then { sl with bs := BitVec.ofInt 16 (sl.bs.toInt - (4096 + sl.bs.toInt) / 2 ^ p.bmShift) }
  else { sl with bs := BitVec.ofInt 16 (sl.bs.toInt + (4096 - sl.bs.toInt) / 2 ^ p.bmShift) }

/-- `SymUpdate(m, s)` (R124). -/
def symUpdate (m sym : Nat) (s : State) : State := s.setSm m ((s.smAt m).update s.par sym)

/-- `BitUpdate(b, bit)` (R125). -/
def bitUpdate (b : Nat) (bit : Bool) (s : State) : State := s.setBm b ((s.bmAt b).update s.par bit)

end Sys2Proof.Machine
end

