-- ==== Sys2Proof/Machine/Encoder.lean ====
section
/-! DEFINITION. The arithmetic encoder (41_encoder.md): its procedures and `ENC_START`, `ENC_SYM`, `ENC_BIT`, `ENC_BITS`,
`ENC_DONE`. -/

namespace Sys2Proof.Machine

open Sys2Proof

/-- `LOW[23:0] << 8` (R151). -/
def shiftedLow (s : State) : BitVec 33 := BitVec.ofNat 33 (s.low.toNat % 2 ^ 24 * 2 ^ 8)

/-- `LOW[31:24]` (R151). -/
def topByte (s : State) : Byte := s.low.extractLsb' 24 8

/-- `ShiftOut()` (R151). -/
def shiftOut (s : State) : Run Unit :=
  if s.low.toNat % 2 ^ 32 < 0xFF000000 ∨ s.carry = true then
    (putByte (BitVec.ofNat 8 (s.cache.toNat + s.carryNat)) s).bind fun _ s1 =>
      (putRepeat (BitVec.ofNat 8 (0xFF + s.carryNat)) s.pend s1).bind fun _ s2 =>
        .done () (s2.setHeld (shiftedLow s) (topByte s) 0)
  else if s.pend = 2 ^ s.par.pendBits - 1 then .raised .pendovf s
  else .done () (s.setHeld (shiftedLow s) s.cache (s.pend + 1))

/-- `repeat n times: ShiftOut()` (R160). -/
def shiftOuts : Nat → State → Run Unit
  | 0, s => .done () s
  | n + 1, s => (shiftOut s).bind fun _ s' => shiftOuts n s'

/-- The loop of R152, at most `fuel` iterations. -/
def renormEncLoop : Nat → State → Run Unit
  | 0, s => if s.len.toNat < Config.top then .stopped .endlessRenorm else .done () s
  | fuel + 1, s =>
    if s.len.toNat < Config.top then
      (shiftOut s).bind fun _ s' => renormEncLoop fuel (s'.setLen (s'.len <<< 8))
    else .done () s

/-- `RenormEnc()` (R152). Three iterations are enough unless `LEN` is 0, and then the loop never ends (log 14). -/
def renormEnc (s : State) : Run Unit := renormEncLoop 3 s

/-- `EncodeSymbol(m, s)` (R153). -/
def encodeSymbol (m sym : Nat) (s : State) : Run Unit :=
  if (s.smAt m).total = 0 then .stopped .divisionByZero
  else
    (renormEnc (s.setInterval
        ((s.low.toNat + s.len.toNat / (s.smAt m).total * (s.smAt m).cum sym : Nat) : Int)
        ((s.len.toNat / (s.smAt m).total * (s.smAt m).count sym : Nat) : Int))).bind fun _ s' =>
      .done () (symUpdate m sym s')

/-- The size `(LEN >> 13) * P0` of the sub-interval of bit 0 (R155, R184). -/
def bitSplit (s : State) (b : Nat) : Int := (s.len.toNat / 2 ^ Config.bmBits : Nat) * (s.bmAt b).p0

/-- `EncodeBit(b, bit)` (R155). -/
def encodeBit (b : Nat) (bit : Bool) (s : State) : Run Unit :=
  (renormEnc
    (if bit then s.setInterval (s.low.toNat + bitSplit s b) (s.len.toNat - bitSplit s b)
    else s.setInterval s.low.toNat (bitSplit s b))).bind fun _ s' =>
    .done () (bitUpdate b bit s')

/-- `EncodeUniform(k, x)` (R157). -/
def encodeUniform (k x : Nat) (s : State) : Run Unit :=
  renormEnc (s.setInterval ((s.low.toNat + s.len.toNat / 2 ^ k * x : Nat) : Int) ((s.len.toNat / 2 ^ k : Nat) : Int))

/-- `EncodeBits(k, x)` (R158): the low 16 bits first when `k > 19`. -/
def encodeBits (k x : Nat) (s : State) : Run Unit :=
  if k > Config.rawDirect then
    (encodeUniform Config.rawSplit (x % 2 ^ Config.rawSplit) s).bind fun _ s' =>
      encodeUniform (k - Config.rawSplit) (x / 2 ^ Config.rawSplit) s'
  else encodeUniform k x s

/-- `return` after a procedure that gives no result: `RES = 0` (R15). -/
def noResult (r : Run Unit) : Run Word := r.bind fun _ s => .done 0 s

/-- `ENC_START` (R150). -/
def execEncStart (s : State) : Out :=
  guarded s [.idle] <| answer ((s.setCoder 0 (BitVec.ofNat 32 Config.fullLen) 0 0 0).setMode .enc) 0

/-- `ENC_SYM m, s` (R154). -/
def execEncSym (m : Index) (sym : Word) (s : State) : Out :=
  guarded s [.enc] <|
    if m.toNat ≥ s.par.nsm then refuse s .eOperand
    else if (s.smAt m.toNat).valid = false then refuse s .eUninit
    else if sym.toNat ≥ (s.smAt m.toNat).n then refuse s .eOperand
    else finish (encode (.encSym m sym)).cmd (noResult (encodeSymbol m.toNat sym.toNat s))

/-- `ENC_BIT b, bit` (R156). -/
def execEncBit (b : Index) (bit : Word) (s : State) : Out :=
  guarded s [.enc] <|
    if b.toNat ≥ s.par.nbm then refuse s .eOperand
    else if (s.bmAt b.toNat).valid = false then refuse s .eUninit
    else if bit.toNat > 1 then refuse s .eOperand
    else finish (encode (.encBit b bit)).cmd (noResult (encodeBit b.toNat (decide (bit.toNat = 1)) s))

/-- `ENC_BITS k, x` (R159). -/
def execEncBits (k : Byte) (x : Word) (s : State) : Out :=
  guarded s [.enc] <|
    if k.toNat < 1 ∨ k.toNat > 32 then refuse s .eOperand
    else if k.toNat < 32 ∧ x.toNat ≥ 2 ^ k.toNat then refuse s .eOperand
    else finish (encode (.encBits k x)).cmd (noResult (encodeBits k.toNat x.toNat s))

/-- `ENC_DONE` (R160). -/
def execEncDone (s : State) : Out :=
  guarded s [.enc] <|
    finish (encode .encDone).cmd ((shiftOuts Config.flushBytes s).bind fun _ s' => .done 0 (s'.setMode .idle))

end Sys2Proof.Machine
end

