-- ==== Sys2Proof/Machine/Decoder.lean ====
section
/-! DEFINITION. The arithmetic decoder (42_decoder.md): its procedures and `DEC_START`, `DEC_SYM`, `DEC_BIT`, `DEC_BITS`,
`DEC_DONE`. -/

namespace Sys2Proof.Machine

open Sys2Proof

/-- `VALUE <- ((VALUE << 8) | GetByte()) mod 2^32` (R180, R181). -/
def shiftIn (s : State) : Run Unit :=
  (getByte s).bind fun b s' => .done () (s'.setValue ((s'.value <<< 8) ||| b.setWidth 32))

/-- `repeat n times` of R180's fill of `VALUE`. -/
def shiftIns : Nat → State → Run Unit
  | 0, s => .done () s
  | n + 1, s => (shiftIn s).bind fun _ s' => shiftIns n s'

/-- The loop of R181, at most `fuel` iterations. -/
def renormDecLoop : Nat → State → Run Unit
  | 0, s => if s.len.toNat < Config.top then .stopped .endlessRenorm else .done () s
  | fuel + 1, s =>
    if s.len.toNat < Config.top then
      (shiftIn s).bind fun _ s' => renormDecLoop fuel (s'.setLen (s'.len <<< 8))
    else .done () s

/-- `RenormDec()` (R181). Three iterations are enough unless `LEN` is 0, and then the loop never ends (log 14). -/
def renormDec (s : State) : Run Unit := renormDecLoop 3 s

/-- The clamped position `t` of R182. -/
def symPosition (s : State) (m : Nat) : Nat :=
  min (s.value.toNat / (s.len.toNat / (s.smAt m).total)) ((s.smAt m).total - 1)

/-- `DecodeSymbol(m)` (R182). -/
def decodeSymbol (m : Nat) (s : State) : Run Nat :=
  if (s.smAt m).total = 0 ∨ s.len.toNat / (s.smAt m).total = 0 then .stopped .divisionByZero
  else
    let sym := (s.smAt m).findSym (symPosition s m)
    (renormDec (s.setWindow
        (s.value.toNat - (s.len.toNat / (s.smAt m).total * (s.smAt m).cum sym : Nat))
        ((s.len.toNat / (s.smAt m).total * (s.smAt m).count sym : Nat) : Int))).bind fun _ s' =>
      .done sym (symUpdate m sym s')

/-- `DecodeBit(b)` (R184). -/
def decodeBit (b : Nat) (s : State) : Run Nat :=
  if (s.value.toNat : Int) < bitSplit s b then
    (renormDec (s.setWindow s.value.toNat (bitSplit s b))).bind fun _ s' => .done 0 (bitUpdate b false s')
  else
    (renormDec (s.setWindow (s.value.toNat - bitSplit s b) (s.len.toNat - bitSplit s b))).bind fun _ s' =>
      .done 1 (bitUpdate b true s')

/-- The clamped value `x` of R186. -/
def rawPosition (s : State) (k : Nat) : Nat := min (s.value.toNat / (s.len.toNat / 2 ^ k)) (2 ^ k - 1)

/-- `DecodeUniform(k)` (R186). -/
def decodeUniform (k : Nat) (s : State) : Run Nat :=
  if s.len.toNat / 2 ^ k = 0 then .stopped .divisionByZero
  else
    let x := rawPosition s k
    (renormDec (s.setWindow (s.value.toNat - (s.len.toNat / 2 ^ k * x : Nat)) ((s.len.toNat / 2 ^ k : Nat) : Int))).bind fun _ s' =>
      .done x s'

/-- `DecodeBits(k)` (R187): the low 16 bits come first when `k > 19`. -/
def decodeBits (k : Nat) (s : State) : Run Nat :=
  if k > Config.rawDirect then
    (decodeUniform Config.rawSplit s).bind fun lo s1 =>
      (decodeUniform (k - Config.rawSplit) s1).bind fun hi s2 =>
        .done (hi * 2 ^ Config.rawSplit + lo) s2
  else decodeUniform k s

/-- A decoded number as the result word. -/
def wordResult (r : Run Nat) : Run Word := r.bind fun v s => .done (BitVec.ofNat 32 v) s

/-- `DEC_START` (R180). -/
def execDecStart (s : State) : Out :=
  guarded s [.idle] <|
    finish (encode .decStart).cmd
      ((getByte (s.setCoder 0 (BitVec.ofNat 32 Config.fullLen) s.cache 0 s.value)).bind fun b s1 =>
        (shiftIns 4 (s1.setCoder 0 (BitVec.ofNat 32 Config.fullLen) b 0 0)).bind fun _ s2 => .done 0 (s2.setMode .dec))

/-- `DEC_SYM m` (R183). -/
def execDecSym (m : Index) (s : State) : Out :=
  guarded s [.dec] <|
    if m.toNat ≥ s.par.nsm then refuse s .eOperand
    else if (s.smAt m.toNat).valid = false then refuse s .eUninit
    else finish (encode (.decSym m)).cmd (wordResult (decodeSymbol m.toNat s))

/-- `DEC_BIT b` (R185). -/
def execDecBit (b : Index) (s : State) : Out :=
  guarded s [.dec] <|
    if b.toNat ≥ s.par.nbm then refuse s .eOperand
    else if (s.bmAt b.toNat).valid = false then refuse s .eUninit
    else finish (encode (.decBit b)).cmd (wordResult (decodeBit b.toNat s))

/-- `DEC_BITS k` (R188). -/
def execDecBits (k : Byte) (s : State) : Out :=
  guarded s [.dec] <|
    if k.toNat < 1 ∨ k.toNat > 32 then refuse s .eOperand
    else finish (encode (.decBits k)).cmd (wordResult (decodeBits k.toNat s))

/-- `DEC_DONE` (R189): no byte is consumed, nothing is checked. -/
def execDecDone (s : State) : Out := guarded s [.dec] <| answer (s.setMode .idle) 0

end Sys2Proof.Machine
end

