-- ==== Sys2Proof/Machine/IntComp.lean ====
section
/-! DEFINITION. The integer compressor (43_intcomp.md): `IC_CONFIG`, `IC_SETUP`, `IC_INIT`, `IC_COMPRESS`,
`IC_DECOMPRESS`, `IC_GETK` and the procedures that read or write the state. -/

namespace Sys2Proof.Machine

open Sys2Proof

/-- An instance as `IC_CONFIG` leaves it (R210). -/
def IcInst.configured (bits range : Word) : IcInst :=
  { IcInst.reset with st := .conf, bits := bits.setWidth 6, range := range }

/-- `IC_CONFIG i, B, range` (R210). -/
def execIcConfig (i : Byte) (b range : Word) (s : State) : Out :=
  guarded s anySession <|
    if i.toNat ≥ s.par.nic then refuse s .eOperand
    else if b.toNat < 1 ∨ b.toNat > 32 then refuse s .eOperand
    else if range.toNat = 1 ∨ range.toNat > 2 ^ 31 then refuse s .eOperand
    else answer (s.setIc i.toNat (IcInst.configured b range)) 0

/-- The corrector parameters an instance's `BITS` and `RANGE` give (R211). -/
def IcInst.corrector (inst : IcInst) : Corrector := deriveCorrector inst.bits.toNat inst.range.toNat

/-- An instance as a successful `IC_SETUP` leaves it; `RANGE` is consumed (R211, R221). -/
def IcInst.withSetup (inst : IcInst) (c : Index) (bh : Byte) (smbase bmslot : Index) : IcInst :=
  { st := .setup, bits := inst.bits, range := 0, ctx := c, bh := bh,
    cbits := BitVec.ofNat 6 inst.corrector.cbits, crange := BitVec.ofNat 32 inst.corrector.crange,
    cmin := BitVec.ofInt 32 inst.corrector.cmin, cmax := BitVec.ofInt 32 inst.corrector.cmax,
    smbase := smbase, bmslot := bmslot, k := 0 }

/-- `IC_SETUP i, C, BH, SMBASE, BMSLOT` (R211). -/
def execIcSetup (i : Byte) (c : Index) (bh zero : Byte) (smbase bmslot : Index) (s : State) : Out :=
  guarded s anySession <|
    if i.toNat ≥ s.par.nic then refuse s .eOperand
    else if (s.icAt i.toNat).st = .unconf then refuse s .eUninit
    else if zero.toNat ≠ 0 ∨ c.toNat < 1 ∨ bh.toNat > s.par.bhMax then refuse s .eOperand
    else if smbase.toNat + c.toNat + min (s.icAt i.toNat).corrector.cbits bh.toNat > s.par.nsm then refuse s .eOperand
    else if bh.toNat ≥ 1 ∧ bmslot.toNat ≥ s.par.nbm then refuse s .eOperand
    else answer (s.setIc i.toNat ((s.icAt i.toNat).withSetup c bh smbase bmslot)) 0

/-- `IcModelsOk(i)` (R212). -/
def icModelsOk (s : State) (inst : IcInst) : Bool :=
  ((List.range inst.ctx.toNat).all fun c =>
      (s.smAt (inst.magSlot c)).valid && decide ((s.smAt (inst.magSlot c)).n = inst.cbits.toNat + 1)) &&
  ((List.range inst.nv).all fun k =>
      (s.smAt (inst.valSlot (k + 1))).valid && decide ((s.smAt (inst.valSlot (k + 1))).n = 2 ^ (k + 1))) &&
  (decide (inst.bh.toNat = 0) || (s.bmAt inst.bmslot.toNat).valid)

/-- The magnitude models of R213, contexts 0 to `n - 1`. -/
def initMagModels (inst : IcInst) : Nat → State → State
  | 0, s => s
  | n + 1, s => (initMagModels inst n s).setSm (inst.magSlot n) (SmSlot.fresh (inst.cbits.toNat + 1))

/-- The value models of R213, magnitudes 1 to `n`. -/
def initValModels (inst : IcInst) : Nat → State → State
  | 0, s => s
  | n + 1, s => (initValModels inst n s).setSm (inst.valSlot (n + 1)) (SmSlot.fresh (2 ^ (n + 1)))

/-- The bit model of R213, present when `BH >= 1`. -/
def initBitModel (inst : IcInst) (s : State) : State :=
  if inst.bh.toNat ≥ 1 then s.setBm inst.bmslot.toNat BmSlot.fresh else s

/-- `IC_INIT i` (R213). -/
def execIcInit (i : Byte) (s : State) : Out :=
  guarded s anySession <|
    if i.toNat ≥ s.par.nic then refuse s .eOperand
    else if (s.icAt i.toNat).st = .unconf ∨ (s.icAt i.toNat).st = .conf then refuse s .eUninit
    else
      answer ((initBitModel (s.icAt i.toNat) (initValModels (s.icAt i.toNat) (s.icAt i.toNat).nv
          (initMagModels (s.icAt i.toNat) (s.icAt i.toNat).ctx.toNat s))).setIc i.toNat
        { s.icAt i.toNat with k := 0, st := .ready }) 0

/-- Step 5 of R216: the corrector's position inside its k-interval. -/
def encodeCorrector (inst : IcInst) (corr : Int) (k : Nat) (s : State) : Run Unit :=
  if k = 0 then
    if inst.bh.toNat ≥ 1 then encodeBit inst.bmslot.toNat (decide (corr = 1)) s
    else encodeUniform 1 corr.toNat s
  else if k ≤ inst.bh.toNat then encodeSymbol (inst.valSlot k) (translate corr k) s
  else if inst.bh.toNat ≥ 1 then
    (encodeSymbol (inst.valSlot inst.bh.toNat) (translate corr k / 2 ^ (k - inst.bh.toNat)) s).bind fun _ s' =>
      encodeBits (k - inst.bh.toNat) (translate corr k % 2 ^ (k - inst.bh.toNat)) s'
  else encodeBits k (translate corr k) s

/-- Steps 4 to 6 of R216. -/
def compressCorrector (i : Nat) (inst : IcInst) (c : Nat) (corr : Int) (s : State) : Run Word :=
  (encodeSymbol (inst.magSlot c) (magnitude corr) s).bind fun _ s1 =>
    (encodeCorrector inst corr (magnitude corr) s1).bind fun _ s2 =>
      .done 0 (s2.setIc i { inst with k := BitVec.ofNat 6 (magnitude corr) })

/-- `IC_COMPRESS i, c, p, v` (R216). -/
def execIcCompress (i : Byte) (c : Index) (p v : Word) (s : State) : Out :=
  guarded s [.enc] <|
    if i.toNat ≥ s.par.nic then refuse s .eOperand
    else if (s.icAt i.toNat).st ≠ .ready then refuse s .eUninit
    else if c.toNat ≥ (s.icAt i.toNat).ctx.toNat then refuse s .eOperand
    else if icModelsOk s (s.icAt i.toNat) = false then refuse s .eUninit
    else if magnitude (foldCorr (s.icAt i.toNat) p v) > (s.icAt i.toNat).cbits.toNat then refuse s .eOperand
    else finish (encode (.icCompress i c p v)).cmd
      (compressCorrector i.toNat (s.icAt i.toNat) c.toNat (foldCorr (s.icAt i.toNat) p v) s)

/-- The position of R217 for `k >= 1`, undoing step 5 of R216. -/
def decodePosition (inst : IcInst) (k : Nat) (s : State) : Run Nat :=
  if k ≤ inst.bh.toNat then decodeSymbol (inst.valSlot k) s
  else if inst.bh.toNat ≥ 1 then
    (decodeSymbol (inst.valSlot inst.bh.toNat) s).bind fun hi s1 =>
      (decodeBits (k - inst.bh.toNat) s1).bind fun lo s2 => .done (hi * 2 ^ (k - inst.bh.toNat) + lo) s2
  else decodeBits k s

/-- The corrector of R217, for a decoded magnitude. -/
def decodeCorrector (inst : IcInst) (k : Nat) (s : State) : Run Int :=
  if k = 0 then
    if inst.bh.toNat ≥ 1 then (decodeBit inst.bmslot.toNat s).bind fun b s' => .done (b : Int) s'
    else (decodeUniform 1 s).bind fun b s' => .done (b : Int) s'
  else (decodePosition inst k s).bind fun t s' => .done (untranslate t k) s'

/-- The body of R217 after its checks. -/
def decompressValue (i : Nat) (inst : IcInst) (c : Nat) (p : Word) (s : State) : Run Word :=
  (decodeSymbol (inst.magSlot c) s).bind fun k s1 =>
    (decodeCorrector inst k s1).bind fun corr s2 =>
      .done (unfoldValue inst p corr) (s2.setIc i { inst with k := BitVec.ofNat 6 k })

/-- `IC_DECOMPRESS i, c, p` (R217). -/
def execIcDecompress (i : Byte) (c : Index) (p : Word) (s : State) : Out :=
  guarded s [.dec] <|
    if i.toNat ≥ s.par.nic then refuse s .eOperand
    else if (s.icAt i.toNat).st ≠ .ready then refuse s .eUninit
    else if c.toNat ≥ (s.icAt i.toNat).ctx.toNat then refuse s .eOperand
    else if icModelsOk s (s.icAt i.toNat) = false then refuse s .eUninit
    else finish (encode (.icDecompress i c p)).cmd (decompressValue i.toNat (s.icAt i.toNat) c.toNat p s)

/-- `IC_GETK i` (R218). -/
def execIcGetk (i : Byte) (s : State) : Out :=
  guarded s anySession <|
    if i.toNat ≥ s.par.nic then refuse s .eOperand
    else if (s.icAt i.toNat).st = .unconf then refuse s .eUninit
    else answer s ((s.icAt i.toNat).k.setWidth 32)

end Sys2Proof.Machine
end

