-- ==== Sys2Proof/Machine/Models.lean ====
section
/-! DEFINITION. The commands that set up and observe the model files (40_models.md): `SM_INIT`, `BM_INIT`, `SM_RD`,
`BM_RD`. -/

namespace Sys2Proof.Machine

open Sys2Proof

/-- `SM_INIT m, N` (R120). -/
def execSmInit (m : Index) (n : Word) (s : State) : Out :=
  guarded s anySession <|
    if m.toNat ≥ s.par.nsm then refuse s .eOperand
    else if n.toNat < 1 ∨ n.toNat > s.par.nMax then refuse s .eOperand
    else answer (s.setSm m.toNat (SmSlot.fresh n.toNat)) 0

/-- `BM_INIT b` (R121). -/
def execBmInit (b : Index) (s : State) : Out :=
  guarded s anySession <|
    if b.toNat ≥ s.par.nbm then refuse s .eOperand
    else answer (s.setBm b.toNat BmSlot.fresh) 0

/-- `SM_RD sel, m, j` (R122). -/
def execSmRd (sel : Byte) (m : Index) (j : Word) (s : State) : Out :=
  guarded s anySession <|
    if m.toNat ≥ s.par.nsm ∨ sel.toNat > 2 then refuse s .eOperand
    else if (s.smAt m.toNat).valid = false then refuse s .eUninit
    else if sel.toNat = 0 then
      if j.toNat ≥ (s.smAt m.toNat).n then refuse s .eOperand
      else answer s (BitVec.ofNat 32 ((s.smAt m.toNat).count j.toNat))
    else if sel.toNat = 1 then
      if j.toNat > (s.smAt m.toNat).n then refuse s .eOperand
      else answer s (BitVec.ofNat 32 ((s.smAt m.toNat).cum j.toNat))
    else answer s (BitVec.ofNat 32 (s.smAt m.toNat).n)

/-- `BM_RD b` (R123). -/
def execBmRd (b : Index) (s : State) : Out :=
  guarded s anySession <|
    if b.toNat ≥ s.par.nbm then refuse s .eOperand
    else if (s.bmAt b.toNat).valid = false then refuse s .eUninit
    else answer s ((s.bmAt b.toNat).bs.signExtend 32)

end Sys2Proof.Machine
end

