-- ==== Sys2Proof/Machine/System.lean ====
section
/-! DEFINITION. The system commands (44_system.md): `SRST`, `RDCSR`. -/

namespace Sys2Proof.Machine

open Sys2Proof

/-- `SRST` (R250): the reset state, in every mode; no byte is transferred. -/
def execSrst (s : State) : Out := answer (resetBlock s) 0

/-- `RDCSR csr` (R251): in `FAULT` mode only `STATUS`, `CAUSE`, `FINFO`; no side effect. -/
def execRdcsr (csr : Index) (s : State) : Out :=
  if s.mode = .fault ∧ csr.toNat > 2 then refuse s .eFaulted
  else
    match s.csr csr.toNat with
    | none => refuse s .eOperand
    | some v => answer s v

end Sys2Proof.Machine
end

