-- ==== Sys2Proof/Machine/Dispatch.lean ====
section
/-! DEFINITION. One arm per command of 30_encoding.md R95. -/

namespace Sys2Proof.Machine

open Sys2Proof

def exec (i : Instr) (s : State) : Host.Outcome State Fault Refusal :=
  match i with
  | .srst => Sys2Proof.Machine.execSrst s
  | .rdcsr csr => Sys2Proof.Machine.execRdcsr csr s
  | .smInit m n => Sys2Proof.Machine.execSmInit m n s
  | .bmInit b => Sys2Proof.Machine.execBmInit b s
  | .smRd sel m j => Sys2Proof.Machine.execSmRd sel m j s
  | .bmRd b => Sys2Proof.Machine.execBmRd b s
  | .encStart => Sys2Proof.Machine.execEncStart s
  | .encSym m sym => Sys2Proof.Machine.execEncSym m sym s
  | .encBit b bit => Sys2Proof.Machine.execEncBit b bit s
  | .encBits k x => Sys2Proof.Machine.execEncBits k x s
  | .encDone => Sys2Proof.Machine.execEncDone s
  | .decStart => Sys2Proof.Machine.execDecStart s
  | .decSym m => Sys2Proof.Machine.execDecSym m s
  | .decBit b => Sys2Proof.Machine.execDecBit b s
  | .decBits k => Sys2Proof.Machine.execDecBits k s
  | .decDone => Sys2Proof.Machine.execDecDone s
  | .icConfig k b range => Sys2Proof.Machine.execIcConfig k b range s
  | .icSetup k c bh zero smbase bmslot => Sys2Proof.Machine.execIcSetup k c bh zero smbase bmslot s
  | .icInit k => Sys2Proof.Machine.execIcInit k s
  | .icCompress k c p v => Sys2Proof.Machine.execIcCompress k c p v s
  | .icDecompress k c p => Sys2Proof.Machine.execIcDecompress k c p s
  | .icGetk k => Sys2Proof.Machine.execIcGetk k s

end Sys2Proof.Machine
end

