-- ==== Sys2Proof/Machine/Step.lean ====
section
/-! DEFINITION. One step: the next event of the host (00_scope.md R9, 30_encoding.md R101, log 2). -/

namespace Sys2Proof.Machine

open Sys2Proof

/-- One step. With no event the block waits and nothing changes (60_exceptions.md R278, 70_reset_and_hazards.md R305). -/
def step (s : State) : Host.Outcome State Fault Refusal :=
  match s.inbox with
  | [] => .next s
  | .hardReset :: rest => .next (resetBlock (s.setInbox rest))
  | .command p :: rest =>
    match decode p with
    | .ok i => exec i (s.setInbox rest)
    | .error _ => refuseUndecoded (s.setInbox rest)

/-- `s` with the packet of these bits as the host's next command (log 2, log 18). -/
def State.withFetchWord (s : State) (nbits w : Nat) : State :=
  s.setInbox (.command (packetOfBits (w % 2 ^ nbits)) :: s.inbox)

end Sys2Proof.Machine
end

