-- ==== Sys2Proof/Safety.lean ====
section
/-! DEFINITION. The terms in which claims about the block are stated: the invariant of every run, the reset state, what the
byte stream lets happen, the number an encoding session has produced, and the coder after one narrowing. -/

namespace Sys2Proof.Machine

open Sys2Proof

/-! ### The invariant -/

/-- R34, with the width of `CNT` implied: a valid symbol-model slot at a command boundary. -/
def SmSlot.Ok (p : Params) (sl : SmSlot) : Prop :=
  sl.valid = true →
    1 ≤ sl.n ∧ sl.n ≤ p.nMax ∧ sl.cnt.length = sl.n ∧ (∀ c ∈ sl.cnt, 1 ≤ c.toNat) ∧ sl.total ≤ p.symLimit

/-- R36: a valid bit-model slot at a command boundary. -/
def BmSlot.Ok (p : Params) (sl : BmSlot) : Prop :=
  sl.valid = true →
    -(4096 - 2 ^ p.bmShift + 1 : Int) ≤ sl.bs.toInt ∧ sl.bs.toInt ≤ 4096 - 2 ^ p.bmShift + 1

/-- The configured parameters of an instance (R210): `BITS` in 1..32, `RANGE` 0 or 2..2^31. -/
def IcInst.ConfigOk (inst : IcInst) : Prop :=
  1 ≤ inst.bits.toNat ∧ inst.bits.toNat ≤ 32 ∧ inst.range.toNat ≠ 1 ∧ inst.range.toNat ≤ 2 ^ 31

/-- The derived corrector parameters of an instance (R37, R211). -/
def IcInst.CorrectorOk (inst : IcInst) : Prop :=
  1 ≤ inst.cbits.toNat ∧ inst.cbits.toNat ≤ 32 ∧
  (inst.crange.toNat = 0 → inst.cbits.toNat = 32 ∧ inst.cmin.toInt = -2 ^ 31 ∧ inst.cmax.toInt = 2 ^ 31 - 1) ∧
  (inst.crange.toNat ≠ 0 → 2 ≤ inst.crange.toNat ∧ inst.crange.toNat ≤ 2 ^ 31 ∧
    inst.cmin.toInt = -((inst.crange.toNat / 2 : Nat) : Int) ∧
    inst.cmax.toInt = inst.cmin.toInt + inst.crange.toNat - 1 ∧ inst.cbits.toNat = rangeBits inst.crange.toNat)

/-- The slot assignment of an instance (R39, R211). -/
def IcInst.SlotsOk (p : Params) (inst : IcInst) : Prop :=
  1 ≤ inst.ctx.toNat ∧ inst.bh.toNat ≤ p.bhMax ∧ inst.smbase.toNat + inst.ctx.toNat + inst.nv ≤ p.nsm ∧
  (1 ≤ inst.bh.toNat → inst.bmslot.toNat < p.nbm)

/-- An instance in each state of its life cycle (R37, R38, R221). -/
def IcInst.Ok (p : Params) (inst : IcInst) : Prop :=
  match inst.st with
  | .unconf => inst = IcInst.reset
  | .conf => inst.ConfigOk ∧ inst = IcInst.configured (inst.bits.setWidth 32) inst.range
  | .setup => inst.ConfigOk ∧ inst.range = 0 ∧ inst.CorrectorOk ∧ inst.SlotsOk p ∧ inst.k = 0
  | .ready => inst.ConfigOk ∧ inst.range = 0 ∧ inst.CorrectorOk ∧ inst.SlotsOk p ∧ inst.k.toNat ≤ inst.cbits.toNat

/-- The register files have the sizes of R5 and `PEND` fits its width (R20, R29). -/
def State.Shaped (s : State) : Prop :=
  s.sm.length = s.par.nsm ∧ s.bm.length = s.par.nbm ∧ s.ic.length = s.par.nic ∧ s.pend < 2 ^ s.par.pendBits

/-- Every slot and every instance is as R34, R36 and R37 say. -/
def State.FilesOk (s : State) : Prop :=
  (∀ sl ∈ s.sm, sl.Ok s.par) ∧ (∀ sl ∈ s.bm, sl.Ok s.par) ∧ (∀ inst ∈ s.ic, inst.Ok s.par)

/-- The coder in `ENC` mode (R26, R27, R30, R161 f and g). -/
def State.EncOk (s : State) : Prop :=
  Config.top ≤ s.len.toNat ∧ s.low.toNat + s.len.toNat < 2 ^ 33 ∧
  (s.cache = 0xFF → s.low.toNat + s.len.toNat ≤ 2 ^ 32) ∧ s.value = 0

/-- The coder in `DEC` mode (R26, R27, R29). -/
def State.DecOk (s : State) : Prop := Config.top ≤ s.len.toNat ∧ s.low = 0 ∧ s.pend = 0

/-- `CAUSE` and `FINFO` (R24, R25, R261). -/
def State.RecordOk (s : State) : Prop :=
  (s.mode ≠ .fault → s.cause = 0 ∧ s.finfo = 0) ∧ (s.mode = .fault → s.cause = 5 ∨ s.cause = 7)

/-- What holds at every command boundary of every run. In `FAULT` mode the registers and files are unspecified (R270). -/
def State.Inv (s : State) : Prop :=
  s.par.Ok ∧ s.Shaped ∧ s.RecordOk ∧ (s.mode ≠ .fault → s.FilesOk) ∧ (s.mode = .enc → s.EncOk) ∧
  (s.mode = .dec → s.DecOk)

/-- The reset state of R290, as far as the spec states it. -/
def State.IsReset (s : State) : Prop :=
  s.mode = .idle ∧ s.cause = 0 ∧ s.finfo = 0 ∧ s.low = 0 ∧ s.carry = false ∧ s.len = 0 ∧ s.cache = 0 ∧ s.pend = 0 ∧
  s.value = 0 ∧ s.sm.length = s.par.nsm ∧ s.bm.length = s.par.nbm ∧ s.ic.length = s.par.nic ∧
  (∀ sl ∈ s.sm, sl.valid = false) ∧ (∀ sl ∈ s.bm, sl.valid = false) ∧ (∀ inst ∈ s.ic, inst = IcInst.reset) ∧
  s.faultO = false

/-- The host and the byte stream as they were: nothing of them moved between `s` and `t`. -/
def State.SameOutside (s t : State) : Prop :=
  t.par = s.par ∧ t.inbox = s.inbox ∧ t.out = s.out ∧ t.sink = s.sink ∧ t.source = s.source ∧ t.taken = s.taken

/-! ### The byte stream -/

/-- The next `n` bytes offered to `OUT` are accepted. -/
def State.SinkAccepts (s : State) (n : Nat) : Prop := ∀ a ∈ s.sink.take n, a = .accepted

/-- The hard reset is not asserted during a blocked transfer. -/
def State.Undisturbed (s : State) : Prop :=
  PutAnswer.resetDuring ∉ s.sink ∧ GetAnswer.resetDuring ∉ s.source

/-- The byte stream answers every transfer. -/
def State.Answering (s : State) : Prop := PutAnswer.silent ∉ s.sink ∧ GetAnswer.silent ∉ s.source

/-! ### The number a session has produced -/

/-- A byte sequence as a number, the first byte the most significant (R65). -/
def bytesValue (bs : List Byte) : Nat := bs.foldl (fun acc b => acc * 256 + b.toNat) 0

/-- The bytes of `OUT` and the held bytes behind them (`CACHE`, then `PEND` bytes 0xFF) as one number (R42). -/
def State.heldValue (s : State) : Nat :=
  (bytesValue s.out * 256 + s.cache.toNat) * 256 ^ s.pend + (256 ^ s.pend - 1)

/-- The low end of the encoder's interval, as a number with 32 bits behind the held bytes (R26, R65). -/
def State.codeNumber (s : State) : Nat := s.heldValue * 2 ^ 32 + s.low.toNat

/-! ### One narrowing of the interval -/

/-- How many renormalisation steps a length needs: the least `n` with `len * 256^n >= TOP`, for `len >= 1` (R152, R181). -/
def renormSteps (len : Nat) : Nat :=
  if 2 ^ 24 ≤ len then 0 else if 2 ^ 16 ≤ len then 1 else if 2 ^ 8 ≤ len then 2 else 3

/-- `t` is `s` after the encoder narrowed its interval to `[low, low + len)` and renormalised: as many shift-outs as the
length needs, `LEN` multiplied by 256 for each; the code number is that of the narrowed interval, shifted; every step
adds one byte to the stream or to the held bytes; nothing else changes (R42, R78, R151, R152). -/
def Narrowed (s t : State) (low len : Nat) : Prop :=
  (∃ u, shiftOuts (renormSteps len) (s.setInterval low len) = .done () u ∧
    t = u.setLen (BitVec.ofNat 32 (len * 256 ^ renormSteps len))) ∧
  t.len.toNat = len * 256 ^ renormSteps len ∧ Config.top ≤ t.len.toNat ∧
  t.codeNumber = (s.heldValue * 2 ^ 32 + low) * 256 ^ renormSteps len ∧
  (∃ bs, t.out = s.out ++ bs ∧ t.sink = s.sink.drop bs.length ∧ bs.length + t.pend = s.pend + renormSteps len) ∧
  t = { s with low := t.low, len := t.len, cache := t.cache, pend := t.pend, out := t.out, sink := t.sink }

/-- `s` after the decoder moved its window to `value`, narrowed its length to `len` and took the bytes `bs`, one per
renormalisation step, most significant first (R66, R181); `rest` is what is left of the source. -/
def State.windowed (s : State) (value len : Nat) (bs : List Byte) (rest : List GetAnswer) : State :=
  { s with
    value := BitVec.ofNat 32 (value * 256 ^ bs.length + bytesValue bs), len := BitVec.ofNat 32 (len * 256 ^ bs.length),
    source := rest, taken := s.taken + bs.length }

/-! ### What one coding procedure does, in the terms above -/

/-- `t` is `s` after symbol `sym` was coded with model `m` (R153). -/
def CodesSymbol (s t : State) (m sym : Nat) : Prop :=
  ∃ u, Narrowed s u (s.low.toNat + s.len.toNat / (s.smAt m).total * (s.smAt m).cum sym)
      (s.len.toNat / (s.smAt m).total * (s.smAt m).count sym) ∧
    t = symUpdate m sym u

/-- The size of the sub-interval of bit 0, `(LEN >> 13) * P0` (R155, R184). -/
def zeroPart (s : State) (b : Nat) : Nat := s.len.toNat / 2 ^ 13 * (4096 + (s.bmAt b).bs.toInt).toNat

/-- `t` is `s` after `bit` was coded with bit model `b` (R155). -/
def CodesBit (s t : State) (b : Nat) (bit : Bool) : Prop :=
  ∃ u, Narrowed s u (if bit then s.low.toNat + zeroPart s b else s.low.toNat)
      (if bit then s.len.toNat - zeroPart s b else zeroPart s b) ∧
    t = bitUpdate b bit u

/-- `t` is `s` after `x` was coded as one of `2^k` equal outcomes (R157). -/
def CodesUniform (s t : State) (k x : Nat) : Prop :=
  Narrowed s t (s.low.toNat + s.len.toNat / 2 ^ k * x) (s.len.toNat / 2 ^ k)

/-- `t` is `s` after the `k` raw bits `x` were coded (R158). -/
def CodesBits (s t : State) (k x : Nat) : Prop :=
  if k ≤ 19 then CodesUniform s t k x
  else ∃ u, CodesUniform s u 16 (x % 2 ^ 16) ∧ CodesUniform u t (k - 16) (x / 2 ^ 16)

/-- `t` is `s` after symbol `sym` was decoded with model `m`: `sym` is the one whose counts hold the clamped position, and
one byte of the source is taken for each renormalisation step (R181, R182). -/
def TakesSymbol (s t : State) (m sym : Nat) : Prop :=
  ∃ (bs : List Byte) (rest : List GetAnswer), s.source = bs.map GetAnswer.byte ++ rest ∧
    bs.length = renormSteps (s.len.toNat / (s.smAt m).total * (s.smAt m).count sym) ∧ sym < (s.smAt m).n ∧
    (s.smAt m).cum sym ≤ min (s.value.toNat / (s.len.toNat / (s.smAt m).total)) ((s.smAt m).total - 1) ∧
    min (s.value.toNat / (s.len.toNat / (s.smAt m).total)) ((s.smAt m).total - 1) < (s.smAt m).cum (sym + 1) ∧
    t = symUpdate m sym (s.windowed (s.value.toNat - s.len.toNat / (s.smAt m).total * (s.smAt m).cum sym)
      (s.len.toNat / (s.smAt m).total * (s.smAt m).count sym) bs rest)

/-- `t` is `s` after `bit` was decoded with bit model `b` (R184). -/
def TakesBit (s t : State) (b : Nat) (bit : Bool) : Prop :=
  bit = decide (zeroPart s b ≤ s.value.toNat) ∧
  ∃ (bs : List Byte) (rest : List GetAnswer), s.source = bs.map GetAnswer.byte ++ rest ∧
    bs.length = renormSteps (if bit then s.len.toNat - zeroPart s b else zeroPart s b) ∧
    t = bitUpdate b bit (s.windowed (if bit then s.value.toNat - zeroPart s b else s.value.toNat)
      (if bit then s.len.toNat - zeroPart s b else zeroPart s b) bs rest)

/-- `t` is `s` after `x` was decoded as one of `2^k` equal outcomes (R186). -/
def TakesUniform (s t : State) (k x : Nat) : Prop :=
  x = min (s.value.toNat / (s.len.toNat / 2 ^ k)) (2 ^ k - 1) ∧
  ∃ (bs : List Byte) (rest : List GetAnswer), s.source = bs.map GetAnswer.byte ++ rest ∧ bs.length = renormSteps (s.len.toNat / 2 ^ k) ∧
    t = s.windowed (s.value.toNat - s.len.toNat / 2 ^ k * x) (s.len.toNat / 2 ^ k) bs rest

/-- `t` is `s` after the `k` raw bits `x` were decoded, the low 16 bits first when `k > 19` (R187). -/
def TakesBits (s t : State) (k x : Nat) : Prop :=
  if k ≤ 19 then TakesUniform s t k x
  else ∃ u lo hi, TakesUniform s u 16 lo ∧ TakesUniform u t (k - 16) hi ∧ x = hi * 2 ^ 16 + lo

/-- `t` is `s` after the corrector `corr` of magnitude `k` was coded by the models of `inst`, step 5 of R216. -/
def CodesCorrector (s t : State) (inst : IcInst) (corr : Int) (k : Nat) : Prop :=
  if k = 0 then
    if 1 ≤ inst.bh.toNat then CodesBit s t inst.bmslot.toNat (decide (corr = 1)) else CodesUniform s t 1 corr.toNat
  else if k ≤ inst.bh.toNat then CodesSymbol s t (inst.valSlot k) (translate corr k)
  else if 1 ≤ inst.bh.toNat then
    ∃ u, CodesSymbol s u (inst.valSlot inst.bh.toNat) (translate corr k / 2 ^ (k - inst.bh.toNat)) ∧
      CodesBits u t (k - inst.bh.toNat) (translate corr k % 2 ^ (k - inst.bh.toNat))
  else CodesBits s t k (translate corr k)

/-- `t` is `s` after the position `pos` inside the interval of magnitude `k >= 1` was decoded (R217). -/
def TakesPosition (s t : State) (inst : IcInst) (k pos : Nat) : Prop :=
  if k ≤ inst.bh.toNat then TakesSymbol s t (inst.valSlot k) pos
  else if 1 ≤ inst.bh.toNat then
    ∃ u hi lo, TakesSymbol s u (inst.valSlot inst.bh.toNat) hi ∧ TakesBits u t (k - inst.bh.toNat) lo ∧
      pos = hi * 2 ^ (k - inst.bh.toNat) + lo
  else TakesBits s t k pos

/-- `t` is `s` after a corrector `corr` of magnitude `k` was decoded by the models of `inst` (R217). -/
def TakesCorrector (s t : State) (inst : IcInst) (k : Nat) (corr : Int) : Prop :=
  if k = 0 then
    if 1 ≤ inst.bh.toNat then ∃ bit : Bool, corr = bit.toNat ∧ TakesBit s t inst.bmslot.toNat bit
    else ∃ x : Nat, corr = x ∧ TakesUniform s t 1 x
  else ∃ pos : Nat, corr = untranslate pos k ∧ TakesPosition s t inst k pos

/-- The source begins with at least `n` bytes. -/
def State.SourceHolds (s : State) (n : Nat) : Prop :=
  ∃ (bs : List Byte) (rest : List GetAnswer), s.source = bs.map GetAnswer.byte ++ rest ∧ n ≤ bs.length

/-! ### Control and status registers -/

/-- The registers of one instance at their numbers (R41). -/
def icCsrs (i : Nat) (inst : IcInst) : List (Nat × Word) :=
  [(0x100 + 16 * i + 0, BitVec.ofNat 32 inst.st.code), (0x100 + 16 * i + 1, inst.bits.setWidth 32),
   (0x100 + 16 * i + 2, inst.range), (0x100 + 16 * i + 3, inst.ctx.setWidth 32),
   (0x100 + 16 * i + 4, inst.bh.setWidth 32), (0x100 + 16 * i + 5, inst.cbits.setWidth 32),
   (0x100 + 16 * i + 6, inst.crange), (0x100 + 16 * i + 7, inst.cmin), (0x100 + 16 * i + 8, inst.cmax),
   (0x100 + 16 * i + 9, inst.smbase.setWidth 32), (0x100 + 16 * i + 10, inst.bmslot.setWidth 32),
   (0x100 + 16 * i + 11, inst.k.setWidth 32)]

/-- Every register that has a number, with the bits `RDCSR` returns (R41, its table row by row). -/
def csrTable (s : State) : List (Nat × Word) :=
  [(0x000, BitVec.ofNat 32 s.mode.code), (0x001, s.cause.setWidth 32), (0x002, s.finfo),
   (0x010, s.low.extractLsb' 0 32), (0x011, (s.low.extractLsb' 32 1).setWidth 32), (0x012, s.len),
   (0x013, s.cache.setWidth 32), (0x014, BitVec.ofNat 32 s.pend), (0x015, s.value)] ++
  (List.range s.par.nic).flatMap fun i => icCsrs i (s.icAt i)

/-! ### Sequences of commands -/

/-- The modes in which R102 allows a command, `FAULT` mode apart. -/
def modesOf : Instr → List Mode
  | .srst => [.idle, .enc, .dec]
  | .rdcsr _ => [.idle, .enc, .dec]
  | .smInit _ _ => [.idle, .enc, .dec]
  | .bmInit _ => [.idle, .enc, .dec]
  | .smRd _ _ _ => [.idle, .enc, .dec]
  | .bmRd _ => [.idle, .enc, .dec]
  | .encStart => [.idle]
  | .encSym _ _ => [.enc]
  | .encBit _ _ => [.enc]
  | .encBits _ _ => [.enc]
  | .encDone => [.enc]
  | .decStart => [.idle]
  | .decSym _ => [.dec]
  | .decBit _ => [.dec]
  | .decBits _ => [.dec]
  | .decDone => [.dec]
  | .icConfig _ _ _ => [.idle, .enc, .dec]
  | .icSetup _ _ _ _ _ _ => [.idle, .enc, .dec]
  | .icInit _ => [.idle, .enc, .dec]
  | .icCompress _ _ _ _ => [.enc]
  | .icDecompress _ _ _ => [.dec]
  | .icGetk _ => [.idle, .enc, .dec]

/-- The command is answered with this refusal and nothing else happens (R260). -/
def Refuses (i : Instr) (s : State) (e : Status) : Prop := exec i s = .next (s.respond e 0)

/-- The command is answered `OK` with this word, and the state after it is `t`. -/
def Answers (i : Instr) (s : State) (v : Word) (t : State) : Prop :=
  exec i s = .next t ∧ t.responses = s.responses ++ [⟨.ok, v⟩]

/-- The command of a decoding session that mirrors a command of an encoding session, and the word it answers: a set-up
command mirrors itself, a coding command gives back the operand (R190). The other commands have no mirror. -/
def mirror : Instr → Option (Instr × Word)
  | .srst => none
  | .rdcsr _ => none
  | .smInit m n => some (.smInit m n, 0)
  | .bmInit b => some (.bmInit b, 0)
  | .smRd _ _ _ => none
  | .bmRd _ => none
  | .encStart => none
  | .encSym m sym => some (.decSym m, sym)
  | .encBit b bit => some (.decBit b, bit)
  | .encBits k x => some (.decBits k, x)
  | .encDone => none
  | .decStart => none
  | .decSym _ => none
  | .decBit _ => none
  | .decBits _ => none
  | .decDone => none
  | .icConfig i b range => some (.icConfig i b range, 0)
  | .icSetup i c bh zero smbase bmslot => some (.icSetup i c bh zero smbase bmslot, 0)
  | .icInit i => some (.icInit i, 0)
  | .icCompress i c p v => some (.icDecompress i c p, v)
  | .icDecompress _ _ _ => none
  | .icGetk _ => none

/-- The operands for which R219 promises that the value comes back: any when `CRANGE = 0`, else both below `CRANGE`. Every other
command gives back what it was given whatever it is. -/
def InDomain (s : State) : Instr → Prop
  | .icCompress i _ p v =>
    (s.icAt i.toNat).crange = 0 ∨
      (p.toNat < (s.icAt i.toNat).crange.toNat ∧ v.toNat < (s.icAt i.toNat).crange.toNat)
  | _ => True

/-- The commands that only read (R122, R123, R218, R251). -/
def isRead : Instr → Bool
  | .srst => false
  | .rdcsr _ => true
  | .smInit _ _ => false
  | .bmInit _ => false
  | .smRd _ _ _ => true
  | .bmRd _ => true
  | .encStart => false
  | .encSym _ _ => false
  | .encBit _ _ => false
  | .encBits _ _ => false
  | .encDone => false
  | .decStart => false
  | .decSym _ => false
  | .decBit _ => false
  | .decBits _ => false
  | .decDone => false
  | .icConfig _ _ _ => false
  | .icSetup _ _ _ _ _ _ => false
  | .icInit _ => false
  | .icCompress _ _ _ _ => false
  | .icDecompress _ _ _ => false
  | .icGetk _ => true

/-- Commands after each of which the encoding session is still open, whatever they answered, take `s` to `t`: coding, set-up
and read commands, and refused ones (R23). -/
def KeepsEncoding : List Instr → State → State → Prop
  | [], s, t => t = s
  | i :: more, s, t => ∃ u : State, exec i s = .next u ∧ u.mode = .enc ∧ KeepsEncoding more u t

/-- The model files and the parameters of two states are the same. -/
def State.SameModels (s t : State) : Prop := t.par = s.par ∧ t.sm = s.sm ∧ t.bm = s.bm ∧ t.ic = s.ic

/-- Decoder `d` follows encoder `e` in a code stream of which `fut` is still to be read: same interval length, and the code
value `x` is the encoder's low end plus the decoder's window, followed by the bytes to come (R30, R190). -/
def Tracks (e d : State) (fut : List Byte) (rest : List GetAnswer) (x : Nat) : Prop :=
  d.source = fut.map GetAnswer.byte ++ rest ∧ d.len = e.len ∧
  x = (e.codeNumber + d.value.toNat) * 256 ^ fut.length + bytesValue fut

/-- The code value `x`, with `n` bytes behind the encoder's 32 bits, lies in the encoder's interval. -/
def Inside (e : State) (n x : Nat) : Prop :=
  e.codeNumber * 256 ^ n ≤ x ∧ x < (e.codeNumber + e.len.toNat) * 256 ^ n

/-- What the two hosts of a mirrored pair of sessions do next. -/
inductive Beat where
  /-- The encoding host sends this command, the decoding host its mirror (R190, R296). -/
  | both (i : Instr)
  /-- The encoding host alone sends this read command. -/
  | encoderReads (i : Instr)
  /-- The decoding host alone sends this read command. -/
  | decoderReads (i : Instr)
  deriving DecidableEq, Repr

/-- The encoding host's part of the beats takes `s` to `t`: each mirrored command is answered `OK`. -/
def EncodesTo : List Beat → State → State → Prop
  | [], s, t => t = s
  | .both i :: more, s, t =>
    (∃ m, mirror i = some m) ∧ ∃ u : State, Answers i s 0 u ∧ EncodesTo more u t
  | .encoderReads i :: more, s, t =>
    isRead i = true ∧ ∃ u : State, exec i s = .next u ∧ EncodesTo more u t
  | .decoderReads i :: more, s, t => isRead i = true ∧ EncodesTo more s t

/-- The beats take encoder `e` to `e'` and decoder `d` to `d'` as R190 says: every mirror is answered `OK`, in R219's domain
with what the encoder was given; after it the lengths and the models are equal, `VALUE < LEN`, and the decoder has taken
one byte for each byte the encoder added to the stream or to the held bytes (R78). -/
def MirrorsTo : List Beat → State → State → State → State → Prop
  | [], e, e', d, d' => e' = e ∧ d' = d
  | .both i :: more, e, e', d, d' =>
    ∃ (j : Instr) (v w : Word) (f g : State), mirror i = some (j, v) ∧ Answers i e 0 f ∧ Answers j d w g ∧
      (InDomain e i → w = v) ∧ g.len = f.len ∧ f.SameModels g ∧ g.value.toNat < g.len.toNat ∧
      g.taken + (e.out.length + e.pend) = d.taken + (f.out.length + f.pend) ∧ MirrorsTo more f e' g d'
  | .encoderReads i :: more, e, e', d, d' => ∃ f : State, exec i e = .next f ∧ MirrorsTo more f e' d d'
  | .decoderReads i :: more, e, e', d, d' => ∃ g : State, exec i d = .next g ∧ MirrorsTo more e e' g d'

end Sys2Proof.Machine
end

