-- ==== Sys2Proof/WellFormed.lean ====
section
/-! DEFINITION. Well-formed commands: the operand ranges of 60_exceptions.md R264 that depend on no parameter and no state.
Every command has an encoding; one that is not well-formed is answered with a refusal in every state. -/

namespace Sys2Proof

/-- The operand ranges every implementation shares (R264, with R120, R122, R156, R159, R188, R210, R211). -/
def Instr.wellFormed : Instr → Bool
  | .srst => true
  | .rdcsr _ => true
  | .smInit _ n => decide (1 ≤ n.toNat)
  | .bmInit _ => true
  | .smRd sel _ _ => decide (sel.toNat ≤ 2)
  | .bmRd _ => true
  | .encStart => true
  | .encSym _ _ => true
  | .encBit _ bit => decide (bit.toNat ≤ 1)
  | .encBits k x => decide (1 ≤ k.toNat) && decide (k.toNat ≤ 32) && decide (x.toNat < 2 ^ k.toNat)
  | .encDone => true
  | .decStart => true
  | .decSym _ => true
  | .decBit _ => true
  | .decBits k => decide (1 ≤ k.toNat) && decide (k.toNat ≤ 32)
  | .decDone => true
  | .icConfig _ b range =>
    decide (1 ≤ b.toNat) && decide (b.toNat ≤ 32) && decide (range.toNat ≠ 1) && decide (range.toNat ≤ 2 ^ 31)
  | .icSetup _ c _ zero _ _ => decide (1 ≤ c.toNat) && decide (zero.toNat = 0)
  | .icInit _ => true
  | .icCompress _ _ _ _ => true
  | .icDecompress _ _ _ => true
  | .icGetk _ => true

end Sys2Proof
end

