-- ==== Sys2Proof/Certificates/Slice0/Obligations.lean ====
section
/-! DEFINITION. The statements for the provers. Each formalises rules of `spec/` or says what follows from them; a statement
that rests on a choice of the model names the log entry. -/

open Sys2Proof Sys2Proof.Machine

/-! ### Reset, steps and decoding -/

/-- R290, R250: `State.reset` is the reset state; `SRST` in every mode answers `OK`, and the hard reset answers nothing; both
leave the reset state and move no byte, and the byte stream is not reset (R291). -/
def Obligations.ResetResults : Prop :=
  State.reset.IsReset ∧
  (∀ s : State, ∃ t : State, exec .srst s = .next (t.respond .ok 0) ∧ t.IsReset ∧ s.SameOutside t ∧
    t.responses = s.responses) ∧
  (∀ (s : State) (rest : List HostEvent), s.inbox = .hardReset :: rest →
    ∃ t : State, step s = .next t ∧ t.IsReset ∧ (s.setInbox rest).SameOutside t ∧ t.responses = s.responses)

/-- R291: a command ends without a response only by a hard reset during a blocked transfer, and then the block is reset. What
was already transferred stays; whether the byte in flight was transferred is free, and the byte stream's answers to the later
transfers are the rest of its lists, any answers (R63; the form is the model's choice, log 7). -/
def Obligations.ResetDuringTransfer : Prop :=
  ∀ (i : Instr) (s t : State), exec i s = .next t → t.responses = s.responses →
    t.IsReset ∧ ¬ s.Undisturbed ∧ (∃ bs, t.out = s.out ++ bs) ∧ s.taken ≤ t.taken ∧
      (∃ n, t.sink = s.sink.drop n) ∧ (∃ n, t.source = s.source.drop n)

/-- A step at a packet that decodes runs the decoded command, with the packet taken from the host's events (R9, R101); with
no event of the host the block waits and nothing changes, in every mode (R278, R305; log 2). -/
def Obligations.StepRunsDecodedCommand : Prop :=
  ∀ s : State,
    (∀ (p : Packet) (i : Instr) (rest : List HostEvent), s.inbox = .command p :: rest → decode p = .ok i →
      step s = exec i (s.setInbox rest)) ∧
    (s.inbox = [] → step s = .next s)

/-- R97: an unassigned opcode is answered `E_ILLEGAL`, in `FAULT` mode `E_FAULTED`, and changes no state. -/
def Obligations.UnassignedOpcodeIsIllegal : Prop :=
  ∀ (s : State) (p : Packet) (rest : List HostEvent) (n : Nat), s.inbox = .command p :: rest → n = p.cmd.toNat / 2 ^ 24 →
    (n = 0x00 ∨ (0x03 ≤ n ∧ n ≤ 0x0F) ∨ (0x14 ≤ n ∧ n ≤ 0x1F) ∨ (0x25 ≤ n ∧ n ≤ 0x2F) ∨ (0x35 ≤ n ∧ n ≤ 0x3F) ∨
      0x46 ≤ n) →
    step s = .next ((s.setInbox rest).respond (if s.mode = .fault then .eFaulted else .eIllegal) 0)

/-- R96: a reserved field that is not zero makes the word illegal, exactly as an unassigned opcode (R262 for `FAULT` mode). -/
def Obligations.ReservedFieldIsIllegal : Prop :=
  ∀ (s : State) (p : Packet) (rest : List HostEvent) (opc f1 f2 : Nat), s.inbox = .command p :: rest →
    opc = p.cmd.toNat / 2 ^ 24 → f1 = p.cmd.toNat / 2 ^ 16 % 2 ^ 8 → f2 = p.cmd.toNat % 2 ^ 16 →
    ((opc ∈ [0x01, 0x20, 0x24, 0x30, 0x34] ∧ (f1 ≠ 0 ∨ f2 ≠ 0)) ∨
      (opc ∈ [0x02, 0x10, 0x11, 0x13, 0x21, 0x22, 0x31, 0x32] ∧ f1 ≠ 0) ∨
      (opc ∈ [0x23, 0x33, 0x40, 0x41, 0x42, 0x45] ∧ f2 ≠ 0)) →
    step s = .next ((s.setInbox rest).respond (if s.mode = .fault then .eFaulted else .eIllegal) 0)

/-- A `CMD` decodes exactly if it matches a row of R95, then it decodes to that row's command, and no `CMD` matches two
rows. -/
def Obligations.DecodeFollowsOpcodeTable : Prop :=
  (∀ p : Packet,
    ((∃ i, decode p = .ok i) ↔ ∃ r ∈ opcodeTable, r.Selects p.cmd) ∧
    (∀ i, decode p = .ok i → i.row ∈ opcodeTable ∧ i.row.Selects p.cmd)) ∧
  opcodeTable.Pairwise fun r q => ∀ cmd : Word, ¬ (r.Selects cmd ∧ q.Selects cmd)

/-- Decoding the encoding of a command gives it back, with every operand at every value its field admits. -/
def Obligations.DecodeUndoesEncode : Prop := ∀ i : Instr, decode (encode i) = .ok i

/-- The decoded command has the `CMD` word and the operand words that came: `A0` and `A1` where R95 uses them. Where R95 shows
"-" the word is ignored (R98): packets that agree on `CMD` and on the used words decode alike, and what is no command is none
whatever `A0` and `A1` are. `FINFO` records the `CMD` word (R25). -/
def Obligations.DecodeKeepsCommandWord : Prop :=
  ∀ (p q : Packet) (opc : Nat), opc = p.cmd.toNat / 2 ^ 24 →
    (∀ i, decode p = .ok i →
      (encode i).cmd = p.cmd ∧ (opc ∈ opcodesWithA0 → (encode i).a0 = p.a0) ∧
      (opc ∈ opcodesWithA1 → (encode i).a1 = p.a1)) ∧
    (q.cmd = p.cmd → (opc ∈ opcodesWithA0 → q.a0 = p.a0) → (opc ∈ opcodesWithA1 → q.a1 = p.a1) → decode q = decode p) ∧
    (q.cmd = p.cmd → ∀ err, decode p = .error err → decode q = .error err)

/-- Words written out in the spec decode to the commands it gives them (examples of R211, R216, R159, R120, R97, R96). -/
def Obligations.SampleWordsDecode : Prop :=
  decode ⟨0x41000000, 0x00020002, 0x00030010⟩ = .ok (.icSetup 0 2 2 0 16 3) ∧
  decode ⟨0x43000001, 0x000000C8, 0x00000003⟩ = .ok (.icCompress 0 1 200 3) ∧
  decode ⟨0x23130000, 0x0005A5A5, 0x00000000⟩ = .ok (.encBits 19 0x5A5A5) ∧
  decode ⟨0x10000000, 0x00000004, 0x00000000⟩ = .ok (.smInit 0 4) ∧
  decode ⟨0x30000000, 0x00000000, 0x00000000⟩ = .ok .decStart ∧
  decode ⟨0xFFFFFFFF, 0x00000000, 0x00000000⟩ = .error .unassignedOpcode ∧
  decode ⟨0x21010000, 0x00000000, 0x00000000⟩ = .error .reservedField

/-! ### Modes, refusals and faults -/

/-- R102: in each mode, each command is allowed, refused with `E_MODE`, or refused with `E_FAULTED`. -/
def Obligations.CommandsByMode : Prop :=
  ∀ (i : Instr) (s : State),
    (s.mode = .fault → i ≠ .srst → (∀ csr, i = .rdcsr csr → 2 < csr.toNat) → Refuses i s .eFaulted) ∧
    (s.mode ≠ .fault → s.mode ∉ modesOf i → Refuses i s .eMode) ∧
    ((s.mode ∈ modesOf i ∨ i = .srst ∨ ∃ csr : Index, i = .rdcsr csr ∧ csr.toNat ≤ 2) →
      ∀ t r, exec i s = .next t → t.responses = s.responses ++ [r] → r.st ≠ .eMode ∧ r.st ≠ .eFaulted)

/-- R260, R273: a refusal carries the code and `RES = 0` and changes nothing else. -/
def Obligations.RefusalChangesNothing : Prop :=
  ∀ (i : Instr) (s t : State) (r : Response), exec i s = .next t → t.responses = s.responses ++ [r] →
    r.st ∈ [Status.eIllegal, .eMode, .eOperand, .eUninit, .eFaulted] → t = s.respond r.st 0

/-- R92: where the hard reset does not come during a transfer, a command that ends gives exactly one response; `RES` is 0
unless the status is `OK` and the command has a result. -/
def Obligations.OneResponsePerCommand : Prop :=
  ∀ (i : Instr) (s t : State), s.Undisturbed → exec i s = .next t →
    ∃ r : Response, t.responses = s.responses ++ [r] ∧
      ((r.st ≠ .ok ∨ i ∈ [Instr.srst, .encStart, .encDone, .decStart, .decDone] ∨ (mirror i).isSome) → r.res = 0)

/-- R270: a sticky fault sets `MODE`, `CAUSE`, `FINFO` and the response; what was transferred stays transferred. Nothing is
said of the rest of the block, which becomes unspecified (log 8). -/
def Obligations.StickyFaultEntry : Prop :=
  ∀ (s t : State) (p : Packet) (i : Instr) (rest : List HostEvent) (r : Response), s.inbox = .command p :: rest →
    decode p = .ok i → step s = .next t → t.responses = s.responses ++ [r] → (r.st = .eIo ∨ r.st = .ePendovf) →
    t.mode = .fault ∧ t.faultO = true ∧ t.cause.toNat = r.st.code ∧ t.finfo = p.cmd ∧ r.res = 0 ∧ t.par = s.par ∧
      t.inbox = rest ∧ (∃ bs, t.out = s.out ++ bs) ∧ s.taken ≤ t.taken ∧
      (∃ n, t.sink = s.sink.drop n) ∧ (∃ n, t.source = s.source.drop n)

/-- R271, R272: in `FAULT` mode every command but `SRST` leaves the whole state as it is: the record, the coder, the files
and the streams. -/
def Obligations.OnlyResetLeavesFault : Prop :=
  ∀ (i : Instr) (s t : State), s.mode = .fault → i ≠ .srst → exec i s = .next t →
    t = s.respond .eFaulted 0 ∨
      ∃ csr : Index, i = .rdcsr csr ∧
        ((csr.toNat = 0 ∧ t = s.respond .ok 3) ∨ (csr.toNat = 1 ∧ t = s.respond .ok (s.cause.setWidth 32)) ∨
          (csr.toNat = 2 ∧ t = s.respond .ok s.finfo))

/-- R23: `MODE` changes only by the start and done commands, by `SRST` and reset, and by fault entry. -/
def Obligations.ModeWriters : Prop :=
  ∀ (i : Instr) (s t : State), exec i s = .next t → t.mode ≠ s.mode →
    (i = .encStart ∧ s.mode = .idle ∧ t.mode = .enc) ∨ (i = .encDone ∧ s.mode = .enc ∧ t.mode = .idle) ∨
    (i = .decStart ∧ s.mode = .idle ∧ t.mode = .dec) ∨ (i = .decDone ∧ s.mode = .dec ∧ t.mode = .idle) ∨
    (t.IsReset ∧ (i = .srst ∨ t.responses = s.responses)) ∨
    (t.mode = .fault ∧ ∃ r : Response, t.responses = s.responses ++ [r] ∧ (r.st = .eIo ∨ r.st = .ePendovf))

/-- R264, R265: an operand outside the ranges every implementation shares is refused, never used. -/
def Obligations.IllFormedCommandIsRefused : Prop :=
  ∀ (i : Instr) (s : State), Instr.wellFormed i = false → s.mode ∈ modesOf i → Refuses i s .eOperand ∨ Refuses i s .eUninit

/-- R40: the `VALID` bit of a model slot is cleared only by reset. That it survives a sticky fault is the model's reading of
R40 beside R270 (log 9). -/
def Obligations.OnlyResetClearsValid : Prop :=
  ∀ (i : Instr) (s t : State), s.Undisturbed → i ≠ .srst → exec i s = .next t →
    (∀ m, m < s.par.nsm → (s.smAt m).valid = true → (t.smAt m).valid = true) ∧
    (∀ b, b < s.par.nbm → (s.bmAt b).valid = true → (t.bmAt b).valid = true)

/-- R60, R61, R62, R73: `OUT` only grows, and only in `ENC` mode; `IN` is only consumed, never delivered again, and only by
`DEC_START` and in `DEC` mode. -/
def Obligations.StreamAccess : Prop :=
  ∀ (i : Instr) (s t : State), exec i s = .next t →
    (∃ bs, t.out = s.out ++ bs ∧ (s.mode ≠ .enc → bs = [])) ∧ s.taken ≤ t.taken ∧
    (∃ n, t.source = s.source.drop n) ∧
    (s.mode ≠ .dec → i ≠ .decStart → t.taken = s.taken ∧ t.source = s.source)

/-- R191, R161, R64, R305: from a state of a run every command ends in a next state, whatever its operands and the bytes it
reads, unless the byte stream never answers; the command then gives no response, and what was seen before it stays seen. -/
def Obligations.EveryCommandEnds : Prop :=
  ∀ (i : Instr) (s : State), s.Inv →
    (∃ t, exec i s = .next t) ∨
      (¬ s.Answering ∧ ∃ seen, exec i s = .fault (.streamSilent seen) ∧ seen.responses = s.responses ∧
        (∃ bs, seen.out = s.out ++ bs ∧ (s.mode ≠ .enc → bs = [])) ∧ s.taken ≤ seen.taken ∧
        (s.mode ≠ .dec → i ≠ .decStart → seen.taken = s.taken))

/-- R268, R160: a flush that must defer one more byte while `PEND` is at its maximum is the sticky fault `E_PENDOVF`, and no
byte moves. -/
def Obligations.PendingOverflow : Prop :=
  ∀ s : State, s.mode = .enc → s.pend = 2 ^ s.par.pendBits - 1 → s.low.toNat < 2 ^ 32 → 0xFF000000 ≤ s.low.toNat →
    ∃ t : State, exec .encDone s = .next t ∧ t.mode = .fault ∧ t.cause = 7 ∧ t.finfo = 0x24000000 ∧
      t.responses = s.responses ++ [⟨.ePendovf, 0⟩] ∧ s.SameOutside t

/-- R69, R273, R305: where the byte stream fails after `n` transfers, exactly the first `n` bytes the command would have
written are in `OUT`, and the fault is `E_IO`; where it never answers after them, the same bytes are all that is ever seen of
the command (R64). -/
def Obligations.FailedTransferKeepsEarlierBytes : Prop :=
  ∀ (i : Instr) (s u : State) (bs : List Byte) (n : Nat) (rest : List PutAnswer),
    exec i { s with sink := [] } = .next u → u.out = s.out ++ bs → n < bs.length →
    (s.sink = List.replicate n .accepted ++ .failed :: rest →
      ∃ t : State, exec i s = .next t ∧ t.mode = .fault ∧ t.cause = 5 ∧ t.out = s.out ++ bs.take n ∧ t.sink = rest ∧
        t.responses = s.responses ++ [⟨.eIo, 0⟩]) ∧
    (s.sink = List.replicate n .accepted ++ .silent :: rest →
      exec i s = .fault (.streamSilent { responses := s.responses, out := s.out ++ bs.take n, taken := s.taken }))

/-- R62, R266, R183, R185, R188, R217: a decoding command that runs off the end of its input, or whose read fails, takes the
sticky fault `E_IO`. If on a source that begins with the bytes `bs` the command takes more than `n` bytes, then on the first
`n` of them alone it faults after taking exactly those; where the stream never answers after them, they are all that is ever
seen of the command (R64, R305). The second clause says when it runs off its input for `DEC_START` (R180) and for a raw field
of up to 19 bits (R186). -/
def Obligations.TruncatedInputIsFault : Prop :=
  (∀ (i : Instr) (s u : State) (bs : List Byte) (more tail : List GetAnswer) (n : Nat),
    exec i { s with source := bs.map GetAnswer.byte ++ more } = .next u → n < bs.length → s.taken + n < u.taken →
    s.source = (bs.take n).map GetAnswer.byte ++ tail →
    ((tail = [] ∨ ∃ rest, tail = .failed :: rest) →
      ∃ t : State, exec i s = .next t ∧ t.mode = .fault ∧ t.cause = 5 ∧ t.finfo = (encode i).cmd ∧
        t.responses = s.responses ++ [⟨.eIo, 0⟩] ∧ t.taken = s.taken + n ∧ t.source = tail.drop 1 ∧ t.out = s.out) ∧
    ((∃ rest, tail = .silent :: rest) →
      exec i s = .fault (.streamSilent { responses := s.responses, out := s.out, taken := s.taken + n }))) ∧
  (∀ (s : State) (bs : List Byte) (tail : List GetAnswer) (i : Instr), s.Inv → s.source = bs.map GetAnswer.byte ++ tail →
    (tail = [] ∨ ∃ rest, tail = .failed :: rest) →
    ((i = .decStart ∧ s.mode = .idle ∧ bs.length < 5) ∨
      (∃ k : Byte, i = .decBits k ∧ s.mode = .dec ∧ 1 ≤ k.toNat ∧ k.toNat ≤ 19 ∧
        bs.length < renormSteps (s.len.toNat / 2 ^ k.toNat))) →
    ∃ t : State, exec i s = .next t ∧ t.mode = .fault ∧ t.cause = 5 ∧ t.finfo = (encode i).cmd ∧
      t.responses = s.responses ++ [⟨.eIo, 0⟩] ∧ t.taken = s.taken + bs.length ∧ t.source = tail.drop 1 ∧ t.out = s.out)

/-! ### Registers and models -/

/-- R41, R251: `RDCSR` of a number of the table answers that register's bits and changes nothing, in `FAULT` mode only for the
first three; any other number is refused. -/
def Obligations.RdcsrReadsRegisters : Prop :=
  ∀ s : State, s.par.nic ≤ 240 →
    (∀ number v, (number, v) ∈ csrTable s → (s.mode = .fault → number ≤ 2) →
      exec (.rdcsr (BitVec.ofNat 16 number)) s = .next (s.respond .ok v)) ∧
    (∀ csr : Index, s.mode = .fault → 2 < csr.toNat → Refuses (.rdcsr csr) s .eFaulted) ∧
    (∀ csr : Index, s.mode ≠ .fault → (∀ v, (csr.toNat, v) ∉ csrTable s) → Refuses (.rdcsr csr) s .eOperand)

/-- R120: `SM_INIT` makes the slot valid with every count 1; its total is then `N` and `CUM(m, j) = j`. -/
def Obligations.SmInitResult : Prop :=
  ∀ (m : Index) (n : Word) (s : State), s.mode ≠ .fault →
    (s.par.nsm ≤ m.toNat → Refuses (.smInit m n) s .eOperand) ∧
    (n.toNat < 1 ∨ s.par.nMax < n.toNat → Refuses (.smInit m n) s .eOperand) ∧
    (m.toNat < s.par.nsm → 1 ≤ n.toNat → n.toNat ≤ s.par.nMax →
      exec (.smInit m n) s = .next (State.respond
        { s with sm := s.sm.set m.toNat { valid := true, n := n.toNat, cnt := List.replicate n.toNat 1 } } .ok 0)) ∧
    (∀ t, Answers (.smInit m n) s 0 t → m.toNat < s.sm.length →
      (t.smAt m.toNat).total = n.toNat ∧ ∀ j, j ≤ n.toNat → (t.smAt m.toNat).cum j = j)

/-- R121: `BM_INIT` makes the slot valid with `BS = 0`. -/
def Obligations.BmInitResult : Prop :=
  ∀ (b : Index) (s : State), s.mode ≠ .fault →
    (s.par.nbm ≤ b.toNat → Refuses (.bmInit b) s .eOperand) ∧
    (b.toNat < s.par.nbm →
      exec (.bmInit b) s = .next (State.respond { s with bm := s.bm.set b.toNat { valid := true, bs := 0 } } .ok 0))

/-- R122: `SM_RD` answers a count, a cumulative count or the size, and changes nothing. -/
def Obligations.SmRdResult : Prop :=
  ∀ (sel : Byte) (m : Index) (j : Word) (s : State), s.mode ≠ .fault →
    (s.par.nsm ≤ m.toNat ∨ 2 < sel.toNat → Refuses (.smRd sel m j) s .eOperand) ∧
    (m.toNat < s.par.nsm → sel.toNat ≤ 2 → (s.smAt m.toNat).valid = false → Refuses (.smRd sel m j) s .eUninit) ∧
    (m.toNat < s.par.nsm → (s.smAt m.toNat).valid = true →
      (sel = 0 → (s.smAt m.toNat).n ≤ j.toNat → Refuses (.smRd sel m j) s .eOperand) ∧
      (sel = 0 → j.toNat < (s.smAt m.toNat).n → exec (.smRd sel m j) s =
        .next (s.respond .ok (BitVec.ofNat 32 ((s.smAt m.toNat).cnt.getD j.toNat 0).toNat))) ∧
      (sel = 1 → (s.smAt m.toNat).n < j.toNat → Refuses (.smRd sel m j) s .eOperand) ∧
      (sel = 1 → j.toNat ≤ (s.smAt m.toNat).n → exec (.smRd sel m j) s =
        .next (s.respond .ok (BitVec.ofNat 32 (((s.smAt m.toNat).cnt.take j.toNat).map BitVec.toNat).sum))) ∧
      (sel = 2 → exec (.smRd sel m j) s = .next (s.respond .ok (BitVec.ofNat 32 (s.smAt m.toNat).n))))

/-- R123: `BM_RD` answers `BS`, sign-extended, and changes nothing. -/
def Obligations.BmRdResult : Prop :=
  ∀ (b : Index) (s : State), s.mode ≠ .fault →
    (s.par.nbm ≤ b.toNat → Refuses (.bmRd b) s .eOperand) ∧
    (b.toNat < s.par.nbm → (s.bmAt b.toNat).valid = false → Refuses (.bmRd b) s .eUninit) ∧
    (b.toNat < s.par.nbm → (s.bmAt b.toNat).valid = true →
      exec (.bmRd b) s = .next (s.respond .ok ((s.bmAt b.toNat).bs.signExtend 32)))

/-- R124: `SymUpdate` adds `SYM_INC` to the symbol's count and, if the total is then above `SYM_LIMIT`, halves every count,
rounding up; the total is again at most `SYM_LIMIT`, every count at least 1, and nothing else changes. -/
def Obligations.SymUpdateRule : Prop :=
  ∀ (s : State) (m sym : Nat), s.par.Ok → (s.smAt m).Ok s.par → (s.smAt m).valid = true → sym < (s.smAt m).n →
    (∀ j, j < (s.smAt m).n → ((symUpdate m sym s).smAt m).count j =
      if s.par.symLimit < (s.smAt m).total + s.par.symInc
      then ((s.smAt m).count j + (if j = sym then s.par.symInc else 0) + 1) / 2
      else (s.smAt m).count j + (if j = sym then s.par.symInc else 0)) ∧
    ((symUpdate m sym s).smAt m).n = (s.smAt m).n ∧ ((symUpdate m sym s).smAt m).valid = true ∧
    ((symUpdate m sym s).smAt m).total ≤ s.par.symLimit ∧
    (∀ j, j < (s.smAt m).n → 1 ≤ ((symUpdate m sym s).smAt m).count j) ∧
    (∀ j, j ≠ m → (symUpdate m sym s).smAt j = s.smAt j) ∧
    symUpdate m sym s = { s with sm := (symUpdate m sym s).sm }

/-- R125, R36: `BitUpdate` moves `BS` toward the end of the coded bit by the distance shifted right by `BM_SHIFT`; `BS` stays
inside the bounds of R36, and nothing else changes. -/
def Obligations.BitUpdateRule : Prop :=
  ∀ (s : State) (b : Nat) (bit : Bool), s.par.Ok → (s.bmAt b).Ok s.par → (s.bmAt b).valid = true →
    ((bitUpdate b bit s).bmAt b).bs.toInt =
      (if bit then (s.bmAt b).bs.toInt - ((4096 + (s.bmAt b).bs.toInt) >>> s.par.bmShift)
      else (s.bmAt b).bs.toInt + ((4096 - (s.bmAt b).bs.toInt) >>> s.par.bmShift)) ∧
    -(4096 - 2 ^ s.par.bmShift + 1 : Int) ≤ ((bitUpdate b bit s).bmAt b).bs.toInt ∧
    ((bitUpdate b bit s).bmAt b).bs.toInt ≤ 4096 - 2 ^ s.par.bmShift + 1 ∧
    ((bitUpdate b bit s).bmAt b).valid = true ∧ (∀ j, j ≠ b → (bitUpdate b bit s).bmAt j = s.bmAt j) ∧
    bitUpdate b bit s = { s with bm := (bitUpdate b bit s).bm }

/-- R126: `FindSym` gives the one symbol whose counts hold the position. -/
def Obligations.FindSymRule : Prop :=
  ∀ (p : Params) (sl : SmSlot) (t : Nat), sl.Ok p → sl.valid = true → t < sl.total →
    sl.findSym t < sl.n ∧ sl.cum (sl.findSym t) ≤ t ∧ t < sl.cum (sl.findSym t + 1) ∧
    ∀ j, j < sl.n → sl.cum j ≤ t → t < sl.cum (j + 1) → j = sl.findSym t

/-- R127: the same symbol or bit leaves the same slot whether it was encoded or decoded, whatever the coder and the streams;
every other slot is as it was. -/
def Obligations.ModelsAdaptAlike : Prop :=
  ∀ e d e' d' : State, e.Inv → d.Inv → e.par = d.par →
    (∀ (m : Index) (sym : Word), e.smAt m.toNat = d.smAt m.toNat →
      Answers (.encSym m sym) e 0 e' → Answers (.decSym m) d sym d' →
      e'.smAt m.toNat = d'.smAt m.toNat ∧ e'.bm = e.bm ∧ d'.bm = d.bm ∧
      ∀ j, j ≠ m.toNat → e'.smAt j = e.smAt j ∧ d'.smAt j = d.smAt j) ∧
    (∀ (b : Index) (bit : Word), e.bmAt b.toNat = d.bmAt b.toNat →
      Answers (.encBit b bit) e 0 e' → Answers (.decBit b) d bit d' →
      e'.bmAt b.toNat = d'.bmAt b.toNat ∧ e'.sm = e.sm ∧ d'.sm = d.sm ∧
      ∀ j, j ≠ b.toNat → e'.bmAt j = e.bmAt j ∧ d'.bmAt j = d.bmAt j)

/-! ### The encoder -/

/-- R151: `ShiftOut`, case by case: release without a carry, release with a carry, defer, overflow of `PEND`. -/
def Obligations.ShiftOutCases : Prop :=
  ∀ s : State,
    (s.SinkAccepts (s.pend + 1) → s.low.toNat % 2 ^ 32 < 0xFF000000 → s.low.toNat < 2 ^ 32 →
      shiftOut s = .done () { s with
        out := s.out ++ s.cache :: List.replicate s.pend 0xFF, sink := s.sink.drop (s.pend + 1), pend := 0,
        cache := BitVec.ofNat 8 (s.low.toNat / 2 ^ 24), low := BitVec.ofNat 33 (s.low.toNat % 2 ^ 24 * 2 ^ 8) }) ∧
    (s.SinkAccepts (s.pend + 1) → 2 ^ 32 ≤ s.low.toNat →
      shiftOut s = .done () { s with
        out := s.out ++ (s.cache + 1) :: List.replicate s.pend 0x00, sink := s.sink.drop (s.pend + 1), pend := 0,
        cache := BitVec.ofNat 8 (s.low.toNat / 2 ^ 24), low := BitVec.ofNat 33 (s.low.toNat % 2 ^ 24 * 2 ^ 8) }) ∧
    (0xFF000000 ≤ s.low.toNat → s.low.toNat < 2 ^ 32 → s.pend ≠ 2 ^ s.par.pendBits - 1 →
      shiftOut s = .done () { s with
        pend := s.pend + 1, low := BitVec.ofNat 33 (s.low.toNat % 2 ^ 24 * 2 ^ 8) }) ∧
    (0xFF000000 ≤ s.low.toNat → s.low.toNat < 2 ^ 32 → s.pend = 2 ^ s.par.pendBits - 1 →
      shiftOut s = .raised .pendovf s)

/-- R150: `ENC_START` in `IDLE` mode sets the five coder registers and `MODE`; elsewhere it is refused. -/
def Obligations.EncStartResult : Prop :=
  ∀ s : State,
    (s.mode = .idle → exec .encStart s = .next (State.respond
      { s with low := 0, len := 0xFFFFFFFF, cache := 0, pend := 0, value := 0, mode := .enc } .ok 0)) ∧
    (s.mode = .enc ∨ s.mode = .dec → Refuses .encStart s .eMode)

/-- R153, R154: `ENC_SYM` narrows the interval to the symbol's part, renormalises and adapts the model; nothing else
changes. -/
def Obligations.EncSymResult : Prop :=
  ∀ (m : Index) (sym : Word) (s : State), s.Inv →
    (s.mode = .idle ∨ s.mode = .dec → Refuses (.encSym m sym) s .eMode) ∧
    (s.mode = .enc → s.par.nsm ≤ m.toNat → Refuses (.encSym m sym) s .eOperand) ∧
    (s.mode = .enc → m.toNat < s.par.nsm → (s.smAt m.toNat).valid = false → Refuses (.encSym m sym) s .eUninit) ∧
    (s.mode = .enc → m.toNat < s.par.nsm → (s.smAt m.toNat).valid = true → (s.smAt m.toNat).n ≤ sym.toNat →
      Refuses (.encSym m sym) s .eOperand) ∧
    (s.mode = .enc → m.toNat < s.par.nsm → (s.smAt m.toNat).valid = true → sym.toNat < (s.smAt m.toNat).n →
      s.SinkAccepts (s.pend + 2) → s.pend + 2 < 2 ^ s.par.pendBits →
      ∃ t : State, CodesSymbol s t m.toNat sym.toNat ∧ exec (.encSym m sym) s = .next (t.respond .ok 0))

/-- R155, R156: `ENC_BIT` narrows the interval to the bit's part, renormalises and adapts the model; nothing else changes. -/
def Obligations.EncBitResult : Prop :=
  ∀ (b : Index) (bit : Word) (s : State), s.Inv →
    (s.mode = .idle ∨ s.mode = .dec → Refuses (.encBit b bit) s .eMode) ∧
    (s.mode = .enc → s.par.nbm ≤ b.toNat → Refuses (.encBit b bit) s .eOperand) ∧
    (s.mode = .enc → b.toNat < s.par.nbm → (s.bmAt b.toNat).valid = false → Refuses (.encBit b bit) s .eUninit) ∧
    (s.mode = .enc → b.toNat < s.par.nbm → (s.bmAt b.toNat).valid = true → 1 < bit.toNat →
      Refuses (.encBit b bit) s .eOperand) ∧
    (s.mode = .enc → b.toNat < s.par.nbm → (s.bmAt b.toNat).valid = true → bit.toNat ≤ 1 →
      s.SinkAccepts (s.pend + 2) → s.pend + 2 < 2 ^ s.par.pendBits →
      ∃ t : State, CodesBit s t b.toNat (decide (bit.toNat = 1)) ∧ exec (.encBit b bit) s = .next (t.respond .ok 0))

/-- R157, R158, R159: `ENC_BITS` codes a field of up to 19 bits as one uniform symbol, a wider one as its low 16 bits and then
the rest; no model is touched. -/
def Obligations.EncBitsResult : Prop :=
  ∀ (k : Byte) (x : Word) (s : State), s.Inv →
    (s.mode = .idle ∨ s.mode = .dec → Refuses (.encBits k x) s .eMode) ∧
    (s.mode = .enc → (k.toNat < 1 ∨ 32 < k.toNat ∨ 2 ^ k.toNat ≤ x.toNat) → Refuses (.encBits k x) s .eOperand) ∧
    (s.mode = .enc → 1 ≤ k.toNat → k.toNat ≤ 32 → x.toNat < 2 ^ k.toNat →
      s.SinkAccepts (s.pend + if k.toNat ≤ 19 then 3 else 4) →
      (s.pend + if k.toNat ≤ 19 then 3 else 4) < 2 ^ s.par.pendBits →
      ∃ t : State, CodesBits s t k.toNat x.toNat ∧ exec (.encBits k x) s = .next (t.respond .ok 0))

/-- R160, R65: `ENC_DONE` writes exactly `5 + PEND` bytes, after which `OUT` is the code number, most significant byte first;
`LOW`, `CACHE`, `PEND` are 0, `MODE` is `IDLE`, and nothing else changes. -/
def Obligations.EncDoneResult : Prop :=
  ∀ s : State, s.Inv →
    (s.mode = .idle ∨ s.mode = .dec → Refuses .encDone s .eMode) ∧
    (s.mode = .enc → s.SinkAccepts (s.pend + 5) → s.pend + 5 ≤ 2 ^ s.par.pendBits →
      ∃ bs : List Byte, bs.length = 5 + s.pend ∧ bytesValue (s.out ++ bs) = s.codeNumber ∧
        exec .encDone s = .next (State.respond
          { s with low := 0, cache := 0, pend := 0, mode := .idle, out := s.out ++ bs,
                   sink := s.sink.drop bs.length } .ok 0))

/-- R161: how many renormalisation steps a coding procedure can take: at most 2 for a symbol and a bit, one for every eight
bits begun for a uniform symbol. -/
def Obligations.RenormStepBounds : Prop :=
  ∀ s : State, s.Inv → (s.mode = .enc ∨ s.mode = .dec) →
    (∀ m sym, (s.smAt m).valid = true → sym < (s.smAt m).n →
      256 ≤ s.len.toNat / (s.smAt m).total * (s.smAt m).count sym ∧
      s.len.toNat / (s.smAt m).total * ((s.smAt m).cum sym + (s.smAt m).count sym) ≤ s.len.toNat ∧
      renormSteps (s.len.toNat / (s.smAt m).total * (s.smAt m).count sym) ≤ 2) ∧
    (∀ b, (s.bmAt b).valid = true →
      0 < zeroPart s b ∧ zeroPart s b < s.len.toNat ∧ renormSteps (zeroPart s b) ≤ 2 ∧
      renormSteps (s.len.toNat - zeroPart s b) ≤ 2) ∧
    (∀ k, 1 ≤ k → k ≤ 19 → 32 ≤ s.len.toNat / 2 ^ k ∧ renormSteps (s.len.toNat / 2 ^ k) ≤ (k + 7) / 8)

/-! ### The decoder -/

/-- R180, R66: `DEC_START` takes five bytes: the first into `CACHE`, the others into `VALUE`, most significant first. -/
def Obligations.DecStartResult : Prop :=
  ∀ s : State,
    (s.mode = .enc ∨ s.mode = .dec → Refuses .decStart s .eMode) ∧
    (∀ (b0 b1 b2 b3 b4 : Byte) (rest : List GetAnswer), s.mode = .idle →
      s.source = .byte b0 :: .byte b1 :: .byte b2 :: .byte b3 :: .byte b4 :: rest →
      exec .decStart s = .next (State.respond
        { s with low := 0, pend := 0, len := 0xFFFFFFFF, cache := b0, value := b1 ++ b2 ++ b3 ++ b4, mode := .dec,
                 source := rest, taken := s.taken + 5 } .ok 0))

/-- R182, R183: `DEC_SYM` answers the symbol whose counts hold the clamped position, moves the window, takes one byte for each
renormalisation step and adapts the model; nothing else changes. Two bytes are always enough. -/
def Obligations.DecSymResult : Prop :=
  ∀ (m : Index) (s : State), s.Inv →
    (s.mode = .idle ∨ s.mode = .enc → Refuses (.decSym m) s .eMode) ∧
    (s.mode = .dec → s.par.nsm ≤ m.toNat → Refuses (.decSym m) s .eOperand) ∧
    (s.mode = .dec → m.toNat < s.par.nsm → (s.smAt m.toNat).valid = false → Refuses (.decSym m) s .eUninit) ∧
    (s.mode = .dec → m.toNat < s.par.nsm → (s.smAt m.toNat).valid = true → s.SourceHolds 2 →
      ∃ (t : State) (sym : Nat), TakesSymbol s t m.toNat sym ∧
        exec (.decSym m) s = .next (t.respond .ok (BitVec.ofNat 32 sym)))

/-- R184, R185: `DEC_BIT` answers the bit whose part of the interval holds `VALUE`, moves the window, takes one byte for each
renormalisation step and adapts the model; nothing else changes. -/
def Obligations.DecBitResult : Prop :=
  ∀ (b : Index) (s : State), s.Inv →
    (s.mode = .idle ∨ s.mode = .enc → Refuses (.decBit b) s .eMode) ∧
    (s.mode = .dec → s.par.nbm ≤ b.toNat → Refuses (.decBit b) s .eOperand) ∧
    (s.mode = .dec → b.toNat < s.par.nbm → (s.bmAt b.toNat).valid = false → Refuses (.decBit b) s .eUninit) ∧
    (s.mode = .dec → b.toNat < s.par.nbm → (s.bmAt b.toNat).valid = true → s.SourceHolds 2 →
      ∃ (t : State) (bit : Bool), TakesBit s t b.toNat bit ∧
        exec (.decBit b) s = .next (t.respond .ok (if bit then 1 else 0)))

/-- R186, R187, R188: `DEC_BITS` answers a value of `k` bits, decoded in the parts and the order of `ENC_BITS`; no model is
touched. -/
def Obligations.DecBitsResult : Prop :=
  ∀ (k : Byte) (s : State), s.Inv →
    (s.mode = .idle ∨ s.mode = .enc → Refuses (.decBits k) s .eMode) ∧
    (s.mode = .dec → (k.toNat < 1 ∨ 32 < k.toNat) → Refuses (.decBits k) s .eOperand) ∧
    (s.mode = .dec → 1 ≤ k.toNat → k.toNat ≤ 32 → s.SourceHolds (if k.toNat ≤ 19 then 3 else 4) →
      ∃ (t : State) (x : Nat), TakesBits s t k.toNat x ∧ x < 2 ^ k.toNat ∧
        exec (.decBits k) s = .next (t.respond .ok (BitVec.ofNat 32 x)))

/-- R189: `DEC_DONE` only closes the session. -/
def Obligations.DecDoneResult : Prop :=
  ∀ s : State,
    (s.mode = .dec → exec .decDone s = .next (State.respond { s with mode := .idle } .ok 0)) ∧
    (s.mode = .idle ∨ s.mode = .enc → Refuses .decDone s .eMode)

/-! ### The integer compressor -/

/-- R210: `IC_CONFIG` records `BITS` and `RANGE`, clears the rest of the instance and leaves it in `CONF`. -/
def Obligations.IcConfigResult : Prop :=
  ∀ (i : Byte) (b range : Word) (s : State), s.mode ≠ .fault →
    (s.par.nic ≤ i.toNat ∨ b.toNat < 1 ∨ 32 < b.toNat ∨ range.toNat = 1 ∨ 2 ^ 31 < range.toNat →
      Refuses (.icConfig i b range) s .eOperand) ∧
    (i.toNat < s.par.nic → 1 ≤ b.toNat → b.toNat ≤ 32 → range.toNat ≠ 1 → range.toNat ≤ 2 ^ 31 →
      exec (.icConfig i b range) s = .next (State.respond
        { s with
          ic := s.ic.set i.toNat
            { st := .conf, bits := BitVec.ofNat 6 b.toNat, range := range, ctx := 0, bh := 0, cbits := 0, crange := 0,
              cmin := 0, cmax := 0, smbase := 0, bmslot := 0, k := 0 } } .ok 0))

/-- R211: `IC_SETUP` derives the corrector parameters (a range `R` gives the bits of `R`, one less for an exact power of two:
the least `CBITS` with `R <= 2^CBITS`), assigns the slots, consumes `RANGE` and leaves the instance in `SETUP`. -/
def Obligations.IcSetupResult : Prop :=
  ∀ (i : Byte) (c : Index) (bh zero : Byte) (smbase bmslot : Index) (s : State) (cbits crange : Nat) (cmin cmax : Int),
    s.Inv → s.mode ≠ .fault →
    ((s.icAt i.toNat).range.toNat ≠ 0 →
      crange = (s.icAt i.toNat).range.toNat ∧ 1 ≤ cbits ∧ 2 ^ (cbits - 1) < crange ∧ crange ≤ 2 ^ cbits) →
    ((s.icAt i.toNat).range.toNat = 0 → (s.icAt i.toNat).bits.toNat < 32 →
      cbits = (s.icAt i.toNat).bits.toNat ∧ crange = 2 ^ cbits) →
    ((s.icAt i.toNat).range.toNat = 0 → 32 ≤ (s.icAt i.toNat).bits.toNat → cbits = 32 ∧ crange = 0) →
    cmin = (if crange = 0 then -2 ^ 31 else -((crange / 2 : Nat) : Int)) →
    cmax = (if crange = 0 then 2 ^ 31 - 1 else cmin + crange - 1) →
    (s.par.nic ≤ i.toNat → Refuses (.icSetup i c bh zero smbase bmslot) s .eOperand) ∧
    (i.toNat < s.par.nic → (s.icAt i.toNat).st = .unconf → Refuses (.icSetup i c bh zero smbase bmslot) s .eUninit) ∧
    (i.toNat < s.par.nic → (s.icAt i.toNat).st ≠ .unconf →
      (zero.toNat ≠ 0 ∨ c.toNat < 1 ∨ s.par.bhMax < bh.toNat ∨
        s.par.nsm < smbase.toNat + c.toNat + min cbits bh.toNat ∨ (1 ≤ bh.toNat ∧ s.par.nbm ≤ bmslot.toNat)) →
      Refuses (.icSetup i c bh zero smbase bmslot) s .eOperand) ∧
    (i.toNat < s.par.nic → (s.icAt i.toNat).st ≠ .unconf → zero.toNat = 0 → 1 ≤ c.toNat → bh.toNat ≤ s.par.bhMax →
      smbase.toNat + c.toNat + min cbits bh.toNat ≤ s.par.nsm → (1 ≤ bh.toNat → bmslot.toNat < s.par.nbm) →
      exec (.icSetup i c bh zero smbase bmslot) s = .next (State.respond
        { s with
          ic := s.ic.set i.toNat
            { st := .setup, bits := (s.icAt i.toNat).bits, range := 0, ctx := c, bh := bh, cbits := BitVec.ofNat 6 cbits,
              crange := BitVec.ofNat 32 crange, cmin := BitVec.ofInt 32 cmin, cmax := BitVec.ofInt 32 cmax,
              smbase := smbase, bmslot := bmslot, k := 0 } } .ok 0))

/-- R221: a second `IC_SETUP` without a new `IC_CONFIG` takes its parameters from `BITS` alone, whatever range was given. -/
def Obligations.SecondSetupIsBitsOnly : Prop :=
  ∀ (s u t : State) (i : Byte) (c c' : Index) (bh bh' zero zero' : Byte) (base base' slot slot' : Index),
    s.Inv → Answers (.icSetup i c bh zero base slot) s 0 u → Answers (.icSetup i c' bh' zero' base' slot') u 0 t →
    (u.icAt i.toNat).range = 0 ∧
    ((s.icAt i.toNat).bits.toNat < 32 →
      (t.icAt i.toNat).cbits = (s.icAt i.toNat).bits ∧
      (t.icAt i.toNat).crange.toNat = 2 ^ (s.icAt i.toNat).bits.toNat) ∧
    ((s.icAt i.toNat).bits.toNat = 32 →
      (t.icAt i.toNat).cbits.toNat = 32 ∧ (t.icAt i.toNat).crange = 0)

/-- R212: `IcModelsOk` holds exactly if every model the instance owns is valid and has the size the instance expects. -/
def Obligations.IcModelsOkRule : Prop :=
  ∀ (s : State) (inst : IcInst),
    icModelsOk s inst = true ↔
      (∀ c, c < inst.ctx.toNat → (s.smAt (inst.smbase.toNat + c)).valid = true ∧
        (s.smAt (inst.smbase.toNat + c)).n = inst.cbits.toNat + 1) ∧
      (∀ k, 1 ≤ k → k ≤ min inst.cbits.toNat inst.bh.toNat →
        (s.smAt (inst.smbase.toNat + inst.ctx.toNat + k - 1)).valid = true ∧
        (s.smAt (inst.smbase.toNat + inst.ctx.toNat + k - 1)).n = 2 ^ k) ∧
      (1 ≤ inst.bh.toNat → (s.bmAt inst.bmslot.toNat).valid = true)

/-- R213: `IC_INIT` initialises every model of the instance, clears `K` and leaves the instance in `READY`; every other slot
and instance is as it was. -/
def Obligations.IcInitResult : Prop :=
  ∀ (i : Byte) (s : State), s.Inv → s.mode ≠ .fault →
    (s.par.nic ≤ i.toNat → Refuses (.icInit i) s .eOperand) ∧
    (i.toNat < s.par.nic → (s.icAt i.toNat).st = .unconf ∨ (s.icAt i.toNat).st = .conf →
      Refuses (.icInit i) s .eUninit) ∧
    (i.toNat < s.par.nic → (s.icAt i.toNat).st = .setup ∨ (s.icAt i.toNat).st = .ready →
      ∃ sm' : List SmSlot, sm'.length = s.sm.length ∧
        exec (.icInit i) s = .next (State.respond
          { s with sm := sm',
                   bm := if 1 ≤ (s.icAt i.toNat).bh.toNat
                     then s.bm.set (s.icAt i.toNat).bmslot.toNat { valid := true, bs := 0 } else s.bm,
                   ic := s.ic.set i.toNat { s.icAt i.toNat with k := 0, st := .ready } } .ok 0) ∧
        ∀ j, j < s.sm.length → sm'.getD j SmSlot.reset =
          if (s.icAt i.toNat).smbase.toNat ≤ j ∧ j < (s.icAt i.toNat).smbase.toNat + (s.icAt i.toNat).ctx.toNat then
            { valid := true, n := (s.icAt i.toNat).cbits.toNat + 1,
              cnt := List.replicate ((s.icAt i.toNat).cbits.toNat + 1) 1 }
          else if (s.icAt i.toNat).smbase.toNat + (s.icAt i.toNat).ctx.toNat ≤ j ∧
              j < (s.icAt i.toNat).smbase.toNat + (s.icAt i.toNat).ctx.toNat +
                min (s.icAt i.toNat).cbits.toNat (s.icAt i.toNat).bh.toNat then
            { valid := true,
              n := 2 ^ (j - ((s.icAt i.toNat).smbase.toNat + (s.icAt i.toNat).ctx.toNat) + 1),
              cnt := List.replicate (2 ^ (j - ((s.icAt i.toNat).smbase.toNat + (s.icAt i.toNat).ctx.toNat) + 1)) 1 }
          else s.smAt j)

/-- R214: the corrector is `v - p` with 32-bit wraparound, folded at most once, and its magnitude is the bit length of
`absadj`; folded, it is congruent to `v - p` modulo the range, and inside `[CMIN, CMAX]` with a magnitude of at most `CBITS`
where there is no range or both operands are below it. -/
def Obligations.FoldRule : Prop :=
  ∀ (p : Params) (inst : IcInst) (pr v : Word) (corr : Int), inst.Ok p → (inst.st = .setup ∨ inst.st = .ready) →
    corr = (v - pr).toInt →
    foldCorr inst pr v =
      (if inst.crange = 0 then corr
      else if corr < inst.cmin.toInt then corr + inst.crange.toNat
      else if inst.cmax.toInt < corr then corr - inst.crange.toNat
      else corr) ∧
    (∀ c : Int, magnitude c = bitlen (if c ≤ 0 then -c else c - 1).toNat) ∧
    (inst.crange ≠ 0 → (inst.crange.toNat : Int) ∣ foldCorr inst pr v - corr) ∧
    (inst.crange = 0 ∨ (pr.toNat < inst.crange.toNat ∧ v.toNat < inst.crange.toNat) →
      inst.cmin.toInt ≤ foldCorr inst pr v ∧ foldCorr inst pr v ≤ inst.cmax.toInt ∧
      magnitude (foldCorr inst pr v) ≤ inst.cbits.toNat)

/-- R215, with the intervals of R214: magnitude 0 is the correctors 0 and 1, magnitude `k >= 1` the two intervals of R215's
table, `Translate` maps them onto `0 .. 2^k - 1`, the negative part below `2^(k-1)`, and `Untranslate` maps back. -/
def Obligations.MagnitudeIntervals : Prop :=
  ∀ (corr : Int) (k : Nat),
    (magnitude corr = 0 ↔ corr = 0 ∨ corr = 1) ∧
    (1 ≤ k → (magnitude corr = k ↔
      (-((2 : Int) ^ k - 1) ≤ corr ∧ corr ≤ -(2 : Int) ^ (k - 1)) ∨ ((2 : Int) ^ (k - 1) + 1 ≤ corr ∧ corr ≤ 2 ^ k))) ∧
    (1 ≤ k → magnitude corr = k →
      (Machine.translate corr k : Int) = (if corr < 0 then corr + (2 ^ k - 1) else corr - 1) ∧
      Machine.translate corr k < 2 ^ k ∧ (Machine.translate corr k < 2 ^ (k - 1) ↔ corr < 0) ∧
      untranslate (Machine.translate corr k) k = corr) ∧
    (1 ≤ k → ∀ t : Nat, t < 2 ^ k →
      untranslate t k = (if 2 ^ (k - 1) ≤ t then (t : Int) + 1 else (t : Int) - (2 ^ k - 1)) ∧
      magnitude (untranslate t k) = k ∧ Machine.translate (untranslate t k) k = t)

/-- R219: unfolding a folded corrector gives the value back, for every prediction and value without a range, and for those
below the range with one. -/
def Obligations.FoldRoundTrip : Prop :=
  ∀ (p : Params) (inst : IcInst) (pr v : Word), inst.Ok p → (inst.st = .setup ∨ inst.st = .ready) →
    (inst.crange = 0 ∨ (pr.toNat < inst.crange.toNat ∧ v.toNat < inst.crange.toNat)) →
    unfoldValue inst pr (foldCorr inst pr v) = v

/-- R216: `IC_COMPRESS` codes the magnitude of the folded corrector with the context's model, then the corrector's place in
its interval, and remembers the magnitude; nothing else changes. -/
def Obligations.IcCompressResult : Prop :=
  ∀ (i : Byte) (c : Index) (p v : Word) (s : State) (inst : IcInst) (corr : Int) (k : Nat),
    s.Inv → inst = s.icAt i.toNat → corr = foldCorr inst p v → k = magnitude corr →
    (s.mode = .idle ∨ s.mode = .dec → Refuses (.icCompress i c p v) s .eMode) ∧
    (s.mode = .enc → s.par.nic ≤ i.toNat → Refuses (.icCompress i c p v) s .eOperand) ∧
    (s.mode = .enc → i.toNat < s.par.nic → inst.st ≠ .ready → Refuses (.icCompress i c p v) s .eUninit) ∧
    (s.mode = .enc → i.toNat < s.par.nic → inst.st = .ready → inst.ctx.toNat ≤ c.toNat →
      Refuses (.icCompress i c p v) s .eOperand) ∧
    (s.mode = .enc → i.toNat < s.par.nic → inst.st = .ready → c.toNat < inst.ctx.toNat → icModelsOk s inst = false →
      Refuses (.icCompress i c p v) s .eUninit) ∧
    (s.mode = .enc → i.toNat < s.par.nic → inst.st = .ready → c.toNat < inst.ctx.toNat → icModelsOk s inst = true →
      inst.cbits.toNat < k → Refuses (.icCompress i c p v) s .eOperand) ∧
    (s.mode = .enc → i.toNat < s.par.nic → inst.st = .ready → c.toNat < inst.ctx.toNat → icModelsOk s inst = true →
      k ≤ inst.cbits.toNat → s.SinkAccepts (s.pend + 8) → s.pend + 8 < 2 ^ s.par.pendBits →
      ∃ u t : State, CodesSymbol s u (inst.smbase.toNat + c.toNat) k ∧ CodesCorrector u t inst corr k ∧
        exec (.icCompress i c p v) s = .next (State.respond
          { t with ic := t.ic.set i.toNat { inst with k := BitVec.ofNat 6 k } } .ok 0))

/-- R217: `IC_DECOMPRESS` decodes the magnitude and the corrector, adds it to the prediction, folds back once and answers the
sum modulo `2^32`; it remembers the magnitude; nothing else changes. Eight bytes are always enough. -/
def Obligations.IcDecompressResult : Prop :=
  ∀ (i : Byte) (c : Index) (p : Word) (s : State) (inst : IcInst), s.Inv → inst = s.icAt i.toNat →
    (s.mode = .idle ∨ s.mode = .enc → Refuses (.icDecompress i c p) s .eMode) ∧
    (s.mode = .dec → s.par.nic ≤ i.toNat → Refuses (.icDecompress i c p) s .eOperand) ∧
    (s.mode = .dec → i.toNat < s.par.nic → inst.st ≠ .ready → Refuses (.icDecompress i c p) s .eUninit) ∧
    (s.mode = .dec → i.toNat < s.par.nic → inst.st = .ready → inst.ctx.toNat ≤ c.toNat →
      Refuses (.icDecompress i c p) s .eOperand) ∧
    (s.mode = .dec → i.toNat < s.par.nic → inst.st = .ready → c.toNat < inst.ctx.toNat → icModelsOk s inst = false →
      Refuses (.icDecompress i c p) s .eUninit) ∧
    (s.mode = .dec → i.toNat < s.par.nic → inst.st = .ready → c.toNat < inst.ctx.toNat → icModelsOk s inst = true →
      s.SourceHolds 8 →
      ∃ (u t : State) (k : Nat) (corr real : Int),
        TakesSymbol s u (inst.smbase.toNat + c.toNat) k ∧ k ≤ inst.cbits.toNat ∧ TakesCorrector u t inst k corr ∧
        real = p.toInt + corr ∧
        exec (.icDecompress i c p) s = .next (State.respond
          { t with ic := t.ic.set i.toNat { inst with k := BitVec.ofNat 6 k } } .ok
          (BitVec.ofInt 32
            (if inst.crange = 0 then real
            else if real < 0 then real + inst.crange.toNat
            else if inst.crange.toNat ≤ real then real - inst.crange.toNat
            else real))))

/-- R218: `IC_GETK` answers `K` and changes nothing. -/
def Obligations.IcGetkResult : Prop :=
  ∀ (i : Byte) (s : State), s.mode ≠ .fault →
    (s.par.nic ≤ i.toNat → Refuses (.icGetk i) s .eOperand) ∧
    (i.toNat < s.par.nic → (s.icAt i.toNat).st = .unconf → Refuses (.icGetk i) s .eUninit) ∧
    (i.toNat < s.par.nic → (s.icAt i.toNat).st ≠ .unconf →
      exec (.icGetk i) s = .next (s.respond .ok ((s.icAt i.toNat).k.setWidth 32)))

/-- R220: after an `IC_COMPRESS` answered `OK`, `IC_GETK` answers the bit length of the folded corrector's `absadj`. -/
def Obligations.ExposedMagnitude : Prop :=
  ∀ (i : Byte) (c : Index) (p v : Word) (s t : State) (absadj : Int), s.Inv → Answers (.icCompress i c p v) s 0 t →
    absadj = (if foldCorr (s.icAt i.toNat) p v ≤ 0 then -foldCorr (s.icAt i.toNat) p v
      else foldCorr (s.icAt i.toNat) p v - 1) →
    exec (.icGetk i) t = .next (t.respond .ok (BitVec.ofNat 32 (bitlen absadj.toNat)))

/-! ### The invariant -/

/-- The reset state satisfies the invariant. -/
def Obligations.ResetSatisfiesInvariant : Prop := State.reset.Inv

/-- R20, R24, R25, R26, R27, R34, R36, R37, R38, R161: every step keeps the invariant, from every state that satisfies it. -/
def Obligations.StepKeepsInvariant : Prop := ∀ s t : State, s.Inv → step s = .next t → t.Inv

/-! ### The mirror -/

/-- R190 for one command: a decoder that follows an encoder in the same code stream, with the same models, answers `OK` to the
mirror of each coding command, and follows the encoder still, with the same length and the same models, having taken one byte
for each byte the encoder added to the stream or to the held bytes. It answers what the encoder was given, an `IC_DECOMPRESS`
in R219's domain. A read command changes nothing but the responses, so either host may send one in between. -/
def Obligations.MirrorOfOneCommand : Prop :=
  (∀ (i j : Instr) (v : Word) (e e' d : State) (fut : List Byte) (rest : List GetAnswer) (x n : Nat),
    e.Inv → d.Inv → e.mode = .enc → d.mode = .dec → e.SameModels d → mirror i = some (j, v) →
    Answers i e 0 e' → Tracks e d fut rest x → Inside e' n x →
    e'.out.length + e'.pend + n = e.out.length + e.pend + fut.length →
    ∃ (d' : State) (w : Word), Answers j d w d' ∧ (InDomain e i → w = v) ∧ e'.SameModels d' ∧ d'.mode = .dec ∧
      Tracks e' d' (fut.drop (fut.length - n)) rest x ∧ d'.value.toNat < d'.len.toNat ∧
      d'.taken = d.taken + (fut.length - n)) ∧
  (∀ (i : Instr) (s : State), isRead i = true → ∃ r : Response, exec i s = .next (s.respond r.st r.res))

/-- R190, R78, R219, R79: on the bytes of an encoding session a decoding session answers `OK` to the mirror of every command,
gives back what was given in R219's domain, keeps equal lengths and models, and takes exactly the bytes the encoder wrote,
with set-up commands anywhere between and read commands of either host alone. -/
def Obligations.SessionMirror : Prop :=
  ∀ (beats : List Beat) (e e1 e2 e3 d : State) (bs : List Byte) (rest : List GetAnswer),
    e.Inv → d.Inv → d.mode = .idle → e.SameModels d →
    Answers .encStart e 0 e1 → EncodesTo beats e1 e2 → Answers .encDone e2 0 e3 → e3.out = e.out ++ bs →
    d.source = bs.map GetAnswer.byte ++ rest →
    ∃ d1 d2 d3 : State, Answers .decStart d 0 d1 ∧ d1.taken = d.taken + 5 ∧ d1.len = e1.len ∧ d1.value.toNat < d1.len.toNat ∧
      MirrorsTo beats e1 e2 d1 d2 ∧ Answers .decDone d2 0 d3 ∧ e3.SameModels d3 ∧
      d3.source = rest ∧ d3.taken = d.taken + bs.length

/-- R77: the first byte of every code stream is `0x00`, and the stream has at least five bytes: whatever commands the host
sent while the session was open, coding commands with any operands, set-up and read commands, and refused ones. -/
def Obligations.FirstStreamByte : Prop :=
  ∀ (cmds : List Instr) (e e1 e2 e3 : State), e.Inv → Answers .encStart e 0 e1 → KeepsEncoding cmds e1 e2 →
    Answers .encDone e2 0 e3 → ∃ bs : List Byte, e3.out = e.out ++ 0x00 :: bs ∧ 4 ≤ bs.length
end

