-- ==== Sys2Proof/Laws/State.lean ====
section
/-! SUPPORT. One lemma per field per named update of the state, true by `rfl`. -/

namespace Sys2Proof.Machine

open Sys2Proof

variable (s : State)

@[simp] theorem State.setSm_mode (m : Nat) (x : SmSlot) : (s.setSm m x).mode = s.mode := rfl
@[simp] theorem State.setSm_cause (m : Nat) (x : SmSlot) : (s.setSm m x).cause = s.cause := rfl
@[simp] theorem State.setSm_finfo (m : Nat) (x : SmSlot) : (s.setSm m x).finfo = s.finfo := rfl
@[simp] theorem State.setSm_low (m : Nat) (x : SmSlot) : (s.setSm m x).low = s.low := rfl
@[simp] theorem State.setSm_len (m : Nat) (x : SmSlot) : (s.setSm m x).len = s.len := rfl
@[simp] theorem State.setSm_cache (m : Nat) (x : SmSlot) : (s.setSm m x).cache = s.cache := rfl
@[simp] theorem State.setSm_pend (m : Nat) (x : SmSlot) : (s.setSm m x).pend = s.pend := rfl
@[simp] theorem State.setSm_value (m : Nat) (x : SmSlot) : (s.setSm m x).value = s.value := rfl
@[simp] theorem State.setSm_sm (m : Nat) (x : SmSlot) : (s.setSm m x).sm = s.sm.set m x := rfl
@[simp] theorem State.setSm_bm (m : Nat) (x : SmSlot) : (s.setSm m x).bm = s.bm := rfl
@[simp] theorem State.setSm_ic (m : Nat) (x : SmSlot) : (s.setSm m x).ic = s.ic := rfl
@[simp] theorem State.setSm_par (m : Nat) (x : SmSlot) : (s.setSm m x).par = s.par := rfl
@[simp] theorem State.setSm_inbox (m : Nat) (x : SmSlot) : (s.setSm m x).inbox = s.inbox := rfl
@[simp] theorem State.setSm_responses (m : Nat) (x : SmSlot) : (s.setSm m x).responses = s.responses := rfl
@[simp] theorem State.setSm_out (m : Nat) (x : SmSlot) : (s.setSm m x).out = s.out := rfl
@[simp] theorem State.setSm_sink (m : Nat) (x : SmSlot) : (s.setSm m x).sink = s.sink := rfl
@[simp] theorem State.setSm_source (m : Nat) (x : SmSlot) : (s.setSm m x).source = s.source := rfl
@[simp] theorem State.setSm_taken (m : Nat) (x : SmSlot) : (s.setSm m x).taken = s.taken := rfl
@[simp] theorem State.setSm_freeCtr (m : Nat) (x : SmSlot) : (s.setSm m x).freeCtr = s.freeCtr := rfl

@[simp] theorem State.setBm_mode (b : Nat) (x : BmSlot) : (s.setBm b x).mode = s.mode := rfl
@[simp] theorem State.setBm_cause (b : Nat) (x : BmSlot) : (s.setBm b x).cause = s.cause := rfl
@[simp] theorem State.setBm_finfo (b : Nat) (x : BmSlot) : (s.setBm b x).finfo = s.finfo := rfl
@[simp] theorem State.setBm_low (b : Nat) (x : BmSlot) : (s.setBm b x).low = s.low := rfl
@[simp] theorem State.setBm_len (b : Nat) (x : BmSlot) : (s.setBm b x).len = s.len := rfl
@[simp] theorem State.setBm_cache (b : Nat) (x : BmSlot) : (s.setBm b x).cache = s.cache := rfl
@[simp] theorem State.setBm_pend (b : Nat) (x : BmSlot) : (s.setBm b x).pend = s.pend := rfl
@[simp] theorem State.setBm_value (b : Nat) (x : BmSlot) : (s.setBm b x).value = s.value := rfl
@[simp] theorem State.setBm_sm (b : Nat) (x : BmSlot) : (s.setBm b x).sm = s.sm := rfl
@[simp] theorem State.setBm_bm (b : Nat) (x : BmSlot) : (s.setBm b x).bm = s.bm.set b x := rfl
@[simp] theorem State.setBm_ic (b : Nat) (x : BmSlot) : (s.setBm b x).ic = s.ic := rfl
@[simp] theorem State.setBm_par (b : Nat) (x : BmSlot) : (s.setBm b x).par = s.par := rfl
@[simp] theorem State.setBm_inbox (b : Nat) (x : BmSlot) : (s.setBm b x).inbox = s.inbox := rfl
@[simp] theorem State.setBm_responses (b : Nat) (x : BmSlot) : (s.setBm b x).responses = s.responses := rfl
@[simp] theorem State.setBm_out (b : Nat) (x : BmSlot) : (s.setBm b x).out = s.out := rfl
@[simp] theorem State.setBm_sink (b : Nat) (x : BmSlot) : (s.setBm b x).sink = s.sink := rfl
@[simp] theorem State.setBm_source (b : Nat) (x : BmSlot) : (s.setBm b x).source = s.source := rfl
@[simp] theorem State.setBm_taken (b : Nat) (x : BmSlot) : (s.setBm b x).taken = s.taken := rfl
@[simp] theorem State.setBm_freeCtr (b : Nat) (x : BmSlot) : (s.setBm b x).freeCtr = s.freeCtr := rfl

@[simp] theorem State.setIc_mode (i : Nat) (x : IcInst) : (s.setIc i x).mode = s.mode := rfl
@[simp] theorem State.setIc_cause (i : Nat) (x : IcInst) : (s.setIc i x).cause = s.cause := rfl
@[simp] theorem State.setIc_finfo (i : Nat) (x : IcInst) : (s.setIc i x).finfo = s.finfo := rfl
@[simp] theorem State.setIc_low (i : Nat) (x : IcInst) : (s.setIc i x).low = s.low := rfl
@[simp] theorem State.setIc_len (i : Nat) (x : IcInst) : (s.setIc i x).len = s.len := rfl
@[simp] theorem State.setIc_cache (i : Nat) (x : IcInst) : (s.setIc i x).cache = s.cache := rfl
@[simp] theorem State.setIc_pend (i : Nat) (x : IcInst) : (s.setIc i x).pend = s.pend := rfl
@[simp] theorem State.setIc_value (i : Nat) (x : IcInst) : (s.setIc i x).value = s.value := rfl
@[simp] theorem State.setIc_sm (i : Nat) (x : IcInst) : (s.setIc i x).sm = s.sm := rfl
@[simp] theorem State.setIc_bm (i : Nat) (x : IcInst) : (s.setIc i x).bm = s.bm := rfl
@[simp] theorem State.setIc_ic (i : Nat) (x : IcInst) : (s.setIc i x).ic = s.ic.set i x := rfl
@[simp] theorem State.setIc_par (i : Nat) (x : IcInst) : (s.setIc i x).par = s.par := rfl
@[simp] theorem State.setIc_inbox (i : Nat) (x : IcInst) : (s.setIc i x).inbox = s.inbox := rfl
@[simp] theorem State.setIc_responses (i : Nat) (x : IcInst) : (s.setIc i x).responses = s.responses := rfl
@[simp] theorem State.setIc_out (i : Nat) (x : IcInst) : (s.setIc i x).out = s.out := rfl
@[simp] theorem State.setIc_sink (i : Nat) (x : IcInst) : (s.setIc i x).sink = s.sink := rfl
@[simp] theorem State.setIc_source (i : Nat) (x : IcInst) : (s.setIc i x).source = s.source := rfl
@[simp] theorem State.setIc_taken (i : Nat) (x : IcInst) : (s.setIc i x).taken = s.taken := rfl
@[simp] theorem State.setIc_freeCtr (i : Nat) (x : IcInst) : (s.setIc i x).freeCtr = s.freeCtr := rfl

@[simp] theorem State.setMode_mode (x : Mode) : (s.setMode x).mode = x := rfl
@[simp] theorem State.setMode_cause (x : Mode) : (s.setMode x).cause = s.cause := rfl
@[simp] theorem State.setMode_finfo (x : Mode) : (s.setMode x).finfo = s.finfo := rfl
@[simp] theorem State.setMode_low (x : Mode) : (s.setMode x).low = s.low := rfl
@[simp] theorem State.setMode_len (x : Mode) : (s.setMode x).len = s.len := rfl
@[simp] theorem State.setMode_cache (x : Mode) : (s.setMode x).cache = s.cache := rfl
@[simp] theorem State.setMode_pend (x : Mode) : (s.setMode x).pend = s.pend := rfl
@[simp] theorem State.setMode_value (x : Mode) : (s.setMode x).value = s.value := rfl
@[simp] theorem State.setMode_sm (x : Mode) : (s.setMode x).sm = s.sm := rfl
@[simp] theorem State.setMode_bm (x : Mode) : (s.setMode x).bm = s.bm := rfl
@[simp] theorem State.setMode_ic (x : Mode) : (s.setMode x).ic = s.ic := rfl
@[simp] theorem State.setMode_par (x : Mode) : (s.setMode x).par = s.par := rfl
@[simp] theorem State.setMode_inbox (x : Mode) : (s.setMode x).inbox = s.inbox := rfl
@[simp] theorem State.setMode_responses (x : Mode) : (s.setMode x).responses = s.responses := rfl
@[simp] theorem State.setMode_out (x : Mode) : (s.setMode x).out = s.out := rfl
@[simp] theorem State.setMode_sink (x : Mode) : (s.setMode x).sink = s.sink := rfl
@[simp] theorem State.setMode_source (x : Mode) : (s.setMode x).source = s.source := rfl
@[simp] theorem State.setMode_taken (x : Mode) : (s.setMode x).taken = s.taken := rfl
@[simp] theorem State.setMode_freeCtr (x : Mode) : (s.setMode x).freeCtr = s.freeCtr := rfl

@[simp] theorem State.setInterval_mode (x y : Int) : (s.setInterval x y).mode = s.mode := rfl
@[simp] theorem State.setInterval_cause (x y : Int) : (s.setInterval x y).cause = s.cause := rfl
@[simp] theorem State.setInterval_finfo (x y : Int) : (s.setInterval x y).finfo = s.finfo := rfl
@[simp] theorem State.setInterval_low (x y : Int) : (s.setInterval x y).low = BitVec.ofInt 33 x := rfl
@[simp] theorem State.setInterval_len (x y : Int) : (s.setInterval x y).len = BitVec.ofInt 32 y := rfl
@[simp] theorem State.setInterval_cache (x y : Int) : (s.setInterval x y).cache = s.cache := rfl
@[simp] theorem State.setInterval_pend (x y : Int) : (s.setInterval x y).pend = s.pend := rfl
@[simp] theorem State.setInterval_value (x y : Int) : (s.setInterval x y).value = s.value := rfl
@[simp] theorem State.setInterval_sm (x y : Int) : (s.setInterval x y).sm = s.sm := rfl
@[simp] theorem State.setInterval_bm (x y : Int) : (s.setInterval x y).bm = s.bm := rfl
@[simp] theorem State.setInterval_ic (x y : Int) : (s.setInterval x y).ic = s.ic := rfl
@[simp] theorem State.setInterval_par (x y : Int) : (s.setInterval x y).par = s.par := rfl
@[simp] theorem State.setInterval_inbox (x y : Int) : (s.setInterval x y).inbox = s.inbox := rfl
@[simp] theorem State.setInterval_responses (x y : Int) : (s.setInterval x y).responses = s.responses := rfl
@[simp] theorem State.setInterval_out (x y : Int) : (s.setInterval x y).out = s.out := rfl
@[simp] theorem State.setInterval_sink (x y : Int) : (s.setInterval x y).sink = s.sink := rfl
@[simp] theorem State.setInterval_source (x y : Int) : (s.setInterval x y).source = s.source := rfl
@[simp] theorem State.setInterval_taken (x y : Int) : (s.setInterval x y).taken = s.taken := rfl
@[simp] theorem State.setInterval_freeCtr (x y : Int) : (s.setInterval x y).freeCtr = s.freeCtr := rfl

@[simp] theorem State.setWindow_mode (x y : Int) : (s.setWindow x y).mode = s.mode := rfl
@[simp] theorem State.setWindow_cause (x y : Int) : (s.setWindow x y).cause = s.cause := rfl
@[simp] theorem State.setWindow_finfo (x y : Int) : (s.setWindow x y).finfo = s.finfo := rfl
@[simp] theorem State.setWindow_low (x y : Int) : (s.setWindow x y).low = s.low := rfl
@[simp] theorem State.setWindow_len (x y : Int) : (s.setWindow x y).len = BitVec.ofInt 32 y := rfl
@[simp] theorem State.setWindow_cache (x y : Int) : (s.setWindow x y).cache = s.cache := rfl
@[simp] theorem State.setWindow_pend (x y : Int) : (s.setWindow x y).pend = s.pend := rfl
@[simp] theorem State.setWindow_value (x y : Int) : (s.setWindow x y).value = BitVec.ofInt 32 x := rfl
@[simp] theorem State.setWindow_sm (x y : Int) : (s.setWindow x y).sm = s.sm := rfl
@[simp] theorem State.setWindow_bm (x y : Int) : (s.setWindow x y).bm = s.bm := rfl
@[simp] theorem State.setWindow_ic (x y : Int) : (s.setWindow x y).ic = s.ic := rfl
@[simp] theorem State.setWindow_par (x y : Int) : (s.setWindow x y).par = s.par := rfl
@[simp] theorem State.setWindow_inbox (x y : Int) : (s.setWindow x y).inbox = s.inbox := rfl
@[simp] theorem State.setWindow_responses (x y : Int) : (s.setWindow x y).responses = s.responses := rfl
@[simp] theorem State.setWindow_out (x y : Int) : (s.setWindow x y).out = s.out := rfl
@[simp] theorem State.setWindow_sink (x y : Int) : (s.setWindow x y).sink = s.sink := rfl
@[simp] theorem State.setWindow_source (x y : Int) : (s.setWindow x y).source = s.source := rfl
@[simp] theorem State.setWindow_taken (x y : Int) : (s.setWindow x y).taken = s.taken := rfl
@[simp] theorem State.setWindow_freeCtr (x y : Int) : (s.setWindow x y).freeCtr = s.freeCtr := rfl

@[simp] theorem State.setLen_mode (x : Word) : (s.setLen x).mode = s.mode := rfl
@[simp] theorem State.setLen_cause (x : Word) : (s.setLen x).cause = s.cause := rfl
@[simp] theorem State.setLen_finfo (x : Word) : (s.setLen x).finfo = s.finfo := rfl
@[simp] theorem State.setLen_low (x : Word) : (s.setLen x).low = s.low := rfl
@[simp] theorem State.setLen_len (x : Word) : (s.setLen x).len = x := rfl
@[simp] theorem State.setLen_cache (x : Word) : (s.setLen x).cache = s.cache := rfl
@[simp] theorem State.setLen_pend (x : Word) : (s.setLen x).pend = s.pend := rfl
@[simp] theorem State.setLen_value (x : Word) : (s.setLen x).value = s.value := rfl
@[simp] theorem State.setLen_sm (x : Word) : (s.setLen x).sm = s.sm := rfl
@[simp] theorem State.setLen_bm (x : Word) : (s.setLen x).bm = s.bm := rfl
@[simp] theorem State.setLen_ic (x : Word) : (s.setLen x).ic = s.ic := rfl
@[simp] theorem State.setLen_par (x : Word) : (s.setLen x).par = s.par := rfl
@[simp] theorem State.setLen_inbox (x : Word) : (s.setLen x).inbox = s.inbox := rfl
@[simp] theorem State.setLen_responses (x : Word) : (s.setLen x).responses = s.responses := rfl
@[simp] theorem State.setLen_out (x : Word) : (s.setLen x).out = s.out := rfl
@[simp] theorem State.setLen_sink (x : Word) : (s.setLen x).sink = s.sink := rfl
@[simp] theorem State.setLen_source (x : Word) : (s.setLen x).source = s.source := rfl
@[simp] theorem State.setLen_taken (x : Word) : (s.setLen x).taken = s.taken := rfl
@[simp] theorem State.setLen_freeCtr (x : Word) : (s.setLen x).freeCtr = s.freeCtr := rfl

@[simp] theorem State.setValue_mode (x : Word) : (s.setValue x).mode = s.mode := rfl
@[simp] theorem State.setValue_cause (x : Word) : (s.setValue x).cause = s.cause := rfl
@[simp] theorem State.setValue_finfo (x : Word) : (s.setValue x).finfo = s.finfo := rfl
@[simp] theorem State.setValue_low (x : Word) : (s.setValue x).low = s.low := rfl
@[simp] theorem State.setValue_len (x : Word) : (s.setValue x).len = s.len := rfl
@[simp] theorem State.setValue_cache (x : Word) : (s.setValue x).cache = s.cache := rfl
@[simp] theorem State.setValue_pend (x : Word) : (s.setValue x).pend = s.pend := rfl
@[simp] theorem State.setValue_value (x : Word) : (s.setValue x).value = x := rfl
@[simp] theorem State.setValue_sm (x : Word) : (s.setValue x).sm = s.sm := rfl
@[simp] theorem State.setValue_bm (x : Word) : (s.setValue x).bm = s.bm := rfl
@[simp] theorem State.setValue_ic (x : Word) : (s.setValue x).ic = s.ic := rfl
@[simp] theorem State.setValue_par (x : Word) : (s.setValue x).par = s.par := rfl
@[simp] theorem State.setValue_inbox (x : Word) : (s.setValue x).inbox = s.inbox := rfl
@[simp] theorem State.setValue_responses (x : Word) : (s.setValue x).responses = s.responses := rfl
@[simp] theorem State.setValue_out (x : Word) : (s.setValue x).out = s.out := rfl
@[simp] theorem State.setValue_sink (x : Word) : (s.setValue x).sink = s.sink := rfl
@[simp] theorem State.setValue_source (x : Word) : (s.setValue x).source = s.source := rfl
@[simp] theorem State.setValue_taken (x : Word) : (s.setValue x).taken = s.taken := rfl
@[simp] theorem State.setValue_freeCtr (x : Word) : (s.setValue x).freeCtr = s.freeCtr := rfl

@[simp] theorem State.setHeld_mode (x : BitVec 33) (y : Byte) (z : Nat) : (s.setHeld x y z).mode = s.mode := rfl
@[simp] theorem State.setHeld_cause (x : BitVec 33) (y : Byte) (z : Nat) : (s.setHeld x y z).cause = s.cause := rfl
@[simp] theorem State.setHeld_finfo (x : BitVec 33) (y : Byte) (z : Nat) : (s.setHeld x y z).finfo = s.finfo := rfl
@[simp] theorem State.setHeld_low (x : BitVec 33) (y : Byte) (z : Nat) : (s.setHeld x y z).low = x := rfl
@[simp] theorem State.setHeld_len (x : BitVec 33) (y : Byte) (z : Nat) : (s.setHeld x y z).len = s.len := rfl
@[simp] theorem State.setHeld_cache (x : BitVec 33) (y : Byte) (z : Nat) : (s.setHeld x y z).cache = y := rfl
@[simp] theorem State.setHeld_pend (x : BitVec 33) (y : Byte) (z : Nat) : (s.setHeld x y z).pend = z := rfl
@[simp] theorem State.setHeld_value (x : BitVec 33) (y : Byte) (z : Nat) : (s.setHeld x y z).value = s.value := rfl
@[simp] theorem State.setHeld_sm (x : BitVec 33) (y : Byte) (z : Nat) : (s.setHeld x y z).sm = s.sm := rfl
@[simp] theorem State.setHeld_bm (x : BitVec 33) (y : Byte) (z : Nat) : (s.setHeld x y z).bm = s.bm := rfl
@[simp] theorem State.setHeld_ic (x : BitVec 33) (y : Byte) (z : Nat) : (s.setHeld x y z).ic = s.ic := rfl
@[simp] theorem State.setHeld_par (x : BitVec 33) (y : Byte) (z : Nat) : (s.setHeld x y z).par = s.par := rfl
@[simp] theorem State.setHeld_inbox (x : BitVec 33) (y : Byte) (z : Nat) : (s.setHeld x y z).inbox = s.inbox := rfl
@[simp] theorem State.setHeld_responses (x : BitVec 33) (y : Byte) (z : Nat) : (s.setHeld x y z).responses = s.responses := rfl
@[simp] theorem State.setHeld_out (x : BitVec 33) (y : Byte) (z : Nat) : (s.setHeld x y z).out = s.out := rfl
@[simp] theorem State.setHeld_sink (x : BitVec 33) (y : Byte) (z : Nat) : (s.setHeld x y z).sink = s.sink := rfl
@[simp] theorem State.setHeld_source (x : BitVec 33) (y : Byte) (z : Nat) : (s.setHeld x y z).source = s.source := rfl
@[simp] theorem State.setHeld_taken (x : BitVec 33) (y : Byte) (z : Nat) : (s.setHeld x y z).taken = s.taken := rfl
@[simp] theorem State.setHeld_freeCtr (x : BitVec 33) (y : Byte) (z : Nat) : (s.setHeld x y z).freeCtr = s.freeCtr := rfl

@[simp] theorem State.setCoder_mode (x : BitVec 33) (y : Word) (z : Byte) (p : Nat) (v : Word) : (s.setCoder x y z p v).mode = s.mode := rfl
@[simp] theorem State.setCoder_cause (x : BitVec 33) (y : Word) (z : Byte) (p : Nat) (v : Word) : (s.setCoder x y z p v).cause = s.cause := rfl
@[simp] theorem State.setCoder_finfo (x : BitVec 33) (y : Word) (z : Byte) (p : Nat) (v : Word) : (s.setCoder x y z p v).finfo = s.finfo := rfl
@[simp] theorem State.setCoder_low (x : BitVec 33) (y : Word) (z : Byte) (p : Nat) (v : Word) : (s.setCoder x y z p v).low = x := rfl
@[simp] theorem State.setCoder_len (x : BitVec 33) (y : Word) (z : Byte) (p : Nat) (v : Word) : (s.setCoder x y z p v).len = y := rfl
@[simp] theorem State.setCoder_cache (x : BitVec 33) (y : Word) (z : Byte) (p : Nat) (v : Word) : (s.setCoder x y z p v).cache = z := rfl
@[simp] theorem State.setCoder_pend (x : BitVec 33) (y : Word) (z : Byte) (p : Nat) (v : Word) : (s.setCoder x y z p v).pend = p := rfl
@[simp] theorem State.setCoder_value (x : BitVec 33) (y : Word) (z : Byte) (p : Nat) (v : Word) : (s.setCoder x y z p v).value = v := rfl
@[simp] theorem State.setCoder_sm (x : BitVec 33) (y : Word) (z : Byte) (p : Nat) (v : Word) : (s.setCoder x y z p v).sm = s.sm := rfl
@[simp] theorem State.setCoder_bm (x : BitVec 33) (y : Word) (z : Byte) (p : Nat) (v : Word) : (s.setCoder x y z p v).bm = s.bm := rfl
@[simp] theorem State.setCoder_ic (x : BitVec 33) (y : Word) (z : Byte) (p : Nat) (v : Word) : (s.setCoder x y z p v).ic = s.ic := rfl
@[simp] theorem State.setCoder_par (x : BitVec 33) (y : Word) (z : Byte) (p : Nat) (v : Word) : (s.setCoder x y z p v).par = s.par := rfl
@[simp] theorem State.setCoder_inbox (x : BitVec 33) (y : Word) (z : Byte) (p : Nat) (v : Word) : (s.setCoder x y z p v).inbox = s.inbox := rfl
@[simp] theorem State.setCoder_responses (x : BitVec 33) (y : Word) (z : Byte) (p : Nat) (v : Word) : (s.setCoder x y z p v).responses = s.responses := rfl
@[simp] theorem State.setCoder_out (x : BitVec 33) (y : Word) (z : Byte) (p : Nat) (v : Word) : (s.setCoder x y z p v).out = s.out := rfl
@[simp] theorem State.setCoder_sink (x : BitVec 33) (y : Word) (z : Byte) (p : Nat) (v : Word) : (s.setCoder x y z p v).sink = s.sink := rfl
@[simp] theorem State.setCoder_source (x : BitVec 33) (y : Word) (z : Byte) (p : Nat) (v : Word) : (s.setCoder x y z p v).source = s.source := rfl
@[simp] theorem State.setCoder_taken (x : BitVec 33) (y : Word) (z : Byte) (p : Nat) (v : Word) : (s.setCoder x y z p v).taken = s.taken := rfl
@[simp] theorem State.setCoder_freeCtr (x : BitVec 33) (y : Word) (z : Byte) (p : Nat) (v : Word) : (s.setCoder x y z p v).freeCtr = s.freeCtr := rfl

@[simp] theorem State.putOut_mode (b : Byte) (r : List PutAnswer) : (s.putOut b r).mode = s.mode := rfl
@[simp] theorem State.putOut_cause (b : Byte) (r : List PutAnswer) : (s.putOut b r).cause = s.cause := rfl
@[simp] theorem State.putOut_finfo (b : Byte) (r : List PutAnswer) : (s.putOut b r).finfo = s.finfo := rfl
@[simp] theorem State.putOut_low (b : Byte) (r : List PutAnswer) : (s.putOut b r).low = s.low := rfl
@[simp] theorem State.putOut_len (b : Byte) (r : List PutAnswer) : (s.putOut b r).len = s.len := rfl
@[simp] theorem State.putOut_cache (b : Byte) (r : List PutAnswer) : (s.putOut b r).cache = s.cache := rfl
@[simp] theorem State.putOut_pend (b : Byte) (r : List PutAnswer) : (s.putOut b r).pend = s.pend := rfl
@[simp] theorem State.putOut_value (b : Byte) (r : List PutAnswer) : (s.putOut b r).value = s.value := rfl
@[simp] theorem State.putOut_sm (b : Byte) (r : List PutAnswer) : (s.putOut b r).sm = s.sm := rfl
@[simp] theorem State.putOut_bm (b : Byte) (r : List PutAnswer) : (s.putOut b r).bm = s.bm := rfl
@[simp] theorem State.putOut_ic (b : Byte) (r : List PutAnswer) : (s.putOut b r).ic = s.ic := rfl
@[simp] theorem State.putOut_par (b : Byte) (r : List PutAnswer) : (s.putOut b r).par = s.par := rfl
@[simp] theorem State.putOut_inbox (b : Byte) (r : List PutAnswer) : (s.putOut b r).inbox = s.inbox := rfl
@[simp] theorem State.putOut_responses (b : Byte) (r : List PutAnswer) : (s.putOut b r).responses = s.responses := rfl
@[simp] theorem State.putOut_out (b : Byte) (r : List PutAnswer) : (s.putOut b r).out = s.out ++ [b] := rfl
@[simp] theorem State.putOut_sink (b : Byte) (r : List PutAnswer) : (s.putOut b r).sink = r := rfl
@[simp] theorem State.putOut_source (b : Byte) (r : List PutAnswer) : (s.putOut b r).source = s.source := rfl
@[simp] theorem State.putOut_taken (b : Byte) (r : List PutAnswer) : (s.putOut b r).taken = s.taken := rfl
@[simp] theorem State.putOut_freeCtr (b : Byte) (r : List PutAnswer) : (s.putOut b r).freeCtr = s.freeCtr := rfl

@[simp] theorem State.setSink_mode (r : List PutAnswer) : (s.setSink r).mode = s.mode := rfl
@[simp] theorem State.setSink_cause (r : List PutAnswer) : (s.setSink r).cause = s.cause := rfl
@[simp] theorem State.setSink_finfo (r : List PutAnswer) : (s.setSink r).finfo = s.finfo := rfl
@[simp] theorem State.setSink_low (r : List PutAnswer) : (s.setSink r).low = s.low := rfl
@[simp] theorem State.setSink_len (r : List PutAnswer) : (s.setSink r).len = s.len := rfl
@[simp] theorem State.setSink_cache (r : List PutAnswer) : (s.setSink r).cache = s.cache := rfl
@[simp] theorem State.setSink_pend (r : List PutAnswer) : (s.setSink r).pend = s.pend := rfl
@[simp] theorem State.setSink_value (r : List PutAnswer) : (s.setSink r).value = s.value := rfl
@[simp] theorem State.setSink_sm (r : List PutAnswer) : (s.setSink r).sm = s.sm := rfl
@[simp] theorem State.setSink_bm (r : List PutAnswer) : (s.setSink r).bm = s.bm := rfl
@[simp] theorem State.setSink_ic (r : List PutAnswer) : (s.setSink r).ic = s.ic := rfl
@[simp] theorem State.setSink_par (r : List PutAnswer) : (s.setSink r).par = s.par := rfl
@[simp] theorem State.setSink_inbox (r : List PutAnswer) : (s.setSink r).inbox = s.inbox := rfl
@[simp] theorem State.setSink_responses (r : List PutAnswer) : (s.setSink r).responses = s.responses := rfl
@[simp] theorem State.setSink_out (r : List PutAnswer) : (s.setSink r).out = s.out := rfl
@[simp] theorem State.setSink_sink (r : List PutAnswer) : (s.setSink r).sink = r := rfl
@[simp] theorem State.setSink_source (r : List PutAnswer) : (s.setSink r).source = s.source := rfl
@[simp] theorem State.setSink_taken (r : List PutAnswer) : (s.setSink r).taken = s.taken := rfl
@[simp] theorem State.setSink_freeCtr (r : List PutAnswer) : (s.setSink r).freeCtr = s.freeCtr := rfl

@[simp] theorem State.setSource_mode (r : List GetAnswer) : (s.setSource r).mode = s.mode := rfl
@[simp] theorem State.setSource_cause (r : List GetAnswer) : (s.setSource r).cause = s.cause := rfl
@[simp] theorem State.setSource_finfo (r : List GetAnswer) : (s.setSource r).finfo = s.finfo := rfl
@[simp] theorem State.setSource_low (r : List GetAnswer) : (s.setSource r).low = s.low := rfl
@[simp] theorem State.setSource_len (r : List GetAnswer) : (s.setSource r).len = s.len := rfl
@[simp] theorem State.setSource_cache (r : List GetAnswer) : (s.setSource r).cache = s.cache := rfl
@[simp] theorem State.setSource_pend (r : List GetAnswer) : (s.setSource r).pend = s.pend := rfl
@[simp] theorem State.setSource_value (r : List GetAnswer) : (s.setSource r).value = s.value := rfl
@[simp] theorem State.setSource_sm (r : List GetAnswer) : (s.setSource r).sm = s.sm := rfl
@[simp] theorem State.setSource_bm (r : List GetAnswer) : (s.setSource r).bm = s.bm := rfl
@[simp] theorem State.setSource_ic (r : List GetAnswer) : (s.setSource r).ic = s.ic := rfl
@[simp] theorem State.setSource_par (r : List GetAnswer) : (s.setSource r).par = s.par := rfl
@[simp] theorem State.setSource_inbox (r : List GetAnswer) : (s.setSource r).inbox = s.inbox := rfl
@[simp] theorem State.setSource_responses (r : List GetAnswer) : (s.setSource r).responses = s.responses := rfl
@[simp] theorem State.setSource_out (r : List GetAnswer) : (s.setSource r).out = s.out := rfl
@[simp] theorem State.setSource_sink (r : List GetAnswer) : (s.setSource r).sink = s.sink := rfl
@[simp] theorem State.setSource_source (r : List GetAnswer) : (s.setSource r).source = r := rfl
@[simp] theorem State.setSource_taken (r : List GetAnswer) : (s.setSource r).taken = s.taken := rfl
@[simp] theorem State.setSource_freeCtr (r : List GetAnswer) : (s.setSource r).freeCtr = s.freeCtr := rfl

@[simp] theorem State.setInbox_mode (r : List HostEvent) : (s.setInbox r).mode = s.mode := rfl
@[simp] theorem State.setInbox_cause (r : List HostEvent) : (s.setInbox r).cause = s.cause := rfl
@[simp] theorem State.setInbox_finfo (r : List HostEvent) : (s.setInbox r).finfo = s.finfo := rfl
@[simp] theorem State.setInbox_low (r : List HostEvent) : (s.setInbox r).low = s.low := rfl
@[simp] theorem State.setInbox_len (r : List HostEvent) : (s.setInbox r).len = s.len := rfl
@[simp] theorem State.setInbox_cache (r : List HostEvent) : (s.setInbox r).cache = s.cache := rfl
@[simp] theorem State.setInbox_pend (r : List HostEvent) : (s.setInbox r).pend = s.pend := rfl
@[simp] theorem State.setInbox_value (r : List HostEvent) : (s.setInbox r).value = s.value := rfl
@[simp] theorem State.setInbox_sm (r : List HostEvent) : (s.setInbox r).sm = s.sm := rfl
@[simp] theorem State.setInbox_bm (r : List HostEvent) : (s.setInbox r).bm = s.bm := rfl
@[simp] theorem State.setInbox_ic (r : List HostEvent) : (s.setInbox r).ic = s.ic := rfl
@[simp] theorem State.setInbox_par (r : List HostEvent) : (s.setInbox r).par = s.par := rfl
@[simp] theorem State.setInbox_inbox (r : List HostEvent) : (s.setInbox r).inbox = r := rfl
@[simp] theorem State.setInbox_responses (r : List HostEvent) : (s.setInbox r).responses = s.responses := rfl
@[simp] theorem State.setInbox_out (r : List HostEvent) : (s.setInbox r).out = s.out := rfl
@[simp] theorem State.setInbox_sink (r : List HostEvent) : (s.setInbox r).sink = s.sink := rfl
@[simp] theorem State.setInbox_source (r : List HostEvent) : (s.setInbox r).source = s.source := rfl
@[simp] theorem State.setInbox_taken (r : List HostEvent) : (s.setInbox r).taken = s.taken := rfl
@[simp] theorem State.setInbox_freeCtr (r : List HostEvent) : (s.setInbox r).freeCtr = s.freeCtr := rfl

@[simp] theorem State.tookIn_mode (r : List GetAnswer) : (s.tookIn r).mode = s.mode := rfl
@[simp] theorem State.tookIn_cause (r : List GetAnswer) : (s.tookIn r).cause = s.cause := rfl
@[simp] theorem State.tookIn_finfo (r : List GetAnswer) : (s.tookIn r).finfo = s.finfo := rfl
@[simp] theorem State.tookIn_low (r : List GetAnswer) : (s.tookIn r).low = s.low := rfl
@[simp] theorem State.tookIn_len (r : List GetAnswer) : (s.tookIn r).len = s.len := rfl
@[simp] theorem State.tookIn_cache (r : List GetAnswer) : (s.tookIn r).cache = s.cache := rfl
@[simp] theorem State.tookIn_pend (r : List GetAnswer) : (s.tookIn r).pend = s.pend := rfl
@[simp] theorem State.tookIn_value (r : List GetAnswer) : (s.tookIn r).value = s.value := rfl
@[simp] theorem State.tookIn_sm (r : List GetAnswer) : (s.tookIn r).sm = s.sm := rfl
@[simp] theorem State.tookIn_bm (r : List GetAnswer) : (s.tookIn r).bm = s.bm := rfl
@[simp] theorem State.tookIn_ic (r : List GetAnswer) : (s.tookIn r).ic = s.ic := rfl
@[simp] theorem State.tookIn_par (r : List GetAnswer) : (s.tookIn r).par = s.par := rfl
@[simp] theorem State.tookIn_inbox (r : List GetAnswer) : (s.tookIn r).inbox = s.inbox := rfl
@[simp] theorem State.tookIn_responses (r : List GetAnswer) : (s.tookIn r).responses = s.responses := rfl
@[simp] theorem State.tookIn_out (r : List GetAnswer) : (s.tookIn r).out = s.out := rfl
@[simp] theorem State.tookIn_sink (r : List GetAnswer) : (s.tookIn r).sink = s.sink := rfl
@[simp] theorem State.tookIn_source (r : List GetAnswer) : (s.tookIn r).source = r := rfl
@[simp] theorem State.tookIn_taken (r : List GetAnswer) : (s.tookIn r).taken = s.taken + 1 := rfl
@[simp] theorem State.tookIn_freeCtr (r : List GetAnswer) : (s.tookIn r).freeCtr = s.freeCtr := rfl

@[simp] theorem State.respond_mode (st : Status) (v : Word) : (s.respond st v).mode = s.mode := rfl
@[simp] theorem State.respond_cause (st : Status) (v : Word) : (s.respond st v).cause = s.cause := rfl
@[simp] theorem State.respond_finfo (st : Status) (v : Word) : (s.respond st v).finfo = s.finfo := rfl
@[simp] theorem State.respond_low (st : Status) (v : Word) : (s.respond st v).low = s.low := rfl
@[simp] theorem State.respond_len (st : Status) (v : Word) : (s.respond st v).len = s.len := rfl
@[simp] theorem State.respond_cache (st : Status) (v : Word) : (s.respond st v).cache = s.cache := rfl
@[simp] theorem State.respond_pend (st : Status) (v : Word) : (s.respond st v).pend = s.pend := rfl
@[simp] theorem State.respond_value (st : Status) (v : Word) : (s.respond st v).value = s.value := rfl
@[simp] theorem State.respond_sm (st : Status) (v : Word) : (s.respond st v).sm = s.sm := rfl
@[simp] theorem State.respond_bm (st : Status) (v : Word) : (s.respond st v).bm = s.bm := rfl
@[simp] theorem State.respond_ic (st : Status) (v : Word) : (s.respond st v).ic = s.ic := rfl
@[simp] theorem State.respond_par (st : Status) (v : Word) : (s.respond st v).par = s.par := rfl
@[simp] theorem State.respond_inbox (st : Status) (v : Word) : (s.respond st v).inbox = s.inbox := rfl
@[simp] theorem State.respond_responses (st : Status) (v : Word) : (s.respond st v).responses = s.responses ++ [⟨st, v⟩] := rfl
@[simp] theorem State.respond_out (st : Status) (v : Word) : (s.respond st v).out = s.out := rfl
@[simp] theorem State.respond_sink (st : Status) (v : Word) : (s.respond st v).sink = s.sink := rfl
@[simp] theorem State.respond_source (st : Status) (v : Word) : (s.respond st v).source = s.source := rfl
@[simp] theorem State.respond_taken (st : Status) (v : Word) : (s.respond st v).taken = s.taken := rfl
@[simp] theorem State.respond_freeCtr (st : Status) (v : Word) : (s.respond st v).freeCtr = s.freeCtr := rfl

@[simp] theorem State.setBm_smAt (b : Nat) (x : BmSlot) (j : Nat) : (s.setBm b x).smAt j = s.smAt j := rfl
@[simp] theorem State.setIc_smAt (i : Nat) (x : IcInst) (j : Nat) : (s.setIc i x).smAt j = s.smAt j := rfl
@[simp] theorem State.setMode_smAt (x : Mode) (j : Nat) : (s.setMode x).smAt j = s.smAt j := rfl
@[simp] theorem State.setInterval_smAt (x y : Int) (j : Nat) : (s.setInterval x y).smAt j = s.smAt j := rfl
@[simp] theorem State.setWindow_smAt (x y : Int) (j : Nat) : (s.setWindow x y).smAt j = s.smAt j := rfl
@[simp] theorem State.setLen_smAt (x : Word) (j : Nat) : (s.setLen x).smAt j = s.smAt j := rfl
@[simp] theorem State.setValue_smAt (x : Word) (j : Nat) : (s.setValue x).smAt j = s.smAt j := rfl
@[simp] theorem State.setHeld_smAt (x : BitVec 33) (y : Byte) (z : Nat) (j : Nat) : (s.setHeld x y z).smAt j = s.smAt j := rfl
@[simp] theorem State.setCoder_smAt (x : BitVec 33) (y : Word) (z : Byte) (p : Nat) (v : Word) (j : Nat) : (s.setCoder x y z p v).smAt j = s.smAt j := rfl
@[simp] theorem State.putOut_smAt (b : Byte) (r : List PutAnswer) (j : Nat) : (s.putOut b r).smAt j = s.smAt j := rfl
@[simp] theorem State.setSink_smAt (r : List PutAnswer) (j : Nat) : (s.setSink r).smAt j = s.smAt j := rfl
@[simp] theorem State.setSource_smAt (r : List GetAnswer) (j : Nat) : (s.setSource r).smAt j = s.smAt j := rfl
@[simp] theorem State.setInbox_smAt (r : List HostEvent) (j : Nat) : (s.setInbox r).smAt j = s.smAt j := rfl
@[simp] theorem State.tookIn_smAt (r : List GetAnswer) (j : Nat) : (s.tookIn r).smAt j = s.smAt j := rfl
@[simp] theorem State.respond_smAt (st : Status) (v : Word) (j : Nat) : (s.respond st v).smAt j = s.smAt j := rfl

@[simp] theorem State.setSm_bmAt (m : Nat) (x : SmSlot) (j : Nat) : (s.setSm m x).bmAt j = s.bmAt j := rfl
@[simp] theorem State.setIc_bmAt (i : Nat) (x : IcInst) (j : Nat) : (s.setIc i x).bmAt j = s.bmAt j := rfl
@[simp] theorem State.setMode_bmAt (x : Mode) (j : Nat) : (s.setMode x).bmAt j = s.bmAt j := rfl
@[simp] theorem State.setInterval_bmAt (x y : Int) (j : Nat) : (s.setInterval x y).bmAt j = s.bmAt j := rfl
@[simp] theorem State.setWindow_bmAt (x y : Int) (j : Nat) : (s.setWindow x y).bmAt j = s.bmAt j := rfl
@[simp] theorem State.setLen_bmAt (x : Word) (j : Nat) : (s.setLen x).bmAt j = s.bmAt j := rfl
@[simp] theorem State.setValue_bmAt (x : Word) (j : Nat) : (s.setValue x).bmAt j = s.bmAt j := rfl
@[simp] theorem State.setHeld_bmAt (x : BitVec 33) (y : Byte) (z : Nat) (j : Nat) : (s.setHeld x y z).bmAt j = s.bmAt j := rfl
@[simp] theorem State.setCoder_bmAt (x : BitVec 33) (y : Word) (z : Byte) (p : Nat) (v : Word) (j : Nat) : (s.setCoder x y z p v).bmAt j = s.bmAt j := rfl
@[simp] theorem State.putOut_bmAt (b : Byte) (r : List PutAnswer) (j : Nat) : (s.putOut b r).bmAt j = s.bmAt j := rfl
@[simp] theorem State.setSink_bmAt (r : List PutAnswer) (j : Nat) : (s.setSink r).bmAt j = s.bmAt j := rfl
@[simp] theorem State.setSource_bmAt (r : List GetAnswer) (j : Nat) : (s.setSource r).bmAt j = s.bmAt j := rfl
@[simp] theorem State.setInbox_bmAt (r : List HostEvent) (j : Nat) : (s.setInbox r).bmAt j = s.bmAt j := rfl
@[simp] theorem State.tookIn_bmAt (r : List GetAnswer) (j : Nat) : (s.tookIn r).bmAt j = s.bmAt j := rfl
@[simp] theorem State.respond_bmAt (st : Status) (v : Word) (j : Nat) : (s.respond st v).bmAt j = s.bmAt j := rfl

@[simp] theorem State.setSm_icAt (m : Nat) (x : SmSlot) (j : Nat) : (s.setSm m x).icAt j = s.icAt j := rfl
@[simp] theorem State.setBm_icAt (b : Nat) (x : BmSlot) (j : Nat) : (s.setBm b x).icAt j = s.icAt j := rfl
@[simp] theorem State.setMode_icAt (x : Mode) (j : Nat) : (s.setMode x).icAt j = s.icAt j := rfl
@[simp] theorem State.setInterval_icAt (x y : Int) (j : Nat) : (s.setInterval x y).icAt j = s.icAt j := rfl
@[simp] theorem State.setWindow_icAt (x y : Int) (j : Nat) : (s.setWindow x y).icAt j = s.icAt j := rfl
@[simp] theorem State.setLen_icAt (x : Word) (j : Nat) : (s.setLen x).icAt j = s.icAt j := rfl
@[simp] theorem State.setValue_icAt (x : Word) (j : Nat) : (s.setValue x).icAt j = s.icAt j := rfl
@[simp] theorem State.setHeld_icAt (x : BitVec 33) (y : Byte) (z : Nat) (j : Nat) : (s.setHeld x y z).icAt j = s.icAt j := rfl
@[simp] theorem State.setCoder_icAt (x : BitVec 33) (y : Word) (z : Byte) (p : Nat) (v : Word) (j : Nat) : (s.setCoder x y z p v).icAt j = s.icAt j := rfl
@[simp] theorem State.putOut_icAt (b : Byte) (r : List PutAnswer) (j : Nat) : (s.putOut b r).icAt j = s.icAt j := rfl
@[simp] theorem State.setSink_icAt (r : List PutAnswer) (j : Nat) : (s.setSink r).icAt j = s.icAt j := rfl
@[simp] theorem State.setSource_icAt (r : List GetAnswer) (j : Nat) : (s.setSource r).icAt j = s.icAt j := rfl
@[simp] theorem State.setInbox_icAt (r : List HostEvent) (j : Nat) : (s.setInbox r).icAt j = s.icAt j := rfl
@[simp] theorem State.tookIn_icAt (r : List GetAnswer) (j : Nat) : (s.tookIn r).icAt j = s.icAt j := rfl
@[simp] theorem State.respond_icAt (st : Status) (v : Word) (j : Nat) : (s.respond st v).icAt j = s.icAt j := rfl

@[simp] theorem State.setSm_carry (m : Nat) (x : SmSlot) : (s.setSm m x).carry = s.carry := rfl
@[simp] theorem State.setSm_carryNat (m : Nat) (x : SmSlot) : (s.setSm m x).carryNat = s.carryNat := rfl
@[simp] theorem State.setBm_carry (b : Nat) (x : BmSlot) : (s.setBm b x).carry = s.carry := rfl
@[simp] theorem State.setBm_carryNat (b : Nat) (x : BmSlot) : (s.setBm b x).carryNat = s.carryNat := rfl
@[simp] theorem State.setIc_carry (i : Nat) (x : IcInst) : (s.setIc i x).carry = s.carry := rfl
@[simp] theorem State.setIc_carryNat (i : Nat) (x : IcInst) : (s.setIc i x).carryNat = s.carryNat := rfl
@[simp] theorem State.setMode_carry (x : Mode) : (s.setMode x).carry = s.carry := rfl
@[simp] theorem State.setMode_carryNat (x : Mode) : (s.setMode x).carryNat = s.carryNat := rfl
@[simp] theorem State.setWindow_carry (x y : Int) : (s.setWindow x y).carry = s.carry := rfl
@[simp] theorem State.setWindow_carryNat (x y : Int) : (s.setWindow x y).carryNat = s.carryNat := rfl
@[simp] theorem State.setLen_carry (x : Word) : (s.setLen x).carry = s.carry := rfl
@[simp] theorem State.setLen_carryNat (x : Word) : (s.setLen x).carryNat = s.carryNat := rfl
@[simp] theorem State.setValue_carry (x : Word) : (s.setValue x).carry = s.carry := rfl
@[simp] theorem State.setValue_carryNat (x : Word) : (s.setValue x).carryNat = s.carryNat := rfl
@[simp] theorem State.putOut_carry (b : Byte) (r : List PutAnswer) : (s.putOut b r).carry = s.carry := rfl
@[simp] theorem State.putOut_carryNat (b : Byte) (r : List PutAnswer) : (s.putOut b r).carryNat = s.carryNat := rfl
@[simp] theorem State.setSink_carry (r : List PutAnswer) : (s.setSink r).carry = s.carry := rfl
@[simp] theorem State.setSink_carryNat (r : List PutAnswer) : (s.setSink r).carryNat = s.carryNat := rfl
@[simp] theorem State.setSource_carry (r : List GetAnswer) : (s.setSource r).carry = s.carry := rfl
@[simp] theorem State.setSource_carryNat (r : List GetAnswer) : (s.setSource r).carryNat = s.carryNat := rfl
@[simp] theorem State.setInbox_carry (r : List HostEvent) : (s.setInbox r).carry = s.carry := rfl
@[simp] theorem State.setInbox_carryNat (r : List HostEvent) : (s.setInbox r).carryNat = s.carryNat := rfl
@[simp] theorem State.tookIn_carry (r : List GetAnswer) : (s.tookIn r).carry = s.carry := rfl
@[simp] theorem State.tookIn_carryNat (r : List GetAnswer) : (s.tookIn r).carryNat = s.carryNat := rfl
@[simp] theorem State.respond_carry (st : Status) (v : Word) : (s.respond st v).carry = s.carry := rfl
@[simp] theorem State.respond_carryNat (st : Status) (v : Word) : (s.respond st v).carryNat = s.carryNat := rfl

/-- `resetBlock` leaves what is outside the block alone. -/
@[simp] theorem resetBlock_par : (resetBlock s).par = s.par := rfl
@[simp] theorem resetBlock_inbox : (resetBlock s).inbox = s.inbox := rfl
@[simp] theorem resetBlock_responses : (resetBlock s).responses = s.responses := rfl
@[simp] theorem resetBlock_out : (resetBlock s).out = s.out := rfl
@[simp] theorem resetBlock_sink : (resetBlock s).sink = s.sink := rfl
@[simp] theorem resetBlock_source : (resetBlock s).source = s.source := rfl
@[simp] theorem resetBlock_taken : (resetBlock s).taken = s.taken := rfl
@[simp] theorem resetBlock_mode : (resetBlock s).mode = .idle := rfl
@[simp] theorem resetBlock_cause : (resetBlock s).cause = 0 := rfl
@[simp] theorem resetBlock_finfo : (resetBlock s).finfo = 0 := rfl
@[simp] theorem resetBlock_low : (resetBlock s).low = 0 := rfl
@[simp] theorem resetBlock_len : (resetBlock s).len = 0 := rfl
@[simp] theorem resetBlock_cache : (resetBlock s).cache = 0 := rfl
@[simp] theorem resetBlock_pend : (resetBlock s).pend = 0 := rfl
@[simp] theorem resetBlock_value : (resetBlock s).value = 0 := rfl
@[simp] theorem resetBlock_sm : (resetBlock s).sm = (List.range s.par.nsm).map (s.freeSm false) := rfl
@[simp] theorem resetBlock_bm : (resetBlock s).bm = (List.range s.par.nbm).map (s.freeBm false) := rfl
@[simp] theorem resetBlock_ic : (resetBlock s).ic = List.replicate s.par.nic IcInst.reset := rfl

@[simp] theorem takeFault_mode (e : Sticky) (c : Word) : (takeFault s e c).mode = .fault := rfl
@[simp] theorem takeFault_cause (e : Sticky) (c : Word) :
    (takeFault s e c).cause = BitVec.ofNat 8 e.status.code := rfl
@[simp] theorem takeFault_finfo (e : Sticky) (c : Word) : (takeFault s e c).finfo = c := rfl
@[simp] theorem takeFault_responses (e : Sticky) (c : Word) :
    (takeFault s e c).responses = s.responses ++ [⟨e.status, 0⟩] := rfl
@[simp] theorem takeFault_par (e : Sticky) (c : Word) : (takeFault s e c).par = s.par := rfl
@[simp] theorem takeFault_inbox (e : Sticky) (c : Word) : (takeFault s e c).inbox = s.inbox := rfl
@[simp] theorem takeFault_out (e : Sticky) (c : Word) : (takeFault s e c).out = s.out := rfl
@[simp] theorem takeFault_sink (e : Sticky) (c : Word) : (takeFault s e c).sink = s.sink := rfl
@[simp] theorem takeFault_source (e : Sticky) (c : Word) : (takeFault s e c).source = s.source := rfl
@[simp] theorem takeFault_taken (e : Sticky) (c : Word) : (takeFault s e c).taken = s.taken := rfl

/-! What an observer has seen, after each update (R305). -/

@[simp] theorem State.setSm_seen (m : Nat) (x : SmSlot) : (s.setSm m x).seen = s.seen := rfl
@[simp] theorem State.setBm_seen (b : Nat) (x : BmSlot) : (s.setBm b x).seen = s.seen := rfl
@[simp] theorem State.setIc_seen (i : Nat) (x : IcInst) : (s.setIc i x).seen = s.seen := rfl
@[simp] theorem State.setMode_seen (x : Mode) : (s.setMode x).seen = s.seen := rfl
@[simp] theorem State.setInterval_seen (x y : Int) : (s.setInterval x y).seen = s.seen := rfl
@[simp] theorem State.setWindow_seen (x y : Int) : (s.setWindow x y).seen = s.seen := rfl
@[simp] theorem State.setLen_seen (x : Word) : (s.setLen x).seen = s.seen := rfl
@[simp] theorem State.setValue_seen (x : Word) : (s.setValue x).seen = s.seen := rfl
@[simp] theorem State.setHeld_seen (x : BitVec 33) (y : Byte) (z : Nat) : (s.setHeld x y z).seen = s.seen := rfl
@[simp] theorem State.setCoder_seen (x : BitVec 33) (y : Word) (z : Byte) (p : Nat) (v : Word) :
    (s.setCoder x y z p v).seen = s.seen := rfl
@[simp] theorem State.putOut_seen (b : Byte) (r : List PutAnswer) :
    (s.putOut b r).seen = { s.seen with out := s.out ++ [b] } := rfl
@[simp] theorem State.setSink_seen (r : List PutAnswer) : (s.setSink r).seen = s.seen := rfl
@[simp] theorem State.setSource_seen (r : List GetAnswer) : (s.setSource r).seen = s.seen := rfl
@[simp] theorem State.setInbox_seen (r : List HostEvent) : (s.setInbox r).seen = s.seen := rfl
@[simp] theorem State.tookIn_seen (r : List GetAnswer) :
    (s.tookIn r).seen = { s.seen with taken := s.taken + 1 } := rfl
@[simp] theorem State.respond_seen (st : Status) (v : Word) :
    (s.respond st v).seen = { s.seen with responses := s.responses ++ [⟨st, v⟩] } := rfl
@[simp] theorem resetBlock_seen : (resetBlock s).seen = s.seen := rfl
@[simp] theorem takeFault_seen (e : Sticky) (c : Word) :
    (takeFault s e c).seen = { s.seen with responses := s.responses ++ [⟨e.status, 0⟩] } := rfl

end Sys2Proof.Machine
end

