-- ==== Sys2Proof/Laws/Files.lean ====
section
/-! SUPPORT. The register files: what a slot reads after a slot was written, and what holds of every slot that is read. -/

namespace Sys2Proof.Machine

open Sys2Proof

/-- The slot just written, read back. -/
theorem State.smAt_setSm_self {s : State} {m : Nat} (x : SmSlot) (h : m < s.sm.length) : (s.setSm m x).smAt m = x := by
  simp [State.smAt, State.setSm, List.getD_eq_getElem?_getD, h]

/-- The other slots are as they were. -/
theorem State.smAt_setSm_ne {s : State} {m j : Nat} (x : SmSlot) (h : j ≠ m) : (s.setSm m x).smAt j = s.smAt j := by
  simp [State.smAt, State.setSm, List.getD_eq_getElem?_getD, List.getElem?_set_ne (Ne.symm h)]

theorem State.bmAt_setBm_self {s : State} {b : Nat} (x : BmSlot) (h : b < s.bm.length) : (s.setBm b x).bmAt b = x := by
  simp [State.bmAt, State.setBm, List.getD_eq_getElem?_getD, h]

theorem State.bmAt_setBm_ne {s : State} {b j : Nat} (x : BmSlot) (h : j ≠ b) : (s.setBm b x).bmAt j = s.bmAt j := by
  simp [State.bmAt, State.setBm, List.getD_eq_getElem?_getD, List.getElem?_set_ne (Ne.symm h)]

theorem State.icAt_setIc_self {s : State} {i : Nat} (x : IcInst) (h : i < s.ic.length) : (s.setIc i x).icAt i = x := by
  simp [State.icAt, State.setIc, List.getD_eq_getElem?_getD, h]

theorem State.icAt_setIc_ne {s : State} {i j : Nat} (x : IcInst) (h : j ≠ i) : (s.setIc i x).icAt j = s.icAt j := by
  simp [State.icAt, State.setIc, List.getD_eq_getElem?_getD, List.getElem?_set_ne (Ne.symm h)]

/-- A valid slot is a slot of the file. -/
theorem State.smAt_lt {s : State} {m : Nat} (h : (s.smAt m).valid = true) : m < s.sm.length := by
  by_contra hm
  simp [State.smAt, List.getD_eq_getElem?_getD, List.getElem?_eq_none (Nat.le_of_not_lt hm), SmSlot.reset] at h

theorem State.bmAt_lt {s : State} {b : Nat} (h : (s.bmAt b).valid = true) : b < s.bm.length := by
  by_contra hm
  simp [State.bmAt, List.getD_eq_getElem?_getD, List.getElem?_eq_none (Nat.le_of_not_lt hm), BmSlot.reset] at h

theorem State.smAt_mem {s : State} {m : Nat} (h : m < s.sm.length) : s.smAt m ∈ s.sm := by
  simp [State.smAt, List.getD_eq_getElem?_getD, h]

theorem State.bmAt_mem {s : State} {b : Nat} (h : b < s.bm.length) : s.bmAt b ∈ s.bm := by
  simp [State.bmAt, List.getD_eq_getElem?_getD, h]

theorem State.icAt_mem {s : State} {i : Nat} (h : i < s.ic.length) : s.icAt i ∈ s.ic := by
  simp [State.icAt, List.getD_eq_getElem?_getD, h]

/-- Every symbol slot that is read is as R34 says. -/
theorem State.FilesOk.smAt {s : State} (h : s.FilesOk) (m : Nat) : (s.smAt m).Ok s.par := by
  by_cases hm : m < s.sm.length
  · exact h.1 _ (State.smAt_mem hm)
  · intro hv; exact absurd (State.smAt_lt hv) hm

/-- Every bit slot that is read is as R36 says. -/
theorem State.FilesOk.bmAt {s : State} (h : s.FilesOk) (b : Nat) : (s.bmAt b).Ok s.par := by
  by_cases hb : b < s.bm.length
  · exact h.2.1 _ (State.bmAt_mem hb)
  · intro hv; exact absurd (State.bmAt_lt hv) hb

/-- Every instance that is read is as R37 says. -/
theorem State.FilesOk.icAt {s : State} (h : s.FilesOk) (i : Nat) : (s.icAt i).Ok s.par := by
  by_cases hi : i < s.ic.length
  · exact h.2.2 _ (State.icAt_mem hi)
  · have : s.icAt i = IcInst.reset := by
      simp [State.icAt, List.getD_eq_getElem?_getD, List.getElem?_eq_none (Nat.le_of_not_lt hi)]
    rw [this]
    rfl

/-- Writing a proper symbol slot keeps the files proper. -/
theorem State.FilesOk.setSm {s : State} (h : s.FilesOk) {m : Nat} {x : SmSlot} (hx : x.Ok s.par) :
    (s.setSm m x).FilesOk := by
  refine ⟨fun sl hsl => ?_, h.2⟩
  rcases List.mem_or_eq_of_mem_set hsl with h' | rfl
  · exact h.1 _ h'
  · exact hx

theorem State.FilesOk.setBm {s : State} (h : s.FilesOk) {b : Nat} {x : BmSlot} (hx : x.Ok s.par) :
    (s.setBm b x).FilesOk := by
  refine ⟨h.1, fun sl hsl => ?_, h.2.2⟩
  rcases List.mem_or_eq_of_mem_set hsl with h' | rfl
  · exact h.2.1 _ h'
  · exact hx

theorem State.FilesOk.setIc {s : State} (h : s.FilesOk) {i : Nat} {x : IcInst} (hx : x.Ok s.par) :
    (s.setIc i x).FilesOk := by
  refine ⟨h.1, h.2.1, fun inst hi => ?_⟩
  rcases List.mem_or_eq_of_mem_set hi with h' | rfl
  · exact h.2.2 _ h'
  · exact hx

end Sys2Proof.Machine
end

