-- ==== Sys2Proof/Laws/Run.lean ====
section
/-! SUPPORT. How runs of procedures compose, and a triple for them: what holds if they return, where they can be left
early, and how they can stop. -/

namespace Sys2Proof.Machine

open Sys2Proof

variable {α β : Type}

@[simp] theorem Run.bind_done (a : α) (s : State) (f : α → State → Run β) : (Run.done a s).bind f = f a s := rfl
@[simp] theorem Run.bind_raised (e : Sticky) (s : State) (f : α → State → Run β) :
    (Run.raised e s : Run α).bind f = .raised e s := rfl
@[simp] theorem Run.bind_aborted (s : State) (f : α → State → Run β) : (Run.aborted s : Run α).bind f = .aborted s := rfl
@[simp] theorem Run.bind_stopped (g : Fault) (f : α → State → Run β) : (Run.stopped g : Run α).bind f = .stopped g := rfl

/-- A composite returned exactly if its parts did. -/
theorem Run.bind_eq_done {r : Run α} {f : α → State → Run β} {b : β} {t : State} :
    r.bind f = .done b t ↔ ∃ a s, r = .done a s ∧ f a s = .done b t := by
  cases r <;> simp

/-- Binding is associative. -/
theorem Run.bind_assoc {γ : Type} (r : Run α) (f : α → State → Run β) (g : β → State → Run γ) :
    (r.bind f).bind g = r.bind fun a s => (f a s).bind g := by
  cases r <;> rfl

/-- The machine stopped because the byte stream never answers (R64). -/
def Fault.Silent (f : Fault) : Prop := ∃ seen, f = .streamSilent seen

/-- The triple of a run: `P` of what it returns, `Q` of the state in which it is left early, `R` of why it never ends. -/
def Run.Sat (r : Run α) (P : α → State → Prop) (Q : State → Prop) (R : Fault → Prop) : Prop :=
  match r with
  | .done a s => P a s
  | .raised _ s => Q s
  | .aborted s => Q s
  | .stopped f => R f

/-- The triple of a composite. -/
theorem Run.Sat.bind {r : Run α} {f : α → State → Run β} {P : α → State → Prop} {P' : β → State → Prop}
    {Q : State → Prop} {R : Fault → Prop} (h : r.Sat P Q R) (hf : ∀ a s, P a s → (f a s).Sat P' Q R) :
    (r.bind f).Sat P' Q R := by
  cases r with
  | done a s => exact hf a s h
  | raised e s => exact h
  | aborted s => exact h
  | stopped g => exact h

/-- A triple with a weaker conclusion. -/
theorem Run.Sat.mono {r : Run α} {P P' : α → State → Prop} {Q Q' : State → Prop} {R R' : Fault → Prop}
    (h : r.Sat P Q R) (hP : ∀ a s, P a s → P' a s) (hQ : ∀ s, Q s → Q' s) (hR : ∀ f, R f → R' f) : r.Sat P' Q' R' := by
  cases r with
  | done a s => exact hP a s h
  | raised e s => exact hQ s h
  | aborted s => exact hQ s h
  | stopped g => exact hR g h

/-- What a procedure leaves alone wherever it ends: the parameters, the host's side and the free counter, and the slots and
instances that name nothing of a byte transfer. -/
def State.Around (s t : State) : Prop :=
  t.par = s.par ∧ t.inbox = s.inbox ∧ t.responses = s.responses ∧ t.freeCtr = s.freeCtr ∧ t.mode = s.mode ∧
  t.cause = s.cause ∧ t.finfo = s.finfo

theorem State.Around.refl (s : State) : s.Around s := ⟨rfl, rfl, rfl, rfl, rfl, rfl, rfl⟩

theorem State.Around.trans {s t u : State} (h : s.Around t) (h' : t.Around u) : s.Around u := by
  obtain ⟨a, b, c, d, e, f, g⟩ := h
  obtain ⟨a', b', c', d', e', f', g'⟩ := h'
  exact ⟨a'.trans a, b'.trans b, c'.trans c, d'.trans d, e'.trans e, f'.trans f, g'.trans g⟩

end Sys2Proof.Machine
end

