-- ==== Sys2Proof/Laws/Port.lean ====
section
/-! SUPPORT. What the byte-stream port and the shift-out can do, said once. -/

namespace Sys2Proof.Machine

open Sys2Proof

/-- If `PutByte` returns, the byte was appended and one answer was used. -/
theorem putByte_done {b : Byte} {s t : State} (h : putByte b s = .done () t) :
    t = s.putOut b (s.sink.drop 1) := by
  unfold putByte at h
  split at h <;> simp_all
  split at h <;> simp_all

/-- `PutByte` returns where the byte stream accepts. -/
theorem putByte_accepts (b : Byte) {s : State} (h : s.SinkAccepts 1) :
    putByte b s = .done () (s.putOut b (s.sink.drop 1)) := by
  unfold putByte
  rcases hs : s.sink with _ | ⟨a, rest⟩
  · simp
  · have : a = .accepted := h a (by simp [hs])
    subst this
    simp

/-- Wherever `PutByte` ends: nothing but `OUT` and the answers moved, and it never ends only on a silent byte stream. -/
theorem putByte_sat (b : Byte) (s : State) :
    (putByte b s).Sat (fun _ t => t = s.putOut b (s.sink.drop 1)) s.Around Fault.Silent := by
  unfold putByte
  split
  · simp [Run.Sat, *]
  · simp [Run.Sat, *]
  · exact State.Around.refl s
  · exact ⟨_, rfl⟩
  · split <;> exact State.Around.refl s

/-- A byte stream that accepts `n` bytes accepts fewer. -/
theorem State.SinkAccepts.mono {s : State} {m n : Nat} (h : s.SinkAccepts n) (hm : m ≤ n) : s.SinkAccepts m := by
  intro a ha
  refine h a ?_
  rw [← Nat.min_eq_left hm, ← List.take_take] at ha
  exact List.mem_of_mem_take ha

/-- A byte stream that accepts `i + m` bytes accepts `m` more after `i`. -/
theorem State.SinkAccepts.drop {s t : State} {i m : Nat} (h : s.SinkAccepts (i + m)) (ht : t.sink = s.sink.drop i) :
    t.SinkAccepts m := by
  intro a ha
  refine h a ?_
  rw [ht, List.take_drop] at ha
  exact List.mem_of_mem_drop ha

/-- `repeat n times: PutByte(b)` where the byte stream accepts. -/
theorem putRepeat_accepts (b : Byte) (n : Nat) {s : State} (h : s.SinkAccepts n) :
    putRepeat b n s = .done () { s with out := s.out ++ List.replicate n b, sink := s.sink.drop n } := by
  induction n generalizing s with
  | zero => simp [putRepeat]
  | succ n ih =>
    rw [putRepeat, putByte_accepts b (h.mono (by omega)), Run.bind_done,
      ih (State.SinkAccepts.drop (i := 1) (m := n) (h.mono (by omega)) rfl)]
    simp [State.putOut, List.replicate_succ]

/-- If `repeat n times: PutByte(b)` returns, the bytes were appended and as many answers were used. -/
theorem putRepeat_done {b : Byte} {n : Nat} {s t : State} (h : putRepeat b n s = .done () t) :
    t = { s with out := s.out ++ List.replicate n b, sink := s.sink.drop n } := by
  induction n generalizing s with
  | zero => simp [putRepeat] at h; simp [← h]
  | succ n ih =>
    rw [putRepeat, Run.bind_eq_done] at h
    obtain ⟨_, s1, h1, h2⟩ := h
    rw [ih h2, putByte_done h1]
    simp [State.putOut, List.replicate_succ]

/-- Wherever `repeat n times: PutByte(b)` ends. -/
theorem putRepeat_sat (b : Byte) (n : Nat) (s : State) :
    (putRepeat b n s).Sat
      (fun _ t => t = { s with out := s.out ++ List.replicate n b, sink := s.sink.drop n }) s.Around
      Fault.Silent := by
  induction n generalizing s with
  | zero => simp [putRepeat, Run.Sat]
  | succ n ih =>
    rw [putRepeat]
    refine (putByte_sat b s).bind fun _ s1 h1 => ?_
    subst h1
    refine (ih _).mono (fun _ t ht => ?_) (fun t ht => ht) fun f hf => hf
    rw [ht]
    simp [State.putOut, List.replicate_succ]

/-! ### The shift-out -/

/-- The carry flag is bit 32, so it says whether `LOW` is `2^32` or more (R26). -/
theorem State.carry_eq (s : State) : s.carry = decide (2 ^ 32 ≤ s.low.toNat) := by
  have h := s.low.isLt
  rw [State.carry, BitVec.getLsbD, Nat.testBit_eq_decide_div_mod_eq]
  congr 1
  apply propext
  omega

/-- `LOW` is its low 32 bits and the carry (R26). -/
theorem State.low_eq (s : State) : s.low.toNat = s.carryNat * 2 ^ 32 + s.low.toNat % 2 ^ 32 := by
  have h := s.low.isLt
  rw [State.carryNat, State.carry_eq]
  split <;> simp_all <;> omega

theorem topByte_toNat (s : State) : (topByte s).toNat = s.low.toNat / 2 ^ 24 % 2 ^ 8 := by
  simp [topByte, BitVec.extractLsb'_toNat, Nat.shiftRight_eq_div_pow]

theorem shiftedLow_toNat (s : State) : (shiftedLow s).toNat = s.low.toNat % 2 ^ 24 * 2 ^ 8 := by
  rw [shiftedLow, BitVec.toNat_ofNat]
  omega

/-- Whether a shift-out releases the held bytes (R151). -/
def Releases (s : State) : Prop := s.low.toNat % 2 ^ 32 < 0xFF000000 ∨ s.carry = true

/-- The bytes a releasing shift-out gives to `OUT` (R151). -/
def releasedBytes (s : State) : List Byte :=
  BitVec.ofNat 8 (s.cache.toNat + s.carryNat) :: List.replicate s.pend (BitVec.ofNat 8 (0xFF + s.carryNat))

/-- The state after a releasing shift-out (R151). -/
def State.released (s : State) : State :=
  { s with low := shiftedLow s, cache := topByte s, pend := 0,
           out := s.out ++ releasedBytes s, sink := s.sink.drop (s.pend + 1) }

/-- The state after a deferring shift-out (R151). -/
def State.deferred (s : State) : State := s.setHeld (shiftedLow s) s.cache (s.pend + 1)

/-- The releasing case of `ShiftOut` (R151). -/
theorem shiftOut_of_releases {s : State} (h : Releases s) :
    shiftOut s = (putByte (BitVec.ofNat 8 (s.cache.toNat + s.carryNat)) s).bind fun _ s1 =>
      (putRepeat (BitVec.ofNat 8 (0xFF + s.carryNat)) s.pend s1).bind fun _ s2 =>
        .done () (s2.setHeld (shiftedLow s) (topByte s) 0) := if_pos h

/-- The deferring case of `ShiftOut` with `PEND` at its maximum (R151, R268). -/
theorem shiftOut_of_full {s : State} (h : ¬ Releases s) (hp : s.pend = 2 ^ s.par.pendBits - 1) :
    shiftOut s = .raised .pendovf s := (if_neg h).trans (if_pos hp)

/-- A deferring shift-out with room in `PEND`. -/
theorem shiftOut_defers {s : State} (h : ¬ Releases s) (hp : s.pend ≠ 2 ^ s.par.pendBits - 1) :
    shiftOut s = .done () s.deferred := (if_neg h).trans (if_neg hp)

/-- Everything a shift-out that returns can do (R151). -/
theorem shiftOut_done {s t : State} (h : shiftOut s = .done () t) :
    (Releases s ∧ t = s.released) ∨ (¬ Releases s ∧ s.pend ≠ 2 ^ s.par.pendBits - 1 ∧ t = s.deferred) := by
  unfold shiftOut at h
  split at h
  · left
    refine ⟨by assumption, ?_⟩
    simp only [Run.bind_eq_done] at h
    obtain ⟨_, s1, h1, _, s2, h2, h3⟩ := h
    rw [putByte_done h1] at h2
    rw [putRepeat_done h2] at h3
    simp only [Run.done.injEq, true_and] at h3
    simp [← h3, State.released, State.setHeld, State.putOut, releasedBytes]
  · split at h
    · simp at h
    · right
      simp only [Run.done.injEq, true_and] at h
      exact ⟨by assumption, by assumption, h.symm⟩

/-- A releasing shift-out where the byte stream accepts the held bytes. -/
theorem shiftOut_releases {s : State} (hr : Releases s) (ha : s.SinkAccepts (s.pend + 1)) :
    shiftOut s = .done () s.released := by
  rw [shiftOut_of_releases hr, putByte_accepts _ (ha.mono (by omega)), Run.bind_done, putRepeat_accepts, Run.bind_done]
  · simp [State.released, State.setHeld, State.putOut, releasedBytes]
  · exact State.SinkAccepts.drop (i := 1) (ha.mono (by omega)) rfl

/-- Where a shift-out can be left early, and how it can stop. -/
theorem shiftOut_early (s : State) : (shiftOut s).Sat (fun _ _ => True) s.Around Fault.Silent := by
  unfold shiftOut
  split
  · refine (putByte_sat _ s).bind fun _ s1 h1 => ?_
    subst h1
    refine ((putRepeat_sat _ _ _).mono (fun _ _ h => h) (fun _ h => h) fun _ h => h).bind fun _ s2 h2 => ?_
    trivial
  · split
    · exact State.Around.refl s
    · trivial

/-- Wherever a shift-out ends. -/
theorem shiftOut_sat (s : State) :
    (shiftOut s).Sat
      (fun _ t => (Releases s ∧ t = s.released) ∨ (¬ Releases s ∧ s.pend ≠ 2 ^ s.par.pendBits - 1 ∧ t = s.deferred))
      s.Around Fault.Silent := by
  cases h : shiftOut s with
  | done a t => exact shiftOut_done h
  | raised e t =>
    have := shiftOut_early s
    rw [h] at this
    exact this
  | aborted t =>
    have := shiftOut_early s
    rw [h] at this
    exact this
  | stopped f =>
    have := shiftOut_early s
    rw [h] at this
    exact this

end Sys2Proof.Machine
end

