-- ==== Sys2Proof/Laws/Renorm.lean ====
section
/-! SUPPORT. Renormalisation: the loops of R152 and R181 as a number of steps read off the length. -/

namespace Sys2Proof.Machine

open Sys2Proof

/-- A run with every state it mentions changed in one way. -/
def Run.mapState {α : Type} (f : State → State) : Run α → Run α
  | .done a s => .done a (f s)
  | .raised e s => .raised e (f s)
  | .aborted s => .aborted (f s)
  | .stopped g => .stopped g

@[simp] theorem Run.mapState_done {α : Type} (f : State → State) (a : α) (s : State) :
    (Run.done a s).mapState f = .done a (f s) := rfl

/-- `PutByte` does not read `LEN`. -/
theorem putByte_setLen (b : Byte) (s : State) (x : Word) :
    putByte b (s.setLen x) = (putByte b s).mapState (·.setLen x) := by
  unfold putByte
  simp only [State.setLen_sink]
  split <;> try rfl
  simp only [show (s.setLen x).freeBool .inFlight = s.freeBool .inFlight from rfl]
  split <;> rfl

theorem putRepeat_setLen (b : Byte) (n : Nat) (s : State) (x : Word) :
    putRepeat b n (s.setLen x) = (putRepeat b n s).mapState (·.setLen x) := by
  induction n generalizing s with
  | zero => rfl
  | succ n ih =>
    rw [putRepeat, putRepeat, putByte_setLen]
    cases putByte b s <;> simp [Run.mapState, Run.bind, ih]

/-- `ShiftOut` does not read `LEN`. -/
theorem shiftOut_setLen (s : State) (x : Word) : shiftOut (s.setLen x) = (shiftOut s).mapState (·.setLen x) := by
  by_cases hr : Releases s
  · rw [shiftOut_of_releases hr, shiftOut_of_releases (s := s.setLen x) hr, putByte_setLen]
    cases hb : putByte (BitVec.ofNat 8 (s.cache.toNat + s.carryNat)) s with
    | done a s1 =>
      simp only [State.setLen_cache, State.setLen_carryNat, State.setLen_pend, hb, Run.mapState, Run.bind,
        putRepeat_setLen]
      cases putRepeat (BitVec.ofNat 8 (255 + s.carryNat)) s.pend s1 <;> rfl
    | _ => simp [hb, Run.mapState]
  · by_cases hp : s.pend = 2 ^ s.par.pendBits - 1
    · rw [shiftOut_of_full hr hp, shiftOut_of_full (s := s.setLen x) hr hp]; rfl
    · rw [shiftOut_defers hr hp, shiftOut_defers (s := s.setLen x) hr hp]; rfl

theorem shiftOuts_setLen (n : Nat) (s : State) (x : Word) :
    shiftOuts n (s.setLen x) = (shiftOuts n s).mapState (·.setLen x) := by
  induction n generalizing s with
  | zero => rfl
  | succ n ih =>
    rw [shiftOuts, shiftOuts, shiftOut_setLen]
    cases shiftOut s <;> simp [Run.mapState, Run.bind, ih]

@[simp] theorem State.released_len (s : State) : s.released.len = s.len := rfl
@[simp] theorem State.deferred_len (s : State) : s.deferred.len = s.len := rfl

/-- `ShiftOut` does not write `LEN`. -/
theorem shiftOut_len {s t : State} (h : shiftOut s = .done () t) : t.len = s.len := by
  rcases shiftOut_done h with ⟨_, rfl⟩ | ⟨_, _, rfl⟩ <;> rfl

/-- A length below `TOP` shifted left by eight keeps all its bits (R152). -/
theorem len_shift {x : Word} (h : x.toNat < Config.top) : (x <<< 8).toNat = x.toNat * 256 := by
  rw [BitVec.toNat_shiftLeft, Nat.shiftLeft_eq]
  have : x.toNat < 16777216 := h
  omega

theorem renormSteps_zero {len : Nat} (h : 2 ^ 24 ≤ len) : renormSteps len = 0 := if_pos h

theorem renormSteps_step {len : Nat} (h : len < 2 ^ 24) (h1 : 1 ≤ len) :
    renormSteps len = renormSteps (len * 256) + 1 := by
  unfold renormSteps
  split_ifs <;> omega

theorem renormSteps_le (len : Nat) : renormSteps len ≤ 3 := by
  unfold renormSteps
  split_ifs <;> omega

/-- The length after its renormalisation steps is at least `TOP` and fits 32 bits (R152). -/
theorem renormSteps_spec {len : Nat} (h1 : 1 ≤ len) (h2 : len < 2 ^ 32) :
    2 ^ 24 ≤ len * 256 ^ renormSteps len ∧ len * 256 ^ renormSteps len < 2 ^ 32 := by
  unfold renormSteps
  split_ifs <;> constructor <;> omega

/-- The loop of `RenormEnc` returns exactly if as many shift-outs as the length needs return (R152). -/
theorem renormEncLoop_done (fuel : Nat) {s t : State} (h1 : 1 ≤ s.len.toNat)
    (hf : 2 ^ 24 ≤ s.len.toNat * 256 ^ fuel) :
    renormEncLoop fuel s = .done () t ↔ ∃ u, shiftOuts (renormSteps s.len.toNat) s = .done () u ∧
      t = u.setLen (BitVec.ofNat 32 (s.len.toNat * 256 ^ renormSteps s.len.toNat)) := by
  induction fuel generalizing s with
  | zero =>
    have h24 : 2 ^ 24 ≤ s.len.toNat := by simpa using hf
    rw [renormEncLoop, if_neg (by simpa [Config.top] using h24), renormSteps_zero h24]
    simp [shiftOuts, State.setLen, eq_comm]
  | succ fuel ih =>
    rw [renormEncLoop]
    split
    · next hlt =>
      have hs := len_shift hlt
      rw [renormSteps_step hlt h1]
      simp only [shiftOuts, Run.bind_eq_done]
      have key : ∀ s', shiftOut s = .done () s' →
          (renormEncLoop fuel (s'.setLen (s'.len <<< 8)) = .done () t ↔
            ∃ u, shiftOuts (renormSteps (s.len.toNat * 256)) s' = .done () u ∧
              t = u.setLen (BitVec.ofNat 32 (s.len.toNat * 256 ^ (renormSteps (s.len.toNat * 256) + 1)))) := by
        intro s' h
        have hl := shiftOut_len h
        rw [ih]
        · simp only [State.setLen_len, hl, hs, shiftOuts_setLen]
          cases shiftOuts (renormSteps (s.len.toNat * 256)) s' <;>
            simp [Run.mapState, State.setLen, Nat.pow_succ, Nat.mul_assoc, Nat.mul_comm 256]
        · rw [State.setLen_len, hl, hs]; omega
        · rw [State.setLen_len, hl, hs, Nat.mul_assoc, ← Nat.pow_succ']
          exact hf
      constructor
      · rintro ⟨_, s', h, h'⟩
        obtain ⟨u, hu, ht⟩ := (key s' h).1 h'
        exact ⟨u, ⟨_, s', h, hu⟩, ht⟩
      · rintro ⟨u, ⟨_, s', h, hu⟩, ht⟩
        exact ⟨_, s', h, (key s' h).2 ⟨u, hu, ht⟩⟩
    · next hge =>
      have h24 : 2 ^ 24 ≤ s.len.toNat := by simpa [Config.top] using hge
      rw [renormSteps_zero h24]
      simp [shiftOuts, State.setLen, eq_comm]

/-- `RenormEnc` returns exactly if as many shift-outs as the length needs return (R152). -/
theorem renormEnc_done {s t : State} (h1 : 1 ≤ s.len.toNat) :
    renormEnc s = .done () t ↔ ∃ u, shiftOuts (renormSteps s.len.toNat) s = .done () u ∧
      t = u.setLen (BitVec.ofNat 32 (s.len.toNat * 256 ^ renormSteps s.len.toNat)) :=
  renormEncLoop_done 3 h1 (by omega)

/-- Where the loop of `RenormEnc` can be left early, and how it can stop. -/
theorem renormEncLoop_early (fuel : Nat) (s : State) (h1 : 1 ≤ s.len.toNat)
    (hf : 2 ^ 24 ≤ s.len.toNat * 256 ^ fuel) :
    (renormEncLoop fuel s).Sat (fun _ _ => True) s.Around Fault.Silent := by
  induction fuel generalizing s with
  | zero =>
    have h24 : 2 ^ 24 ≤ s.len.toNat := by simpa using hf
    rw [renormEncLoop, if_neg (by simpa [Config.top] using h24)]
    trivial
  | succ fuel ih =>
    rw [renormEncLoop]
    split
    · next hlt =>
      refine (shiftOut_sat s).bind fun _ s' h => ?_
      have hl : s'.len = s.len := by rcases h with ⟨_, rfl⟩ | ⟨_, _, rfl⟩ <;> rfl
      have ha : s.Around (s'.setLen (s'.len <<< 8)) := by
        rcases h with ⟨_, rfl⟩ | ⟨_, _, rfl⟩ <;> exact State.Around.refl s
      refine (ih _ ?_ ?_).mono (fun _ _ h => h) (fun _ h => ha.trans h) fun _ h => h
      · rw [State.setLen_len, hl, len_shift hlt]; omega
      · rw [State.setLen_len, hl, len_shift hlt, Nat.mul_assoc, ← Nat.pow_succ']
        exact hf
    · trivial

/-- Where `RenormEnc` can be left early, and how it can stop. -/
theorem renormEnc_early (s : State) (h1 : 1 ≤ s.len.toNat) :
    (renormEnc s).Sat (fun _ _ => True) s.Around Fault.Silent :=
  renormEncLoop_early 3 s h1 (by omega)

end Sys2Proof.Machine
end

