-- ==== Sys2Proof/Laws/Code.lean ====
section
/-! SUPPORT. The number a session has produced: what a shift-out, a renormalisation and a narrowing do to it. -/

namespace Sys2Proof.Machine

open Sys2Proof

theorem bytesValue_nil : bytesValue [] = 0 := rfl

theorem foldl_bytes (bs : List Byte) (a : Nat) :
    bs.foldl (fun acc b => acc * 256 + b.toNat) a = a * 256 ^ bs.length + bytesValue bs := by
  induction bs generalizing a with
  | nil => simp [bytesValue]
  | cons b bs ih =>
    rw [bytesValue, List.foldl_cons, List.foldl_cons, ih, ih (0 * 256 + b.toNat), List.length_cons, Nat.pow_succ]
    ring

/-- Appending bytes shifts the number and adds theirs (R65). -/
theorem bytesValue_append (as bs : List Byte) :
    bytesValue (as ++ bs) = bytesValue as * 256 ^ bs.length + bytesValue bs := by
  rw [bytesValue, List.foldl_append, foldl_bytes]
  rfl

theorem bytesValue_cons (b : Byte) (bs : List Byte) :
    bytesValue (b :: bs) = b.toNat * 256 ^ bs.length + bytesValue bs := by
  rw [bytesValue, List.foldl_cons, foldl_bytes]
  simp

theorem bytesValue_lt (bs : List Byte) : bytesValue bs < 256 ^ bs.length := by
  induction bs with
  | nil => simp [bytesValue]
  | cons b bs ih =>
    rw [bytesValue_cons, List.length_cons, Nat.pow_succ]
    have := b.isLt
    nlinarith

theorem bytesValue_zeros (n : Nat) : bytesValue (List.replicate n 0) = 0 := by
  induction n with
  | zero => rfl
  | succ n ih => rw [List.replicate_succ, bytesValue_cons, ih]; simp

theorem bytesValue_ones (n : Nat) : bytesValue (List.replicate n 255) = 256 ^ n - 1 := by
  induction n with
  | zero => rfl
  | succ n ih =>
    rw [List.replicate_succ, bytesValue_cons, ih, List.length_replicate, Nat.pow_succ]
    have h : (255 : BitVec 8).toNat = 255 := rfl
    have := pow_pos (show 0 < 256 by omega) n
    rw [h]
    omega

theorem split_byte {x : Nat} (h : x < 2 ^ 32) : x = x / 2 ^ 24 % 2 ^ 8 * 2 ^ 24 + x % 2 ^ 24 := by omega

theorem split_ones {x : Nat} (h : x < 2 ^ 32) (hx : 4278190080 ≤ x % 2 ^ 32) : x = 255 * 2 ^ 24 + x % 2 ^ 24 := by
  omega

/-- What R161 f and g say of the encoder's interval: no carry runs into a byte that cannot take it. -/
def CarrySafe (s : State) (len : Nat) : Prop :=
  s.low.toNat + len < 2 ^ 33 ∧ (s.cache = 0xFF → s.low.toNat + len ≤ 2 ^ 32)

/-- A shift-out multiplies the code number by 256 and keeps the carry safe, for a length that stays below `2^32` (R151). -/
theorem shiftOut_code {s t : State} {len : Nat} (h : shiftOut s = .done () t) (hc : CarrySafe s len) (h0 : 1 ≤ len)
    (hl : len < 2 ^ 24) : t.codeNumber = s.codeNumber * 256 ∧ CarrySafe t (len * 256) := by
  obtain ⟨h1, h2⟩ := hc
  have hlow := s.low.isLt
  have hcache := s.cache.isLt
  have hpow := pow_pos (show 0 < 256 by omega) s.pend
  have hsplit := s.low_eq
  rcases shiftOut_done h with ⟨hr, rfl⟩ | ⟨hr, hp, rfl⟩
  · by_cases hcar : s.carry = true
    · have hge : 2 ^ 32 ≤ s.low.toNat := by simpa [State.carry_eq] using hcar
      have hne : s.cache ≠ 0xFF := fun h => by have := h2 h; omega
      have hne' : s.cache.toNat ≠ 255 := fun h => hne (BitVec.eq_of_toNat_eq h)
      have hb : (BitVec.ofNat 8 (s.cache.toNat + 1)).toNat = s.cache.toNat + 1 := by
        rw [BitVec.toNat_ofNat]; omega
      constructor
      · simp only [State.codeNumber, State.heldValue, State.released, releasedBytes, State.carryNat, hcar, if_true,
          topByte_toNat, shiftedLow_toNat, bytesValue_append, bytesValue_cons, hb, List.length_cons, List.length_replicate,
          show (BitVec.ofNat 8 (255 + 1)) = 0 from rfl, bytesValue_zeros]
        have e : s.low.toNat = 2 ^ 32 + s.low.toNat / 2 ^ 24 % 2 ^ 8 * 2 ^ 24 + s.low.toNat % 2 ^ 24 := by omega
        obtain ⟨q, hq⟩ : ∃ q, 256 ^ s.pend = q + 1 := ⟨256 ^ s.pend - 1, by omega⟩
        rw [hq, Nat.pow_succ, hq]
        generalize s.low.toNat / 2 ^ 24 % 2 ^ 8 = x at *
        generalize s.low.toNat % 2 ^ 24 = y at *
        rw [e]
        simp only [Nat.add_sub_cancel, pow_zero, Nat.sub_self]
        ring
      · constructor
        · simp only [State.released, shiftedLow_toNat]; omega
        · intro hff
          have : (topByte s).toNat = 255 := by
            have : topByte s = 0xFF := hff
            rw [this]; rfl
          rw [topByte_toNat] at this
          simp only [State.released, shiftedLow_toNat]
          omega
    · have hlt : s.low.toNat < 2 ^ 32 := by simpa [State.carry_eq] using hcar
      have hr' : s.low.toNat % 2 ^ 32 < 0xFF000000 := by simpa [Releases, hcar] using hr
      constructor
      · simp only [State.codeNumber, State.heldValue, State.released, releasedBytes, State.carryNat, hcar,
          topByte_toNat, shiftedLow_toNat, bytesValue_append, bytesValue_cons, List.length_cons, List.length_replicate,
          Bool.false_eq_true, if_false, Nat.add_zero, BitVec.ofNat_toNat, BitVec.setWidth_eq,
          show (BitVec.ofNat 8 255) = (255 : Byte) from rfl, bytesValue_ones]
        have e : s.low.toNat = s.low.toNat / 2 ^ 24 % 2 ^ 8 * 2 ^ 24 + s.low.toNat % 2 ^ 24 := split_byte hlt
        obtain ⟨q, hq⟩ : ∃ q, 256 ^ s.pend = q + 1 := ⟨256 ^ s.pend - 1, by omega⟩
        rw [hq, Nat.pow_succ, hq]
        generalize s.low.toNat / 2 ^ 24 % 2 ^ 8 = x at *
        generalize s.low.toNat % 2 ^ 24 = y at *
        rw [e]
        simp only [Nat.add_sub_cancel, pow_zero, Nat.sub_self]
        ring
      · constructor
        · simp only [State.released, shiftedLow_toNat]; omega
        · intro hff
          have : (topByte s).toNat = 255 := by
            have : topByte s = 0xFF := hff
            rw [this]; rfl
          rw [topByte_toNat] at this
          omega
  · have hcar : s.carry = false := by
      by_contra hx
      exact hr (Or.inr (by simpa using hx))
    have hlt : s.low.toNat < 2 ^ 32 := by simpa [State.carry_eq] using hcar
    have hge : 0xFF000000 ≤ s.low.toNat % 2 ^ 32 := by
      by_contra hx
      exact hr (Or.inl (by omega))
    constructor
    · simp only [State.codeNumber, State.heldValue, State.deferred, State.setHeld, shiftedLow_toNat]
      have e : s.low.toNat = 255 * 2 ^ 24 + s.low.toNat % 2 ^ 24 := split_ones hlt hge
      obtain ⟨q, hq⟩ : ∃ q, 256 ^ s.pend = q + 1 := ⟨256 ^ s.pend - 1, by omega⟩
      rw [Nat.pow_succ, hq]
      generalize s.low.toNat % 2 ^ 24 = y at *
      rw [e, show (q + 1) * 256 - 1 = q * 256 + 255 by omega]
      simp only [Nat.add_sub_cancel]
      ring
    · constructor
      · simp only [State.deferred, State.setHeld, shiftedLow_toNat]; omega
      · intro hff
        have := h2 hff
        simp only [State.deferred, State.setHeld, shiftedLow_toNat]
        omega

/-- What a shift-out leaves of the state, and the byte it adds to the stream or to the held bytes. -/
theorem shiftOut_frame {s t : State} (h : shiftOut s = .done () t) :
    (∃ bs, t.out = s.out ++ bs ∧ t.sink = s.sink.drop bs.length ∧ bs.length + t.pend = s.pend + 1) ∧
    t = { s with low := t.low, cache := t.cache, pend := t.pend, out := t.out, sink := t.sink } := by
  rcases shiftOut_done h with ⟨_, rfl⟩ | ⟨_, _, rfl⟩
  · exact ⟨⟨releasedBytes s, rfl, by simp [State.released, releasedBytes], by simp [State.released, releasedBytes]⟩, rfl⟩
  · exact ⟨⟨[], by simp [State.deferred, State.setHeld], by simp [State.deferred, State.setHeld],
      by simp [State.deferred, State.setHeld]⟩, rfl⟩

theorem shiftOuts_frame {n : Nat} {s t : State} (h : shiftOuts n s = .done () t) :
    (∃ bs, t.out = s.out ++ bs ∧ t.sink = s.sink.drop bs.length ∧ bs.length + t.pend = s.pend + n) ∧
    t = { s with low := t.low, cache := t.cache, pend := t.pend, out := t.out, sink := t.sink } := by
  induction n generalizing s with
  | zero =>
    simp only [shiftOuts, Run.done.injEq, true_and] at h
    subst h
    exact ⟨⟨[], by simp⟩, rfl⟩
  | succ n ih =>
    rw [shiftOuts, Run.bind_eq_done] at h
    obtain ⟨_, u, h1, h2⟩ := h
    obtain ⟨⟨bs, ho, hs, hp⟩, hf⟩ := shiftOut_frame h1
    obtain ⟨⟨bs', ho', hs', hp'⟩, hf'⟩ := ih h2
    refine ⟨⟨bs ++ bs', by rw [ho', ho, List.append_assoc], by rw [hs', hs, List.drop_drop, List.length_append],
      by rw [List.length_append]; omega⟩, ?_⟩
    rw [hf'] 
    rw [hf]

/-- As many shift-outs as a length needs: the code number of the shifted interval, and the carry stays safe (R151, R152). -/
theorem shiftOuts_code {s t : State} {len : Nat} (n : Nat) (h : shiftOuts n s = .done () t) (hc : CarrySafe s len)
    (h0 : 1 ≤ len) (hl : len * 256 ^ n < 2 ^ 32) :
    t.codeNumber = s.codeNumber * 256 ^ n ∧ CarrySafe t (len * 256 ^ n) := by
  induction n generalizing s len with
  | zero =>
    simp only [shiftOuts, Run.done.injEq, true_and] at h
    subst h
    simpa using hc
  | succ n ih =>
    rw [shiftOuts, Run.bind_eq_done] at h
    obtain ⟨_, u, h1, h2⟩ := h
    have hp := pow_pos (show 0 < 256 by omega) n
    rw [Nat.pow_succ] at hl
    have hl' : len < 2 ^ 24 := by nlinarith
    obtain ⟨hcode, hsafe⟩ := shiftOut_code h1 hc h0 hl'
    have := ih h2 hsafe (by omega) (by rw [Nat.mul_assoc, Nat.mul_comm 256]; exact hl)
    rw [Nat.pow_succ, Nat.mul_comm _ 256, ← Nat.mul_assoc, ← Nat.mul_assoc, ← hcode]
    exact this

/-- A shift-out needs at most the held bytes and one more accepted, and room in `PEND` for one more. -/
theorem shiftOuts_completes (n : Nat) {s : State} (ha : s.SinkAccepts (s.pend + n))
    (hp : s.pend + n < 2 ^ s.par.pendBits) : ∃ t, shiftOuts n s = .done () t := by
  induction n generalizing s with
  | zero => exact ⟨s, rfl⟩
  | succ n ih =>
    have hex : ∃ u, shiftOut s = .done () u := by
      by_cases hr : Releases s
      · exact ⟨_, shiftOut_releases hr (ha.mono (by omega))⟩
      · exact ⟨_, shiftOut_defers hr (by omega)⟩
    obtain ⟨u, hu⟩ := hex
    obtain ⟨⟨bs, ho, hs, hpp⟩, hf⟩ := shiftOut_frame hu
    have hpar : u.par = s.par := by rw [hf]
    obtain ⟨t, ht⟩ := ih (s := u) (State.SinkAccepts.drop (i := bs.length) (ha.mono (by omega)) hs) (by rw [hpar]; omega)
    exact ⟨t, by rw [shiftOuts, hu, Run.bind_done, ht]⟩

end Sys2Proof.Machine
end

