-- ==== Sys2Proof/Laws/Window.lean ====
section
/-! SUPPORT. The decoder's side of the port: bytes taken, the code window filled, and its renormalisation. -/

namespace Sys2Proof.Machine

open Sys2Proof

/-- `GetByte` returns exactly if the stream's next answer is a byte (R62). -/
theorem getByte_done {b : Byte} {s t : State} :
    getByte s = .done b t ↔ ∃ rest, s.source = .byte b :: rest ∧ t = s.tookIn rest := by
  unfold getByte
  split
  · simp [*]
  · rename_i b' rest h; simp only [h, Run.done.injEq, List.cons.injEq, GetAnswer.byte.injEq]
    constructor
    · rintro ⟨rfl, rfl⟩; exact ⟨rest, ⟨rfl, rfl⟩, rfl⟩
    · rintro ⟨r, ⟨rfl, rfl⟩, rfl⟩; exact ⟨rfl, rfl⟩
  · simp [*]
  · simp [*]
  · simp only [*]; split <;> simp

/-- Wherever `GetByte` ends. -/
theorem getByte_sat (s : State) :
    (getByte s).Sat (fun b t => ∃ rest, s.source = .byte b :: rest ∧ t = s.tookIn rest) s.Around Fault.Silent := by
  cases h : getByte s with
  | done a t => exact getByte_done.1 h
  | raised e t =>
    unfold getByte at h
    split at h <;> try split at h
    all_goals simp at h
    all_goals (obtain ⟨_, rfl⟩ := h; exact State.Around.refl s)
  | aborted t =>
    unfold getByte at h
    split at h <;> try split at h
    all_goals simp at h
    all_goals (subst h; exact State.Around.refl s)
  | stopped f =>
    unfold getByte at h
    split at h <;> try split at h
    all_goals simp at h
    exact ⟨_, h.symm⟩

/-- A byte shifted into a word from below (R180, R181). -/
theorem shiftByte_toNat (v : Word) (b : Byte) :
    (v <<< 8) ||| b.setWidth 32 = BitVec.ofNat 32 (v.toNat * 256 + b.toNat) := by
  apply BitVec.eq_of_toNat_eq
  have hb := b.isLt
  rw [BitVec.toNat_or, BitVec.toNat_shiftLeft, BitVec.toNat_setWidth, BitVec.toNat_ofNat, Nat.shiftLeft_eq,
    Nat.mod_eq_of_lt (show b.toNat < 2 ^ 32 by omega)]
  have e : v.toNat * 2 ^ 8 % 2 ^ 32 = 2 ^ 8 * (v.toNat % 2 ^ 24) := by omega
  rw [e, ← Nat.two_pow_add_eq_or_of_lt hb]
  omega

/-- Everything a shift-in that returns does. -/
theorem shiftIn_done {s t : State} :
    shiftIn s = .done () t ↔ ∃ b rest, s.source = .byte b :: rest ∧
      t = (s.tookIn rest).setValue (BitVec.ofNat 32 (s.value.toNat * 256 + b.toNat)) := by
  rw [shiftIn, Run.bind_eq_done]
  constructor
  · rintro ⟨b, u, h, h'⟩
    obtain ⟨rest, hs, rfl⟩ := getByte_done.1 h
    refine ⟨b, rest, hs, ?_⟩
    rw [Run.done.injEq] at h'
    rw [← h'.2, shiftByte_toNat]
    rfl
  · rintro ⟨b, rest, hs, rfl⟩
    refine ⟨b, _, getByte_done.2 ⟨rest, hs, rfl⟩, ?_⟩
    rw [shiftByte_toNat]
    rfl

/-- The window after a sequence of bytes was shifted in and the length grew by a factor. -/
def State.filled (s : State) (value len : Nat) (n : Nat) (rest : List GetAnswer) : State :=
  { s with value := BitVec.ofNat 32 value, len := BitVec.ofNat 32 len, source := rest, taken := s.taken + n }

theorem State.windowed_eq (s : State) (value len : Nat) (bs : List Byte) (rest : List GetAnswer) :
    s.windowed value len bs rest =
      s.filled (value * 256 ^ bs.length + bytesValue bs) (len * 256 ^ bs.length) bs.length rest := rfl

theorem ofNat_mul_add (v x y : Nat) :
    BitVec.ofNat 32 ((v % 2 ^ 32) * x + y) = BitVec.ofNat 32 (v * x + y) := by
  apply BitVec.eq_of_toNat_eq
  simp only [BitVec.toNat_ofNat]
  rw [Nat.add_mod, Nat.mod_mul_mod, ← Nat.add_mod]

theorem ofNat_mul (v x : Nat) : BitVec.ofNat 32 ((v % 2 ^ 32) * x) = BitVec.ofNat 32 (v * x) := ofNat_mul_add v x 0

/-- Everything `repeat n times` of a shift-in that returns does. -/
theorem shiftIns_done (n : Nat) {s t : State} :
    shiftIns n s = .done () t ↔ ∃ (bs : List Byte) (rest : List GetAnswer), s.source = bs.map GetAnswer.byte ++ rest ∧
      bs.length = n ∧
      t = { s with value := BitVec.ofNat 32 (s.value.toNat * 256 ^ n + bytesValue bs), source := rest,
                   taken := s.taken + n } := by
  induction n generalizing s with
  | zero =>
    simp only [shiftIns, Run.done.injEq, true_and]
    constructor
    · rintro rfl
      exact ⟨[], s.source, rfl, rfl, by simp [bytesValue]⟩
    · rintro ⟨bs, rest, hs, hl, rfl⟩
      obtain rfl : bs = [] := List.length_eq_zero_iff.1 hl
      have : rest = s.source := by simpa using hs.symm
      simp [bytesValue, this]
  | succ n ih =>
    rw [shiftIns, Run.bind_eq_done]
    constructor
    · rintro ⟨_, u, h, h'⟩
      obtain ⟨b, rest, hs, rfl⟩ := shiftIn_done.1 h
      obtain ⟨bs, rest', hs', hl, rfl⟩ := ih.1 h'
      have hs'' : rest = bs.map GetAnswer.byte ++ rest' := hs'
      refine ⟨b :: bs, rest', by rw [hs, hs'']; rfl, by simp [hl], ?_⟩
      simp only [State.setValue, State.tookIn, BitVec.toNat_ofNat, bytesValue_cons, hl, ofNat_mul_add]
      congr 1
      · congr 1; rw [Nat.pow_succ]; ring
      · omega
    · rintro ⟨bs, rest, hs, hl, rfl⟩
      obtain ⟨b, bs, rfl⟩ : ∃ b bs', bs = b :: bs' := by cases bs <;> simp_all
      have hl' : bs.length = n := by simpa using hl
      refine ⟨(), _, shiftIn_done.2 ⟨b, bs.map GetAnswer.byte ++ rest, hs, rfl⟩, ?_⟩
      refine ih.2 ⟨bs, rest, rfl, hl', ?_⟩
      simp only [State.setValue, State.tookIn, BitVec.toNat_ofNat, bytesValue_cons, hl', ofNat_mul_add]
      congr 1
      · congr 1; rw [Nat.pow_succ]; ring
      · omega

/-- The loop of `RenormDec` returns exactly if the source holds as many bytes as the length needs (R181). -/
theorem renormDecLoop_done (fuel : Nat) {s t : State} (h1 : 1 ≤ s.len.toNat) (hf : 2 ^ 24 ≤ s.len.toNat * 256 ^ fuel) :
    renormDecLoop fuel s = .done () t ↔ ∃ (bs : List Byte) (rest : List GetAnswer),
      s.source = bs.map GetAnswer.byte ++ rest ∧ bs.length = renormSteps s.len.toNat ∧
      t = s.windowed s.value.toNat s.len.toNat bs rest := by
  induction fuel generalizing s with
  | zero =>
    have h24 : 2 ^ 24 ≤ s.len.toNat := by simpa using hf
    rw [renormDecLoop, if_neg (by simpa [Config.top] using h24), renormSteps_zero h24]
    simp only [Run.done.injEq, true_and]
    constructor
    · rintro rfl
      exact ⟨[], s.source, rfl, rfl, by simp [State.windowed, bytesValue]⟩
    · rintro ⟨bs, rest, hs, hl, rfl⟩
      obtain rfl : bs = [] := List.length_eq_zero_iff.1 hl
      have : rest = s.source := by simpa using hs.symm
      simp [State.windowed, bytesValue, this]
  | succ fuel ih =>
    rw [renormDecLoop]
    split
    · next hlt =>
      have hs := len_shift hlt
      have hlt' : s.len.toNat < 2 ^ 24 := hlt
      rw [renormSteps_step hlt h1, Run.bind_eq_done]
      have key : ∀ b rest, ∀ u : State,
          u = ((s.tookIn rest).setValue (BitVec.ofNat 32 (s.value.toNat * 256 + b))).setLen (s.len <<< 8) →
          (renormDecLoop fuel u = .done () t ↔ ∃ (bs : List Byte) (rest' : List GetAnswer),
            rest = bs.map GetAnswer.byte ++ rest' ∧ bs.length = renormSteps (s.len.toNat * 256) ∧
            t = s.filled ((s.value.toNat * 256 + b) * 256 ^ bs.length + bytesValue bs)
              (s.len.toNat * 256 * 256 ^ bs.length) (bs.length + 1) rest') := by
        rintro b rest u rfl
        rw [ih]
        · simp only [State.setLen_len, hs, State.setLen_source, State.setValue_source, State.tookIn_source]
          constructor
          · rintro ⟨bs, rest', h, hl, rfl⟩
            refine ⟨bs, rest', h, hl, ?_⟩
            simp only [State.windowed, State.filled, State.setLen, State.setValue, State.tookIn, BitVec.toNat_ofNat,
              ofNat_mul_add]
            congr 1; omega
          · rintro ⟨bs, rest', h, hl, rfl⟩
            refine ⟨bs, rest', h, hl, ?_⟩
            simp only [State.windowed, State.filled, State.setLen, State.setValue, State.tookIn, BitVec.toNat_ofNat,
              ofNat_mul_add]
            congr 1; omega
        · rw [State.setLen_len, hs]; omega
        · rw [State.setLen_len, hs, Nat.mul_assoc, ← Nat.pow_succ']
          exact hf
      constructor
      · rintro ⟨_, u, h, h'⟩
        obtain ⟨b, rest, hsrc, rfl⟩ := shiftIn_done.1 h
        obtain ⟨bs, rest', hr, hl, rfl⟩ := (key b.toNat rest _ rfl).1 h'
        refine ⟨b :: bs, rest', by rw [hsrc, hr]; rfl, by simp [hl], ?_⟩
        rw [State.windowed_eq, bytesValue_cons, List.length_cons, Nat.pow_succ]
        congr 1 <;> ring
      · rintro ⟨bs, rest, hsrc, hl, rfl⟩
        obtain ⟨b, bs, rfl⟩ : ∃ b bs', bs = b :: bs' := by cases bs <;> simp_all
        have hl' : bs.length = renormSteps (s.len.toNat * 256) := by simpa using hl
        refine ⟨(), _, shiftIn_done.2 ⟨b, _, hsrc, rfl⟩, ?_⟩
        refine (key b.toNat _ _ rfl).2 ⟨bs, rest, rfl, hl', ?_⟩
        rw [State.windowed_eq, bytesValue_cons, List.length_cons, Nat.pow_succ]
        congr 1 <;> ring
    · next hge =>
      have h24 : 2 ^ 24 ≤ s.len.toNat := by simpa [Config.top] using hge
      rw [renormSteps_zero h24]
      simp only [Run.done.injEq, true_and]
      constructor
      · rintro rfl
        exact ⟨[], s.source, rfl, rfl, by simp [State.windowed, bytesValue]⟩
      · rintro ⟨bs, rest, hs, hl, rfl⟩
        obtain rfl : bs = [] := List.length_eq_zero_iff.1 hl
        have : rest = s.source := by simpa using hs.symm
        simp [State.windowed, bytesValue, this]

/-- `RenormDec` returns exactly if the source holds as many bytes as the length needs (R181). -/
theorem renormDec_done {s t : State} (h1 : 1 ≤ s.len.toNat) :
    renormDec s = .done () t ↔ ∃ (bs : List Byte) (rest : List GetAnswer),
      s.source = bs.map GetAnswer.byte ++ rest ∧ bs.length = renormSteps s.len.toNat ∧
      t = s.windowed s.value.toNat s.len.toNat bs rest := renormDecLoop_done 3 h1 (by omega)

/-- Where the loop of `RenormDec` can be left early, and how it can stop. -/
theorem renormDecLoop_early (fuel : Nat) (s : State) (h1 : 1 ≤ s.len.toNat) (hf : 2 ^ 24 ≤ s.len.toNat * 256 ^ fuel) :
    (renormDecLoop fuel s).Sat (fun _ _ => True) s.Around Fault.Silent := by
  induction fuel generalizing s with
  | zero =>
    have h24 : 2 ^ 24 ≤ s.len.toNat := by simpa using hf
    rw [renormDecLoop, if_neg (by simpa [Config.top] using h24)]
    trivial
  | succ fuel ih =>
    rw [renormDecLoop]
    split
    · next hlt =>
      have h : (shiftIn s).Sat (fun _ t => t.len = s.len ∧ s.Around t) s.Around Fault.Silent :=
        (getByte_sat s).bind fun b t ⟨rest, hs, ht⟩ => by subst ht; exact ⟨rfl, State.Around.refl s⟩
      refine h.bind fun _ s' ⟨hl, ha⟩ => ?_
      have ha' : s.Around (s'.setLen (s'.len <<< 8)) := ha
      refine (ih _ ?_ ?_).mono (fun _ _ h => h) (fun _ h => ha'.trans h) fun _ h => h
      · rw [State.setLen_len, hl, len_shift hlt]; omega
      · rw [State.setLen_len, hl, len_shift hlt, Nat.mul_assoc, ← Nat.pow_succ']
        exact hf
    · trivial

/-- Where `RenormDec` can be left early, and how it can stop. -/
theorem renormDec_early (s : State) (h1 : 1 ≤ s.len.toNat) :
    (renormDec s).Sat (fun _ _ => True) s.Around Fault.Silent :=
  renormDecLoop_early 3 s h1 (by omega)

end Sys2Proof.Machine
end

