-- ==== Sys2Proof/Laws/Trace.lean ====
section
/-! SUPPORT. What every procedure does to the host's side, the streams and the `VALID` bits, in every state, forced ones
included. -/

namespace Sys2Proof.Machine

open Sys2Proof

/-- No `VALID` bit was cleared (R40). -/
def KeepsValid (s t : State) : Prop :=
  (∀ j, (s.smAt j).valid = true → (t.smAt j).valid = true) ∧ (∀ b, (s.bmAt b).valid = true → (t.bmAt b).valid = true)

theorem KeepsValid.refl (s : State) : KeepsValid s s := ⟨fun _ h => h, fun _ h => h⟩

theorem KeepsValid.trans {s t u : State} (h : KeepsValid s t) (h' : KeepsValid t u) : KeepsValid s u :=
  ⟨fun j hj => h'.1 j (h.1 j hj), fun b hb => h'.2 b (h.2 b hb)⟩

/-- What an encoding procedure leaves alone, wherever it ends. -/
def EncMoves (s t : State) : Prop :=
  t.par = s.par ∧ t.inbox = s.inbox ∧ t.responses = s.responses ∧ t.mode = s.mode ∧
  (∃ bs, t.out = s.out ++ bs) ∧ (∃ n, t.sink = s.sink.drop n) ∧ t.source = s.source ∧ t.taken = s.taken ∧ KeepsValid s t

/-- What a decoding procedure leaves alone where it returns or raises a fault. -/
def DecMoves (s t : State) : Prop :=
  t.par = s.par ∧ t.inbox = s.inbox ∧ t.responses = s.responses ∧ t.mode = s.mode ∧
  t.out = s.out ∧ t.sink = s.sink ∧ (∃ n, t.source = s.source.drop n) ∧ s.taken ≤ t.taken ∧ KeepsValid s t

/-- What a decoding procedure leaves alone where the hard reset abandons it. -/
def DecLeft (s t : State) : Prop :=
  t.par = s.par ∧ t.inbox = s.inbox ∧ t.responses = s.responses ∧ t.out = s.out ∧ t.sink = s.sink ∧
  (∃ n, t.source = s.source.drop n) ∧ s.taken ≤ t.taken

theorem EncMoves.refl (s : State) : EncMoves s s :=
  ⟨rfl, rfl, rfl, rfl, ⟨[], by simp⟩, ⟨0, rfl⟩, rfl, rfl, KeepsValid.refl s⟩

theorem EncMoves.trans {s t u : State} (h : EncMoves s t) (h' : EncMoves t u) : EncMoves s u := by
  obtain ⟨a1, a2, a3, a4, ⟨bs, a5⟩, ⟨n, a6⟩, a7, a8, a9⟩ := h
  obtain ⟨b1, b2, b3, b4, ⟨bs', b5⟩, ⟨n', b6⟩, b7, b8, b9⟩ := h'
  exact ⟨b1.trans a1, b2.trans a2, b3.trans a3, b4.trans a4, ⟨bs ++ bs', by rw [b5, a5, List.append_assoc]⟩,
    ⟨n + n', by rw [b6, a6, List.drop_drop]⟩, b7.trans a7, b8.trans a8, a9.trans b9⟩

theorem DecMoves.refl (s : State) : DecMoves s s :=
  ⟨rfl, rfl, rfl, rfl, rfl, rfl, ⟨0, rfl⟩, le_refl _, KeepsValid.refl s⟩

theorem DecMoves.trans {s t u : State} (h : DecMoves s t) (h' : DecMoves t u) : DecMoves s u := by
  obtain ⟨a1, a2, a3, a4, a5, a6, ⟨n, a7⟩, a8, a9⟩ := h
  obtain ⟨b1, b2, b3, b4, b5, b6, ⟨n', b7⟩, b8, b9⟩ := h'
  exact ⟨b1.trans a1, b2.trans a2, b3.trans a3, b4.trans a4, b5.trans a5, b6.trans a6,
    ⟨n + n', by rw [b7, a7, List.drop_drop]⟩, a8.trans b8, a9.trans b9⟩

theorem DecMoves.left {s t u : State} (h : DecMoves s t) (h' : DecLeft t u) : DecLeft s u := by
  obtain ⟨a1, a2, a3, a4, a5, a6, ⟨n, a7⟩, a8, -⟩ := h
  obtain ⟨b1, b2, b3, b4, b5, ⟨n', b6⟩, b7⟩ := h'
  exact ⟨b1.trans a1, b2.trans a2, b3.trans a3, b4.trans a5, b5.trans a6,
    ⟨n + n', by rw [b6, a7, List.drop_drop]⟩, a8.trans b7⟩

/-- The trace of a run from `s`: how it moved the state where it ends, and what the byte stream did if the hard reset came or
no answer came; where no answer came, what is seen is that of a state moved in the same way. -/
def Run.Traced {α : Type} (s : State) (R A : State → State → Prop) (r : Run α) : Prop :=
  match r with
  | .done _ t => R s t
  | .raised _ t => R s t
  | .aborted t => A s t ∧ ¬ s.Undisturbed
  | .stopped f => ∀ seen, f = .streamSilent seen → ¬ s.Answering ∧ ∃ t, R s t ∧ seen = t.seen

theorem undisturbed_of_drop {s t : State} (h : s.Undisturbed) (h1 : ∃ n, t.sink = s.sink.drop n)
    (h2 : ∃ n, t.source = s.source.drop n) : t.Undisturbed := by
  obtain ⟨n, h1⟩ := h1
  obtain ⟨m, h2⟩ := h2
  exact ⟨fun hx => h.1 (List.mem_of_mem_drop (h1 ▸ hx)), fun hx => h.2 (List.mem_of_mem_drop (h2 ▸ hx))⟩

theorem answering_of_drop {s t : State} (h : s.Answering) (h1 : ∃ n, t.sink = s.sink.drop n)
    (h2 : ∃ n, t.source = s.source.drop n) : t.Answering := by
  obtain ⟨n, h1⟩ := h1
  obtain ⟨m, h2⟩ := h2
  exact ⟨fun hx => h.1 (List.mem_of_mem_drop (h1 ▸ hx)), fun hx => h.2 (List.mem_of_mem_drop (h2 ▸ hx))⟩

/-- The trace of an encoding procedure. -/
abbrev Run.EncTraced {α : Type} (s : State) (r : Run α) : Prop := r.Traced s EncMoves EncMoves

/-- The trace of a decoding procedure. -/
abbrev Run.DecTraced {α : Type} (s : State) (r : Run α) : Prop := r.Traced s DecMoves DecLeft

theorem Run.EncTraced.weaken {α : Type} {s t : State} {r : Run α} (h : EncMoves s t) (hr : r.EncTraced t) :
    r.EncTraced s := by
  have hs : ∃ n, t.source = s.source.drop n := ⟨0, h.2.2.2.2.2.2.1⟩
  cases r with
  | done a u => exact h.trans hr
  | raised e u => exact h.trans hr
  | aborted u => exact ⟨h.trans hr.1, fun hu => hr.2 (undisturbed_of_drop hu h.2.2.2.2.2.1 hs)⟩
  | stopped f => exact fun w hf => ⟨fun hu => (hr w hf).1 (answering_of_drop hu h.2.2.2.2.2.1 hs),
      (hr w hf).2.elim fun v hv => ⟨v, h.trans hv.1, hv.2⟩⟩

theorem Run.DecTraced.weaken {α : Type} {s t : State} {r : Run α} (h : DecMoves s t) (hr : r.DecTraced t) :
    r.DecTraced s := by
  have hs : ∃ n, t.sink = s.sink.drop n := ⟨0, h.2.2.2.2.2.1⟩
  cases r with
  | done a u => exact h.trans hr
  | raised e u => exact h.trans hr
  | aborted u => exact ⟨h.left hr.1, fun hu => hr.2 (undisturbed_of_drop hu hs h.2.2.2.2.2.2.1)⟩
  | stopped f => exact fun w hf => ⟨fun hu => (hr w hf).1 (answering_of_drop hu hs h.2.2.2.2.2.2.1),
      (hr w hf).2.elim fun v hv => ⟨v, h.trans hv.1, hv.2⟩⟩

theorem Run.EncTraced.bind {α β : Type} {s : State} {r : Run α} {f : α → State → Run β} (h : r.EncTraced s)
    (hf : ∀ a t, (f a t).EncTraced t) : (r.bind f).EncTraced s := by
  cases r with
  | done a t => exact (hf a t).weaken h
  | raised e t => exact h
  | aborted t => exact h
  | stopped f => exact h

theorem Run.DecTraced.bind {α β : Type} {s : State} {r : Run α} {f : α → State → Run β} (h : r.DecTraced s)
    (hf : ∀ a t, (f a t).DecTraced t) : (r.bind f).DecTraced s := by
  cases r with
  | done a t => exact (hf a t).weaken h
  | raised e t => exact h
  | aborted t => exact h
  | stopped f => exact h

/-! ### The encoding procedures -/

theorem encMoves_putOut {s : State} {b : Byte} {rest : List PutAnswer} (h : ∃ n, rest = s.sink.drop n) :
    EncMoves s (s.putOut b rest) := ⟨rfl, rfl, rfl, rfl, ⟨[b], rfl⟩, h, rfl, rfl, KeepsValid.refl s⟩

theorem encMoves_setSink {s : State} {rest : List PutAnswer} (h : ∃ n, rest = s.sink.drop n) :
    EncMoves s (s.setSink rest) := ⟨rfl, rfl, rfl, rfl, ⟨[], by simp⟩, h, rfl, rfl, KeepsValid.refl s⟩

/-- An update of the coder registers alone. -/
theorem encMoves_coder {s t : State} (h : t = { s with low := t.low, len := t.len, cache := t.cache, pend := t.pend }) :
    EncMoves s t := by
  rw [h]
  exact ⟨rfl, rfl, rfl, rfl, ⟨[], by simp⟩, ⟨0, rfl⟩, rfl, rfl, KeepsValid.refl s⟩

theorem putByte_traced (b : Byte) (s : State) : (putByte b s).EncTraced s := by
  unfold putByte
  split
  · next h => exact encMoves_putOut ⟨0, by simp [h]⟩
  · next rest h => exact encMoves_putOut ⟨1, by simp [h]⟩
  · next rest h => exact encMoves_setSink ⟨1, by simp [h]⟩
  · next rest h => exact fun w hf => ⟨fun hu => hu.1 (by simp [h]), s, EncMoves.refl s, by injection hf with hf; exact hf.symm⟩
  · next rest h =>
    have hn : ¬ s.Undisturbed := fun hu => hu.1 (by simp [h])
    split
    · exact ⟨encMoves_putOut ⟨1, by simp [h]⟩, hn⟩
    · exact ⟨encMoves_setSink ⟨1, by simp [h]⟩, hn⟩

theorem putRepeat_traced (b : Byte) (n : Nat) (s : State) : (putRepeat b n s).EncTraced s := by
  induction n generalizing s with
  | zero => exact EncMoves.refl s
  | succ n ih => exact (putByte_traced b s).bind fun _ t => ih t

theorem shiftOut_traced (s : State) : (shiftOut s).EncTraced s := by
  unfold shiftOut
  split
  · refine (putByte_traced _ s).bind fun _ t => (putRepeat_traced _ _ t).bind fun _ u => ?_
    exact encMoves_coder rfl
  · split
    · exact EncMoves.refl s
    · exact encMoves_coder rfl

theorem shiftOuts_traced (n : Nat) (s : State) : (shiftOuts n s).EncTraced s := by
  induction n generalizing s with
  | zero => exact EncMoves.refl s
  | succ n ih => exact (shiftOut_traced s).bind fun _ t => ih t

theorem renormEncLoop_traced (n : Nat) (s : State) : (renormEncLoop n s).EncTraced s := by
  induction n generalizing s with
  | zero =>
    rw [renormEncLoop]
    split
    · exact fun _ h => by cases h
    · exact EncMoves.refl s
  | succ n ih =>
    rw [renormEncLoop]
    split
    · exact (shiftOut_traced s).bind fun _ t => (ih _).weaken (encMoves_coder rfl)
    · exact EncMoves.refl s

theorem renormEnc_traced (s : State) : (renormEnc s).EncTraced s := renormEncLoop_traced 3 s

theorem keepsValid_symUpdate (m sym : Nat) (s : State) : KeepsValid s (symUpdate m sym s) := by
  refine ⟨fun j hj => ?_, fun _ h => h⟩
  by_cases h : j = m
  · subst h
    rw [symUpdate, State.smAt_setSm_self _ (State.smAt_lt hj)]
    unfold SmSlot.update SmSlot.bump
    split <;> exact hj
  · rw [symUpdate, State.smAt_setSm_ne _ h]; exact hj

theorem keepsValid_bitUpdate (b : Nat) (bit : Bool) (s : State) : KeepsValid s (bitUpdate b bit s) := by
  refine ⟨fun _ h => h, fun j hj => ?_⟩
  by_cases h : j = b
  · subst h
    rw [bitUpdate, State.bmAt_setBm_self _ (State.bmAt_lt hj)]
    unfold BmSlot.update
    split <;> exact hj
  · rw [bitUpdate, State.bmAt_setBm_ne _ h]; exact hj

theorem encMoves_symUpdate (m sym : Nat) (s : State) : EncMoves s (symUpdate m sym s) :=
  ⟨rfl, rfl, rfl, rfl, ⟨[], by simp [symUpdate]⟩, ⟨0, rfl⟩, rfl, rfl, keepsValid_symUpdate m sym s⟩

theorem encMoves_bitUpdate (b : Nat) (bit : Bool) (s : State) : EncMoves s (bitUpdate b bit s) :=
  ⟨rfl, rfl, rfl, rfl, ⟨[], by simp [bitUpdate]⟩, ⟨0, rfl⟩, rfl, rfl, keepsValid_bitUpdate b bit s⟩

theorem encodeSymbol_traced (m sym : Nat) (s : State) : (encodeSymbol m sym s).EncTraced s := by
  unfold encodeSymbol
  split
  · exact fun _ h => by cases h
  · refine Run.EncTraced.weaken (encMoves_coder ?_) ((renormEnc_traced _).bind fun _ t => encMoves_symUpdate m sym t)
    rfl

theorem encodeBit_traced (b : Nat) (bit : Bool) (s : State) : (encodeBit b bit s).EncTraced s := by
  unfold encodeBit
  refine Run.EncTraced.bind ?_ fun _ t => encMoves_bitUpdate b bit t
  cases bit
  · exact (renormEnc_traced _).weaken (encMoves_coder rfl)
  · exact (renormEnc_traced _).weaken (encMoves_coder rfl)

theorem encodeUniform_traced (k x : Nat) (s : State) : (encodeUniform k x s).EncTraced s :=
  (renormEnc_traced _).weaken (encMoves_coder rfl)

theorem encodeBits_traced (k x : Nat) (s : State) : (encodeBits k x s).EncTraced s := by
  unfold encodeBits
  split
  · exact (encodeUniform_traced _ _ s).bind fun _ t => encodeUniform_traced _ _ t
  · exact encodeUniform_traced _ _ s

theorem encodeCorrector_traced (inst : IcInst) (corr : Int) (k : Nat) (s : State) :
    (encodeCorrector inst corr k s).EncTraced s := by
  unfold encodeCorrector
  split
  · split
    · exact encodeBit_traced _ _ s
    · exact encodeUniform_traced _ _ s
  · split
    · exact encodeSymbol_traced _ _ s
    · split
      · exact (encodeSymbol_traced _ _ s).bind fun _ t => encodeBits_traced _ _ t
      · exact encodeBits_traced _ _ s

theorem compressCorrector_traced (i : Nat) (inst : IcInst) (c : Nat) (corr : Int) (s : State) :
    (compressCorrector i inst c corr s).EncTraced s :=
  (encodeSymbol_traced _ _ s).bind fun _ t => (encodeCorrector_traced _ _ _ t).bind fun _ u =>
    ⟨rfl, rfl, rfl, rfl, ⟨[], by simp⟩, ⟨0, rfl⟩, rfl, rfl, KeepsValid.refl u⟩

/-! ### The decoding procedures -/

/-- An update of the coder registers alone. -/
theorem decMoves_coder {s t : State}
    (h : t = { s with low := t.low, len := t.len, cache := t.cache, pend := t.pend, value := t.value }) :
    DecMoves s t := by
  rw [h]
  exact ⟨rfl, rfl, rfl, rfl, rfl, rfl, ⟨0, rfl⟩, le_refl _, KeepsValid.refl s⟩

theorem getByte_traced (s : State) : (getByte s).DecTraced s := by
  unfold getByte
  split
  · exact DecMoves.refl s
  · next b rest h =>
    exact ⟨rfl, rfl, rfl, rfl, rfl, rfl, ⟨1, by simp [h]⟩, by simp, KeepsValid.refl s⟩
  · next rest h => exact ⟨rfl, rfl, rfl, rfl, rfl, rfl, ⟨1, by simp [h]⟩, le_refl _, KeepsValid.refl s⟩
  · next rest h => exact fun w hf => ⟨fun hu => hu.2 (by simp [h]), s, DecMoves.refl s, by injection hf with hf; exact hf.symm⟩
  · next rest h =>
    have hn : ¬ s.Undisturbed := fun hu => hu.2 (by simp [h])
    split
    · exact ⟨⟨rfl, rfl, rfl, rfl, rfl, ⟨1, by simp [h]⟩, by simp⟩, hn⟩
    · exact ⟨⟨rfl, rfl, rfl, rfl, rfl, ⟨1, by simp [h]⟩, le_refl _⟩, hn⟩

theorem shiftIn_traced (s : State) : (shiftIn s).DecTraced s :=
  (getByte_traced s).bind fun _ _ => decMoves_coder rfl

theorem shiftIns_traced (n : Nat) (s : State) : (shiftIns n s).DecTraced s := by
  induction n generalizing s with
  | zero => exact DecMoves.refl s
  | succ n ih => exact (shiftIn_traced s).bind fun _ t => ih t

theorem renormDecLoop_traced (n : Nat) (s : State) : (renormDecLoop n s).DecTraced s := by
  induction n generalizing s with
  | zero =>
    rw [renormDecLoop]
    split
    · exact fun _ h => by cases h
    · exact DecMoves.refl s
  | succ n ih =>
    rw [renormDecLoop]
    split
    · exact (shiftIn_traced s).bind fun _ t => (ih _).weaken (decMoves_coder rfl)
    · exact DecMoves.refl s

theorem renormDec_traced (s : State) : (renormDec s).DecTraced s := renormDecLoop_traced 3 s

theorem decMoves_symUpdate (m sym : Nat) (s : State) : DecMoves s (symUpdate m sym s) :=
  ⟨rfl, rfl, rfl, rfl, rfl, rfl, ⟨0, rfl⟩, le_refl _, keepsValid_symUpdate m sym s⟩

theorem decMoves_bitUpdate (b : Nat) (bit : Bool) (s : State) : DecMoves s (bitUpdate b bit s) :=
  ⟨rfl, rfl, rfl, rfl, rfl, rfl, ⟨0, rfl⟩, le_refl _, keepsValid_bitUpdate b bit s⟩

theorem decodeSymbol_traced (m : Nat) (s : State) : (decodeSymbol m s).DecTraced s := by
  unfold decodeSymbol
  split
  · exact fun _ h => by cases h
  · exact ((renormDec_traced _).weaken (decMoves_coder rfl)).bind fun _ t => decMoves_symUpdate m _ t

theorem decodeBit_traced (b : Nat) (s : State) : (decodeBit b s).DecTraced s := by
  unfold decodeBit
  split
  · exact ((renormDec_traced _).weaken (decMoves_coder rfl)).bind fun _ t => decMoves_bitUpdate b _ t
  · exact ((renormDec_traced _).weaken (decMoves_coder rfl)).bind fun _ t => decMoves_bitUpdate b _ t

theorem decodeUniform_traced (k : Nat) (s : State) : (decodeUniform k s).DecTraced s := by
  unfold decodeUniform
  split
  · exact fun _ h => by cases h
  · exact ((renormDec_traced _).weaken (decMoves_coder rfl)).bind fun _ t => DecMoves.refl t

theorem decodeBits_traced (k : Nat) (s : State) : (decodeBits k s).DecTraced s := by
  unfold decodeBits
  split
  · exact (decodeUniform_traced _ s).bind fun _ t => (decodeUniform_traced _ t).bind fun _ u => DecMoves.refl u
  · exact decodeUniform_traced _ s

theorem decodePosition_traced (inst : IcInst) (k : Nat) (s : State) : (decodePosition inst k s).DecTraced s := by
  unfold decodePosition
  split
  · exact decodeSymbol_traced _ s
  · split
    · exact (decodeSymbol_traced _ s).bind fun _ t => (decodeBits_traced _ t).bind fun _ u => DecMoves.refl u
    · exact decodeBits_traced _ s

theorem decodeCorrector_traced (inst : IcInst) (k : Nat) (s : State) : (decodeCorrector inst k s).DecTraced s := by
  unfold decodeCorrector
  split
  · split
    · exact (decodeBit_traced _ s).bind fun _ t => DecMoves.refl t
    · exact (decodeUniform_traced _ s).bind fun _ t => DecMoves.refl t
  · exact (decodePosition_traced _ _ s).bind fun _ t => DecMoves.refl t

theorem decompressValue_traced (i : Nat) (inst : IcInst) (c : Nat) (p : Word) (s : State) :
    (decompressValue i inst c p s).DecTraced s :=
  (decodeSymbol_traced _ s).bind fun _ t => (decodeCorrector_traced _ _ t).bind fun _ u =>
    ⟨rfl, rfl, rfl, rfl, rfl, rfl, ⟨0, rfl⟩, le_refl _, KeepsValid.refl u⟩

end Sys2Proof.Machine
end

