-- ==== Sys2Proof/Laws/Exec.lean ====
section
/-! SUPPORT. The shape of every command, in every state: a refusal, an answer without a transfer, or a coding procedure with
its trace. -/

namespace Sys2Proof.Machine

open Sys2Proof

/-- `EncMoves` without the session mode, which `ENC_DONE` changes. -/
def EncMoved (s t : State) : Prop :=
  t.par = s.par ∧ t.inbox = s.inbox ∧ t.responses = s.responses ∧
  (∃ bs, t.out = s.out ++ bs) ∧ (∃ n, t.sink = s.sink.drop n) ∧ t.source = s.source ∧ t.taken = s.taken ∧ KeepsValid s t

/-- `DecMoves` without the session mode, which `DEC_START` changes. -/
def DecMoved (s t : State) : Prop :=
  t.par = s.par ∧ t.inbox = s.inbox ∧ t.responses = s.responses ∧ t.out = s.out ∧ t.sink = s.sink ∧
  (∃ n, t.source = s.source.drop n) ∧ s.taken ≤ t.taken ∧ KeepsValid s t

theorem EncMoves.moved {s t : State} (h : EncMoves s t) : EncMoved s t :=
  ⟨h.1, h.2.1, h.2.2.1, h.2.2.2.2⟩

theorem DecMoves.moved {s t : State} (h : DecMoves s t) : DecMoved s t :=
  ⟨h.1, h.2.1, h.2.2.1, h.2.2.2.2⟩

/-- The commands that may run although `MODE` is `FAULT` (R101, R102). -/
def AllowedInFault (i : Instr) : Prop := i = .srst ∨ ∃ csr : Index, i = .rdcsr csr ∧ csr.toNat ≤ 2

/-- The commands that have no result (R95). -/
def NoResult (i : Instr) : Prop :=
  i ∈ [Instr.srst, .encStart, .encDone, .decStart, .decDone] ∨ (mirror i).isSome = true

/-- How the mode moves where a command answers `OK` (R23). -/
def ModeMoves (i : Instr) (s t : State) : Prop :=
  t.mode = s.mode ∨ (i = .encStart ∧ s.mode = .idle ∧ t.mode = .enc) ∨ (i = .encDone ∧ s.mode = .enc ∧ t.mode = .idle) ∨
  (i = .decStart ∧ s.mode = .idle ∧ t.mode = .dec) ∨ (i = .decDone ∧ s.mode = .dec ∧ t.mode = .idle)

/-- The four shapes of a command's outcome. -/
inductive ExecShape (i : Instr) (s : State) : Out → Prop where
  /-- A refusal (R260). -/
  | refused (e : Status) (hf : s.mode = .fault → ¬ AllowedInFault i ∧ e = .eFaulted)
      (hm : s.mode ≠ .fault → s.mode ∉ modesOf i → e = .eMode)
      (ho : s.mode ∈ modesOf i → e = .eOperand ∨ e = .eUninit) : ExecShape i s (refuse s e)
  /-- `SRST`. -/
  | reset (hi : i = .srst) : ExecShape i s (answer (resetBlock s) 0)
  /-- An answer without a transfer. -/
  | answered (t : State) (v : Word) (hi : i ≠ .srst) (ha : s.mode ∈ modesOf i ∨ AllowedInFault i) (hs : s.SameOutside t)
      (hr : t.responses = s.responses) (hm : ModeMoves i s t) (hv : KeepsValid s t) (hz : NoResult i → v = 0)
      (hq : s.mode = .fault → t = s) : ExecShape i s (answer t v)
  /-- A coding procedure of the encoder. -/
  | encoded (r : Run Word) (hi : i ≠ .srst) (hm : s.mode = .enc) (ha : s.mode ∈ modesOf i)
      (ht : r.Traced s EncMoved EncMoved) (hd : ∀ v t, r = .done v t → v = 0 ∧ ModeMoves i s t) :
      ExecShape i s (finish (encode i).cmd r)
  /-- A coding procedure of the decoder. -/
  | decoded (r : Run Word) (hi : i ≠ .srst) (hm : s.mode = .dec ∨ i = .decStart) (ha : s.mode ∈ modesOf i)
      (ht : r.Traced s DecMoved DecLeft) (hd : ∀ v t, r = .done v t → (NoResult i → v = 0) ∧ ModeMoves i s t) :
      ExecShape i s (finish (encode i).cmd r)

theorem enc_of_traced {α : Type} {s : State} {r : Run α} (h : r.EncTraced s) : r.Traced s EncMoved EncMoved := by
  cases r with
  | done a t => exact EncMoves.moved h
  | raised e t => exact EncMoves.moved h
  | aborted t => exact ⟨EncMoves.moved h.1, h.2⟩
  | stopped f => exact fun w hw => ⟨(h w hw).1, (h w hw).2.elim fun v hv => ⟨v, EncMoves.moved hv.1, hv.2⟩⟩

theorem dec_of_traced {α : Type} {s : State} {r : Run α} (h : r.DecTraced s) : r.Traced s DecMoved DecLeft := by
  cases r with
  | done a t => exact DecMoves.moved h
  | raised e t => exact DecMoves.moved h
  | aborted t => exact h
  | stopped f => exact fun w hw => ⟨(h w hw).1, (h w hw).2.elim fun v hv => ⟨v, DecMoves.moved hv.1, hv.2⟩⟩

/-- A last step that changes nothing a trace speaks of but the mode. -/
theorem Run.Traced.mapMode {α β : Type} {s : State} {R A : State → State → Prop} {r : Run α} (h : r.Traced s R A)
    (f : State → State) (b : β) (hf : ∀ t, R s t → R s (f t)) : (r.bind fun _ t => .done b (f t)).Traced s R A := by
  cases r with
  | done a t => exact hf t h
  | raised e t => exact h
  | aborted t => exact h
  | stopped g => exact h

/-- What the body of `ENC_DONE` leaves alone (R160). -/
theorem encDone_traced (s : State) :
    ((shiftOuts Config.flushBytes s).bind fun _ u => .done (0 : Word) (u.setMode .idle)).Traced s EncMoved EncMoved :=
  (enc_of_traced (shiftOuts_traced Config.flushBytes s)).mapMode (·.setMode .idle) 0 fun _ h => h

/-- What the body of `DEC_START` leaves alone (R180). -/
theorem decStart_traced (s : State) :
    ((getByte (s.setCoder 0 (BitVec.ofNat 32 Config.fullLen) s.cache 0 s.value)).bind fun b s1 =>
      (shiftIns 4 (s1.setCoder 0 (BitVec.ofNat 32 Config.fullLen) b 0 0)).bind fun _ s2 =>
        .done (0 : Word) (s2.setMode .dec)).Traced s DecMoved DecLeft := by
  rw [← Run.bind_assoc]
  exact (dec_of_traced (((getByte_traced _).weaken (decMoves_coder rfl)).bind fun b t =>
    (shiftIns_traced 4 _).weaken (decMoves_coder rfl))).mapMode (·.setMode .dec) 0 fun _ h => h

/-- The checks 1 and 3 of R101. -/
theorem guarded_shape {i : Instr} {s : State} {modes : List Mode} {k : Out} (hmodes : modes = modesOf i)
    (hf : ¬ AllowedInFault i) (hk : s.mode ∈ modesOf i → s.mode ≠ .fault → ExecShape i s k) :
    ExecShape i s (guarded s modes k) := by
  subst hmodes
  unfold guarded
  split
  · next h =>
    refine .refused _ (fun _ => ⟨hf, rfl⟩) (fun h' => absurd h h') fun h' => ?_
    rw [h] at h'
    cases i <;> simp [modesOf] at h'
  · next h =>
    split
    · next h' => exact hk h' h
    · next h' => exact .refused _ (fun h'' => absurd h'' h) (fun _ _ => rfl) fun h'' => absurd h'' h'

theorem refuse_operand {i : Instr} {s : State} (h : s.mode ≠ .fault) (hm : s.mode ∈ modesOf i) :
    ExecShape i s (refuse s .eOperand) := .refused _ (fun h' => absurd h' h) (fun _ h' => absurd hm h') fun _ => .inl rfl

theorem refuse_uninit {i : Instr} {s : State} (h : s.mode ≠ .fault) (hm : s.mode ∈ modesOf i) :
    ExecShape i s (refuse s .eUninit) := .refused _ (fun h' => absurd h' h) (fun _ h' => absurd hm h') fun _ => .inr rfl

/-- An answer that only wrote files or coder registers. -/
theorem answer_shape {i : Instr} {s t : State} {v : Word} (h : s.mode ≠ .fault) (hm : s.mode ∈ modesOf i)
    (hi : i ≠ .srst) (hs : s.SameOutside t) (hr : t.responses = s.responses) (hmm : ModeMoves i s t)
    (hv : KeepsValid s t) (hz : NoResult i → v = 0) : ExecShape i s (answer t v) :=
  .answered t v hi (.inl hm) hs hr hmm hv hz fun h' => absurd h' h

theorem keepsValid_setSm {s : State} {m : Nat} {x : SmSlot} (h : x.valid = true) : KeepsValid s (s.setSm m x) := by
  refine ⟨fun j hj => ?_, fun _ h => h⟩
  by_cases hjm : j = m
  · subst hjm
    rw [State.smAt_setSm_self _ (State.smAt_lt hj)]; exact h
  · rw [State.smAt_setSm_ne _ hjm]; exact hj

theorem keepsValid_setBm {s : State} {b : Nat} {x : BmSlot} (h : x.valid = true) : KeepsValid s (s.setBm b x) := by
  refine ⟨fun _ h => h, fun j hj => ?_⟩
  by_cases hjm : j = b
  · subst hjm
    rw [State.bmAt_setBm_self _ (State.bmAt_lt hj)]; exact h
  · rw [State.bmAt_setBm_ne _ hjm]; exact hj

/-- What `IC_INIT` writes: the files only. -/
def FilesOnly (s t : State) : Prop := t = { s with sm := t.sm, bm := t.bm } ∧ KeepsValid s t

theorem initMagModels_files (inst : IcInst) (n : Nat) (s : State) : FilesOnly s (initMagModels inst n s) := by
  induction n with
  | zero => exact ⟨rfl, KeepsValid.refl s⟩
  | succ n ih =>
    rw [initMagModels]
    refine ⟨?_, ih.2.trans (keepsValid_setSm rfl)⟩
    rw [ih.1]
    rfl

theorem initValModels_files (inst : IcInst) (n : Nat) (s : State) : FilesOnly s (initValModels inst n s) := by
  induction n with
  | zero => exact ⟨rfl, KeepsValid.refl s⟩
  | succ n ih =>
    rw [initValModels]
    refine ⟨?_, ih.2.trans (keepsValid_setSm rfl)⟩
    rw [ih.1]
    rfl

theorem initBitModel_files (inst : IcInst) (s : State) : FilesOnly s (initBitModel inst s) := by
  unfold initBitModel
  split
  · exact ⟨rfl, keepsValid_setBm rfl⟩
  · exact ⟨rfl, KeepsValid.refl s⟩

theorem FilesOnly.trans {s t u : State} (h : FilesOnly s t) (h' : FilesOnly t u) : FilesOnly s u := by
  refine ⟨?_, h.2.trans h'.2⟩
  rw [h'.1, h.1]

theorem noResult_done {r : Run Unit} {v : Word} {t : State} (h : noResult r = .done v t) : v = 0 ∧ r = .done () t := by
  rw [noResult, Run.bind_eq_done] at h
  obtain ⟨_, u, h1, h2⟩ := h
  obtain ⟨rfl, rfl⟩ := Run.done.inj h2
  exact ⟨rfl, h1⟩

theorem noResult_traced {s : State} {r : Run Unit} (h : r.EncTraced s) : (noResult r).EncTraced s :=
  h.bind fun _ t => EncMoves.refl t

theorem wordResult_traced {s : State} {r : Run Nat} (h : r.DecTraced s) : (wordResult r).DecTraced s :=
  h.bind fun _ t => DecMoves.refl t

/-- A coding command of the encoder that keeps the session open. -/
theorem encoded_shape {i : Instr} {s : State} {r : Run Word} (hi : i ≠ .srst) (hm : s.mode = .enc)
    (ha : s.mode ∈ modesOf i) (ht : r.EncTraced s) (hz : ∀ v t, r = .done v t → v = 0) :
    ExecShape i s (finish (encode i).cmd r) :=
  .encoded r hi hm ha (enc_of_traced ht) fun v t h => ⟨hz v t h, .inl (by
    rw [h] at ht
    exact ht.2.2.2.1)⟩

/-- A coding command of the decoder that keeps the session open. -/
theorem decoded_shape {i : Instr} {s : State} {r : Run Word} (hi : i ≠ .srst) (hm : s.mode = .dec)
    (ha : s.mode ∈ modesOf i) (ht : r.DecTraced s) (hz : ¬ NoResult i) : ExecShape i s (finish (encode i).cmd r) :=
  .decoded r hi (.inl hm) ha (dec_of_traced ht) fun v t h => ⟨fun hn => absurd hn hz, .inl (by
    rw [h] at ht
    exact ht.2.2.2.1)⟩

theorem sameOutside_refl (s : State) : s.SameOutside s := ⟨rfl, rfl, rfl, rfl, rfl, rfl⟩

/-- Every command has one of the four shapes. -/
theorem exec_shape (i : Instr) (s : State) : ExecShape i s (exec i s) := by
  have nf : ∀ j : Instr, j ≠ .srst → (∀ csr, j ≠ .rdcsr csr) → ¬ AllowedInFault j := by
    rintro j h1 h2 (h | ⟨csr, h, -⟩)
    · exact h1 h
    · exact h2 csr h
  cases i with
  | srst => exact .reset rfl
  | rdcsr csr =>
    show ExecShape _ s (execRdcsr csr s)
    unfold execRdcsr
    split
    · next h =>
      refine .refused _ (fun _ => ⟨?_, rfl⟩) (fun h' => absurd h.1 h') fun h' => ?_
      · rintro (h' | ⟨c, h', hc⟩)
        · cases h'
        · cases h'; omega
      · rw [h.1] at h'; simp [modesOf] at h'
    · next h =>
      have hin : s.mode ≠ .fault → s.mode ∈ modesOf (.rdcsr csr) := by
        cases s.mode <;> simp [modesOf]
      split
      · next hn =>
        by_cases hf : s.mode = .fault
        · exfalso
          have hc : csr.toNat ≤ 2 := by by_contra hc; exact h ⟨hf, by omega⟩
          obtain hc | hc | hc : csr.toNat = 0 ∨ csr.toNat = 1 ∨ csr.toNat = 2 := by omega
          all_goals (rw [hc] at hn; simp [State.csr] at hn)
        · exact refuse_operand hf (hin hf)
      · next v hv =>
        refine .answered s v (by simp) ?_ (sameOutside_refl s) rfl (.inl rfl) (KeepsValid.refl s) ?_ fun _ => rfl
        · by_cases hf : s.mode = .fault
          · right; right
            refine ⟨csr, rfl, ?_⟩
            by_contra hc
            exact h ⟨hf, by omega⟩
          · exact .inl (hin hf)
        · rintro (h' | h') <;> simp [mirror] at h'
  | smInit m n =>
    refine guarded_shape rfl (nf _ (by simp) (by simp)) fun hm hf => ?_
    split
    · exact refuse_operand hf hm
    · split
      · exact refuse_operand hf hm
      · exact answer_shape hf hm (by simp) ⟨rfl, rfl, rfl, rfl, rfl, rfl⟩ rfl (.inl rfl) (keepsValid_setSm rfl) fun _ => rfl
  | bmInit b =>
    refine guarded_shape rfl (nf _ (by simp) (by simp)) fun hm hf => ?_
    split
    · exact refuse_operand hf hm
    · exact answer_shape hf hm (by simp) ⟨rfl, rfl, rfl, rfl, rfl, rfl⟩ rfl (.inl rfl) (keepsValid_setBm rfl) fun _ => rfl
  | smRd sel m j =>
    have hz : ¬ NoResult (.smRd sel m j) := by rintro (h' | h') <;> simp [mirror] at h'
    have ok : ∀ v, s.mode ∈ modesOf (.smRd sel m j) → s.mode ≠ .fault → ExecShape (.smRd sel m j) s (answer s v) :=
      fun v hm hf => answer_shape hf hm (by simp) (sameOutside_refl s) rfl (.inl rfl) (KeepsValid.refl s)
        fun h => absurd h hz
    refine guarded_shape rfl (nf _ (by simp) (by simp)) fun hm hf => ?_
    split
    · exact refuse_operand hf hm
    · split
      · exact refuse_uninit hf hm
      · split
        · split
          · exact refuse_operand hf hm
          · exact ok _ hm hf
        · split
          · split
            · exact refuse_operand hf hm
            · exact ok _ hm hf
          · exact ok _ hm hf
  | bmRd b =>
    have hz : ¬ NoResult (.bmRd b) := by rintro (h' | h') <;> simp [mirror] at h'
    refine guarded_shape rfl (nf _ (by simp) (by simp)) fun hm hf => ?_
    split
    · exact refuse_operand hf hm
    · split
      · exact refuse_uninit hf hm
      · exact answer_shape hf hm (by simp) (sameOutside_refl s) rfl (.inl rfl) (KeepsValid.refl s) fun h => absurd h hz
  | encStart =>
    refine guarded_shape rfl (nf _ (by simp) (by simp)) fun hm hf => ?_
    exact answer_shape hf hm (by simp) ⟨rfl, rfl, rfl, rfl, rfl, rfl⟩ rfl
      (.inr (.inl ⟨rfl, by simpa [modesOf] using hm, rfl⟩)) (KeepsValid.refl s) fun _ => rfl
  | encSym m sym =>
    refine guarded_shape rfl (nf _ (by simp) (by simp)) fun hm hf => ?_
    split
    · exact refuse_operand hf hm
    · split
      · exact refuse_uninit hf hm
      · split
        · exact refuse_operand hf hm
        · exact encoded_shape (by simp) (by simpa [modesOf] using hm) hm (noResult_traced (encodeSymbol_traced _ _ s))
            fun v t h => (noResult_done h).1
  | encBit b bit =>
    refine guarded_shape rfl (nf _ (by simp) (by simp)) fun hm hf => ?_
    split
    · exact refuse_operand hf hm
    · split
      · exact refuse_uninit hf hm
      · split
        · exact refuse_operand hf hm
        · exact encoded_shape (by simp) (by simpa [modesOf] using hm) hm (noResult_traced (encodeBit_traced _ _ s))
            fun v t h => (noResult_done h).1
  | encBits k x =>
    refine guarded_shape rfl (nf _ (by simp) (by simp)) fun hm hf => ?_
    split
    · exact refuse_operand hf hm
    · split
      · exact refuse_operand hf hm
      · exact encoded_shape (by simp) (by simpa [modesOf] using hm) hm (noResult_traced (encodeBits_traced _ _ s))
          fun v t h => (noResult_done h).1
  | encDone =>
    refine guarded_shape rfl (nf _ (by simp) (by simp)) fun hm hf => ?_
    have he : s.mode = .enc := by simpa [modesOf] using hm
    refine .encoded _ (by simp) he hm (encDone_traced s) fun v t h => ?_
    rw [Run.bind_eq_done] at h
    obtain ⟨_, u, -, h2⟩ := h
    obtain ⟨rfl, rfl⟩ := Run.done.inj h2
    exact ⟨rfl, .inr (.inr (.inl ⟨rfl, he, rfl⟩))⟩
  | decStart =>
    refine guarded_shape rfl (nf _ (by simp) (by simp)) fun hm hf => ?_
    have he : s.mode = .idle := by simpa [modesOf] using hm
    refine .decoded _ (by simp) (.inr rfl) hm (decStart_traced s) fun v t h => ?_
    simp only [Run.bind_eq_done] at h
    obtain ⟨b, u, -, _, w, -, h2⟩ := h
    obtain ⟨rfl, rfl⟩ := Run.done.inj h2
    exact ⟨fun _ => rfl, .inr (.inr (.inr (.inl ⟨rfl, he, rfl⟩)))⟩
  | decSym m =>
    refine guarded_shape rfl (nf _ (by simp) (by simp)) fun hm hf => ?_
    split
    · exact refuse_operand hf hm
    · split
      · exact refuse_uninit hf hm
      · exact decoded_shape (by simp) (by simpa [modesOf] using hm) hm (wordResult_traced (decodeSymbol_traced _ s))
          (by rintro (h' | h') <;> simp [mirror] at h')
  | decBit b =>
    refine guarded_shape rfl (nf _ (by simp) (by simp)) fun hm hf => ?_
    split
    · exact refuse_operand hf hm
    · split
      · exact refuse_uninit hf hm
      · exact decoded_shape (by simp) (by simpa [modesOf] using hm) hm (wordResult_traced (decodeBit_traced _ s))
          (by rintro (h' | h') <;> simp [mirror] at h')
  | decBits k =>
    refine guarded_shape rfl (nf _ (by simp) (by simp)) fun hm hf => ?_
    split
    · exact refuse_operand hf hm
    · exact decoded_shape (by simp) (by simpa [modesOf] using hm) hm (wordResult_traced (decodeBits_traced _ s))
        (by rintro (h' | h') <;> simp [mirror] at h')
  | decDone =>
    refine guarded_shape rfl (nf _ (by simp) (by simp)) fun hm hf => ?_
    exact answer_shape hf hm (by simp) ⟨rfl, rfl, rfl, rfl, rfl, rfl⟩ rfl
      (.inr (.inr (.inr (.inr ⟨rfl, by simpa [modesOf] using hm, rfl⟩)))) (KeepsValid.refl s) fun _ => rfl
  | icConfig i b range =>
    refine guarded_shape rfl (nf _ (by simp) (by simp)) fun hm hf => ?_
    split
    · exact refuse_operand hf hm
    · split
      · exact refuse_operand hf hm
      · split
        · exact refuse_operand hf hm
        · exact answer_shape hf hm (by simp) ⟨rfl, rfl, rfl, rfl, rfl, rfl⟩ rfl (.inl rfl) (KeepsValid.refl s) fun _ => rfl
  | icSetup i c bh zero smbase bmslot =>
    refine guarded_shape rfl (nf _ (by simp) (by simp)) fun hm hf => ?_
    split
    · exact refuse_operand hf hm
    · split
      · exact refuse_uninit hf hm
      · split
        · exact refuse_operand hf hm
        · split
          · exact refuse_operand hf hm
          · split
            · exact refuse_operand hf hm
            · exact answer_shape hf hm (by simp) ⟨rfl, rfl, rfl, rfl, rfl, rfl⟩ rfl (.inl rfl) (KeepsValid.refl s)
                fun _ => rfl
  | icInit i =>
    refine guarded_shape rfl (nf _ (by simp) (by simp)) fun hm hf => ?_
    split
    · exact refuse_operand hf hm
    · split
      · exact refuse_uninit hf hm
      · have h := ((initMagModels_files (s.icAt i.toNat) (s.icAt i.toNat).ctx.toNat s).trans
          (initValModels_files (s.icAt i.toNat) (s.icAt i.toNat).nv _)).trans (initBitModel_files (s.icAt i.toNat) _)
        generalize initBitModel (s.icAt i.toNat) _ = t at h ⊢
        have ho : s.SameOutside t := by rw [h.1]; exact ⟨rfl, rfl, rfl, rfl, rfl, rfl⟩
        have hr : t.responses = s.responses := by rw [h.1]
        have hmm : t.mode = s.mode := by rw [h.1]
        exact answer_shape hf hm (by simp) ho hr (.inl hmm) h.2 fun _ => rfl
  | icCompress i c p v =>
    refine guarded_shape rfl (nf _ (by simp) (by simp)) fun hm hf => ?_
    split
    · exact refuse_operand hf hm
    · split
      · exact refuse_uninit hf hm
      · split
        · exact refuse_operand hf hm
        · split
          · exact refuse_uninit hf hm
          · split
            · exact refuse_operand hf hm
            · refine encoded_shape (by simp) (by simpa [modesOf] using hm) hm (compressCorrector_traced _ _ _ _ s)
                fun v t h => ?_
              simp only [compressCorrector, Run.bind_eq_done] at h
              obtain ⟨_, _, _, _, _, _, h⟩ := h
              exact (Run.done.inj h).1.symm
  | icDecompress i c p =>
    refine guarded_shape rfl (nf _ (by simp) (by simp)) fun hm hf => ?_
    split
    · exact refuse_operand hf hm
    · split
      · exact refuse_uninit hf hm
      · split
        · exact refuse_operand hf hm
        · split
          · exact refuse_uninit hf hm
          · exact decoded_shape (by simp) (by simpa [modesOf] using hm) hm (decompressValue_traced _ _ _ _ s)
              (by rintro (h' | h') <;> simp [mirror] at h')
  | icGetk i =>
    have hz : ¬ NoResult (.icGetk i) := by rintro (h' | h') <;> simp [mirror] at h'
    refine guarded_shape rfl (nf _ (by simp) (by simp)) fun hm hf => ?_
    split
    · exact refuse_operand hf hm
    · split
      · exact refuse_uninit hf hm
      · exact answer_shape hf hm (by simp) (sameOutside_refl s) rfl (.inl rfl) (KeepsValid.refl s) fun h => absurd h hz

end Sys2Proof.Machine
end

