-- ==== Sys2Proof/Laws/Models.lean ====
section
/-! SUPPORT. The adaptive models: sums of counts, the search, and the sizes of the sub-intervals they give (R33, R126, R161). -/

namespace Sys2Proof.Machine

open Sys2Proof

@[simp] theorem SmSlot.cum_zero (sl : SmSlot) : sl.cum 0 = 0 := rfl

/-- `CUM` grows by the count (R33). -/
theorem SmSlot.cum_succ (sl : SmSlot) (j : Nat) : sl.cum (j + 1) = sl.cum j + sl.count j := by
  unfold SmSlot.cum SmSlot.count
  rw [List.take_add_one, List.map_append, List.sum_append, List.getD_eq_getElem?_getD]
  cases sl.cnt[j]? <;> simp

theorem SmSlot.cum_mono (sl : SmSlot) {i j : Nat} (h : i ≤ j) : sl.cum i ≤ sl.cum j := by
  induction h with
  | refl => exact le_refl _
  | step _ ih => rw [SmSlot.cum_succ]; omega

/-- A symbol's part of the total (R161). -/
theorem SmSlot.cum_count_le (sl : SmSlot) {j : Nat} (h : j < sl.n) : sl.cum j + sl.count j ≤ sl.total := by
  rw [← SmSlot.cum_succ]
  exact sl.cum_mono h

theorem SmSlot.Ok.count_pos {p : Params} {sl : SmSlot} (h : sl.Ok p) (hv : sl.valid = true) {j : Nat} (hj : j < sl.n) :
    1 ≤ sl.count j := by
  obtain ⟨_, _, hl, hc, _⟩ := h hv
  unfold SmSlot.count
  rw [List.getD_eq_getElem?_getD, List.getElem?_eq_getElem (by omega)]
  exact hc _ (List.getElem_mem _)

theorem SmSlot.Ok.total_pos {p : Params} {sl : SmSlot} (h : sl.Ok p) (hv : sl.valid = true) : 1 ≤ sl.total := by
  have hn := (h hv).1
  have h1 := h.count_pos hv (j := 0) (by omega)
  have h2 := sl.cum_count_le (j := 0) (by omega)
  omega

/-- The search finds the symbol whose counts hold the position (R126). -/
theorem findIn_spec (cs : List (BitVec 17)) (t : Nat) (h : t < (cs.map BitVec.toNat).sum) :
    findIn cs t < cs.length ∧ ((cs.take (findIn cs t)).map BitVec.toNat).sum ≤ t ∧
    t < ((cs.take (findIn cs t + 1)).map BitVec.toNat).sum := by
  induction cs generalizing t with
  | nil => simp at h
  | cons c cs ih =>
    rw [findIn]
    split
    · simp; omega
    · rw [List.map_cons, List.sum_cons] at h
      obtain ⟨h1, h2, h3⟩ := ih (t - c.toNat) (by omega)
      refine ⟨by rw [List.length_cons]; omega, ?_, ?_⟩
      · rw [Nat.add_comm 1, List.take_succ_cons, List.map_cons, List.sum_cons]; omega
      · rw [Nat.add_comm 1, List.take_succ_cons, List.map_cons, List.sum_cons]; omega

/-- `FindSym` in a slot (R126). -/
theorem SmSlot.findSym_spec {sl : SmSlot} {t : Nat} (hl : sl.cnt.length = sl.n) (h : t < sl.total) :
    sl.findSym t < sl.n ∧ sl.cum (sl.findSym t) ≤ t ∧ t < sl.cum (sl.findSym t + 1) := by
  have ht : sl.cnt.take sl.n = sl.cnt := List.take_of_length_le (by omega)
  have := findIn_spec sl.cnt t (by rw [SmSlot.total, SmSlot.cum, ht] at h; exact h)
  rw [hl] at this
  simpa [SmSlot.findSym, SmSlot.cum, ht] using this

/-- The position of a symbol determines it (R126). -/
theorem SmSlot.symbol_unique {sl : SmSlot} {t i j : Nat} (hi : sl.cum i ≤ t) (hi' : t < sl.cum (i + 1))
    (hj : sl.cum j ≤ t) (hj' : t < sl.cum (j + 1)) : i = j := by
  rcases Nat.lt_trichotomy i j with h | h | h
  · have := sl.cum_mono (show i + 1 ≤ j from h); omega
  · exact h
  · have := sl.cum_mono (show j + 1 ≤ i from h); omega

/-- The unit of a division by the total is at least 256 (R161). -/
theorem unit_ge {p : Params} (hp : p.Ok) {sl : SmSlot} (h : sl.Ok p) (hv : sl.valid = true) {len : Nat}
    (hl : 2 ^ 24 ≤ len) : 256 ≤ len / sl.total := by
  obtain ⟨_, _, _, _, ht⟩ := h hv
  obtain ⟨_, _, _, _, _, ⟨_, hb⟩, _⟩ := hp
  have h1 := h.total_pos hv
  rw [Nat.le_div_iff_mul_le (by omega)]
  have : p.symLimit ≤ 65536 := hb
  omega

/-- `P0` stays between 1 and 8191 (R36, R125). -/
theorem BmSlot.Ok.p0_bounds {p : Params} {sl : BmSlot} (hp : p.Ok) (h : sl.Ok p) (hv : sl.valid = true) :
    1 ≤ sl.p0 ∧ sl.p0 ≤ 8191 := by
  obtain ⟨h1, h2⟩ := h hv
  have h3 : 2 ^ 1 ≤ 2 ^ p.bmShift := Nat.pow_le_pow_right (by omega) hp.2.2.2.2.2.2.1.1
  have h4 : ((2 ^ p.bmShift : Nat) : Int) = 2 ^ p.bmShift := by push_cast; rfl
  have h5 : (2 : Int) ≤ 2 ^ p.bmShift := by rw [← h4]; exact_mod_cast h3
  unfold BmSlot.p0 Config.bmMid
  push_cast
  constructor <;> linarith

/-- The split of an interval by a valid bit model, as a natural number with both parts non-empty (R155, R161). -/
theorem bitSplit_eq {s : State} {b : Nat} (hp : s.par.Ok) (h : (s.bmAt b).Ok s.par) (hv : (s.bmAt b).valid = true) :
    bitSplit s b = (zeroPart s b : Int) := by
  have h1 := (h.p0_bounds hp hv).1
  have : (4096 + (s.bmAt b).bs.toInt).toNat = (s.bmAt b).p0 := by
    rw [Int.toNat_of_nonneg]
    · rfl
    · exact le_trans (by norm_num) h1
  rw [bitSplit, zeroPart, Nat.cast_mul, this]
  rfl

theorem zeroPart_bounds {s : State} {b : Nat} (hp : s.par.Ok) (h : (s.bmAt b).Ok s.par)
    (hv : (s.bmAt b).valid = true) (hl : 2 ^ 24 ≤ s.len.toNat) :
    2 ^ 11 ≤ zeroPart s b ∧ zeroPart s b + 2 ^ 11 ≤ s.len.toNat := by
  obtain ⟨h1, h2⟩ := h.p0_bounds hp hv
  obtain ⟨p, hpp⟩ : ∃ p : Nat, (s.bmAt b).p0 = p := ⟨(s.bmAt b).p0.toNat, by rw [Int.toNat_of_nonneg]; omega⟩
  have hz : zeroPart s b = s.len.toNat / 2 ^ 13 * p := by
    have := bitSplit_eq hp h hv
    rw [bitSplit, hpp] at this
    exact_mod_cast this.symm
  rw [hpp] at h1 h2
  have h1' : 1 ≤ p := by exact_mod_cast h1
  have h2' : p ≤ 8191 := by exact_mod_cast h2
  rw [hz]
  have hq : 2 ^ 11 ≤ s.len.toNat / 2 ^ 13 := by omega
  have hq' : s.len.toNat / 2 ^ 13 * 8192 ≤ s.len.toNat := by omega
  generalize s.len.toNat / 2 ^ 13 = q at *
  constructor <;> nlinarith

/-! ### The updates -/

/-- One element of a sum replaced. -/
theorem sum_set (l : List (BitVec 17)) {i : Nat} (x : BitVec 17) (h : i < l.length) :
    ((l.set i x).map BitVec.toNat).sum + (l.getD i 0).toNat = (l.map BitVec.toNat).sum + x.toNat := by
  induction l generalizing i with
  | nil => simp at h
  | cons c cs ih =>
    cases i with
    | zero => simp; omega
    | succ i =>
      have := ih (i := i) (by simpa using h)
      simp only [List.set_cons_succ, List.map_cons, List.sum_cons, List.getD_cons_succ]
      omega

theorem halveCount_toNat (c : BitVec 17) : (halveCount c).toNat = (c.toNat + 1) / 2 := by
  have := c.isLt
  rw [halveCount, BitVec.toNat_ofNat]
  omega

/-- Halving, rounding up, at least halves the sum but for one half for each count (R124). -/
theorem sum_halve (l : List (BitVec 17)) :
    2 * ((l.map halveCount).map BitVec.toNat).sum ≤ (l.map BitVec.toNat).sum + l.length := by
  induction l with
  | nil => simp
  | cons c cs ih =>
    simp only [List.map_cons, List.sum_cons, List.length_cons, halveCount_toNat]
    omega

@[simp] theorem SmSlot.update_valid (sl : SmSlot) (p : Params) (sym : Nat) : (sl.update p sym).valid = sl.valid := by
  unfold SmSlot.update SmSlot.bump
  split <;> rfl

@[simp] theorem SmSlot.update_n (sl : SmSlot) (p : Params) (sym : Nat) : (sl.update p sym).n = sl.n := by
  unfold SmSlot.update SmSlot.bump
  split <;> rfl

@[simp] theorem BmSlot.update_valid (sl : BmSlot) (p : Params) (bit : Bool) : (sl.update p bit).valid = sl.valid := by
  unfold BmSlot.update
  split <;> rfl

/-- A slot's total is the sum of its counts when it lists exactly its alphabet. -/
theorem SmSlot.total_eq {sl : SmSlot} (h : sl.cnt.length = sl.n) : sl.total = (sl.cnt.map BitVec.toNat).sum := by
  rw [SmSlot.total, SmSlot.cum, ← h, List.take_length]

/-- The counts and the total right after the increment (R124). -/
theorem SmSlot.bump_total {p : Params} {sl : SmSlot} {sym : Nat} (hp : p.Ok) (h : sl.Ok p) (hv : sl.valid = true)
    (hs : sym < sl.n) : (sl.bump p sym).total = sl.total + p.symInc ∧
      (BitVec.ofNat 17 (sl.count sym + p.symInc)).toNat = sl.count sym + p.symInc := by
  obtain ⟨_, _, hl, _, ht⟩ := h hv
  obtain ⟨_, _, _, ⟨hn, _⟩, _, ⟨hi, hb⟩, _⟩ := hp
  have hc := sl.cum_count_le hs
  have hb' : p.symLimit ≤ 65536 := hb
  have hx : (BitVec.ofNat 17 (sl.count sym + p.symInc)).toNat = sl.count sym + p.symInc := by
    rw [BitVec.toNat_ofNat]; omega
  refine ⟨?_, hx⟩
  have hset := sum_set sl.cnt (i := sym) (BitVec.ofNat 17 (sl.count sym + p.symInc)) (by omega)
  rw [SmSlot.total_eq (by simpa [SmSlot.bump] using hl), SmSlot.total_eq hl]
  rw [hx] at hset
  unfold SmSlot.bump
  have : sl.count sym = (sl.cnt.getD sym 0).toNat := rfl
  simp only
  omega

/-- An update keeps a slot as R34 says. -/
theorem SmSlot.Ok.update {p : Params} {sl : SmSlot} {sym : Nat} (hp : p.Ok) (h : sl.Ok p) (hs : sym < sl.n) :
    (sl.update p sym).Ok p := by
  intro hv'
  have hv : sl.valid = true := by simpa using hv'
  obtain ⟨h1, h2, hl, hc, ht⟩ := h hv
  obtain ⟨hb, hx⟩ := SmSlot.bump_total hp h hv hs
  obtain ⟨_, _, _, ⟨hn, _⟩, _, ⟨hi, _⟩, _⟩ := hp
  refine ⟨by simpa using h1, by simpa using h2, ?_⟩
  have hbc : ∀ c ∈ (sl.bump p sym).cnt, 1 ≤ c.toNat := by
    intro c hc'
    rcases List.mem_or_eq_of_mem_set hc' with h' | rfl
    · exact hc _ h'
    · have := h.count_pos hv hs
      rw [hx]; omega
  have hbl : (sl.bump p sym).cnt.length = sl.n := by simpa [SmSlot.bump] using hl
  rw [SmSlot.update]
  split
  · refine ⟨by simpa using hbl, ?_, ?_⟩
    · intro c hc'
      obtain ⟨d, hd, rfl⟩ := List.mem_map.1 hc'
      have := hbc d hd
      rw [halveCount_toNat]; omega
    · rw [SmSlot.total_eq (by simpa using hbl)]
      have hh := sum_halve (sl.bump p sym).cnt
      have hbt : ((sl.bump p sym).cnt.map BitVec.toNat).sum = sl.total + p.symInc := by
        rw [← hb, SmSlot.total_eq hbl]
      simp only at hh ⊢
      omega
  · exact ⟨hbl, hbc, by omega⟩

theorem SmSlot.fresh_ok {p : Params} {n : Nat} (hp : p.Ok) (h1 : 1 ≤ n) (h2 : n ≤ p.nMax) : (SmSlot.fresh n).Ok p := by
  intro _
  refine ⟨h1, h2, by simp [SmSlot.fresh], ?_, ?_⟩
  · intro c hc
    obtain rfl := List.eq_of_mem_replicate hc
    decide
  · rw [SmSlot.total_eq (by simp [SmSlot.fresh])]
    have : ((SmSlot.fresh n).cnt.map BitVec.toNat).sum = n := by simp [SmSlot.fresh]
    obtain ⟨_, _, _, _, _, ⟨hi, _⟩, _⟩ := hp
    omega

/-- The step toward an end of the scale, rounded down, does not pass the bound of R36. -/
theorem approach {h x : Int} (hh : 1 ≤ h) (hx : h - 1 ≤ x) : h - 1 ≤ x - x / h := by
  have h1 := Int.mul_ediv_add_emod x h
  have h2 := Int.emod_nonneg x (show h ≠ 0 by omega)
  have h3 := Int.emod_lt_of_pos x (show 0 < h by omega)
  by_cases hq : x / h ≤ 0
  · omega
  · nlinarith

/-- An update keeps a bit slot as R36 says. -/
theorem BmSlot.Ok.update {p : Params} {sl : BmSlot} {bit : Bool} (hp : p.Ok) (h : sl.Ok p) : (sl.update p bit).Ok p := by
  intro hv'
  have hv : sl.valid = true := by simpa using hv'
  obtain ⟨h1, h2⟩ := h hv
  obtain ⟨_, _, _, _, _, _, ⟨hs1, hs2⟩, _⟩ := hp
  have e : ((2 ^ p.bmShift : Nat) : Int) = 2 ^ p.bmShift := by push_cast; rfl
  have hlo : (1 : Int) ≤ 2 ^ p.bmShift := by rw [← e]; exact_mod_cast Nat.one_le_two_pow
  have hhi : (2 : Int) ^ p.bmShift ≤ 4096 := by
    rw [← e]; exact_mod_cast (Nat.pow_le_pow_right (show 1 ≤ 2 by omega) hs2)
  have ediv : ∀ x : Int, 0 ≤ x → 0 ≤ x / 2 ^ p.bmShift := fun x hx => Int.ediv_nonneg hx (by omega)
  have ofInt : ∀ x : Int, -8192 ≤ x → x ≤ 8192 → (BitVec.ofInt 16 x).toInt = x := by
    intro x h1 h2
    rw [BitVec.toInt_ofInt]
    apply Int.bmod_eq_of_le <;> omega
  unfold BmSlot.update
  cases bit
  · simp only [Bool.false_eq_true, if_false]
    have ha := approach hlo (show (2 ^ p.bmShift : Int) - 1 ≤ 4096 - sl.bs.toInt by omega)
    have hb := ediv (4096 - sl.bs.toInt) (by omega)
    rw [ofInt _ (by omega) (by omega)]
    omega
  · simp only [if_true]
    have ha := approach hlo (show (2 ^ p.bmShift : Int) - 1 ≤ 4096 + sl.bs.toInt by omega)
    have hb := ediv (4096 + sl.bs.toInt) (by omega)
    rw [ofInt _ (by omega) (by omega)]
    omega

theorem BmSlot.fresh_ok {p : Params} (hp : p.Ok) : BmSlot.fresh.Ok p := by
  intro _
  obtain ⟨_, _, _, _, _, _, ⟨_, hs2⟩, _⟩ := hp
  have e : ((2 ^ p.bmShift : Nat) : Int) = 2 ^ p.bmShift := by push_cast; rfl
  have hhi : (2 : Int) ^ p.bmShift ≤ 4096 := by
    rw [← e]; exact_mod_cast (Nat.pow_le_pow_right (show 1 ≤ 2 by omega) hs2)
  have : BmSlot.fresh.bs.toInt = 0 := rfl
  rw [this]
  omega

/-- What an update of a symbol model leaves alone: the size and the validity of every slot. -/
theorem symUpdate_shape (m sym j : Nat) (s : State) :
    ((symUpdate m sym s).smAt j).valid = (s.smAt j).valid ∧ ((symUpdate m sym s).smAt j).n = (s.smAt j).n := by
  unfold symUpdate
  by_cases hj : j = m
  · subst hj
    by_cases hm : j < s.sm.length
    · rw [State.smAt_setSm_self _ hm]; simp
    · simp [State.setSm, State.smAt, List.set_eq_of_length_le (Nat.le_of_not_lt hm)]
  · rw [State.smAt_setSm_ne _ hj]; simp

/-- An update keeps the files proper. -/
theorem symUpdate_filesOk {s : State} {m sym : Nat} (hp : s.par.Ok) (h : s.FilesOk) (hs : sym < (s.smAt m).n) :
    (symUpdate m sym s).FilesOk := h.setSm ((h.smAt m).update hp hs)

theorem bitUpdate_filesOk {s : State} {b : Nat} {bit : Bool} (hp : s.par.Ok) (h : s.FilesOk) :
    (bitUpdate b bit s).FilesOk := h.setBm ((h.bmAt b).update hp)

/-- The counts of a freshly initialised slot sum to its size (R120). -/
theorem SmSlot.fresh_total (n : Nat) : (SmSlot.fresh n).total = n := by
  rw [SmSlot.total_eq (by simp [SmSlot.fresh])]
  simp [SmSlot.fresh]

end Sys2Proof.Machine
end

