-- ==== Sys2Proof/Laws/Coding.lean ====
section
/-! SUPPORT. One specification for each coding procedure of 41_encoder.md and 42_decoder.md: what it can do, where it can be
left early, and when it returns. -/

namespace Sys2Proof.Machine

open Sys2Proof

/-! ### Narrowing the encoder's interval -/

theorem setInterval_low {lo : Nat} (s : State) (ln : Int) (h : lo < 2 ^ 33) :
    (s.setInterval (lo : Int) ln).low.toNat = lo := by
  simpa [State.setInterval] using h

theorem setInterval_len {ln : Nat} (s : State) (lo : Int) (h : ln < 2 ^ 32) :
    (s.setInterval lo (ln : Int)).len.toNat = ln := by
  simpa [State.setInterval] using h

/-- The hypotheses under which a narrowing is proper: a non-empty part of the encoder's interval (R161). -/
def Part (s : State) (lo ln : Nat) : Prop :=
  s.low.toNat ≤ lo ∧ lo + ln ≤ s.low.toNat + s.len.toNat ∧ 1 ≤ ln

theorem Part.len_lt {s : State} {lo ln : Nat} (h : Part s lo ln) : ln < 2 ^ 32 := by
  obtain ⟨a, b, _⟩ := h
  have := s.len.isLt
  omega

/-- A narrowing that returns did what `Narrowed` says, and the interval is proper again (R151, R152, R161). -/
theorem renormEnc_narrowed {s t : State} {lo ln : Nat} (he : s.EncOk) (hp : Part s lo ln)
    (h : renormEnc (s.setInterval lo ln) = .done () t) : Narrowed s t lo ln ∧ t.EncOk := by
  have hln := hp.len_lt
  obtain ⟨p1, p2, p3⟩ := hp
  obtain ⟨e1, e2, e3, e4⟩ := he
  have hlen := setInterval_len s (lo : Int) hln
  have hlow := setInterval_low s (ln : Int) (show lo < 2 ^ 33 by omega)
  have hspec := renormSteps_spec p3 hln
  obtain ⟨u, hu, rfl⟩ := (renormEnc_done (by rw [hlen]; exact p3)).1 h
  rw [hlen] at hu
  simp only [hlen]
  obtain ⟨hcode, hsafe1, hsafe2⟩ := shiftOuts_code (len := ln) (renormSteps ln) hu
    ⟨by rw [hlow]; omega, fun hc => by rw [hlow]; have := e3 hc; omega⟩ p3 hspec.2
  obtain ⟨hbytes, hf⟩ := shiftOuts_frame hu
  have hl : (u.setLen (BitVec.ofNat 32 (ln * 256 ^ renormSteps ln))).len.toNat = ln * 256 ^ renormSteps ln := by
    simpa [State.setLen] using hspec.2
  refine ⟨⟨⟨u, hu, rfl⟩, hl, by rw [hl]; exact hspec.1, ?_, hbytes, ?_⟩, by rw [hl]; exact hspec.1, ?_, ?_, ?_⟩
  · have hc0 : (s.setInterval (lo : Int) (ln : Int)).codeNumber = s.heldValue * 2 ^ 32 + lo := by
      rw [State.codeNumber, hlow]; rfl
    rw [← hc0, ← hcode]; rfl
  · rw [hf]; rfl
  · rw [hl]; exact hsafe1
  · rw [hl]; exact hsafe2
  · show u.value = 0
    rw [hf]; exact e4

/-- A narrowing as the machine does it. -/
theorem Narrowed.run {s t : State} {lo ln : Nat} (hp : Part s lo ln) (h : Narrowed s t lo ln) :
    renormEnc (s.setInterval lo ln) = .done () t := by
  have hlen := setInterval_len s (lo : Int) hp.len_lt
  obtain ⟨⟨u, hu, ht⟩, -⟩ := h
  refine (renormEnc_done (by rw [hlen]; exact hp.2.2)).2 ⟨u, ?_, ?_⟩ <;> rw [hlen] <;> assumption

/-- Wherever a narrowing ends. -/
theorem renormEnc_sat {s : State} {lo ln : Nat} (he : s.EncOk) (hp : Part s lo ln) :
    (renormEnc (s.setInterval lo ln)).Sat (fun _ t => Narrowed s t lo ln ∧ t.EncOk) s.Around Fault.Silent := by
  have early := renormEnc_early (s.setInterval lo ln) (by rw [setInterval_len s _ hp.len_lt]; exact hp.2.2)
  cases h : renormEnc (s.setInterval lo ln) with
  | done a t => exact renormEnc_narrowed he hp h
  | raised e t => rw [h] at early; exact early
  | aborted t => rw [h] at early; exact early
  | stopped f => rw [h] at early; exact early

/-- A narrowing returns where the stream accepts the held bytes and one for each step, and `PEND` has room. -/
theorem renormEnc_completes {s : State} {lo ln n : Nat} (he : s.EncOk) (hp : Part s lo ln) (hn : renormSteps ln ≤ n)
    (ha : s.SinkAccepts (s.pend + n)) (hr : s.pend + n < 2 ^ s.par.pendBits) :
    ∃ t, renormEnc (s.setInterval lo ln) = .done () t ∧ Narrowed s t lo ln ∧ t.EncOk := by
  have hlen := setInterval_len s (lo : Int) hp.len_lt
  have ha' : (s.setInterval (lo : Int) (ln : Int)).SinkAccepts
      ((s.setInterval (lo : Int) (ln : Int)).pend + renormSteps ln) :=
    State.SinkAccepts.mono (s := s) ha (by simp only [State.setInterval_pend]; omega)
  obtain ⟨u, hu⟩ := shiftOuts_completes (renormSteps ln) (s := s.setInterval lo ln) ha'
    (by simp only [State.setInterval_pend, State.setInterval_par]; omega)
  have hdone : renormEnc (s.setInterval lo ln) = .done () (u.setLen (BitVec.ofNat 32 (ln * 256 ^ renormSteps ln))) :=
    (renormEnc_done (by rw [hlen]; exact hp.2.2)).2 ⟨u, by rw [hlen]; exact hu, by rw [hlen]⟩
  exact ⟨_, hdone, renormEnc_narrowed he hp hdone⟩

/-- What a narrowing leaves alone. -/
theorem Narrowed.frame {s t : State} {lo ln : Nat} (h : Narrowed s t lo ln) :
    t = { s with low := t.low, len := t.len, cache := t.cache, pend := t.pend, out := t.out, sink := t.sink } :=
  h.2.2.2.2.2

theorem Narrowed.around {s t : State} {lo ln : Nat} (h : Narrowed s t lo ln) : s.Around t := by
  rw [h.frame]; exact ⟨rfl, rfl, rfl, rfl, rfl, rfl, rfl⟩

theorem Narrowed.files {s t : State} {lo ln : Nat} (h : Narrowed s t lo ln) :
    t.sm = s.sm ∧ t.bm = s.bm ∧ t.ic = s.ic ∧ t.value = s.value := by
  rw [h.frame]; exact ⟨rfl, rfl, rfl, rfl⟩

/-! ### The three encoding procedures -/

/-- A valid symbol model and a symbol of its alphabet. -/
def SymOk (s : State) (m sym : Nat) : Prop :=
  s.par.Ok ∧ (s.smAt m).Ok s.par ∧ (s.smAt m).valid = true ∧ sym < (s.smAt m).n

/-- A valid bit model. -/
def BitOk (s : State) (b : Nat) : Prop := s.par.Ok ∧ (s.bmAt b).Ok s.par ∧ (s.bmAt b).valid = true

/-- The sub-interval of a symbol is a proper part (R161), at least `2^8` long. -/
theorem SymOk.part {s : State} {m sym : Nat} (h : SymOk s m sym) (hl : 2 ^ 24 ≤ s.len.toNat) :
    Part s (s.low.toNat + s.len.toNat / (s.smAt m).total * (s.smAt m).cum sym)
      (s.len.toNat / (s.smAt m).total * (s.smAt m).count sym) ∧
    2 ^ 8 ≤ s.len.toNat / (s.smAt m).total * (s.smAt m).count sym := by
  obtain ⟨hp, hok, hv, hs⟩ := h
  have hu := unit_ge hp hok hv hl
  have hc := hok.count_pos hv hs
  have hle := (s.smAt m).cum_count_le hs
  have hdiv := Nat.div_mul_le_self s.len.toNat (s.smAt m).total
  generalize s.len.toNat / (s.smAt m).total = q at *
  have hmul : q * ((s.smAt m).cum sym + (s.smAt m).count sym) ≤ q * (s.smAt m).total := Nat.mul_le_mul_left q hle
  rw [Nat.mul_add] at hmul
  have hq : 256 * 1 ≤ q * (s.smAt m).count sym := Nat.mul_le_mul hu hc
  exact ⟨⟨by omega, by omega, by omega⟩, by omega⟩

/-- The sub-interval of a bit is a proper part (R161), at least `2^11` long. -/
theorem BitOk.part {s : State} {b : Nat} (h : BitOk s b) (bit : Bool) (hl : 2 ^ 24 ≤ s.len.toNat) :
    Part s (if bit then s.low.toNat + zeroPart s b else s.low.toNat)
      (if bit then s.len.toNat - zeroPart s b else zeroPart s b) ∧
    2 ^ 11 ≤ (if bit then s.len.toNat - zeroPart s b else zeroPart s b) := by
  obtain ⟨h1, h2⟩ := zeroPart_bounds h.1 h.2.1 h.2.2 hl
  cases bit <;> simp only [Part, if_true, Bool.false_eq_true, if_false] <;> omega

/-- The sub-interval of one of `2^k` outcomes is a proper part for `k` up to 19 (R161), at least `2^5` long. -/
theorem uniform_part {s : State} {k x : Nat} (hk : k ≤ 19) (hx : x < 2 ^ k) (hl : 2 ^ 24 ≤ s.len.toNat) :
    Part s (s.low.toNat + s.len.toNat / 2 ^ k * x) (s.len.toNat / 2 ^ k) ∧ 2 ^ 5 ≤ s.len.toNat / 2 ^ k := by
  have hq : 2 ^ 5 ≤ s.len.toNat / 2 ^ k := by
    rw [Nat.le_div_iff_mul_le (by positivity), ← Nat.pow_add]
    exact le_trans (Nat.pow_le_pow_right (by omega) (by omega)) hl
  have hdiv := Nat.div_mul_le_self s.len.toNat (2 ^ k)
  generalize s.len.toNat / 2 ^ k = q at *
  have hmul : q * (x + 1) ≤ q * 2 ^ k := Nat.mul_le_mul_left q hx
  rw [Nat.mul_add] at hmul
  exact ⟨⟨by omega, by omega, by omega⟩, hq⟩

/-- The steps a length of at least `2^8`, `2^16`, `2^5` needs. -/
theorem renormSteps_le_two {len : Nat} (h : 2 ^ 8 ≤ len) : renormSteps len ≤ 2 := by
  unfold renormSteps
  split_ifs <;> omega

theorem encodeSymbol_eq {s : State} {m sym : Nat} (h : SymOk s m sym) :
    encodeSymbol m sym s =
      (renormEnc (s.setInterval
        ((s.low.toNat + s.len.toNat / (s.smAt m).total * (s.smAt m).cum sym : Nat) : Int)
        ((s.len.toNat / (s.smAt m).total * (s.smAt m).count sym : Nat) : Int))).bind fun _ s' =>
      .done () (symUpdate m sym s') :=
  if_neg (by have := h.2.1.total_pos h.2.2.1; omega)

theorem encodeBit_eq {s : State} {b : Nat} {bit : Bool} (h : BitOk s b) (hl : 2 ^ 24 ≤ s.len.toNat) :
    encodeBit b bit s =
      (renormEnc (s.setInterval
        ((if bit then s.low.toNat + zeroPart s b else s.low.toNat : Nat) : Int)
        ((if bit then s.len.toNat - zeroPart s b else zeroPart s b : Nat) : Int))).bind fun _ s' =>
      .done () (bitUpdate b bit s') := by
  have h2 := (zeroPart_bounds h.1 h.2.1 h.2.2 hl).2
  rw [encodeBit, bitSplit_eq h.1 h.2.1 h.2.2]
  cases bit
  · simp
  · simp only [if_true]
    rw [Nat.cast_add, Nat.cast_sub (by omega)]

/-- `EncodeSymbol` (R153). -/
theorem encodeSymbol_sat {s : State} {m sym : Nat} (he : s.EncOk) (h : SymOk s m sym) :
    (encodeSymbol m sym s).Sat (fun _ t => CodesSymbol s t m sym ∧ t.EncOk) s.Around Fault.Silent := by
  rw [encodeSymbol_eq h]
  exact (renormEnc_sat he (h.part he.1).1).bind fun _ u ⟨hu, hok⟩ => ⟨⟨u, hu, rfl⟩, hok⟩

theorem CodesSymbol.run {s t : State} {m sym : Nat} (he : s.EncOk) (h : SymOk s m sym) (hc : CodesSymbol s t m sym) :
    encodeSymbol m sym s = .done () t := by
  obtain ⟨u, hu, rfl⟩ := hc
  rw [encodeSymbol_eq h, hu.run (h.part he.1).1, Run.bind_done]

theorem encodeSymbol_completes {s : State} {m sym : Nat} (he : s.EncOk) (h : SymOk s m sym)
    (ha : s.SinkAccepts (s.pend + 2)) (hr : s.pend + 2 < 2 ^ s.par.pendBits) :
    ∃ t, encodeSymbol m sym s = .done () t ∧ CodesSymbol s t m sym ∧ t.EncOk := by
  obtain ⟨hp, hb⟩ := h.part he.1
  obtain ⟨u, hu, hn, hok⟩ := renormEnc_completes he hp (renormSteps_le_two hb) ha hr
  exact ⟨symUpdate m sym u, by rw [encodeSymbol_eq h, hu, Run.bind_done], ⟨u, hn, rfl⟩, hok⟩

/-- `EncodeBit` (R155). -/
theorem encodeBit_sat {s : State} {b : Nat} (bit : Bool) (he : s.EncOk) (h : BitOk s b) :
    (encodeBit b bit s).Sat (fun _ t => CodesBit s t b bit ∧ t.EncOk) s.Around Fault.Silent := by
  rw [encodeBit_eq h he.1]
  exact (renormEnc_sat he (h.part bit he.1).1).bind fun _ u ⟨hu, hok⟩ => ⟨⟨u, hu, rfl⟩, hok⟩

theorem CodesBit.run {s t : State} {b : Nat} {bit : Bool} (he : s.EncOk) (h : BitOk s b) (hc : CodesBit s t b bit) :
    encodeBit b bit s = .done () t := by
  obtain ⟨u, hu, rfl⟩ := hc
  rw [encodeBit_eq h he.1, hu.run (h.part bit he.1).1, Run.bind_done]

theorem encodeBit_completes {s : State} {b : Nat} (bit : Bool) (he : s.EncOk) (h : BitOk s b)
    (ha : s.SinkAccepts (s.pend + 2)) (hr : s.pend + 2 < 2 ^ s.par.pendBits) :
    ∃ t, encodeBit b bit s = .done () t ∧ CodesBit s t b bit ∧ t.EncOk := by
  obtain ⟨hp, hb⟩ := h.part bit he.1
  obtain ⟨u, hu, hn, hok⟩ := renormEnc_completes he hp (renormSteps_le_two (by omega)) ha hr
  exact ⟨bitUpdate b bit u, by rw [encodeBit_eq h he.1, hu, Run.bind_done], ⟨u, hn, rfl⟩, hok⟩

/-- `EncodeUniform` (R157). -/
theorem encodeUniform_sat {s : State} {k x : Nat} (he : s.EncOk) (hk : k ≤ 19) (hx : x < 2 ^ k) :
    (encodeUniform k x s).Sat (fun _ t => CodesUniform s t k x ∧ t.EncOk) s.Around Fault.Silent :=
  renormEnc_sat he (uniform_part hk hx he.1).1

theorem CodesUniform.run {s t : State} {k x : Nat} (he : s.EncOk) (hk : k ≤ 19) (hx : x < 2 ^ k)
    (hc : CodesUniform s t k x) : encodeUniform k x s = .done () t :=
  Narrowed.run (uniform_part hk hx he.1).1 hc

theorem encodeUniform_completes {s : State} {k x : Nat} (he : s.EncOk) (hk : k ≤ 19) (hx : x < 2 ^ k) {n : Nat}
    (hn : renormSteps (s.len.toNat / 2 ^ k) ≤ n)
    (ha : s.SinkAccepts (s.pend + n)) (hr : s.pend + n < 2 ^ s.par.pendBits) :
    ∃ t, encodeUniform k x s = .done () t ∧ CodesUniform s t k x ∧ t.EncOk :=
  renormEnc_completes he (uniform_part hk hx he.1).1 hn ha hr

/-- `EncodeBits` (R158). -/
theorem encodeBits_sat {s : State} {k x : Nat} (he : s.EncOk) (hk : k ≤ 32) (hx : x < 2 ^ k) :
    (encodeBits k x s).Sat (fun _ t => CodesBits s t k x ∧ t.EncOk) s.Around Fault.Silent := by
  unfold encodeBits CodesBits
  by_cases h : k ≤ 19
  · rw [if_neg (by simpa [Config.rawDirect] using h)]
    simp only [if_pos h]
    exact encodeUniform_sat he h hx
  · rw [if_pos (by simpa [Config.rawDirect] using h)]
    simp only [if_neg h]
    have hx' : x / 2 ^ 16 < 2 ^ (k - 16) := by
      rw [Nat.div_lt_iff_lt_mul (by positivity), ← Nat.pow_add]
      rwa [show k - 16 + 16 = k by omega]
    refine (encodeUniform_sat he (by decide) (Nat.mod_lt x (by positivity))).bind fun _ u ⟨hu, hok⟩ => ?_
    refine (encodeUniform_sat hok (k := k - 16) (x := x / 2 ^ 16) (by omega) hx').mono
      (fun _ t ⟨ht, hok'⟩ => ⟨⟨u, hu, ht⟩, hok'⟩) (fun t ht => hu.around.trans ht) fun f hf => hf

theorem CodesUniform.encOk {s t : State} {k x : Nat} (he : s.EncOk) (hk : k ≤ 19) (hx : x < 2 ^ k)
    (hc : CodesUniform s t k x) : t.EncOk :=
  (renormEnc_narrowed he (uniform_part hk hx he.1).1 (hc.run he hk hx)).2

theorem high_lt {k x : Nat} (hx : x < 2 ^ k) (h : ¬ k ≤ 19) : x / 2 ^ 16 < 2 ^ (k - 16) := by
  rw [Nat.div_lt_iff_lt_mul (by positivity), ← Nat.pow_add]
  rwa [show k - 16 + 16 = k by omega]

theorem CodesBits.run {s t : State} {k x : Nat} (he : s.EncOk) (hk : k ≤ 32) (hx : x < 2 ^ k)
    (hc : CodesBits s t k x) : encodeBits k x s = .done () t := by
  unfold CodesBits at hc
  unfold encodeBits
  by_cases h : k ≤ 19
  · rw [if_pos h] at hc
    rw [if_neg (by simpa [Config.rawDirect] using h)]
    exact hc.run he h hx
  · rw [if_neg h] at hc
    rw [if_pos (by simpa [Config.rawDirect] using h)]
    obtain ⟨u, hu, ht⟩ := hc
    have hx' := Nat.mod_lt x (show 0 < 2 ^ 16 by positivity)
    rw [show Config.rawSplit = 16 from rfl, hu.run he (by decide) hx', Run.bind_done]
    exact ht.run (hu.encOk he (by decide) hx') (by omega) (high_lt hx h)

/-- The steps the two parts of a wide raw field need, or a narrow one (R158). -/
theorem encodeBits_completes {s : State} {k x : Nat} (he : s.EncOk) (hk : k ≤ 32) (hx : x < 2 ^ k)
    (ha : s.SinkAccepts (s.pend + if k ≤ 19 then 3 else 4))
    (hr : (s.pend + if k ≤ 19 then 3 else 4) < 2 ^ s.par.pendBits) :
    ∃ t, encodeBits k x s = .done () t ∧ CodesBits s t k x ∧ t.EncOk := by
  unfold encodeBits CodesBits
  by_cases h : k ≤ 19
  · rw [if_pos h] at ha hr
    rw [if_neg (by simpa [Config.rawDirect] using h)]
    simp only [if_pos h]
    exact encodeUniform_completes he h hx (renormSteps_le _) ha hr
  · rw [if_neg h] at ha hr
    rw [if_pos (by simpa [Config.rawDirect] using h)]
    simp only [if_neg h]
    have hx' := Nat.mod_lt x (show 0 < 2 ^ 16 by positivity)
    have hl : 2 ^ 8 ≤ s.len.toNat / 2 ^ 16 := by have := he.1; unfold Config.top at this; omega
    obtain ⟨u, hu, hcu, hok⟩ := encodeUniform_completes he (k := 16) (by decide) hx' (renormSteps_le_two hl)
      (ha.mono (by omega)) (by omega)
    obtain ⟨bs, -, hs, hp⟩ := hcu.2.2.2.2.1
    have hpar : u.par = s.par := hcu.around.1
    have hsteps := renormSteps_le_two hl
    have hl2 : 2 ^ 8 ≤ u.len.toNat / 2 ^ (k - 16) := by
      rw [Nat.le_div_iff_mul_le (by positivity), ← Nat.pow_add]
      exact le_trans (Nat.pow_le_pow_right (by omega) (show 8 + (k - 16) ≤ 24 by omega)) hok.1
    obtain ⟨t, ht, hct, hok'⟩ := encodeUniform_completes hok (k := k - 16) (by omega) (high_lt hx h)
      (renormSteps_le_two hl2)
      (State.SinkAccepts.drop (i := bs.length) (ha.mono (by omega)) hs) (by rw [hpar]; omega)
    refine ⟨t, ?_, ⟨u, hcu, hct⟩, hok'⟩
    rw [show Config.rawSplit = 16 from rfl, hu, Run.bind_done, ht]

/-! ### Narrowing the decoder's window -/

theorem setWindow_value {v : Nat} (s : State) (ln : Int) (h : v < 2 ^ 32) :
    (s.setWindow (v : Int) ln).value.toNat = v := by
  simpa [State.setWindow] using h

theorem setWindow_len {ln : Nat} (s : State) (v : Int) (h : ln < 2 ^ 32) : (s.setWindow v (ln : Int)).len.toNat = ln := by
  simpa [State.setWindow] using h

/-- A narrowing of the window returns exactly if the source holds the bytes it needs (R181). -/
theorem renormDec_windowed {s t : State} {v ln : Nat} (hv : v < 2 ^ 32) (h1 : 1 ≤ ln) (h2 : ln < 2 ^ 32) :
    renormDec (s.setWindow v ln) = .done () t ↔ ∃ (bs : List Byte) (rest : List GetAnswer),
      s.source = bs.map GetAnswer.byte ++ rest ∧ bs.length = renormSteps ln ∧ t = s.windowed v ln bs rest := by
  rw [renormDec_done (by rw [setWindow_len s _ h2]; exact h1), setWindow_len s _ h2, setWindow_value s _ hv]
  rfl

theorem windowed_len_toNat {s : State} {v ln : Nat} {bs : List Byte} {rest : List GetAnswer} (h1 : 1 ≤ ln)
    (h2 : ln < 2 ^ 32) (hb : bs.length = renormSteps ln) :
    (s.windowed v ln bs rest).len.toNat = ln * 256 ^ renormSteps ln := by
  have := (renormSteps_spec h1 h2).2
  simpa [State.windowed, hb] using this

theorem windowed_decOk {s : State} {v ln : Nat} {bs : List Byte} {rest : List GetAnswer} (hd : s.DecOk) (h1 : 1 ≤ ln)
    (h2 : ln < 2 ^ 32) (hb : bs.length = renormSteps ln) : (s.windowed v ln bs rest).DecOk :=
  ⟨by rw [windowed_len_toNat h1 h2 hb]; exact (renormSteps_spec h1 h2).1, hd.2⟩

/-- Wherever a narrowing of the window ends. -/
theorem renormDec_sat {s : State} {v ln : Nat} (hd : s.DecOk) (hv : v < 2 ^ 32) (h1 : 1 ≤ ln) (h2 : ln < 2 ^ 32) :
    (renormDec (s.setWindow v ln)).Sat
      (fun _ t => (∃ (bs : List Byte) (rest : List GetAnswer), s.source = bs.map GetAnswer.byte ++ rest ∧
        bs.length = renormSteps ln ∧ t = s.windowed v ln bs rest) ∧ t.DecOk) s.Around Fault.Silent := by
  have early := renormDec_early (s.setWindow v ln) (by rw [setWindow_len s _ h2]; exact h1)
  cases h : renormDec (s.setWindow v ln) with
  | done a t =>
    have hw := (renormDec_windowed hv h1 h2).1 h
    refine ⟨hw, ?_⟩
    obtain ⟨bs, rest, -, hb, rfl⟩ := hw
    exact windowed_decOk hd h1 h2 hb
  | raised e t => rw [h] at early; exact early
  | aborted t => rw [h] at early; exact early
  | stopped f => rw [h] at early; exact early

/-- Where the source holds enough bytes, some of them are the ones a narrowing takes. -/
theorem State.SourceHolds.take {s : State} {n m : Nat} (h : s.SourceHolds n) (hm : m ≤ n) :
    ∃ (bs : List Byte) (rest : List GetAnswer), s.source = bs.map GetAnswer.byte ++ rest ∧ bs.length = m := by
  obtain ⟨bs, rest, hs, hl⟩ := h
  refine ⟨bs.take m, (bs.drop m).map GetAnswer.byte ++ rest, ?_, by simp; omega⟩
  rw [hs, ← List.append_assoc, ← List.map_append, List.take_append_drop]

theorem windowed_around (s : State) (v ln : Nat) (bs : List Byte) (rest : List GetAnswer) :
    s.Around (s.windowed v ln bs rest) := ⟨rfl, rfl, rfl, rfl, rfl, rfl, rfl⟩

/-! ### The three decoding procedures -/

/-- A valid symbol model, for decoding. -/
def ModelOk (s : State) (m : Nat) : Prop := s.par.Ok ∧ (s.smAt m).Ok s.par ∧ (s.smAt m).valid = true

/-- The clamped position lies below the total. -/
theorem ModelOk.position {s : State} {m : Nat} (h : ModelOk s m) : symPosition s m < (s.smAt m).total := by
  have := h.2.1.total_pos h.2.2
  unfold symPosition
  omega

/-- What the search of R182 finds. -/
theorem ModelOk.found {s : State} {m : Nat} (h : ModelOk s m) :
    (s.smAt m).findSym (symPosition s m) < (s.smAt m).n ∧
    (s.smAt m).cum ((s.smAt m).findSym (symPosition s m)) ≤ symPosition s m ∧
    symPosition s m < (s.smAt m).cum ((s.smAt m).findSym (symPosition s m) + 1) :=
  SmSlot.findSym_spec (h.2.1 h.2.2).2.2.1 h.position

/-- The window's start does not lie above the window (R182). -/
theorem symPosition_le {s : State} {m sym : Nat} (h : (s.smAt m).cum sym ≤ symPosition s m) :
    s.len.toNat / (s.smAt m).total * (s.smAt m).cum sym ≤ s.value.toNat := by
  have h1 : (s.smAt m).cum sym ≤ s.value.toNat / (s.len.toNat / (s.smAt m).total) := by
    unfold symPosition at h; omega
  refine le_trans (Nat.mul_le_mul_left _ h1) ?_
  rw [Nat.mul_comm]
  exact Nat.div_mul_le_self _ _

theorem decodeSymbol_eq {s : State} {m : Nat} (hl : 2 ^ 24 ≤ s.len.toNat) (h : ModelOk s m) :
    decodeSymbol m s =
      (renormDec (s.setWindow
        ((s.value.toNat - s.len.toNat / (s.smAt m).total * (s.smAt m).cum ((s.smAt m).findSym (symPosition s m)) : Nat) :
          Int)
        ((s.len.toNat / (s.smAt m).total * (s.smAt m).count ((s.smAt m).findSym (symPosition s m)) : Nat) :
          Int))).bind fun _ s' =>
      .done ((s.smAt m).findSym (symPosition s m)) (symUpdate m ((s.smAt m).findSym (symPosition s m)) s') := by
  have h1 := h.2.1.total_pos h.2.2
  have h2 := unit_ge h.1 h.2.1 h.2.2 hl
  rw [decodeSymbol, if_neg (by omega), Nat.cast_sub (symPosition_le h.found.2.1)]

/-- The length of a decoded symbol's part. -/
theorem symLen_bounds {s : State} {m sym : Nat} (hl : 2 ^ 24 ≤ s.len.toNat) (h : ModelOk s m)
    (hs : sym < (s.smAt m).n) :
    2 ^ 8 ≤ s.len.toNat / (s.smAt m).total * (s.smAt m).count sym ∧
    s.len.toNat / (s.smAt m).total * (s.smAt m).count sym < 2 ^ 32 := by
  obtain ⟨hp, hb⟩ := (show SymOk s m sym from ⟨h.1, h.2.1, h.2.2, hs⟩).part hl
  exact ⟨hb, hp.len_lt⟩

/-- `DecodeSymbol` (R182). -/
theorem decodeSymbol_done {s t : State} {m sym : Nat} (hl : 2 ^ 24 ≤ s.len.toNat) (h : ModelOk s m) :
    decodeSymbol m s = .done sym t ↔ TakesSymbol s t m sym := by
  have hf := h.found
  have hv := s.value.isLt
  have hb := symLen_bounds hl h hf.1
  rw [decodeSymbol_eq hl h, Run.bind_eq_done]
  constructor
  · rintro ⟨_, u, hu, hd⟩
    obtain ⟨bs, rest, hs, hn, rfl⟩ := (renormDec_windowed (by omega) (by omega) hb.2).1 hu
    obtain ⟨rfl, rfl⟩ := Run.done.inj hd
    exact ⟨bs, rest, hs, hn, hf.1, hf.2.1, hf.2.2, rfl⟩
  · rintro ⟨bs, rest, hs, hn, hsym, hlo, hhi, rfl⟩
    obtain rfl := SmSlot.symbol_unique hlo hhi hf.2.1 hf.2.2
    exact ⟨(), _, (renormDec_windowed (by omega) (by omega) hb.2).2 ⟨bs, rest, hs, hn, rfl⟩, rfl⟩

theorem symUpdate_decOk {s : State} {m sym : Nat} (h : s.DecOk) : (symUpdate m sym s).DecOk := h

theorem bitUpdate_decOk {s : State} {b : Nat} {bit : Bool} (h : s.DecOk) : (bitUpdate b bit s).DecOk := h

theorem TakesSymbol.decOk {s t : State} {m sym : Nat} (hd : s.DecOk) (h : ModelOk s m) (ht : TakesSymbol s t m sym) :
    t.DecOk := by
  obtain ⟨bs, rest, -, hn, hsym, -, -, rfl⟩ := ht
  have hb := symLen_bounds hd.1 h hsym
  exact symUpdate_decOk (windowed_decOk hd (by omega) hb.2 hn)

theorem decodeSymbol_sat {s : State} {m : Nat} (hd : s.DecOk) (h : ModelOk s m) :
    (decodeSymbol m s).Sat (fun sym t => TakesSymbol s t m sym ∧ t.DecOk) s.Around Fault.Silent := by
  have hv := s.value.isLt
  have hb := symLen_bounds hd.1 h h.found.1
  have early : (decodeSymbol m s).Sat (fun _ _ => True) s.Around Fault.Silent := by
    rw [decodeSymbol_eq hd.1 h]
    exact (renormDec_sat hd (by omega) (by omega) hb.2).bind fun _ u _ => trivial
  cases hr : decodeSymbol m s with
  | done a t => exact ⟨(decodeSymbol_done hd.1 h).1 hr, ((decodeSymbol_done hd.1 h).1 hr).decOk hd h⟩
  | raised e t => rw [hr] at early; exact early
  | aborted t => rw [hr] at early; exact early
  | stopped f => rw [hr] at early; exact early

theorem decodeSymbol_completes {s : State} {m : Nat} (hd : s.DecOk) (h : ModelOk s m) (hs : s.SourceHolds 2) :
    ∃ sym t, decodeSymbol m s = .done sym t ∧ TakesSymbol s t m sym ∧ t.DecOk := by
  have hb := symLen_bounds hd.1 h h.found.1
  obtain ⟨bs, rest, hsrc, hn⟩ := hs.take (renormSteps_le_two hb.1)
  have ht : TakesSymbol s _ m _ := ⟨bs, rest, hsrc, hn, h.found.1, h.found.2.1, h.found.2.2, rfl⟩
  exact ⟨_, _, (decodeSymbol_done hd.1 h).2 ht, ht, ht.decOk hd h⟩

/-- The bit R184 decodes, as a number. -/
theorem decodeBit_eq {s : State} {b : Nat} (hl : 2 ^ 24 ≤ s.len.toNat) (h : BitOk s b) :
    decodeBit b s =
      (renormDec (s.setWindow
        ((if decide (zeroPart s b ≤ s.value.toNat) then s.value.toNat - zeroPart s b else s.value.toNat : Nat) : Int)
        ((if decide (zeroPart s b ≤ s.value.toNat) then s.len.toNat - zeroPart s b else zeroPart s b : Nat) :
          Int))).bind fun _ s' =>
      .done (decide (zeroPart s b ≤ s.value.toNat)).toNat (bitUpdate b (decide (zeroPart s b ≤ s.value.toNat)) s') := by
  have h2 := (zeroPart_bounds h.1 h.2.1 h.2.2 hl).2
  rw [decodeBit, bitSplit_eq h.1 h.2.1 h.2.2]
  by_cases hz : zeroPart s b ≤ s.value.toNat
  · rw [if_neg (by omega)]
    simp only [hz, decide_true, if_true]
    rw [Nat.cast_sub hz, Nat.cast_sub (by omega)]
    rfl
  · rw [if_pos (by omega)]
    simp [hz]

/-- `DecodeBit` (R184). -/
theorem decodeBit_done {s t : State} {b v : Nat} (hl : 2 ^ 24 ≤ s.len.toNat) (h : BitOk s b) :
    decodeBit b s = .done v t ↔ ∃ bit : Bool, v = bit.toNat ∧ TakesBit s t b bit := by
  have hv := s.value.isLt
  obtain ⟨hp, hb⟩ := h.part (decide (zeroPart s b ≤ s.value.toNat)) hl
  have hlt := hp.len_lt
  have hlt' : (if decide (zeroPart s b ≤ s.value.toNat) then s.value.toNat - zeroPart s b else s.value.toNat) < 2 ^ 32 := by
    split <;> omega
  rw [decodeBit_eq hl h, Run.bind_eq_done]
  constructor
  · rintro ⟨_, u, hu, hd⟩
    obtain ⟨bs, rest, hs, hn, rfl⟩ := (renormDec_windowed hlt' (by omega) hlt).1 hu
    obtain ⟨rfl, rfl⟩ := Run.done.inj hd
    exact ⟨_, rfl, rfl, bs, rest, hs, hn, rfl⟩
  · rintro ⟨bit, rfl, rfl, bs, rest, hs, hn, rfl⟩
    exact ⟨(), _, (renormDec_windowed hlt' (by omega) hlt).2 ⟨bs, rest, hs, hn, rfl⟩, rfl⟩

theorem TakesBit.decOk {s t : State} {b : Nat} {bit : Bool} (hd : s.DecOk) (h : BitOk s b) (ht : TakesBit s t b bit) :
    t.DecOk := by
  obtain ⟨-, bs, rest, -, hn, rfl⟩ := ht
  obtain ⟨hp, hb⟩ := h.part bit hd.1
  exact bitUpdate_decOk (windowed_decOk hd (by omega) hp.len_lt hn)

theorem decodeBit_sat {s : State} {b : Nat} (hd : s.DecOk) (h : BitOk s b) :
    (decodeBit b s).Sat (fun v t => (∃ bit : Bool, v = bit.toNat ∧ TakesBit s t b bit) ∧ t.DecOk) s.Around
      Fault.Silent := by
  have hv := s.value.isLt
  obtain ⟨hp, hb⟩ := h.part (decide (zeroPart s b ≤ s.value.toNat)) hd.1
  have early : (decodeBit b s).Sat (fun _ _ => True) s.Around Fault.Silent := by
    rw [decodeBit_eq hd.1 h]
    exact (renormDec_sat hd (by split <;> omega) (by omega) hp.len_lt).bind fun _ u _ => trivial
  cases hr : decodeBit b s with
  | done a t =>
    have hx := (decodeBit_done hd.1 h).1 hr
    exact ⟨hx, by obtain ⟨bit, -, ht⟩ := hx; exact ht.decOk hd h⟩
  | raised e t => rw [hr] at early; exact early
  | aborted t => rw [hr] at early; exact early
  | stopped f => rw [hr] at early; exact early

theorem decodeBit_completes {s : State} {b : Nat} (hd : s.DecOk) (h : BitOk s b) (hs : s.SourceHolds 2) :
    ∃ (bit : Bool) (t : State), decodeBit b s = .done bit.toNat t ∧ TakesBit s t b bit ∧ t.DecOk := by
  obtain ⟨hp, hb⟩ := h.part (decide (zeroPart s b ≤ s.value.toNat)) hd.1
  obtain ⟨bs, rest, hsrc, hn⟩ := hs.take (renormSteps_le_two (le_trans (show 2 ^ 8 ≤ 2 ^ 11 by omega) hb))
  have ht : TakesBit s _ b (decide (zeroPart s b ≤ s.value.toNat)) := ⟨rfl, bs, rest, hsrc, hn, rfl⟩
  exact ⟨_, _, (decodeBit_done hd.1 h).2 ⟨_, rfl, ht⟩, ht, ht.decOk hd h⟩

theorem uniformLen_bounds {s : State} {k : Nat} (hk : k ≤ 19) (hl : 2 ^ 24 ≤ s.len.toNat) :
    2 ^ 5 ≤ s.len.toNat / 2 ^ k ∧ s.len.toNat / 2 ^ k < 2 ^ 32 := by
  obtain ⟨hp, hb⟩ := uniform_part (x := 0) hk (by positivity) hl
  exact ⟨hb, hp.len_lt⟩

theorem rawPosition_le (s : State) (k : Nat) : s.len.toNat / 2 ^ k * rawPosition s k ≤ s.value.toNat := by
  refine le_trans (Nat.mul_le_mul_left _ (Nat.min_le_left _ _)) ?_
  rw [Nat.mul_comm]
  exact Nat.div_mul_le_self _ _

/-- `DecodeUniform` (R186). -/
theorem decodeUniform_done {s t : State} {k x : Nat} (hl : 2 ^ 24 ≤ s.len.toNat) (hk : k ≤ 19) :
    decodeUniform k s = .done x t ↔ TakesUniform s t k x := by
  have hv := s.value.isLt
  have hb := uniformLen_bounds hk hl
  rw [decodeUniform, if_neg (by omega), Run.bind_eq_done]
  simp only [← Nat.cast_sub (rawPosition_le s k)]
  constructor
  · rintro ⟨_, u, hu, hd⟩
    obtain ⟨bs, rest, hs, hn, rfl⟩ := (renormDec_windowed (by omega) (by omega) hb.2).1 hu
    obtain ⟨rfl, rfl⟩ := Run.done.inj hd
    exact ⟨rfl, bs, rest, hs, hn, rfl⟩
  · rintro ⟨rfl, bs, rest, hs, hn, rfl⟩
    exact ⟨(), _, (renormDec_windowed (by omega) (by omega) hb.2).2 ⟨bs, rest, hs, hn, rfl⟩, rfl⟩

theorem TakesUniform.decOk {s t : State} {k x : Nat} (hd : s.DecOk) (hk : k ≤ 19) (ht : TakesUniform s t k x) :
    t.DecOk := by
  obtain ⟨-, bs, rest, -, hn, rfl⟩ := ht
  have hb := uniformLen_bounds hk hd.1
  exact windowed_decOk hd (by omega) hb.2 hn

theorem decodeUniform_sat {s : State} {k : Nat} (hd : s.DecOk) (hk : k ≤ 19) :
    (decodeUniform k s).Sat (fun x t => TakesUniform s t k x ∧ t.DecOk) s.Around Fault.Silent := by
  have hv := s.value.isLt
  have hb := uniformLen_bounds hk hd.1
  have early : (decodeUniform k s).Sat (fun _ _ => True) s.Around Fault.Silent := by
    rw [decodeUniform, if_neg (by omega)]
    simp only [← Nat.cast_sub (rawPosition_le s k)]
    exact (renormDec_sat hd (by omega) (by omega) hb.2).bind fun _ u _ => trivial
  cases hr : decodeUniform k s with
  | done a t => exact ⟨(decodeUniform_done hd.1 hk).1 hr, ((decodeUniform_done hd.1 hk).1 hr).decOk hd hk⟩
  | raised e t => rw [hr] at early; exact early
  | aborted t => rw [hr] at early; exact early
  | stopped f => rw [hr] at early; exact early

theorem decodeUniform_completes {s : State} {k n : Nat} (hd : s.DecOk) (hk : k ≤ 19)
    (hn : renormSteps (s.len.toNat / 2 ^ k) ≤ n) (hs : s.SourceHolds n) :
    ∃ x t, decodeUniform k s = .done x t ∧ TakesUniform s t k x ∧ t.DecOk := by
  obtain ⟨bs, rest, hsrc, hb⟩ := hs.take hn
  have ht : TakesUniform s _ k _ := ⟨rfl, bs, rest, hsrc, hb, rfl⟩
  exact ⟨_, _, (decodeUniform_done hd.1 hk).2 ht, ht, ht.decOk hd hk⟩

theorem TakesUniform.around {s t : State} {k x : Nat} (h : TakesUniform s t k x) : s.Around t := by
  obtain ⟨-, bs, rest, -, -, rfl⟩ := h
  exact windowed_around s _ _ bs rest

/-- `DecodeBits` (R187). -/
theorem decodeBits_done {s t : State} {k x : Nat} (hd : s.DecOk) (hk : k ≤ 32) :
    decodeBits k s = .done x t ↔ TakesBits s t k x := by
  unfold decodeBits TakesBits
  by_cases h : k ≤ 19
  · rw [if_neg (by simpa [Config.rawDirect] using h), if_pos h]
    exact decodeUniform_done hd.1 h
  · rw [if_pos (by simpa [Config.rawDirect] using h), if_neg h, show Config.rawSplit = 16 from rfl]
    simp only [Run.bind_eq_done]
    constructor
    · rintro ⟨lo, u, h1, hi, v, h2, h3⟩
      have hu := (decodeUniform_done hd.1 (by decide)).1 h1
      have hv := (decodeUniform_done (hu.decOk hd (by decide)).1 (by omega)).1 h2
      obtain ⟨rfl, rfl⟩ := Run.done.inj h3
      exact ⟨u, lo, hi, hu, hv, rfl⟩
    · rintro ⟨u, lo, hi, hu, hv, rfl⟩
      exact ⟨lo, u, (decodeUniform_done hd.1 (by decide)).2 hu, hi, t,
        (decodeUniform_done (hu.decOk hd (by decide)).1 (by omega)).2 hv, rfl⟩

theorem TakesBits.decOk {s t : State} {k x : Nat} (hd : s.DecOk) (hk : k ≤ 32) (ht : TakesBits s t k x) : t.DecOk := by
  unfold TakesBits at ht
  split at ht
  · exact ht.decOk hd (by assumption)
  · obtain ⟨u, lo, hi, hu, hv, -⟩ := ht
    exact hv.decOk (hu.decOk hd (by decide)) (by omega)

theorem decodeBits_sat {s : State} {k : Nat} (hd : s.DecOk) (hk : k ≤ 32) :
    (decodeBits k s).Sat (fun x t => TakesBits s t k x ∧ t.DecOk) s.Around Fault.Silent := by
  have early : (decodeBits k s).Sat (fun _ _ => True) s.Around Fault.Silent := by
    unfold decodeBits
    by_cases h : k ≤ 19
    · rw [if_neg (by simpa [Config.rawDirect] using h)]
      exact (decodeUniform_sat hd h).mono (fun _ _ _ => trivial) (fun _ h => h) fun _ h => h
    · rw [if_pos (by simpa [Config.rawDirect] using h), show Config.rawSplit = 16 from rfl]
      refine (decodeUniform_sat hd (by decide)).bind fun lo u ⟨hu, hok⟩ => ?_
      exact ((decodeUniform_sat hok (k := k - 16) (by omega)).mono (fun _ _ h => h)
        (fun _ h => hu.around.trans h) fun _ h => h).bind fun _ _ _ => trivial
  cases hr : decodeBits k s with
  | done a t => exact ⟨(decodeBits_done hd hk).1 hr, ((decodeBits_done hd hk).1 hr).decOk hd hk⟩
  | raised e t => rw [hr] at early; exact early
  | aborted t => rw [hr] at early; exact early
  | stopped f => rw [hr] at early; exact early

/-- What the source holds after some of its bytes were taken. -/
theorem State.SourceHolds.drop {s t : State} {n m : Nat} {bs : List Byte} {rest : List GetAnswer}
    (h : s.SourceHolds (n + m)) (hs : s.source = bs.map GetAnswer.byte ++ rest) (hb : bs.length ≤ n)
    (ht : t.source = rest) : t.SourceHolds m := by
  obtain ⟨as, rest', hs', hl⟩ := h
  have hd : rest = (as.drop bs.length).map GetAnswer.byte ++ rest' := by
    have := congrArg (List.drop bs.length) (hs.symm.trans hs')
    rwa [List.drop_left' (by simp), List.drop_append_of_le_length (by simp; omega), ← List.map_drop] at this
  exact ⟨as.drop bs.length, rest', by rw [ht, hd], by simp; omega⟩

theorem decodeBits_completes {s : State} {k : Nat} (hd : s.DecOk) (hk : k ≤ 32)
    (hs : s.SourceHolds (if k ≤ 19 then 3 else 4)) :
    ∃ x t, decodeBits k s = .done x t ∧ TakesBits s t k x ∧ t.DecOk := by
  suffices h : ∃ x t, TakesBits s t k x by
    obtain ⟨x, t, ht⟩ := h
    exact ⟨x, t, (decodeBits_done hd hk).2 ht, ht, ht.decOk hd hk⟩
  unfold TakesBits
  by_cases h : k ≤ 19
  · simp only [if_pos h] at hs ⊢
    obtain ⟨x, t, -, ht, -⟩ := decodeUniform_completes hd h (renormSteps_le _) hs
    exact ⟨x, t, ht⟩
  · simp only [if_neg h] at hs ⊢
    have hl : 2 ^ 8 ≤ s.len.toNat / 2 ^ 16 := by have := hd.1; unfold Config.top at this; omega
    obtain ⟨bs0, rest0, hsrc0, hl0⟩ := hs.take (show 2 ≤ 4 by omega)
    obtain ⟨lo, u, -, hu, hok⟩ := decodeUniform_completes hd (k := 16) (by decide) (renormSteps_le_two hl)
      ⟨bs0, rest0, hsrc0, by omega⟩
    have hl2 : 2 ^ 8 ≤ u.len.toNat / 2 ^ (k - 16) := by
      rw [Nat.le_div_iff_mul_le (by positivity), ← Nat.pow_add]
      exact le_trans (Nat.pow_le_pow_right (by omega) (show 8 + (k - 16) ≤ 24 by omega)) hok.1
    have hsu : u.SourceHolds 2 := by
      obtain ⟨-, bs, rest, hsrc, hb, rfl⟩ := hu
      exact State.SourceHolds.drop (n := 2) hs hsrc (by rw [hb]; exact renormSteps_le_two hl) rfl
    obtain ⟨hi, t, -, ht, -⟩ := decodeUniform_completes hok (k := k - 16) (by omega) (renormSteps_le_two hl2) hsu
    exact ⟨_, t, u, lo, hi, hu, ht, rfl⟩

end Sys2Proof.Machine
end

