-- ==== Sys2Proof/Laws/IntComp.lean ====
section
/-! SUPPORT. The integer compressor: magnitudes and positions (R214, R215), and one specification each for coding and for
decoding a corrector (R216, R217). -/

namespace Sys2Proof.Machine

open Sys2Proof

/-! ### Magnitudes and positions -/

/-- `bitlen` is the least number of bits (R14). -/
theorem bitlen_lt (a : Nat) : a < 2 ^ bitlen a := by
  unfold bitlen
  split
  · subst_vars; simp
  · exact Nat.lt_log2_self

theorem bitlen_le {a : Nat} (h : a ≠ 0) : 2 ^ (bitlen a - 1) ≤ a := by
  unfold bitlen
  rw [if_neg h]
  simpa using Nat.log2_self_le h

theorem bitlen_le_of_lt {a k : Nat} (h : a < 2 ^ k) : bitlen a ≤ k := by
  by_contra hk
  have h0 : a ≠ 0 := by rintro rfl; simp [bitlen] at hk
  have := bitlen_le h0
  have := Nat.pow_le_pow_right (show 1 ≤ 2 by omega) (show k ≤ bitlen a - 1 by omega)
  omega

theorem bitlen_eq_zero {a : Nat} : bitlen a = 0 ↔ a = 0 := by
  unfold bitlen
  split <;> simp [*]

/-- Magnitude 0 is the correctors 0 and 1 (R214). -/
theorem magnitude_eq_zero {corr : Int} : magnitude corr = 0 ↔ corr = 0 ∨ corr = 1 := by
  rw [magnitude, bitlen_eq_zero, absAdj]
  split <;> omega

/-- The position of a corrector lies inside its interval (R215). -/
theorem translate_lt {corr : Int} {k : Nat} (h : magnitude corr = k) (hk : k ≠ 0) : translate corr k < 2 ^ k := by
  have h1 := bitlen_lt (absAdj corr)
  have h0 : absAdj corr ≠ 0 := fun h0 => hk (by rw [← h, magnitude, h0]; rfl)
  have h2 := bitlen_le h0
  rw [show bitlen (absAdj corr) = k from h] at h1 h2
  have hz : corr ≠ 0 := by rintro rfl; simp [absAdj] at h0
  obtain ⟨j, rfl⟩ : ∃ j, k = j + 1 := ⟨k - 1, by omega⟩
  rw [Nat.add_sub_cancel] at h2
  rw [Nat.pow_succ] at h1 ⊢
  have e : (2 : Int) ^ (j + 1) = ((2 ^ j : Nat) : Int) * 2 := by rw [pow_succ]; push_cast; rfl
  rw [translate, e]
  unfold absAdj at h1 h2
  generalize (2 ^ j : Nat) = q at *
  split at h1 <;> split <;> omega

/-- `Untranslate` undoes `Translate` (R215). -/
theorem untranslate_eq {corr : Int} {k : Nat} (h : magnitude corr = k) (hk : k ≠ 0) :
    untranslate (translate corr k) k = corr := by
  have h1 := bitlen_lt (absAdj corr)
  have h0 : absAdj corr ≠ 0 := fun h0 => hk (by rw [← h, magnitude, h0]; rfl)
  have h2 := bitlen_le h0
  rw [show bitlen (absAdj corr) = k from h] at h1 h2
  have hz : corr ≠ 0 := by rintro rfl; simp [absAdj] at h0
  obtain ⟨j, rfl⟩ : ∃ j, k = j + 1 := ⟨k - 1, by omega⟩
  rw [Nat.add_sub_cancel] at h2
  rw [Nat.pow_succ] at h1
  have e : (2 : Int) ^ (j + 1) = ((2 ^ j : Nat) : Int) * 2 := by rw [pow_succ]; push_cast; rfl
  rw [untranslate, translate, e, Nat.add_sub_cancel]
  unfold absAdj at h1 h2
  generalize (2 ^ j : Nat) = q at *
  split at h1 <;> split <;> split <;> omega

/-! ### The models of an instance -/

/-- What the coding procedures leave of the shape of the model files. -/
def KeepsShape (s t : State) : Prop :=
  (∀ j, (t.smAt j).valid = (s.smAt j).valid ∧ (t.smAt j).n = (s.smAt j).n) ∧
  (∀ b, (t.bmAt b).valid = (s.bmAt b).valid) ∧ t.ic = s.ic ∧ t.sm.length = s.sm.length ∧ t.bm.length = s.bm.length

theorem KeepsShape.refl (s : State) : KeepsShape s s := ⟨fun _ => ⟨rfl, rfl⟩, fun _ => rfl, rfl, rfl, rfl⟩

theorem KeepsShape.trans {s t u : State} (h : KeepsShape s t) (h' : KeepsShape t u) : KeepsShape s u :=
  ⟨fun j => ⟨(h'.1 j).1.trans (h.1 j).1, (h'.1 j).2.trans (h.1 j).2⟩, fun b => (h'.2.1 b).trans (h.2.1 b),
    h'.2.2.1.trans h.2.2.1, h'.2.2.2.1.trans h.2.2.2.1, h'.2.2.2.2.trans h.2.2.2.2⟩

theorem KeepsShape.of_files {s t : State} (hs : t.sm = s.sm) (hb : t.bm = s.bm) (hi : t.ic = s.ic) : KeepsShape s t :=
  ⟨fun j => by simp [State.smAt, hs], fun b => by simp [State.bmAt, hb], hi, by rw [hs], by rw [hb]⟩

theorem symUpdate_keepsShape (m sym : Nat) (s : State) : KeepsShape s (symUpdate m sym s) :=
  ⟨fun j => symUpdate_shape m sym j s, fun _ => rfl, rfl, by simp [symUpdate], rfl⟩

theorem bitUpdate_keepsShape (b : Nat) (bit : Bool) (s : State) : KeepsShape s (bitUpdate b bit s) := by
  refine ⟨fun _ => ⟨rfl, rfl⟩, fun j => ?_, rfl, rfl, by simp [bitUpdate]⟩
  unfold bitUpdate
  by_cases hj : j = b
  · subst hj
    by_cases hm : j < s.bm.length
    · rw [State.bmAt_setBm_self _ hm]; simp
    · simp [State.setBm, State.bmAt, List.set_eq_of_length_le (Nat.le_of_not_lt hm)]
  · rw [State.bmAt_setBm_ne _ hj]

/-- What one coding procedure leaves: everything but the coder, the stream and the contents of the models. -/
def Passed (s t : State) : Prop := s.Around t ∧ KeepsShape s t ∧ t.FilesOk

theorem Passed.trans {s t u : State} (h : Passed s t) (h' : Passed t u) : Passed s u :=
  ⟨h.1.trans h'.1, h.2.1.trans h'.2.1, h'.2.2⟩

theorem filesOk_of {s t : State} (hf : s.FilesOk) (hs : t.sm = s.sm) (hb : t.bm = s.bm) (hi : t.ic = s.ic)
    (hp : t.par = s.par) : t.FilesOk := by
  unfold State.FilesOk at *
  rw [hs, hb, hi, hp]
  exact hf

theorem Narrowed.passed {s t : State} {lo ln : Nat} (hf : s.FilesOk) (h : Narrowed s t lo ln) : Passed s t :=
  ⟨h.around, KeepsShape.of_files h.files.1 h.files.2.1 h.files.2.2.1,
    filesOk_of hf h.files.1 h.files.2.1 h.files.2.2.1 h.around.1⟩

theorem CodesSymbol.passed {s t : State} {m sym : Nat} (hp : s.par.Ok) (hf : s.FilesOk) (hs : sym < (s.smAt m).n)
    (h : CodesSymbol s t m sym) : Passed s t := by
  obtain ⟨u, hu, rfl⟩ := h
  have hpu := hu.passed hf
  refine hpu.trans ⟨State.Around.refl u, symUpdate_keepsShape m sym u, symUpdate_filesOk ?_ hpu.2.2 ?_⟩
  · rw [hpu.1.1]; exact hp
  · rw [(hpu.2.1.1 m).2]; exact hs

theorem CodesBit.passed {s t : State} {b : Nat} {bit : Bool} (hp : s.par.Ok) (hf : s.FilesOk)
    (h : CodesBit s t b bit) : Passed s t := by
  obtain ⟨u, hu, rfl⟩ := h
  have hpu := hu.passed hf
  refine hpu.trans ⟨State.Around.refl u, bitUpdate_keepsShape b bit u, bitUpdate_filesOk ?_ hpu.2.2⟩
  rw [hpu.1.1]; exact hp

theorem CodesUniform.passed {s t : State} {k x : Nat} (hf : s.FilesOk) (h : CodesUniform s t k x) : Passed s t :=
  Narrowed.passed hf h

theorem CodesBits.passed {s t : State} {k x : Nat} (hf : s.FilesOk) (h : CodesBits s t k x) : Passed s t := by
  unfold CodesBits at h
  split at h
  · exact h.passed hf
  · obtain ⟨u, hu, ht⟩ := h
    exact (hu.passed hf).trans (ht.passed (hu.passed hf).2.2)

theorem windowed_passed {s : State} (hf : s.FilesOk) (v ln : Nat) (bs : List Byte) (rest : List GetAnswer) :
    Passed s (s.windowed v ln bs rest) := ⟨windowed_around s v ln bs rest, KeepsShape.of_files rfl rfl rfl, hf⟩

theorem TakesSymbol.passed {s t : State} {m sym : Nat} (hp : s.par.Ok) (hf : s.FilesOk) (h : TakesSymbol s t m sym) :
    Passed s t := by
  obtain ⟨bs, rest, -, -, hs, -, -, rfl⟩ := h
  refine (windowed_passed hf _ _ bs rest).trans ⟨State.Around.refl _, symUpdate_keepsShape m sym _, ?_⟩
  exact symUpdate_filesOk (s := s.windowed _ _ bs rest) hp hf hs

theorem TakesBit.passed {s t : State} {b : Nat} {bit : Bool} (hp : s.par.Ok) (hf : s.FilesOk) (h : TakesBit s t b bit) :
    Passed s t := by
  obtain ⟨-, bs, rest, -, -, rfl⟩ := h
  refine (windowed_passed hf _ _ bs rest).trans ⟨State.Around.refl _, bitUpdate_keepsShape b bit _, ?_⟩
  exact bitUpdate_filesOk (s := s.windowed _ _ bs rest) hp hf

theorem TakesUniform.passed {s t : State} {k x : Nat} (hf : s.FilesOk) (h : TakesUniform s t k x) : Passed s t := by
  obtain ⟨-, bs, rest, -, -, rfl⟩ := h
  exact windowed_passed hf _ _ bs rest

theorem TakesBits.passed {s t : State} {k x : Nat} (hf : s.FilesOk) (h : TakesBits s t k x) : Passed s t := by
  unfold TakesBits at h
  split at h
  · exact h.passed hf
  · obtain ⟨u, lo, hi, hu, ht, -⟩ := h
    exact (hu.passed hf).trans (ht.passed (hu.passed hf).2.2)

/-- An instance that passed the checks of R216 and R217, with its models. -/
def IcUsable (s : State) (inst : IcInst) : Prop :=
  s.par.Ok ∧ s.FilesOk ∧ inst.Ok s.par ∧ inst.st = .ready ∧ icModelsOk s inst = true

theorem IcUsable.corrector {s : State} {inst : IcInst} (h : IcUsable s inst) : inst.CorrectorOk := by
  have := h.2.2.1
  unfold IcInst.Ok at this
  rw [h.2.2.2.1] at this
  exact this.2.2.1

theorem IcUsable.mag {s : State} {inst : IcInst} (h : IcUsable s inst) {c : Nat} (hc : c < inst.ctx.toNat) :
    (s.smAt (inst.magSlot c)).valid = true ∧ (s.smAt (inst.magSlot c)).n = inst.cbits.toNat + 1 := by
  have := h.2.2.2.2
  unfold icModelsOk at this
  simp only [Bool.and_eq_true, List.all_eq_true, List.mem_range, decide_eq_true_eq] at this
  exact this.1.1 c hc

theorem IcUsable.val {s : State} {inst : IcInst} (h : IcUsable s inst) {k : Nat} (h1 : 1 ≤ k) (hk : k ≤ inst.nv) :
    (s.smAt (inst.valSlot k)).valid = true ∧ (s.smAt (inst.valSlot k)).n = 2 ^ k := by
  have := h.2.2.2.2
  unfold icModelsOk at this
  simp only [Bool.and_eq_true, List.all_eq_true, List.mem_range, decide_eq_true_eq] at this
  have := this.1.2 (k - 1) (by omega)
  rwa [show k - 1 + 1 = k by omega] at this

theorem IcUsable.bit {s : State} {inst : IcInst} (h : IcUsable s inst) (h1 : 1 ≤ inst.bh.toNat) :
    (s.bmAt inst.bmslot.toNat).valid = true := by
  have := h.2.2.2.2
  unfold icModelsOk at this
  simp only [Bool.and_eq_true, Bool.or_eq_true, decide_eq_true_eq] at this
  rcases this.2 with h' | h'
  · omega
  · exact h'

/-- The instance's models stay usable while its commands code with them. -/
theorem IcUsable.passed {s t : State} {inst : IcInst} (h : IcUsable s inst) (ht : Passed s t) : IcUsable t inst := by
  obtain ⟨hp, hf, hi, hs, hm⟩ := h
  refine ⟨by rw [ht.1.1]; exact hp, ht.2.2, by rw [ht.1.1]; exact hi, hs, ?_⟩
  rw [← hm]
  unfold icModelsOk
  simp only [ht.2.1.1, ht.2.1.2.1]

/-! ### Coding a corrector -/

/-- Wherever the coding of a corrector ends (R216, step 5). -/
theorem encodeCorrector_sat {s : State} {inst : IcInst} {corr : Int} {k : Nat} (he : s.EncOk) (h : IcUsable s inst)
    (hm : magnitude corr = k) (hk : k ≤ inst.cbits.toNat) :
    (encodeCorrector inst corr k s).Sat
      (fun _ t => CodesCorrector s t inst corr k ∧ t.EncOk ∧ Passed s t) s.Around Fault.Silent := by
  have hcb := h.corrector.2.1
  unfold encodeCorrector CodesCorrector
  by_cases h0 : k = 0
  · simp only [if_pos h0]
    by_cases hb : 1 ≤ inst.bh.toNat
    · simp only [if_pos hb]
      exact (encodeBit_sat _ he ⟨h.1, h.2.1.bmAt _, h.bit hb⟩).mono
        (fun _ t ⟨a, b⟩ => ⟨a, b, a.passed h.1 h.2.1⟩) (fun _ h => h) fun _ h => h
    · simp only [if_neg hb]
      have hx : corr.toNat < 2 ^ 1 := by
        rcases magnitude_eq_zero.1 (hm.trans h0) with rfl | rfl <;> decide
      exact (encodeUniform_sat he (by decide) hx).mono
        (fun _ t ⟨a, b⟩ => ⟨a, b, a.passed h.2.1⟩) (fun _ h => h) fun _ h => h
  · simp only [if_neg h0]
    have ht := translate_lt hm h0
    by_cases hkb : k ≤ inst.bh.toNat
    · simp only [if_pos hkb]
      have hv := h.val (k := k) (by omega) (by unfold IcInst.nv; omega)
      exact (encodeSymbol_sat he ⟨h.1, h.2.1.smAt _, hv.1, by rw [hv.2]; exact ht⟩).mono
        (fun _ t ⟨a, b⟩ => ⟨a, b, a.passed h.1 h.2.1 (by rw [hv.2]; exact ht)⟩) (fun _ h => h) fun _ h => h
    · simp only [if_neg hkb]
      by_cases hb : 1 ≤ inst.bh.toNat
      · simp only [if_pos hb]
        have hv := h.val (k := inst.bh.toNat) hb (by unfold IcInst.nv; omega)
        have hhi : translate corr k / 2 ^ (k - inst.bh.toNat) < 2 ^ inst.bh.toNat := by
          rw [Nat.div_lt_iff_lt_mul (by positivity), ← Nat.pow_add]
          rwa [show inst.bh.toNat + (k - inst.bh.toNat) = k by omega]
        refine (encodeSymbol_sat he ⟨h.1, h.2.1.smAt _, hv.1, by rw [hv.2]; exact hhi⟩).bind fun _ u ⟨hu, hok⟩ => ?_
        have hpu := hu.passed h.1 h.2.1 (by rw [hv.2]; exact hhi)
        exact (encodeBits_sat hok (k := k - inst.bh.toNat) (by omega) (Nat.mod_lt _ (by positivity))).mono
          (fun _ t ⟨a, b⟩ => ⟨⟨u, hu, a⟩, b, hpu.trans (a.passed hpu.2.2)⟩) (fun _ h => hpu.1.trans h) fun _ h => h
      · simp only [if_neg hb]
        exact (encodeBits_sat he (by omega) ht).mono
          (fun _ t ⟨a, b⟩ => ⟨a, b, a.passed h.2.1⟩) (fun _ h => h) fun _ h => h

/-- A corrector's coding as the machine does it. -/
theorem CodesCorrector.run {s t : State} {inst : IcInst} {corr : Int} {k : Nat} (he : s.EncOk) (h : IcUsable s inst)
    (hm : magnitude corr = k) (hk : k ≤ inst.cbits.toNat) (hc : CodesCorrector s t inst corr k) :
    encodeCorrector inst corr k s = .done () t := by
  have hcb := h.corrector.2.1
  unfold CodesCorrector at hc
  unfold encodeCorrector
  by_cases h0 : k = 0
  · simp only [if_pos h0] at hc ⊢
    by_cases hb : 1 ≤ inst.bh.toNat
    · rw [if_pos hb] at hc
      rw [if_pos (show inst.bh.toNat ≥ 1 from hb)]
      exact hc.run he ⟨h.1, h.2.1.bmAt _, h.bit hb⟩
    · rw [if_neg hb] at hc
      rw [if_neg (show ¬ inst.bh.toNat ≥ 1 from hb)]
      exact hc.run he (by decide) (by rcases magnitude_eq_zero.1 (hm.trans h0) with rfl | rfl <;> decide)
  · simp only [if_neg h0] at hc ⊢
    have ht := translate_lt hm h0
    by_cases hkb : k ≤ inst.bh.toNat
    · rw [if_pos hkb] at hc ⊢
      have hv := h.val (k := k) (by omega) (by unfold IcInst.nv; omega)
      exact hc.run he ⟨h.1, h.2.1.smAt _, hv.1, by rw [hv.2]; exact ht⟩
    · rw [if_neg hkb] at hc ⊢
      by_cases hb : 1 ≤ inst.bh.toNat
      · rw [if_pos hb] at hc
        rw [if_pos (show inst.bh.toNat ≥ 1 from hb)]
        have hv := h.val (k := inst.bh.toNat) hb (by unfold IcInst.nv; omega)
        have hhi : translate corr k / 2 ^ (k - inst.bh.toNat) < 2 ^ inst.bh.toNat := by
          rw [Nat.div_lt_iff_lt_mul (by positivity), ← Nat.pow_add]
          rwa [show inst.bh.toNat + (k - inst.bh.toNat) = k by omega]
        have hs : SymOk s (inst.valSlot inst.bh.toNat) (translate corr k / 2 ^ (k - inst.bh.toNat)) :=
          ⟨h.1, h.2.1.smAt _, hv.1, by rw [hv.2]; exact hhi⟩
        obtain ⟨u, hu, ht⟩ := hc
        have hrun := hu.run he hs
        have hok : u.EncOk := by
          have := encodeSymbol_sat he hs
          rw [hrun] at this
          exact this.2
        rw [hrun, Run.bind_done]
        exact ht.run hok (by omega) (Nat.mod_lt _ (by positivity))
      · rw [if_neg hb] at hc
        rw [if_neg (show ¬ inst.bh.toNat ≥ 1 from hb)]
        exact hc.run he (by omega) ht

/-- What a narrowing needs of the stream and of `PEND`, in terms of the steps it may take. -/
theorem Narrowed.uses {s t : State} {lo ln n : Nat} (h : Narrowed s t lo ln) (hn : renormSteps ln ≤ n) {m : Nat}
    (ha : s.SinkAccepts (s.pend + (n + m))) (hr : s.pend + (n + m) < 2 ^ s.par.pendBits) :
    t.SinkAccepts (t.pend + m) ∧ t.pend + m < 2 ^ t.par.pendBits := by
  obtain ⟨bs, -, hs, hp⟩ := h.2.2.2.2.1
  have hpar : t.par = s.par := h.around.1
  exact ⟨State.SinkAccepts.drop (i := bs.length) (ha.mono (by omega)) hs, by rw [hpar]; omega⟩

theorem CodesSymbol.uses {s t : State} {m sym j : Nat} (he : s.EncOk) (h : SymOk s m sym) (hc : CodesSymbol s t m sym)
    (ha : s.SinkAccepts (s.pend + (2 + j))) (hr : s.pend + (2 + j) < 2 ^ s.par.pendBits) :
    t.SinkAccepts (t.pend + j) ∧ t.pend + j < 2 ^ t.par.pendBits := by
  obtain ⟨u, hu, rfl⟩ := hc
  exact hu.uses (renormSteps_le_two (h.part he.1).2) ha hr

/-- The coding of a corrector returns where the stream accepts the held bytes and six more (R161). -/
theorem encodeCorrector_completes {s : State} {inst : IcInst} {corr : Int} {k : Nat} (he : s.EncOk)
    (h : IcUsable s inst) (hm : magnitude corr = k) (hk : k ≤ inst.cbits.toNat) (ha : s.SinkAccepts (s.pend + 6))
    (hr : s.pend + 6 < 2 ^ s.par.pendBits) : ∃ t, CodesCorrector s t inst corr k := by
  have hcb := h.corrector.2.1
  unfold CodesCorrector
  by_cases h0 : k = 0
  · simp only [if_pos h0]
    by_cases hb : 1 ≤ inst.bh.toNat
    · simp only [if_pos hb]
      obtain ⟨t, -, ht, -⟩ := encodeBit_completes (decide (corr = 1)) he ⟨h.1, h.2.1.bmAt _, h.bit hb⟩
        (ha.mono (by omega)) (by omega)
      exact ⟨t, ht⟩
    · simp only [if_neg hb]
      obtain ⟨t, -, ht, -⟩ := encodeUniform_completes he (k := 1) (x := corr.toNat) (n := 3) (by decide)
        (by rcases magnitude_eq_zero.1 (hm.trans h0) with rfl | rfl <;> decide) (renormSteps_le _) (ha.mono (by omega))
        (by omega)
      exact ⟨t, ht⟩
  · simp only [if_neg h0]
    have ht := translate_lt hm h0
    by_cases hkb : k ≤ inst.bh.toNat
    · simp only [if_pos hkb]
      have hv := h.val (k := k) (by omega) (by unfold IcInst.nv; omega)
      obtain ⟨t, -, ht, -⟩ := encodeSymbol_completes he ⟨h.1, h.2.1.smAt _, hv.1, by rw [hv.2]; exact ht⟩
        (ha.mono (by omega)) (by omega)
      exact ⟨t, ht⟩
    · simp only [if_neg hkb]
      by_cases hb : 1 ≤ inst.bh.toNat
      · simp only [if_pos hb]
        have hv := h.val (k := inst.bh.toNat) hb (by unfold IcInst.nv; omega)
        have hhi : translate corr k / 2 ^ (k - inst.bh.toNat) < 2 ^ inst.bh.toNat := by
          rw [Nat.div_lt_iff_lt_mul (by positivity), ← Nat.pow_add]
          rwa [show inst.bh.toNat + (k - inst.bh.toNat) = k by omega]
        have hs : SymOk s (inst.valSlot inst.bh.toNat) (translate corr k / 2 ^ (k - inst.bh.toNat)) :=
          ⟨h.1, h.2.1.smAt _, hv.1, by rw [hv.2]; exact hhi⟩
        obtain ⟨u, -, hu, hok⟩ := encodeSymbol_completes he hs (ha.mono (by omega)) (by omega)
        obtain ⟨ha', hr'⟩ := hu.uses he hs (j := 4) (ha.mono (by omega)) (by omega)
        obtain ⟨t, -, ht, -⟩ := encodeBits_completes hok (k := k - inst.bh.toNat)
          (x := translate corr k % 2 ^ (k - inst.bh.toNat)) (by omega) (Nat.mod_lt _ (by positivity))
          (ha'.mono (by split <;> omega)) (by split <;> omega)
        exact ⟨t, u, hu, ht⟩
      · simp only [if_neg hb]
        obtain ⟨t, -, ht, -⟩ := encodeBits_completes he (k := k) (x := translate corr k) (by omega) ht
          (ha.mono (by split <;> omega)) (by split <;> omega)
        exact ⟨t, ht⟩

/-! ### Decoding a corrector -/

theorem TakesSymbol.lt {s t : State} {m sym : Nat} (h : TakesSymbol s t m sym) : sym < (s.smAt m).n := by
  obtain ⟨bs, rest, -, -, hs, -⟩ := h
  exact hs

/-- A position decoded as the machine does it (R217). -/
theorem decodePosition_done {s t : State} {inst : IcInst} {k pos : Nat} (hd : s.DecOk) (h : IcUsable s inst)
    (h0 : k ≠ 0) (hk : k ≤ inst.cbits.toNat) :
    decodePosition inst k s = .done pos t ↔ TakesPosition s t inst k pos := by
  have hcb := h.corrector.2.1
  unfold decodePosition TakesPosition
  by_cases hkb : k ≤ inst.bh.toNat
  · rw [if_pos hkb, if_pos hkb]
    have hv := h.val (k := k) (by omega) (by unfold IcInst.nv; omega)
    exact decodeSymbol_done hd.1 ⟨h.1, h.2.1.smAt _, hv.1⟩
  · rw [if_neg hkb, if_neg hkb]
    by_cases hb : 1 ≤ inst.bh.toNat
    · rw [if_pos (show inst.bh.toNat ≥ 1 from hb), if_pos hb]
      have hv := h.val (k := inst.bh.toNat) hb (by unfold IcInst.nv; omega)
      have hm : ModelOk s (inst.valSlot inst.bh.toNat) := ⟨h.1, h.2.1.smAt _, hv.1⟩
      simp only [Run.bind_eq_done]
      constructor
      · rintro ⟨hi, u, h1, lo, v, h2, h3⟩
        have hu := (decodeSymbol_done hd.1 hm).1 h1
        have hv := (decodeBits_done (hu.decOk hd hm) (by omega)).1 h2
        obtain ⟨rfl, rfl⟩ := Run.done.inj h3
        exact ⟨u, hi, lo, hu, hv, rfl⟩
      · rintro ⟨u, hi, lo, hu, hv, rfl⟩
        exact ⟨hi, u, (decodeSymbol_done hd.1 hm).2 hu, lo, t,
          (decodeBits_done (hu.decOk hd hm) (by omega)).2 hv, rfl⟩
    · rw [if_neg (show ¬ inst.bh.toNat ≥ 1 from hb), if_neg hb]
      exact decodeBits_done hd (by omega)

/-- A corrector decoded as the machine does it (R217). -/
theorem decodeCorrector_done {s t : State} {inst : IcInst} {k : Nat} {corr : Int} (hd : s.DecOk) (h : IcUsable s inst)
    (hk : k ≤ inst.cbits.toNat) : decodeCorrector inst k s = .done corr t ↔ TakesCorrector s t inst k corr := by
  unfold decodeCorrector TakesCorrector
  by_cases h0 : k = 0
  · rw [if_pos h0, if_pos h0]
    by_cases hb : 1 ≤ inst.bh.toNat
    · rw [if_pos (show inst.bh.toNat ≥ 1 from hb), if_pos hb]
      simp only [Run.bind_eq_done, decodeBit_done hd.1 ⟨h.1, h.2.1.bmAt _, h.bit hb⟩]
      constructor
      · rintro ⟨v, u, ⟨bit, rfl, hu⟩, h3⟩
        obtain ⟨rfl, rfl⟩ := Run.done.inj h3
        exact ⟨bit, rfl, hu⟩
      · rintro ⟨bit, rfl, hu⟩
        exact ⟨_, t, ⟨bit, rfl, hu⟩, rfl⟩
    · rw [if_neg (show ¬ inst.bh.toNat ≥ 1 from hb), if_neg hb]
      simp only [Run.bind_eq_done, decodeUniform_done hd.1 (show 1 ≤ 19 by decide)]
      constructor
      · rintro ⟨v, u, hu, h3⟩
        obtain ⟨rfl, rfl⟩ := Run.done.inj h3
        exact ⟨v, rfl, hu⟩
      · rintro ⟨x, rfl, hu⟩
        exact ⟨x, t, hu, rfl⟩
  · rw [if_neg h0, if_neg h0]
    simp only [Run.bind_eq_done, decodePosition_done hd h h0 hk]
    constructor
    · rintro ⟨pos, u, hu, h3⟩
      obtain ⟨rfl, rfl⟩ := Run.done.inj h3
      exact ⟨pos, rfl, hu⟩
    · rintro ⟨pos, rfl, hu⟩
      exact ⟨pos, t, hu, rfl⟩

theorem TakesPosition.next {s t : State} {inst : IcInst} {k pos : Nat} (hd : s.DecOk) (h : IcUsable s inst)
    (h0 : k ≠ 0) (hk : k ≤ inst.cbits.toNat) (hc : TakesPosition s t inst k pos) : t.DecOk ∧ Passed s t := by
  have hcb := h.corrector.2.1
  unfold TakesPosition at hc
  split at hc
  · have hv := h.val (k := k) (by omega) (by unfold IcInst.nv; omega)
    exact ⟨hc.decOk hd ⟨h.1, h.2.1.smAt _, hv.1⟩, hc.passed h.1 h.2.1⟩
  · split at hc
    · next hkb hb =>
      have hv := h.val (k := inst.bh.toNat) hb (by unfold IcInst.nv; omega)
      obtain ⟨u, hi, lo, hu, ht, -⟩ := hc
      have hpu := hu.passed h.1 h.2.1
      exact ⟨ht.decOk (hu.decOk hd ⟨h.1, h.2.1.smAt _, hv.1⟩) (by omega), hpu.trans (ht.passed hpu.2.2)⟩
    · exact ⟨hc.decOk hd (by omega), hc.passed h.2.1⟩

theorem TakesCorrector.next {s t : State} {inst : IcInst} {k : Nat} {corr : Int} (hd : s.DecOk) (h : IcUsable s inst)
    (hk : k ≤ inst.cbits.toNat) (hc : TakesCorrector s t inst k corr) : t.DecOk ∧ Passed s t := by
  unfold TakesCorrector at hc
  split at hc
  · split at hc
    · next hb =>
      obtain ⟨bit, -, hu⟩ := hc
      exact ⟨hu.decOk hd ⟨h.1, h.2.1.bmAt _, h.bit hb⟩, hu.passed h.1 h.2.1⟩
    · obtain ⟨x, -, hu⟩ := hc
      exact ⟨hu.decOk hd (by decide), hu.passed h.2.1⟩
  · next h0 =>
    obtain ⟨pos, -, hu⟩ := hc
    exact hu.next hd h h0 hk

/-- Where the decoding of a corrector can be left early, and how it can stop. -/
theorem decodeCorrector_early {s : State} {inst : IcInst} {k : Nat} (hd : s.DecOk) (h : IcUsable s inst)
    (hk : k ≤ inst.cbits.toNat) :
    (decodeCorrector inst k s).Sat (fun _ _ => True) s.Around Fault.Silent := by
  have hcb := h.corrector.2.1
  unfold decodeCorrector
  by_cases h0 : k = 0
  · rw [if_pos h0]
    by_cases hb : inst.bh.toNat ≥ 1
    · rw [if_pos hb]
      exact (decodeBit_sat hd ⟨h.1, h.2.1.bmAt _, h.bit hb⟩).bind fun _ _ _ => trivial
    · rw [if_neg hb]
      exact (decodeUniform_sat hd (by decide)).bind fun _ _ _ => trivial
  · rw [if_neg h0]
    suffices hp : (decodePosition inst k s).Sat (fun _ _ => True) s.Around Fault.Silent from
      hp.bind fun _ _ _ => trivial
    unfold decodePosition
    by_cases hkb : k ≤ inst.bh.toNat
    · rw [if_pos hkb]
      have hv := h.val (k := k) (by omega) (by unfold IcInst.nv; omega)
      exact (decodeSymbol_sat hd ⟨h.1, h.2.1.smAt _, hv.1⟩).mono (fun _ _ _ => trivial) (fun _ h => h) fun _ h => h
    · rw [if_neg hkb]
      by_cases hb : inst.bh.toNat ≥ 1
      · rw [if_pos hb]
        have hv := h.val (k := inst.bh.toNat) hb (by unfold IcInst.nv; omega)
        refine (decodeSymbol_sat hd ⟨h.1, h.2.1.smAt _, hv.1⟩).bind fun hi u ⟨hu, hok⟩ => ?_
        have hpu := hu.passed h.1 h.2.1
        exact ((decodeBits_sat hok (k := k - inst.bh.toNat) (by omega)).mono (fun _ _ h => h)
          (fun _ h => hpu.1.trans h) fun _ h => h).bind fun _ _ _ => trivial
      · rw [if_neg hb]
        exact (decodeBits_sat hd (by omega)).mono (fun _ _ _ => trivial) (fun _ h => h) fun _ h => h

/-- Wherever the decoding of a corrector ends. -/
theorem decodeCorrector_sat {s : State} {inst : IcInst} {k : Nat} (hd : s.DecOk) (h : IcUsable s inst)
    (hk : k ≤ inst.cbits.toNat) :
    (decodeCorrector inst k s).Sat (fun corr t => TakesCorrector s t inst k corr ∧ t.DecOk ∧ Passed s t) s.Around
      Fault.Silent := by
  have early := decodeCorrector_early hd h hk
  cases hr : decodeCorrector inst k s with
  | done a t =>
    have ht := (decodeCorrector_done hd h hk).1 hr
    exact ⟨ht, ht.next hd h hk⟩
  | raised e t => rw [hr] at early; exact early
  | aborted t => rw [hr] at early; exact early
  | stopped f => rw [hr] at early; exact early

theorem TakesSymbol.source {s t : State} {m sym j : Nat} (hd : s.DecOk) (hm : ModelOk s m) (h : TakesSymbol s t m sym)
    (hs : s.SourceHolds (2 + j)) : t.SourceHolds j := by
  obtain ⟨bs, rest, hsrc, hb, hsym, -, -, rfl⟩ := h
  exact State.SourceHolds.drop hs hsrc (by rw [hb]; exact renormSteps_le_two (symLen_bounds hd.1 hm hsym).1) rfl

/-- The decoding of a corrector returns where the source holds six bytes (R161). -/
theorem decodeCorrector_completes {s : State} {inst : IcInst} {k : Nat} (hd : s.DecOk) (h : IcUsable s inst)
    (hk : k ≤ inst.cbits.toNat) (hs : s.SourceHolds 6) : ∃ corr t, TakesCorrector s t inst k corr := by
  have hcb := h.corrector.2.1
  have less : ∀ n, n ≤ 6 → s.SourceHolds n := fun n hn => by
    obtain ⟨bs, rest, hsrc, hl⟩ := hs
    exact ⟨bs, rest, hsrc, by omega⟩
  unfold TakesCorrector TakesPosition
  by_cases h0 : k = 0
  · simp only [if_pos h0]
    by_cases hb : 1 ≤ inst.bh.toNat
    · simp only [if_pos hb]
      obtain ⟨bit, t, -, ht, -⟩ := decodeBit_completes hd ⟨h.1, h.2.1.bmAt _, h.bit hb⟩ (less 2 (by omega))
      exact ⟨_, t, bit, rfl, ht⟩
    · simp only [if_neg hb]
      obtain ⟨x, t, -, ht, -⟩ := decodeUniform_completes hd (k := 1) (by decide) (renormSteps_le _) (less 3 (by omega))
      exact ⟨_, t, x, rfl, ht⟩
  · simp only [if_neg h0]
    by_cases hkb : k ≤ inst.bh.toNat
    · simp only [if_pos hkb]
      have hv := h.val (k := k) (by omega) (by unfold IcInst.nv; omega)
      obtain ⟨sym, t, -, ht, -⟩ := decodeSymbol_completes hd ⟨h.1, h.2.1.smAt _, hv.1⟩ (less 2 (by omega))
      exact ⟨_, t, sym, rfl, ht⟩
    · simp only [if_neg hkb]
      by_cases hb : 1 ≤ inst.bh.toNat
      · simp only [if_pos hb]
        have hv := h.val (k := inst.bh.toNat) hb (by unfold IcInst.nv; omega)
        have hm : ModelOk s (inst.valSlot inst.bh.toNat) := ⟨h.1, h.2.1.smAt _, hv.1⟩
        obtain ⟨hi, u, -, hu, hok⟩ := decodeSymbol_completes hd hm (less 2 (by omega))
        have hsu := hu.source (j := 4) hd hm hs
        obtain ⟨lo, t, -, ht, -⟩ := decodeBits_completes hok (k := k - inst.bh.toNat) (by omega) (by
          obtain ⟨bs, rest, hsrc, hl⟩ := hsu
          exact ⟨bs, rest, hsrc, by split <;> omega⟩)
        exact ⟨_, t, _, rfl, u, hi, lo, hu, ht, rfl⟩
      · simp only [if_neg hb]
        obtain ⟨x, t, -, ht, -⟩ := decodeBits_completes hd (k := k) (by omega) (less _ (by split <;> omega))
        exact ⟨_, t, x, rfl, ht⟩

end Sys2Proof.Machine
end

