-- ==== Sys2Proof/Laws/Answers.lean ====
section
/-! SUPPORT. What it takes for a command to be answered `OK`: the mode checks of R101 and R102, how a coding run ends, and for
each coding command of the encoder what its answer says. -/

namespace Sys2Proof.Machine

open Sys2Proof

/-! ### The mode checks -/

/-- In an allowed mode the checks pass (R101). -/
theorem guarded_allowed {s : State} {m : Mode} {l : List Mode} {k : Out} (h : s.mode = m) (h1 : m ≠ .fault)
    (h2 : m ∈ l) : guarded s l k = k := by
  subst h; simp [guarded, h1, h2]

/-- Outside the allowed modes the command is refused (R102). -/
theorem guarded_refused {s : State} {l : List Mode} {k : Out} (h1 : s.mode ≠ .fault) (h2 : s.mode ∉ l) :
    guarded s l k = refuse s .eMode := by
  simp [guarded, h1, h2]

theorem guarded_any {s : State} {k : Out} (h1 : s.mode ≠ .fault) : guarded s anySession k = k := by
  refine guarded_allowed rfl h1 ?_
  revert h1; cases s.mode <;> simp [anySession]

theorem guarded_not_enc {s : State} {k : Out} (h : s.mode = .idle ∨ s.mode = .dec) :
    guarded s [.enc] k = refuse s .eMode := by
  apply guarded_refused <;> rcases h with h | h <;> simp [h]

theorem guarded_not_dec {s : State} {k : Out} (h : s.mode = .idle ∨ s.mode = .enc) :
    guarded s [.dec] k = refuse s .eMode := by
  apply guarded_refused <;> rcases h with h | h <;> simp [h]

theorem guarded_enc {s : State} {k : Out} (h : s.mode = .enc) : guarded s [.enc] k = k := guarded_allowed h
    (by decide) (by decide)

theorem guarded_dec {s : State} {k : Out} (h : s.mode = .dec) : guarded s [.dec] k = k := guarded_allowed h
    (by decide) (by decide)

theorem guarded_idle {s : State} {k : Out} (h : s.mode = .idle) : guarded s [.idle] k = k := guarded_allowed h
    (by decide) (by decide)

theorem guarded_not_idle {s : State} {k : Out} (h : s.mode = .enc ∨ s.mode = .dec) :
    guarded s [.idle] k = refuse s .eMode := by
  apply guarded_refused <;> rcases h with h | h <;> simp [h]

/-- What the invariant says in `ENC` mode. -/
theorem State.Inv.enc {s : State} (h : s.Inv) (hm : s.mode = .enc) : s.par.Ok ∧ s.FilesOk ∧ s.EncOk :=
  ⟨h.1, h.2.2.2.1 (by rw [hm]; decide), h.2.2.2.2.1 hm⟩

/-- What the invariant says in `DEC` mode. -/
theorem State.Inv.dec {s : State} (h : s.Inv) (hm : s.mode = .dec) : s.par.Ok ∧ s.FilesOk ∧ s.DecOk :=
  ⟨h.1, h.2.2.2.1 (by rw [hm]; decide), h.2.2.2.2.2 hm⟩

/-! ### Answers -/

theorem append_last_inj {α} {l : List α} {a b : α} (h : l ++ [a] = l ++ [b]) : a = b := by simpa using h

/-- A refusal is no answer `OK`. -/
theorem refuse_not_ok {s t : State} {e : Status} {v : Word} (he : e ≠ .ok) (h : refuse s e = .next t)
    (hr : t.responses = s.responses ++ [⟨.ok, v⟩]) : False := by
  cases h
  have := append_last_inj hr
  exact he (by injection this)

/-- A coding run whose command was answered `OK` returned. -/
theorem finish_answered {cmd : Word} {r : Run Word} {s t : State} {v : Word} (ha : ∀ u, (∀ e, r ≠ .raised e u) ∧
    r ≠ .aborted u ∨ u.responses = s.responses)
    (hd : ∀ w u, r = .done w u → u.responses = s.responses)
    (h : finish cmd r = .next t) (hr : t.responses = s.responses ++ [⟨.ok, v⟩]) : ∃ u, r = .done v u ∧
      t = u.respond .ok v := by
  cases r with
  | done w u =>
    have := hd w u rfl
    cases h
    rw [State.respond_responses, this] at hr
    have := append_last_inj hr
    injection this with _ e
    subst e
    exact ⟨u, rfl, rfl⟩
  | raised e u =>
    cases h
    rcases ha u with h | h
    · exact absurd rfl (h.1 e)
    · simp only [takeFault, h] at hr
      have := append_last_inj hr
      injection this with e1 _
      cases e <;> cases e1
  | aborted u =>
    cases h
    rcases ha u with h | h
    · exact absurd rfl h.2
    · rw [show (resetBlock u).responses = u.responses from rfl, h] at hr
      have := congrArg List.length hr; simp at this
  | stopped f => cases h

/-- A coding run whose command was answered `OK` did what its triple says of a return. -/
theorem finish_answered_sat {cmd : Word} {r : Run Word} {s t : State} {v : Word} {P : Word → State → Prop} {R}
    (hs : r.Sat P s.Around R)
    (hP : ∀ w u, P w u → s.Around u)
    (h : finish cmd r = .next t) (hr : t.responses = s.responses ++ [⟨.ok, v⟩]) : ∃ u, r = .done v u ∧ P v u ∧
      t = u.respond .ok v := by
  have ⟨u, hu, ht⟩ := finish_answered (s := s) (cmd := cmd) (r := r) (v := v) (t := t) (by
    intro u
    cases r with
    | raised e x => by_cases h : x = u
                    · subst h; right; exact (show s.Around x from hs).2.2.1
                    · left; simp [h]
    | aborted x => by_cases h : x = u
                   · subst h; right; exact (show s.Around x from hs).2.2.1
                   · left; simp [h]
    | _ => left; simp) (by rintro w u rfl; exact (hP w u hs).2.2.1) h hr
  subst hu
  exact ⟨u, rfl, hs, ht⟩

/-- A command answered `OK` passed the mode checks. -/
theorem guarded_answered {s t : State} {v : Word} {l : List Mode} {k : Out} (hg : guarded s l k = .next t)
    (hr : t.responses = s.responses ++ [⟨.ok, v⟩]) :
    s.mode ≠ .fault ∧ s.mode ∈ l ∧ k = .next t := by
  by_cases hm : s.mode = .fault
  · simp only [guarded, hm, if_true] at hg; exact (refuse_not_ok (by decide) hg hr).elim
  · by_cases hm2 : s.mode ∈ l
    · rw [guarded, if_neg hm, if_pos hm2] at hg; exact ⟨hm, hm2, hg⟩
    · rw [guarded, if_neg hm, if_neg hm2] at hg; exact (refuse_not_ok (by decide) hg hr).elim

/-! ### The coding commands -/

/-- Wherever steps 4 to 6 of R216 end. -/
theorem compressCorrector_sat {s : State} {i : Nat} {inst : IcInst} {c : Nat} {corr : Int} (he : s.EncOk)
    (h : IcUsable s inst) (hc : c < inst.ctx.toNat) (hk : magnitude corr ≤ inst.cbits.toNat) :
    (compressCorrector i inst c corr s).Sat (fun w t => w = 0 ∧ ∃ u t', CodesSymbol s u (inst.smbase.toNat + c)
      (magnitude corr) ∧ CodesCorrector u t' inst corr (magnitude corr) ∧ t'.EncOk ∧ Passed s t' ∧
      t = t'.setIc i { inst with k := BitVec.ofNat 6 (magnitude corr) })
      s.Around Fault.Silent := by
  obtain ⟨m1, m2⟩ := h.mag hc
  have hsym : SymOk s (inst.magSlot c) (magnitude corr) := ⟨h.1, h.2.1.smAt _, m1, by omega⟩
  refine (encodeSymbol_sat he hsym).bind fun _ u hu => ?_
  have hps := hu.1.passed h.1 h.2.1 (by omega)
  have hx := encodeCorrector_sat hu.2 (h.passed hps) (corr := corr) rfl hk
  refine (hx.mono (fun _ _ h => h) (fun t ht => hps.1.trans ht) (fun _ h => h)).bind fun _ t ht => ?_
  exact ⟨rfl, u, t, hu.1, ht.1, ht.2.1, hps.trans ht.2.2, rfl⟩

/-- Wherever the body of R217 ends. -/
theorem decompressValue_sat {s : State} {i : Nat} {inst : IcInst} {c : Nat} {p : Word} (hd : s.DecOk)
    (h : IcUsable s inst) (hc : c < inst.ctx.toNat) :
    (decompressValue i inst c p s).Sat (fun w t => ∃ u t' k corr, TakesSymbol s u (inst.smbase.toNat + c) k ∧
      k ≤ inst.cbits.toNat ∧ TakesCorrector u t' inst k corr ∧ t'.DecOk ∧ Passed s t' ∧
      w = unfoldValue inst p corr ∧ t = t'.setIc i { inst with k := BitVec.ofNat 6 k })
      s.Around Fault.Silent := by
  obtain ⟨m1, m2⟩ := h.mag hc
  have hmod : ModelOk s (inst.magSlot c) := ⟨h.1, h.2.1.smAt _, m1⟩
  refine (decodeSymbol_sat hd hmod).bind fun k u hu => ?_
  have hk : k ≤ inst.cbits.toNat := by have := hu.1.lt; omega
  have hps := hu.1.passed h.1 h.2.1
  have hx := decodeCorrector_sat hu.2 (h.passed hps) hk
  refine (hx.mono (fun _ _ h => h) (fun t ht => hps.1.trans ht) (fun _ h => h)).bind fun corr t ht => ?_
  exact ⟨u, t, k, corr, hu.1, hk, ht.1, ht.2.1, hps.trans ht.2.2, rfl, rfl⟩

/-- An `ENC_SYM` answered `OK` (R153, R154). -/
theorem encSym_answered {m : Index} {sym v : Word} {s t : State} (hi : s.Inv) (h : Answers (.encSym m sym) s v t) :
    s.mode = .enc ∧ SymOk s m.toNat sym.toNat ∧ v = 0 ∧ ∃ u, CodesSymbol s u m.toNat sym.toNat ∧ u.EncOk ∧
      t = u.respond .ok v := by
  obtain ⟨h, hr⟩ := h
  obtain ⟨hf, hm, h⟩ := guarded_answered h hr
  have hm : s.mode = .enc := by simpa using hm
  obtain ⟨hp, hfl, he⟩ := State.Inv.enc hi hm
  split_ifs at h with c1 c2 c3 <;> try exact (refuse_not_ok (by decide) h hr).elim
  have hso : SymOk s m.toNat sym.toNat := ⟨hp, hfl.smAt _, by simpa using c2, by omega⟩
  have hs := (encodeSymbol_sat he hso).bind (f := fun _ s' => (.done 0 s' : Run Word)) (P' := fun w u => w = 0 ∧
    CodesSymbol s u m.toNat sym.toNat ∧ u.EncOk) (fun _ u hu => ⟨rfl, hu⟩)
  obtain ⟨u, _, ⟨rfl, hu⟩, rfl⟩ := finish_answered_sat hs
    (by rintro w u ⟨_, hu⟩; exact (hu.1.passed hp hfl hso.2.2.2).1) h hr
  exact ⟨hm, hso, rfl, u, hu.1, hu.2, rfl⟩

/-- An `ENC_BIT` answered `OK` (R155, R156). -/
theorem encBit_answered {b : Index} {bit v : Word} {s t : State} (hi : s.Inv) (h : Answers (.encBit b bit) s v t) :
    s.mode = .enc ∧ b.toNat < s.par.nbm ∧ bit.toNat ≤ 1 ∧ BitOk s b.toNat ∧ v = 0 ∧ ∃ u,
      CodesBit s u b.toNat (decide (bit.toNat = 1)) ∧ u.EncOk ∧ t = u.respond .ok v := by
  obtain ⟨h, hr⟩ := h
  obtain ⟨hf, hm, h⟩ := guarded_answered h hr
  have hm : s.mode = .enc := by simpa using hm
  obtain ⟨hp, hfl, he⟩ := State.Inv.enc hi hm
  split_ifs at h with c1 c2 c3 <;> try exact (refuse_not_ok (by decide) h hr).elim
  have hso : BitOk s b.toNat := ⟨hp, hfl.bmAt _, by simpa using c2⟩
  have hs := (encodeBit_sat (decide (bit.toNat = 1)) he hso).bind (f := fun _ s' => (.done 0 s' : Run Word)) (P' :=
    fun w u => w = 0 ∧ CodesBit s u b.toNat (decide (bit.toNat = 1)) ∧ u.EncOk) (fun _ u hu => ⟨rfl, hu⟩)
  obtain ⟨u, _, ⟨rfl, hu⟩, rfl⟩ := finish_answered_sat hs (by rintro w u ⟨_, hu⟩; exact (hu.1.passed hp hfl).1) h hr
  exact ⟨hm, by omega, by omega, hso, rfl, u, hu.1, hu.2, rfl⟩

/-- An `ENC_BITS` answered `OK` (R158, R159). -/
theorem encBits_answered {k : Byte} {x v : Word} {s t : State} (hi : s.Inv) (h : Answers (.encBits k x) s v t) :
    s.mode = .enc ∧ 1 ≤ k.toNat ∧ k.toNat ≤ 32 ∧ x.toNat < 2 ^ k.toNat ∧ v = 0 ∧ ∃ u,
      CodesBits s u k.toNat x.toNat ∧ u.EncOk ∧ t = u.respond .ok v := by
  obtain ⟨h, hr⟩ := h
  obtain ⟨hf, hm, h⟩ := guarded_answered h hr
  have hm : s.mode = .enc := by simpa using hm
  obtain ⟨hp, hfl, he⟩ := State.Inv.enc hi hm
  split_ifs at h with c1 c2 <;> try exact (refuse_not_ok (by decide) h hr).elim
  have hx : x.toNat < 2 ^ k.toNat := by
    by_cases hk : k.toNat < 32
    · by_contra hx; exact c2 ⟨hk, by omega⟩
    · have : k.toNat = 32 := by omega
      rw [this]; exact x.isLt
  have hs := (encodeBits_sat he (by omega) hx).bind (f := fun _ s' => (.done 0 s' : Run Word)) (P' :=
    fun w u => w = 0 ∧ CodesBits s u k.toNat x.toNat ∧ u.EncOk) (fun _ u hu => ⟨rfl, hu⟩)
  obtain ⟨u, _, ⟨rfl, hu⟩, rfl⟩ := finish_answered_sat hs (by rintro w u ⟨_, hu⟩; exact (hu.1.passed hfl).1) h hr
  exact ⟨hm, by omega, by omega, hx, rfl, u, hu.1, hu.2, rfl⟩

/-- A `DEC_SYM` answered `OK` (R182, R183). -/
theorem decSym_answered {m : Index} {v : Word} {s t : State} (hi : s.Inv) (h : Answers (.decSym m) s v t) :
    s.mode = .dec ∧ ModelOk s m.toNat ∧ ∃ u sym, TakesSymbol s u m.toNat sym ∧ v = BitVec.ofNat 32 sym ∧
      t = u.respond .ok v := by
  obtain ⟨h, hr⟩ := h
  obtain ⟨hf, hm, h⟩ := guarded_answered h hr
  have hm : s.mode = .dec := by simpa using hm
  obtain ⟨hp, hfl, he⟩ := State.Inv.dec hi hm
  split_ifs at h with c1 c2 <;> try exact (refuse_not_ok (by decide) h hr).elim
  have hso : ModelOk s m.toNat := ⟨hp, hfl.smAt _, by simpa using c2⟩
  have hs := (decodeSymbol_sat he hso).bind (f := fun n s' => (.done (BitVec.ofNat 32 n) s' : Run Word)) (P' :=
    fun w u => ∃ sym, TakesSymbol s u m.toNat sym ∧ w = BitVec.ofNat 32 sym) (fun n u hu => ⟨n, hu.1, rfl⟩)
  obtain ⟨u, _, ⟨sym, hu, rfl⟩, rfl⟩ := finish_answered_sat hs
    (by rintro w u ⟨n, hu, _⟩; exact (hu.passed hp hfl).1) h hr
  exact ⟨hm, hso, u, sym, hu, rfl, rfl⟩

/-- An `IC_COMPRESS` answered `OK` (R216). -/
theorem icCompress_answered {i : Byte} {c : Index} {p v w : Word} {s t : State} (hi : s.Inv)
    (h : Answers (.icCompress i c p v) s w t) :
    s.mode = .enc ∧ i.toNat < s.par.nic ∧ c.toNat < (s.icAt i.toNat).ctx.toNat ∧ IcUsable s (s.icAt i.toNat) ∧
      magnitude (foldCorr (s.icAt i.toNat) p v) ≤ (s.icAt i.toNat).cbits.toNat ∧ w = 0 ∧
    ∃ u t', CodesSymbol s u ((s.icAt i.toNat).magSlot c.toNat) (magnitude (foldCorr (s.icAt i.toNat) p v)) ∧
      CodesCorrector u t' (s.icAt i.toNat) (foldCorr (s.icAt i.toNat) p v)
        (magnitude (foldCorr (s.icAt i.toNat) p v)) ∧ t'.EncOk ∧ Passed s t' ∧
      t = (t'.setIc i.toNat
        { s.icAt i.toNat with k := BitVec.ofNat 6 (magnitude (foldCorr (s.icAt i.toNat) p v)) }).respond .ok w := by
  obtain ⟨h, hr⟩ := h
  obtain ⟨hf, hm, h⟩ := guarded_answered h hr
  have hm : s.mode = .enc := by simpa using hm
  obtain ⟨hp, hf, he⟩ := State.Inv.enc hi hm
  split_ifs at h with c1 c2 c3 c4 c5 <;> try exact (refuse_not_ok (by decide) h hr).elim
  have hst : (s.icAt i.toNat).st = .ready := by simpa using c2
  have hu : IcUsable s (s.icAt i.toNat) := ⟨hp, hf, hf.icAt _, hst, by simpa using c4⟩
  obtain ⟨u, hu1, ⟨rfl, w, t', k1, k2, k3, k4, rfl⟩, rfl⟩ := finish_answered_sat (compressCorrector_sat he hu
    (by omega) (by omega))
    (by rintro w u ⟨_, w', t', k1, k2, k3, k4, rfl⟩; exact k4.1) h hr
  exact ⟨hm, by omega, by omega, hu, by omega, rfl, w, t', k1, k2, k3, k4, rfl⟩

end Sys2Proof.Machine
end

