-- ==== Sys2Proof/Laws/Cut.lean ====
section
/-! SUPPORT. The decoding procedures on a source that is cut short (R62, R266): before the cut they go the same way, at the cut
they raise `E_IO`, or hang where the stream never answers. -/

namespace Sys2Proof.Machine

open Sys2Proof

/-- `t'` is `t` with its source cut short: where `t` has the bytes `bs` before `more`, `t'` has the first `n` of them before
`tail`. The cut comes when `taken` is `N`. -/
def CutRel (N : Nat) (more tail : List GetAnswer) (t t' : State) : Prop :=
  ∃ (bs : List Byte) (n : Nat), n < bs.length ∧ t.source = bs.map GetAnswer.byte ++ more ∧ t.taken + n = N ∧
    t' = t.setSource ((bs.take n).map GetAnswer.byte ++ tail)

/-- At the cut the stream has ended, fails, or never answers (R62, R64). -/
def Broken (tail : List GetAnswer) : Prop :=
  (tail = [] ∨ ∃ rest, tail = .failed :: rest) ∨ ∃ rest, tail = .silent :: rest

/-- The run failed or hung at the cut, having taken everything before it (R62, R64, R266). -/
def Run.Short {α : Type} (N : Nat) (tail : List GetAnswer) (r : Run α) : Prop :=
  ∃ u : State, u.taken = N ∧
    (((∃ rest, tail = .silent :: rest) ∧ r = .stopped (.streamSilent u.seen)) ∨
      ((¬ ∃ rest, tail = .silent :: rest) ∧ r = .raised .io u ∧ u.source = tail.drop 1))

/-- Nothing follows a run that failed or hung. -/
theorem Run.Short.bind {α β : Type} {N : Nat} {tail : List GetAnswer} {r : Run α} (h : r.Short N tail)
    (f : α → State → Run β) : (r.bind f).Short N tail := by
  obtain ⟨u, hu, ⟨ht, rfl⟩ | ⟨ht, rfl, hs⟩⟩ := h
  · exact ⟨u, hu, .inl ⟨ht, rfl⟩⟩
  · exact ⟨u, hu, .inr ⟨ht, rfl, hs⟩⟩

/-- What a decoding run `r` says of the run `r'` on the cut source: it goes the same way where `r` stays before the cut, and
fails or hangs at the cut where `r` goes past it. -/
def Run.Cut {α : Type} (N : Nat) (more tail : List GetAnswer) (r r' : Run α) : Prop :=
  match r with
  | .done a t => (∃ t', CutRel N more tail t t' ∧ r' = .done a t') ∨ (N < t.taken ∧ r'.Short N tail)
  | .raised _ t => N < t.taken ∧ r'.Short N tail
  | .aborted t => N < t.taken ∧ r'.Short N tail
  | .stopped _ => True

variable {α β : Type} {N : Nat} {more tail : List GetAnswer}

/-- One procedure after another, the last one perhaps changing the mode. -/
theorem Run.Cut.bindMoved {r r' : Run α} {f f' : α → State → Run β} (h : r.Cut N more tail r')
    (hf : ∀ a t t', CutRel N more tail t t' → (f a t).Cut N more tail (f' a t'))
    (ht : ∀ a t, (f a t).Traced t DecMoved DecLeft) :
    (r.bind f).Cut N more tail (r'.bind f') := by
  cases r with
  | stopped g => trivial
  | raised e t => exact ⟨h.1, h.2.bind f'⟩
  | aborted t => exact ⟨h.1, h.2.bind f'⟩
  | done a t =>
    rcases h with ⟨t', h1, rfl⟩ | ⟨h1, h2⟩
    · exact hf a t t' h1
    · have := ht a t
      rw [Run.bind_done]
      cases hr : f a t with
      | stopped g => trivial
      | done b v => rw [hr] at this; exact .inr ⟨lt_of_lt_of_le h1 this.2.2.2.2.2.2.1, h2.bind f'⟩
      | raised b v => rw [hr] at this; exact ⟨lt_of_lt_of_le h1 this.2.2.2.2.2.2.1, h2.bind f'⟩
      | aborted v => rw [hr] at this; exact ⟨lt_of_lt_of_le h1 this.1.2.2.2.2.2.2, h2.bind f'⟩

/-- One procedure after another. -/
theorem Run.Cut.bind {r r' : Run α} {f f' : α → State → Run β} (h : r.Cut N more tail r')
    (hf : ∀ a t t', CutRel N more tail t t' → (f a t).Cut N more tail (f' a t')) (ht : ∀ a t, (f a t).DecTraced t) :
    (r.bind f).Cut N more tail (r'.bind f') := h.bindMoved hf fun a t => dec_of_traced (ht a t)

theorem CutRel.done {a : α} {t t' : State} (h : CutRel N more tail t t') :
    (Run.done a t).Cut N more tail (.done a t') :=
  .inl ⟨t', h, rfl⟩

/-- An update that neither reads nor writes the source keeps the relation. -/
theorem CutRel.upd {t t' : State} (h : CutRel N more tail t t') (f : State → State)
    (h1 : (f t).source = t.source) (h2 : (f t).taken = t.taken) (h3 : ∀ l, f (t.setSource l) = (f t).setSource l) :
        CutRel N more tail (f t) (f t') := by
  obtain ⟨bs, n, a, b, c, rfl⟩ := h
  exact ⟨bs, n, a, h1.trans b, by rw [h2]; exact c, h3 _⟩

theorem CutRel.eq_setSource {t t' : State} (h : CutRel N more tail t t') : ∃ l, t' = t.setSource l := by
  obtain ⟨_, _, _, _, _, rfl⟩ := h; exact ⟨_, rfl⟩

theorem getByte_cut (hn : Broken tail) {t t' : State} (h : CutRel N more tail t t') :
    (getByte t).Cut N more tail (getByte t') := by
  obtain ⟨bs, n, a, b, c, rfl⟩ := h
  cases bs with
  | nil => simp at a
  | cons x bs =>
    have e1 : getByte t = .done x (t.tookIn (bs.map .byte ++ more)) := by
      unfold getByte; split <;> simp_all
    rw [e1]
    cases n with
    | zero =>
      right
      refine ⟨by show N < t.taken + 1; omega, ?_⟩
      have hN : t.taken = N := c
      rcases hn with (rfl | ⟨rest, rfl⟩) | ⟨rest, rfl⟩
      · exact ⟨t.setSource [], hN, .inr ⟨by simp, rfl, rfl⟩⟩
      · exact ⟨t.setSource rest, hN, .inr ⟨by simp, rfl, rfl⟩⟩
      · exact ⟨t, hN, .inl ⟨⟨rest, rfl⟩, rfl⟩⟩
    | succ n =>
      left
      refine ⟨_, ⟨bs, n, by simpa using a, rfl, by show t.taken + 1 + n = N; omega, rfl⟩, ?_⟩
      rfl

variable (hn : Broken tail)
include hn

theorem shiftIn_cut {t t' : State} (h : CutRel N more tail t t') : (shiftIn t).Cut N more tail (shiftIn t') := by
  refine (getByte_cut hn h).bind (fun b u u' hu => ?_) (fun b u => decMoves_coder rfl)
  obtain ⟨bs, n, x, y, z, rfl⟩ := hu
  exact .inl ⟨_, ⟨bs, n, x, y, z, rfl⟩, rfl⟩

theorem shiftIns_cut (k : Nat) {t t' : State} (h : CutRel N more tail t t') :
    (shiftIns k t).Cut N more tail (shiftIns k t') := by
  induction k generalizing t t' with
  | zero => exact h.done
  | succ k ih => exact (shiftIn_cut hn h).bind (fun _ u u' hu => ih hu) (fun _ u => shiftIns_traced k u)

theorem renormDecLoop_cut (k : Nat) {t t' : State} (h : CutRel N more tail t t') :
    (renormDecLoop k t).Cut N more tail (renormDecLoop k t') := by
  have hl : t'.len = t.len := by obtain ⟨_, _, _, _, _, rfl⟩ := h; rfl
  induction k generalizing t t' with
  | zero =>
    unfold renormDecLoop
    rw [hl]
    split
    · trivial
    · exact h.done
  | succ k ih =>
    unfold renormDecLoop
    rw [hl]
    split
    · refine (shiftIn_cut hn h).bind (fun _ u u' hu => ?_)
        (fun _ u => (renormDecLoop_traced k _).weaken (decMoves_coder rfl))
      have : u'.len = u.len := by obtain ⟨_, _, _, _, _, rfl⟩ := hu; rfl
      rw [this]
      exact ih (hu.upd (·.setLen (u.len <<< 8)) rfl rfl fun _ => rfl) rfl
    · exact h.done

theorem renormDec_cut {t t' : State} (h : CutRel N more tail t t') :
    (renormDec t).Cut N more tail (renormDec t') := renormDecLoop_cut hn 3 h

theorem decodeSymbol_cut (m : Nat) {t t' : State} (h : CutRel N more tail t t') :
    (decodeSymbol m t).Cut N more tail (decodeSymbol m t') := by
  obtain ⟨l, rfl⟩ := h.eq_setSource
  unfold decodeSymbol
  show Run.Cut _ _ _ (if (t.smAt m).total = 0 ∨ t.len.toNat / (t.smAt m).total = 0 then _ else _)
    (if (t.smAt m).total = 0 ∨ t.len.toNat / (t.smAt m).total = 0 then _ else _)
  split
  · trivial
  · refine (renormDec_cut hn (h.upd (·.setWindow _ _) rfl rfl fun _ => rfl)).bind (fun _ u u' hu => ?_)
      (fun _ u => decMoves_symUpdate m _ u)
    exact (hu.upd (symUpdate m _) rfl rfl fun _ => rfl).done

theorem decodeBit_cut (b : Nat) {t t' : State} (h : CutRel N more tail t t') :
    (decodeBit b t).Cut N more tail (decodeBit b t') := by
  obtain ⟨l, rfl⟩ := h.eq_setSource
  unfold decodeBit
  show Run.Cut _ _ _ (if (t.value.toNat : Int) < bitSplit t b then _ else _)
    (if (t.value.toNat : Int) < bitSplit t b then _ else _)
  split
  · refine (renormDec_cut hn (h.upd (·.setWindow _ _) rfl rfl fun _ => rfl)).bind (fun _ u u' hu => ?_)
      (fun _ u => decMoves_bitUpdate b _ u)
    exact (hu.upd (bitUpdate b _) rfl rfl fun _ => rfl).done
  · refine (renormDec_cut hn (h.upd (·.setWindow _ _) rfl rfl fun _ => rfl)).bind (fun _ u u' hu => ?_)
      (fun _ u => decMoves_bitUpdate b _ u)
    exact (hu.upd (bitUpdate b _) rfl rfl fun _ => rfl).done

theorem decodeUniform_cut (k : Nat) {t t' : State} (h : CutRel N more tail t t') :
    (decodeUniform k t).Cut N more tail (decodeUniform k t') := by
  obtain ⟨l, rfl⟩ := h.eq_setSource
  unfold decodeUniform
  show Run.Cut _ _ _ (if t.len.toNat / 2 ^ k = 0 then _ else _) (if t.len.toNat / 2 ^ k = 0 then _ else _)
  split
  · trivial
  · exact (renormDec_cut hn (h.upd (·.setWindow _ _) rfl rfl fun _ => rfl)).bind (fun _ _ _ hu => hu.done)
      (fun _ u => DecMoves.refl u)

theorem decodeBits_cut (k : Nat) {t t' : State} (h : CutRel N more tail t t') :
    (decodeBits k t).Cut N more tail (decodeBits k t') := by
  unfold decodeBits
  split
  · exact (decodeUniform_cut hn _ h).bind
      (fun _ _ _ hu => (decodeUniform_cut hn _ hu).bind (fun _ _ _ hv => hv.done) (fun _ u => DecMoves.refl u))
      (fun _ u => (decodeUniform_traced _ u).bind fun _ v => DecMoves.refl v)
  · exact decodeUniform_cut hn _ h

theorem decodePosition_cut (inst : IcInst) (k : Nat) {t t' : State} (h : CutRel N more tail t t') :
    (decodePosition inst k t).Cut N more tail (decodePosition inst k t') := by
  unfold decodePosition
  split
  · exact decodeSymbol_cut hn _ h
  · split
    · exact (decodeSymbol_cut hn _ h).bind
        (fun _ _ _ hu => (decodeBits_cut hn _ hu).bind (fun _ _ _ hv => hv.done) (fun _ u => DecMoves.refl u))
        (fun _ u => (decodeBits_traced _ u).bind fun _ v => DecMoves.refl v)
    · exact decodeBits_cut hn _ h

theorem decodeCorrector_cut (inst : IcInst) (k : Nat) {t t' : State} (h : CutRel N more tail t t') :
    (decodeCorrector inst k t).Cut N more tail (decodeCorrector inst k t') := by
  unfold decodeCorrector
  split
  · split
    · exact (decodeBit_cut hn _ h).bind (fun _ _ _ hv => hv.done) (fun _ u => DecMoves.refl u)
    · exact (decodeUniform_cut hn _ h).bind (fun _ _ _ hv => hv.done) (fun _ u => DecMoves.refl u)
  · exact (decodePosition_cut hn _ _ h).bind (fun _ _ _ hv => hv.done) (fun _ u => DecMoves.refl u)

theorem decompressValue_cut (i : Nat) (inst : IcInst) (c : Nat) (p : Word) {t t' : State} (h :
    CutRel N more tail t t') : (decompressValue i inst c p t).Cut N more tail (decompressValue i inst c p t') :=
  (decodeSymbol_cut hn _ h).bind
    (fun _ _ _ hu => (decodeCorrector_cut hn _ _ hu).bind
      (fun _ _ _ hv => (hv.upd (·.setIc _ _) rfl rfl fun _ => rfl).done)
      (fun _ u => ⟨rfl, rfl, rfl, rfl, rfl, rfl, ⟨0, rfl⟩, le_refl _, KeepsValid.refl u⟩))
    (fun _ u => (decodeCorrector_traced _ _ u).bind fun _ v =>
      ⟨rfl, rfl, rfl, rfl, rfl, rfl, ⟨0, rfl⟩, le_refl _, KeepsValid.refl v⟩)

/-- The body of `DEC_START` (R180). -/
theorem decStart_cut {t t' : State} (h : CutRel N more tail t t') :
    ((getByte (t.setCoder 0 (BitVec.ofNat 32 Config.fullLen) t.cache 0 t.value)).bind fun b s1 =>
      (shiftIns 4 (s1.setCoder 0 (BitVec.ofNat 32 Config.fullLen) b 0 0)).bind fun _ s2 =>
        .done (0 : Word) (s2.setMode .dec)).Cut N more tail
    ((getByte (t'.setCoder 0 (BitVec.ofNat 32 Config.fullLen) t'.cache 0 t'.value)).bind fun b s1 =>
      (shiftIns 4 (s1.setCoder 0 (BitVec.ofNat 32 Config.fullLen) b 0 0)).bind fun _ s2 =>
        .done (0 : Word) (s2.setMode .dec)) := by
  obtain ⟨l, rfl⟩ := h.eq_setSource
  rw [← Run.bind_assoc, ← Run.bind_assoc]
  refine Run.Cut.bindMoved ?_ (fun _ v v' hv => (hv.upd (·.setMode .dec) rfl rfl fun _ => rfl).done)
    (fun _ v => show DecMoved v v from (DecMoves.refl v).moved)
  exact (getByte_cut hn (h.upd (·.setCoder 0 (BitVec.ofNat 32 Config.fullLen) t.cache 0 t.value) rfl rfl fun _ => rfl)).bind
    (fun b _ _ hu => shiftIns_cut hn 4
      (hu.upd (·.setCoder 0 (BitVec.ofNat 32 Config.fullLen) b 0 0) rfl rfl fun _ => rfl))
    fun b u => (shiftIns_traced 4 _).weaken (decMoves_coder rfl)

omit hn in
theorem wordResult_cut {r r' : Run Nat} (h : r.Cut N more tail r') : (wordResult r).Cut N more tail (wordResult r') :=
  h.bind (fun _ _ _ hu => hu.done) fun _ u => DecMoves.refl u

omit hn in
/-- A command that goes past the cut on the long source takes `E_IO` on the cut one, or hangs there, with exactly the bytes
before the cut taken. -/
theorem finish_cut {cmd : Word} {s u : State} {r r' : Run Word} (h : r.Cut N more tail r') (hu : finish cmd r = .next u)
    (hN : N < u.taken) (ht : r'.Traced s DecMoved DecLeft) :
    ((¬ ∃ rest, tail = .silent :: rest) → ∃ t : State, finish cmd r' = .next t ∧ t.mode = .fault ∧ t.cause = 5 ∧
      t.finfo = cmd ∧ t.responses = s.responses ++ [⟨.eIo, 0⟩] ∧ t.taken = N ∧ t.source = tail.drop 1 ∧ t.out = s.out) ∧
    ((∃ rest, tail = .silent :: rest) →
      finish cmd r' = .fault (.streamSilent { responses := s.responses, out := s.out, taken := N })) := by
  have key : r'.Short N tail := by
    cases r with
    | stopped g => cases hu
    | raised e t => exact h.2
    | aborted t => exact h.2
    | done a t =>
      rcases h with ⟨t', ⟨bs, n, a1, a2, a3, a4⟩, _⟩ | h
      · cases hu
        have : N < t.taken := hN
        omega
      · exact h.2
  obtain ⟨w, k1, ⟨k2, rfl⟩ | ⟨k2, rfl, k3⟩⟩ := key
  · obtain ⟨-, v, hv, hw⟩ := ht _ rfl
    refine ⟨fun h => absurd k2 h, fun _ => ?_⟩
    show Host.Outcome.fault (Fault.streamSilent w.seen) = _
    have e1 : w.responses = s.responses := (congrArg Observed.responses hw).trans hv.2.2.1
    have e2 : w.out = s.out := (congrArg Observed.out hw).trans hv.2.2.2.1
    rw [State.seen, e1, e2, k1]
  · exact ⟨fun _ => ⟨_, rfl, rfl, rfl, rfl, by show w.responses ++ _ = _; rw [ht.2.2.1]; rfl, k1, k3, ht.2.2.2.1⟩,
      fun h => absurd h k2⟩

end Sys2Proof.Machine
end

