-- ==== Sys2Proof/Laws/CutOut.lean ====
section
/-! SUPPORT. The encoding procedures on a byte stream that stops accepting (R61, R64, R69, R266): before that they go as on a
stream that accepts everything, and there they raise `E_IO`, or hang where the stream never answers. -/

namespace Sys2Proof.Machine

open Sys2Proof

/-- The byte stream of `t` accepts everything; `t'` is `t` with a stream that accepts only until `OUT` is `N` bytes long. -/
def SinkRel (N : Nat) (tail : List PutAnswer) (t t' : State) : Prop :=
  ∃ n, t.sink = [] ∧ t.out.length + n = N ∧ t' = t.setSink (List.replicate n .accepted ++ tail)

/-- The run failed or hung when `OUT` was `N` bytes long, the first of the bytes `o` (R61, R64, R266). -/
def Run.ShortOut {α : Type} (N : Nat) (tail : List PutAnswer) (o : List Byte) (r : Run α) : Prop :=
  N < o.length ∧ ∃ u : State, u.out <+: o ∧ u.out.length = N ∧
    ((∃ rest, tail = .failed :: rest ∧ r = .raised .io u ∧ u.sink = rest) ∨
      ∃ rest, tail = .silent :: rest ∧ r = .stopped (.streamSilent u.seen))

/-- What an encoding run `r` says of the run `r'` on the stream that stops accepting: it goes the same way where `r` writes no
more than is accepted, and fails or hangs where `r` writes more. -/
def Run.CutOut {α : Type} (N : Nat) (tail : List PutAnswer) (r r' : Run α) : Prop :=
  match r with
  | .done a t => (∃ t', SinkRel N tail t t' ∧ r' = .done a t') ∨ r'.ShortOut N tail t.out
  | .raised e t => (∃ t', SinkRel N tail t t' ∧ r' = .raised e t') ∨ r'.ShortOut N tail t.out
  | .aborted t => r'.ShortOut N tail t.out
  | .stopped _ => True

variable {α β : Type} {N : Nat} {tail : List PutAnswer}

/-- Nothing follows a run that failed or hung, and what the whole run writes begins with what its part wrote. -/
theorem Run.ShortOut.bind {o o' : List Byte} {r : Run α} (h : r.ShortOut N tail o) (ho : o <+: o')
    (f : α → State → Run β) : (r.bind f).ShortOut N tail o' := by
  obtain ⟨hN, u, hu, hl, hc⟩ := h
  refine ⟨lt_of_lt_of_le hN ho.length_le, u, hu.trans ho, hl, ?_⟩
  obtain ⟨rest, ht, rfl, hs⟩ | ⟨rest, ht, rfl⟩ := hc
  · exact .inl ⟨rest, ht, rfl, hs⟩
  · exact .inr ⟨rest, ht, rfl⟩

/-- `OUT` before an encoding procedure is the beginning of `OUT` after it. -/
theorem EncMoves.prefix {s t : State} (h : EncMoves s t) : s.out <+: t.out := by
  obtain ⟨bs, hb⟩ := h.2.2.2.2.1
  exact ⟨bs, hb.symm⟩

/-- One procedure after another. -/
theorem Run.CutOut.bind {r r' : Run α} {f f' : α → State → Run β} (h : r.CutOut N tail r')
    (hf : ∀ a t t', SinkRel N tail t t' → (f a t).CutOut N tail (f' a t'))
    (ht : ∀ a t, (f a t).EncTraced t) :
    (r.bind f).CutOut N tail (r'.bind f') := by
  cases r with
  | stopped g => trivial
  | aborted t => exact Run.ShortOut.bind h (List.prefix_refl _) f'
  | raised e t =>
    rcases h with ⟨t', h1, rfl⟩ | h
    · exact .inl ⟨t', h1, rfl⟩
    · exact .inr (h.bind (List.prefix_refl _) f')
  | done a t =>
    rcases h with ⟨t', h1, rfl⟩ | h
    · exact hf a t t' h1
    · have hm := ht a t
      rw [Run.bind_done]
      cases hr : f a t with
      | stopped g => trivial
      | aborted v => rw [hr] at hm; exact h.bind (EncMoves.prefix hm.1) f'
      | done b v => rw [hr] at hm; exact .inr (h.bind (EncMoves.prefix hm) f')
      | raised b v => rw [hr] at hm; exact .inr (h.bind (EncMoves.prefix hm) f')

theorem SinkRel.done {a : α} {t t' : State} (h : SinkRel N tail t t') :
    (Run.done a t).CutOut N tail (.done a t') := .inl ⟨t', h, rfl⟩

/-- An update that touches neither `OUT` nor the sink keeps the relation. -/
theorem SinkRel.upd {t t' : State} (h : SinkRel N tail t t') (f : State → State) (h1 : (f t).sink = t.sink)
    (h2 : (f t).out = t.out) (h3 : ∀ l, f (t.setSink l) = (f t).setSink l) : SinkRel N tail (f t) (f t') := by
  obtain ⟨n, a, b, rfl⟩ := h
  exact ⟨n, h1.trans a, by rw [h2]; exact b, h3 _⟩

theorem SinkRel.eq_setSink {t t' : State} (h : SinkRel N tail t t') : ∃ l, t' = t.setSink l := by
  obtain ⟨_, _, _, rfl⟩ := h; exact ⟨_, rfl⟩

variable (hn : (∃ rest, tail = .failed :: rest) ∨ ∃ rest, tail = .silent :: rest)
include hn

theorem putByte_cutOut (b : Byte) {t t' : State} (h : SinkRel N tail t t') :
    (putByte b t).CutOut N tail (putByte b t') := by
  obtain ⟨n, a, hl, rfl⟩ := h
  have e1 : putByte b t = .done () (t.putOut b []) := by
    unfold putByte; split <;> simp_all
  rw [e1]
  cases n with
  | zero =>
    refine .inr ⟨by simp; omega, ?_⟩
    have hp : t.out <+: (t.putOut b []).out := ⟨[b], rfl⟩
    rcases hn with ⟨rest, rfl⟩ | ⟨rest, rfl⟩
    · exact ⟨t.setSink rest, hp, hl, .inl ⟨rest, rfl, rfl, rfl⟩⟩
    · exact ⟨t, hp, hl, .inr ⟨rest, rfl, rfl⟩⟩
  | succ n =>
    exact .inl ⟨_, ⟨n, rfl, by simp; omega, rfl⟩, rfl⟩

theorem putRepeat_cutOut (b : Byte) (n : Nat) {t t' : State} (h : SinkRel N tail t t') :
    (putRepeat b n t).CutOut N tail (putRepeat b n t') := by
  induction n generalizing t t' with
  | zero => exact h.done
  | succ n ih => exact (putByte_cutOut hn b h).bind (fun _ _ _ hu => ih hu) fun _ u => putRepeat_traced b n u

theorem shiftOut_cutOut {t t' : State} (h : SinkRel N tail t t') : (shiftOut t).CutOut N tail (shiftOut t') := by
  obtain ⟨l, rfl⟩ := h.eq_setSink
  unfold shiftOut
  show Run.CutOut _ _ (if t.low.toNat % 2 ^ 32 < 0xFF000000 ∨ t.carry = true then _ else _)
    (if t.low.toNat % 2 ^ 32 < 0xFF000000 ∨ t.carry = true then _ else _)
  split
  · refine (putByte_cutOut hn _ h).bind (fun _ u u' hu => ?_)
      (fun _ u => (putRepeat_traced _ _ u).bind fun _ v => encMoves_coder rfl)
    refine (putRepeat_cutOut hn _ _ hu).bind (fun _ v v' hv => ?_) (fun _ v => encMoves_coder rfl)
    exact (hv.upd (·.setHeld (shiftedLow t) (topByte t) 0) rfl rfl fun _ => rfl).done
  · show Run.CutOut _ _ (if t.pend = 2 ^ t.par.pendBits - 1 then _ else _)
      (if t.pend = 2 ^ t.par.pendBits - 1 then _ else _)
    split
    · exact .inl ⟨_, h, rfl⟩
    · exact (h.upd (·.setHeld (shiftedLow t) t.cache (t.pend + 1)) rfl rfl fun _ => rfl).done

theorem shiftOuts_cutOut (n : Nat) {t t' : State} (h : SinkRel N tail t t') :
    (shiftOuts n t).CutOut N tail (shiftOuts n t') := by
  induction n generalizing t t' with
  | zero => exact h.done
  | succ n ih => exact (shiftOut_cutOut hn h).bind (fun _ _ _ hu => ih hu) fun _ u => shiftOuts_traced n u

theorem renormEncLoop_cutOut (k : Nat) {t t' : State} (h : SinkRel N tail t t') :
    (renormEncLoop k t).CutOut N tail (renormEncLoop k t') := by
  have hl : t'.len = t.len := by obtain ⟨l, rfl⟩ := h.eq_setSink; rfl
  induction k generalizing t t' with
  | zero =>
    unfold renormEncLoop
    rw [hl]
    split
    · trivial
    · exact h.done
  | succ k ih =>
    unfold renormEncLoop
    rw [hl]
    split
    · refine (shiftOut_cutOut hn h).bind (fun _ u u' hu => ?_)
        (fun _ u => (renormEncLoop_traced k _).weaken (encMoves_coder rfl))
      have hu' : u'.len = u.len := by obtain ⟨l, rfl⟩ := hu.eq_setSink; rfl
      rw [hu']
      exact ih (hu.upd (·.setLen (u.len <<< 8)) rfl rfl fun _ => rfl) rfl
    · exact h.done

theorem renormEnc_cutOut {t t' : State} (h : SinkRel N tail t t') : (renormEnc t).CutOut N tail (renormEnc t') :=
  renormEncLoop_cutOut hn 3 h

theorem encodeSymbol_cutOut (m sym : Nat) {t t' : State} (h : SinkRel N tail t t') :
    (encodeSymbol m sym t).CutOut N tail (encodeSymbol m sym t') := by
  obtain ⟨l, rfl⟩ := h.eq_setSink
  unfold encodeSymbol
  show Run.CutOut _ _ (if (t.smAt m).total = 0 then _ else _) (if (t.smAt m).total = 0 then _ else _)
  split
  · trivial
  · refine (renormEnc_cutOut hn (h.upd (·.setInterval _ _) rfl rfl fun _ => rfl)).bind (fun _ u u' hu => ?_)
      (fun _ u => encMoves_symUpdate m _ u)
    exact (hu.upd (symUpdate m _) rfl rfl fun _ => rfl).done

theorem encodeBit_cutOut (b : Nat) (bit : Bool) {t t' : State} (h : SinkRel N tail t t') :
    (encodeBit b bit t).CutOut N tail (encodeBit b bit t') := by
  obtain ⟨l, rfl⟩ := h.eq_setSink
  unfold encodeBit
  refine Run.CutOut.bind ?_ (fun _ u u' hu => (hu.upd (bitUpdate b _) rfl rfl fun _ => rfl).done)
    (fun _ u => encMoves_bitUpdate b _ u)
  cases bit <;> exact renormEnc_cutOut hn (h.upd (·.setInterval _ _) rfl rfl fun _ => rfl)

theorem encodeUniform_cutOut (k x : Nat) {t t' : State} (h : SinkRel N tail t t') :
    (encodeUniform k x t).CutOut N tail (encodeUniform k x t') := by
  obtain ⟨l, rfl⟩ := h.eq_setSink
  exact renormEnc_cutOut hn (h.upd (·.setInterval _ _) rfl rfl fun _ => rfl)

theorem encodeBits_cutOut (k x : Nat) {t t' : State} (h : SinkRel N tail t t') :
    (encodeBits k x t).CutOut N tail (encodeBits k x t') := by
  unfold encodeBits
  split
  · exact (encodeUniform_cutOut hn _ _ h).bind (fun _ _ _ hu => encodeUniform_cutOut hn _ _ hu)
      fun _ u => encodeUniform_traced _ _ u
  · exact encodeUniform_cutOut hn _ _ h

theorem encodeCorrector_cutOut (inst : IcInst) (corr : Int) (k : Nat) {t t' : State} (h : SinkRel N tail t t') :
    (encodeCorrector inst corr k t).CutOut N tail (encodeCorrector inst corr k t') := by
  unfold encodeCorrector
  split
  · split
    · exact encodeBit_cutOut hn _ _ h
    · exact encodeUniform_cutOut hn _ _ h
  · split
    · exact encodeSymbol_cutOut hn _ _ h
    · split
      · exact (encodeSymbol_cutOut hn _ _ h).bind (fun _ _ _ hu => encodeBits_cutOut hn _ _ hu)
          fun _ u => encodeBits_traced _ _ u
      · exact encodeBits_cutOut hn _ _ h

theorem compressCorrector_cutOut (i : Nat) (inst : IcInst) (c : Nat) (corr : Int) {t t' : State}
    (h : SinkRel N tail t t') :
    (compressCorrector i inst c corr t).CutOut N tail (compressCorrector i inst c corr t') :=
  have setK : ∀ u : State, EncMoves u (u.setIc i { inst with k := BitVec.ofNat 6 (magnitude corr) }) := fun u =>
    ⟨rfl, rfl, rfl, rfl, ⟨[], by simp⟩, ⟨0, rfl⟩, rfl, rfl, KeepsValid.refl u⟩
  (encodeSymbol_cutOut hn _ _ h).bind
    (fun _ _ _ hu => (encodeCorrector_cutOut hn _ _ _ hu).bind
      (fun _ _ _ hv => (hv.upd (·.setIc _ _) rfl rfl fun _ => rfl).done) fun _ u => setK u)
    fun _ u => (encodeCorrector_traced _ _ _ u).bind fun _ v => setK v

/-- The body of `ENC_DONE` (R160). -/
theorem encDone_cutOut {t t' : State} (h : SinkRel N tail t t') :
    ((shiftOuts Config.flushBytes t).bind fun _ u => .done (0 : Word) (u.setMode .idle)).CutOut N tail
    ((shiftOuts Config.flushBytes t').bind fun _ u => .done (0 : Word) (u.setMode .idle)) := by
  have hs := shiftOuts_cutOut hn Config.flushBytes h
  cases hr : shiftOuts Config.flushBytes t with
  | stopped g => trivial
  | aborted u => rw [hr] at hs; exact Run.ShortOut.bind hs (List.prefix_refl _) _
  | raised e u =>
    rw [hr] at hs
    rcases hs with ⟨u', hu, hx⟩ | hx
    · rw [hx]; exact .inl ⟨u', hu, rfl⟩
    · exact .inr (hx.bind (List.prefix_refl _) _)
  | done a u =>
    rw [hr] at hs
    rcases hs with ⟨u', hu, hx⟩ | hx
    · rw [hx]; exact (hu.upd (·.setMode .idle) rfl rfl fun _ => rfl).done
    · exact .inr (hx.bind (List.prefix_refl _) _)

omit hn in
theorem noResult_cutOut {r r' : Run Unit} (h : r.CutOut N tail r') : (noResult r).CutOut N tail (noResult r') :=
  h.bind (fun _ _ _ hu => hu.done) fun _ u => EncMoves.refl u

omit hn in
/-- A command that writes more than `N` bytes in all where everything is accepted takes `E_IO` where the stream stops there,
or hangs there, with exactly the first `N` bytes in `OUT`. -/
theorem finish_cutOut {cmd : Word} {s u : State} {r r' : Run Word} (h : r.CutOut N tail r')
    (hu : finish cmd r = .next u) (hN : N < u.out.length) (ht : r'.Traced s EncMoved EncMoved) :
    (∀ rest, tail = .failed :: rest → ∃ t : State, finish cmd r' = .next t ∧ t.mode = .fault ∧ t.cause = 5 ∧
      t.responses = s.responses ++ [⟨.eIo, 0⟩] ∧ t.out = u.out.take N ∧ t.sink = rest) ∧
    (∀ rest, tail = .silent :: rest →
      finish cmd r' = .fault (.streamSilent { responses := s.responses, out := u.out.take N, taken := s.taken })) := by
  have key : r'.ShortOut N tail u.out := by
    cases r with
    | stopped g => cases hu
    | aborted t => cases hu; exact h
    | raised e t =>
      cases hu
      rcases h with ⟨t', ⟨n, -, hl, -⟩, -⟩ | h
      · have : N < t.out.length := hN
        omega
      · exact h
    | done a t =>
      cases hu
      rcases h with ⟨t', ⟨n, -, hl, -⟩, -⟩ | h
      · have : N < t.out.length := hN
        omega
      · exact h
  obtain ⟨-, w, hw, hl, ⟨rest, rfl, rfl, hs⟩ | ⟨rest, rfl, rfl⟩⟩ := key
  · have ho : w.out = u.out.take N := by rw [← hl]; exact List.prefix_iff_eq_take.1 hw
    refine ⟨fun rest' h' => ⟨_, rfl, rfl, rfl, ?_, ho, ?_⟩, fun rest' h' => by cases h'⟩
    · show w.responses ++ _ = _
      rw [ht.2.2.1]; rfl
    · cases h'; exact hs
  · obtain ⟨-, v, hv, hx⟩ := ht _ rfl
    refine ⟨fun rest' h' => (by cases h'), fun rest' h' => ?_⟩
    show Host.Outcome.fault (Fault.streamSilent w.seen) = _
    have e1 : w.responses = s.responses := (congrArg Observed.responses hx).trans hv.2.2.1
    have e2 : w.taken = s.taken := (congrArg Observed.taken hx).trans hv.2.2.2.2.2.2.1
    have e3 : w.out = u.out.take N := by rw [← hl]; exact List.prefix_iff_eq_take.1 hw
    rw [State.seen, e1, e2, e3]

end Sys2Proof.Machine
end

