-- ==== Sys2Proof/Laws/Fields.lean ====
section
/-! SUPPORT. The fields of a `CMD` word as numbers, and the word back from its fields (R91). -/

namespace Sys2Proof

/-- A concatenation as a number. -/
theorem append_toNat {m n : Nat} (x : BitVec m) (y : BitVec n) : (x ++ y).toNat = x.toNat * 2 ^ n + y.toNat := by
  rw [BitVec.toNat_append, Nat.shiftLeft_eq, Nat.mul_comm, ← Nat.two_pow_add_eq_or_of_lt y.isLt]

/-- The `CMD` word as a number (R91). -/
theorem cmdWord_toNat (opc f1 : Byte) (f2 : Index) :
    (cmdWord opc f1 f2).toNat = opc.toNat * 2 ^ 24 + f1.toNat * 2 ^ 16 + f2.toNat := by
  show ((opc ++ f1) ++ f2 : BitVec (8 + 8 + 16)).toNat = _
  rw [append_toNat, append_toNat]
  ring

theorem Packet.opc_toNat (p : Packet) : p.opc.toNat = p.cmd.toNat / 2 ^ 24 := by
  have := p.cmd.isLt
  rw [Packet.opc, BitVec.extractLsb'_toNat, Nat.shiftRight_eq_div_pow]
  omega

theorem Packet.f1_toNat (p : Packet) : p.f1.toNat = p.cmd.toNat / 2 ^ 16 % 2 ^ 8 := by
  rw [Packet.f1, BitVec.extractLsb'_toNat, Nat.shiftRight_eq_div_pow]

theorem Packet.f2_toNat (p : Packet) : p.f2.toNat = p.cmd.toNat % 2 ^ 16 := by
  rw [Packet.f2, BitVec.extractLsb'_toNat, Nat.shiftRight_zero]

@[simp] theorem cmdWord_opc (opc f1 : Byte) (f2 : Index) (a b : Word) : (Packet.mk (cmdWord opc f1 f2) a b).opc = opc := by
  apply BitVec.eq_of_toNat_eq
  rw [Packet.opc_toNat, cmdWord_toNat]
  have := f1.isLt
  have := f2.isLt
  omega

@[simp] theorem cmdWord_f1 (opc f1 : Byte) (f2 : Index) (a b : Word) : (Packet.mk (cmdWord opc f1 f2) a b).f1 = f1 := by
  apply BitVec.eq_of_toNat_eq
  rw [Packet.f1_toNat, cmdWord_toNat]
  have := f1.isLt
  have := f2.isLt
  omega

@[simp] theorem cmdWord_f2 (opc f1 : Byte) (f2 : Index) (a b : Word) : (Packet.mk (cmdWord opc f1 f2) a b).f2 = f2 := by
  apply BitVec.eq_of_toNat_eq
  rw [Packet.f2_toNat, cmdWord_toNat]
  have := f2.isLt
  omega

/-- A `CMD` word is its three fields (R91). -/
theorem Packet.cmdWord_fields (p : Packet) : cmdWord p.opc p.f1 p.f2 = p.cmd := by
  apply BitVec.eq_of_toNat_eq
  rw [cmdWord_toNat, p.opc_toNat, p.f1_toNat, p.f2_toNat]
  omega

/-- A masked word, field by field (R95). -/
theorem cmdWord_and (a b a' b' : Byte) (c c' : Index) :
    cmdWord a b c &&& cmdWord a' b' c' = cmdWord (a &&& a') (b &&& b') (c &&& c') := by
  show ((a ++ b ++ c) &&& (a' ++ b' ++ c') : BitVec (8 + 8 + 16)) = ((a &&& a') ++ (b &&& b') ++ (c &&& c'))
  rw [BitVec.and_append, BitVec.and_append]

end Sys2Proof
end

