-- ==== Sys2Proof/Laws/Flush.lean ====
section
/-! SUPPORT. The five shift-outs of `ENC_DONE` (R160): the register they empty, and the number they leave in the stream. -/

namespace Sys2Proof.Machine

open Sys2Proof

theorem State.EncOk.carrySafe (s : State) (h : s.EncOk) : CarrySafe s s.len.toNat := ⟨h.2.1, h.2.2.1⟩

theorem CarrySafe.mono {s : State} {len : Nat} (h : CarrySafe s len) {l : Nat} (hl : l ≤ len) : CarrySafe s l :=
  ⟨by have := h.1; omega, fun hc => by have := h.2 hc; omega⟩

/-- One after another. -/
theorem shiftOuts_add (n m : Nat) (s : State) :
    shiftOuts (n + m) s = (shiftOuts n s).bind fun _ s' => shiftOuts m s' := by
  induction n generalizing s with
  | zero => simp [shiftOuts]
  | succ n ih => rw [show n + 1 + m = (n + m) + 1 by omega, shiftOuts, shiftOuts,
    Run.bind_assoc]; congr 1; funext a s'; exact ih s'

theorem shiftOut_low {s t : State} (h : shiftOut s = .done () t) : t.low.toNat = s.low.toNat % 2 ^ 24 * 2 ^ 8 := by
  rcases shiftOut_done h with ⟨_, rfl⟩ | ⟨_, _, rfl⟩ <;> exact shiftedLow_toNat s

/-- `LOW` after up to four shift-outs (R151). -/
theorem shiftOuts_low {n : Nat} {s t : State} (h : shiftOuts n s = .done () t) (hn : n ≤ 4) (h0 : n ≠ 0) :
    t.low.toNat = s.low.toNat % 2 ^ (32 - 8 * n) * 2 ^ (8 * n) := by
  induction n generalizing t with
  | zero => exact absurd rfl h0
  | succ n ih =>
    rw [shiftOuts_add n 1, Run.bind_eq_done] at h
    obtain ⟨_, u, h1, h2⟩ := h
    have h2 : shiftOut u = .done () t := by
      simp only [shiftOuts, Run.bind_eq_done] at h2
      obtain ⟨_, v, h2, h3⟩ := h2
      cases h3; exact h2
    rw [shiftOut_low h2]
    by_cases hz : n = 0
    · subst hz; simp only [shiftOuts, Run.done.injEq] at h1; rw [← h1.2]
    · rw [ih h1 (by omega) hz]
      obtain rfl | rfl | rfl : n = 1 ∨ n = 2 ∨ n = 3 := by omega
      all_goals norm_num
      all_goals omega

/-- Shift-outs multiply the code number by 256 each, whatever the length (R151). -/
theorem shiftOuts_code_unit {n : Nat} {s t : State} (h : shiftOuts n s = .done () t) (hc : CarrySafe s 1) :
    t.codeNumber = s.codeNumber * 256 ^ n ∧ CarrySafe t 1 := by
  induction n generalizing s with
  | zero => simp only [shiftOuts, Run.done.injEq, true_and] at h; subst h; simpa using hc
  | succ n ih =>
    rw [shiftOuts, Run.bind_eq_done] at h
    obtain ⟨_, u, h1, h2⟩ := h
    obtain ⟨a, b⟩ := shiftOut_code h1 hc (by omega) (by omega)
    obtain ⟨c, d⟩ := ih h2 (CarrySafe.mono b (by omega))
    exact ⟨by rw [c, a, pow_succ]; ring, d⟩

/-- Five shift-outs empty the registers and leave the code number in the stream (R160, R65). -/
theorem shiftOuts_flush {s t : State} (h : shiftOuts 5 s = .done () t) (hc : CarrySafe s 1) :
    ∃ bs : List Byte, bs.length = 5 + s.pend ∧ bytesValue (s.out ++ bs) = s.codeNumber ∧
     t = { s with low := 0, cache := 0, pend := 0, out := s.out ++ bs, sink := s.sink.drop bs.length } := by
  obtain ⟨hcode, _⟩ := shiftOuts_code_unit h hc
  obtain ⟨⟨bs, ho, hsk, hb⟩, hfr⟩ := shiftOuts_frame h
  rw [shiftOuts_add 4 1, Run.bind_eq_done] at h
  obtain ⟨_, u, hu, h⟩ := h
  have hul : u.low.toNat = 0 := by rw [shiftOuts_low hu (by omega) (by omega)]; simp; omega
  have h2 : shiftOut u = .done () t := by
    simp only [shiftOuts, Run.bind_eq_done] at h
    obtain ⟨_, v, h2, h3⟩ := h
    cases h3; exact h2
  have hrel : Releases u := .inl (by rw [hul]; norm_num)
  rcases shiftOut_done h2 with ⟨_, rfl⟩ | ⟨hn, _, _⟩
  · have e1 : u.released.pend = 0 := rfl
    have e2 : u.released.low = 0 := by
      apply BitVec.eq_of_toNat_eq; show (shiftedLow u).toNat = _; rw [shiftedLow_toNat, hul]; rfl
    have e3 : u.released.cache = 0 := by
      apply BitVec.eq_of_toNat_eq; show (topByte u).toNat = _; rw [topByte_toNat, hul]; rfl
    refine ⟨bs, by omega, ?_, ?_⟩
    · rw [← ho]
      simp only [State.codeNumber, State.heldValue, e1, e2, e3] at hcode ⊢
      have z1 : (0 : Byte).toNat = 0 := rfl
      have z2 : (0 : BitVec 33).toNat = 0 := rfl
      simp only [z1, z2, pow_zero] at hcode
      norm_num at hcode
      omega
    · rw [hfr, e1, e2, e3, ho, hsk]
  · exact absurd hrel hn

end Sys2Proof.Machine
end

