-- ==== Sys2Proof/Laws/Invariant.lean ====
section
/-! SUPPORT. What keeps the invariant: reset, fault entry, answers, and changes of the coder and of the register files. -/

namespace Sys2Proof.Machine

open Sys2Proof

/-! ### How a command ends -/

theorem resetBlock_inv {s : State} (hp : s.par.Ok) : (resetBlock s).Inv := by
  have h2 : 0 < 2 ^ s.par.pendBits := by positivity
  refine ⟨hp, ⟨by simp [resetBlock], by simp [resetBlock], by simp [resetBlock], h2⟩, ⟨fun _ => ⟨rfl, rfl⟩,
    fun h => absurd h (by simp [resetBlock])⟩, fun _ => ⟨?_, ?_, ?_⟩, fun h => absurd h (by simp [resetBlock]),
    fun h => absurd h (by simp [resetBlock])⟩
  · intro sl h; simp [resetBlock, State.freeSm] at h; obtain ⟨a, _, rfl⟩ := h; intro h'; cases h'
  · intro sl h; simp [resetBlock, State.freeBm] at h; obtain ⟨a, _, rfl⟩ := h; intro h'; cases h'
  · intro inst h; rw [List.eq_of_mem_replicate h]; rfl

theorem takeFault_inv {s : State} (hp : s.par.Ok) (e : Sticky) (cmd : Word) : (takeFault s e cmd).Inv := by
  have h2 : 0 < 2 ^ s.par.pendBits := by positivity
  refine ⟨hp, ⟨by simp [takeFault], by simp [takeFault], by simp [takeFault], Nat.mod_lt _ h2⟩,
    ⟨fun h => absurd rfl h, fun _ => ?_⟩, fun h => absurd rfl h, fun h => absurd h (by simp [takeFault]),
    fun h => absurd h (by simp [takeFault])⟩
  cases e
  · left; rfl
  · right; rfl

theorem respond_inv {s : State} (h : s.Inv) (e : Status) (v : Word) : (s.respond e v).Inv := h

/-- However a coding run ends, if its return keeps the invariant. -/
theorem finish_inv {cmd : Word} {r : Run Word} {t : State} {R} (h : r.Sat (fun _ t => t.Inv) (fun t => t.par.Ok) R)
    (hf : finish cmd r = .next t) : t.Inv := by
  cases r with
  | done a u => cases hf; exact h
  | raised e u => cases hf; exact takeFault_inv h _ _
  | aborted u => cases hf; exact resetBlock_inv h
  | stopped f => cases hf

theorem State.Around.parOk {s t : State} (hp : s.par.Ok) (h : s.Around t) : t.par.Ok := by rw [h.1]; exact hp

theorem guarded_inv {s t : State} {l : List Mode} {k : Out} (hi : s.Inv) (h : guarded s l k = .next t)
    (hk : s.mode ≠ .fault → s.mode ∈ l → k = .next t → t.Inv) : t.Inv := by
  unfold guarded at h
  split_ifs at h with h1 h2
  · cases h; exact respond_inv hi _ _
  · exact hk h1 h2 h
  · cases h; exact respond_inv hi _ _

theorem refuse_inv {s t : State} {e} (hi : s.Inv) (h : refuse s e = .next t) : t.Inv :=
    by cases h; exact respond_inv hi _ _

theorem answer_inv {s t : State} {v} (hi : s.Inv) (h : answer s v = .next t) : t.Inv :=
    by cases h; exact respond_inv hi _ _

/-! ### `PEND` keeps its width (R29) -/

theorem shiftOut_pend {s t : State} (h : shiftOut s = .done () t) (hp : s.pend < 2 ^ s.par.pendBits) :
    t.pend < 2 ^ t.par.pendBits := by
  have h2 : 0 < 2 ^ s.par.pendBits := by positivity
  rcases shiftOut_done h with ⟨_, rfl⟩ | ⟨_, hne, rfl⟩
  · exact h2
  · show s.pend + 1 < 2 ^ s.par.pendBits; omega

theorem shiftOuts_pend {n : Nat} {s t : State} (h : shiftOuts n s = .done () t) (hp : s.pend < 2 ^ s.par.pendBits) :
    t.pend < 2 ^ t.par.pendBits := by
  induction n generalizing s with
  | zero => simp only [shiftOuts, Run.done.injEq, true_and] at h; subst h; exact hp
  | succ n ih => rw [shiftOuts, Run.bind_eq_done] at h; obtain ⟨_, u, h1, h2⟩ := h; exact ih h2 (shiftOut_pend h1 hp)

theorem Narrowed.pend_lt {s t : State} {lo ln : Nat} (h : Narrowed s t lo ln) (hp : s.pend < 2 ^ s.par.pendBits) :
    t.pend < 2 ^ t.par.pendBits := by
  obtain ⟨⟨u, hu, rfl⟩, _⟩ := h
  exact shiftOuts_pend (t := u) hu hp

theorem CodesSymbol.pend_lt {s t : State} {m sym} (h : CodesSymbol s t m sym) (hp : s.pend < 2 ^ s.par.pendBits) :
    t.pend < 2 ^ t.par.pendBits := by
  obtain ⟨u, hu, rfl⟩ := h; exact Narrowed.pend_lt (t := u) hu hp

theorem CodesBit.pend_lt {s t : State} {b bit} (h : CodesBit s t b bit) (hp : s.pend < 2 ^ s.par.pendBits) :
    t.pend < 2 ^ t.par.pendBits := by
  obtain ⟨u, hu, rfl⟩ := h; exact Narrowed.pend_lt (t := u) hu hp

theorem CodesUniform.pend_lt {s t : State} {k x} (h : CodesUniform s t k x) (hp : s.pend < 2 ^ s.par.pendBits) :
    t.pend < 2 ^ t.par.pendBits := Narrowed.pend_lt h hp

theorem CodesBits.pend_lt {s t : State} {k x} (h : CodesBits s t k x) (hp : s.pend < 2 ^ s.par.pendBits) :
    t.pend < 2 ^ t.par.pendBits := by
  unfold CodesBits at h; split at h
  · exact Narrowed.pend_lt h hp
  · obtain ⟨u, a, b⟩ := h; exact Narrowed.pend_lt b (Narrowed.pend_lt a hp)

theorem CodesCorrector.pend_lt {s t : State} {inst corr k} (h : CodesCorrector s t inst corr k)
    (hp : s.pend < 2 ^ s.par.pendBits) : t.pend < 2 ^ t.par.pendBits := by
  unfold CodesCorrector at h
  split_ifs at h
  · exact CodesBit.pend_lt h hp
  · exact CodesUniform.pend_lt h hp
  · exact CodesSymbol.pend_lt h hp
  · obtain ⟨u, a, b⟩ := h; exact CodesBits.pend_lt b (CodesSymbol.pend_lt a hp)
  · exact CodesBits.pend_lt h hp

/-! ### Coding procedures and register files -/

/-- A coding procedure of the encoder. -/
theorem inv_of_encoded {s t : State} (hi : s.Inv) (hm : s.mode = .enc) (he : t.EncOk) (hp : Passed s t)
    (hpend : t.pend < 2 ^ t.par.pendBits) : t.Inv := by
  obtain ⟨⟨a1, a2, a3, a4, a5, a6, a7⟩, ⟨_, _, b3, b4, b5⟩, c⟩ := hp
  obtain ⟨i1, ⟨i2, i3, i4, i5⟩, ⟨i6, i7⟩, i8, i9, i10⟩ := hi
  refine ⟨by rw [a1]; exact i1, ⟨by rw [b4, a1]; exact i2, by rw [b5, a1]; exact i3, by rw [b3, a1]; exact i4,
    hpend⟩, ⟨fun h => by rw [a6, a7]; exact i6 (by rw [hm]; decide), fun h => ?_⟩, fun _ => c, fun _ => he,
    fun h => ?_⟩
  · rw [a5, hm] at h; cases h
  · rw [a5, hm] at h; cases h

/-- A coding procedure of the decoder. -/
theorem inv_of_decoded {s t : State} (hi : s.Inv) (hm : s.mode = .dec) (he : t.DecOk) (hp : Passed s t) : t.Inv := by
  obtain ⟨⟨a1, a2, a3, a4, a5, a6, a7⟩, ⟨_, _, b3, b4, b5⟩, c⟩ := hp
  obtain ⟨i1, ⟨i2, i3, i4, i5⟩, ⟨i6, i7⟩, i8, i9, i10⟩ := hi
  refine ⟨by rw [a1]; exact i1, ⟨by rw [b4, a1]; exact i2, by rw [b5, a1]; exact i3, by rw [b3, a1]; exact i4,
    by rw [he.2.2]; positivity⟩, ⟨fun h => by rw [a6, a7]; exact i6 (by rw [hm]; decide), fun h => ?_⟩, fun _ => c,
    fun h => ?_, fun _ => he⟩
  · rw [a5, hm] at h; cases h
  · rw [a5, hm] at h; cases h

/-- A change of the register files alone. -/
theorem inv_of_files {s t : State} (hi : s.Inv) (he : t = { s with sm := t.sm, bm := t.bm, ic := t.ic })
    (hl1 : t.sm.length = s.sm.length) (hl2 : t.bm.length = s.bm.length) (hl3 : t.ic.length = s.ic.length)
    (hf : s.mode ≠ .fault → t.FilesOk) : t.Inv := by
  obtain ⟨i1, ⟨i2, i3, i4, i5⟩, i6, i8, i9, i10⟩ := hi
  generalize t.sm = a, t.bm = b, t.ic = c at *
  subst he
  refine ⟨i1, ⟨hl1.trans i2, hl2.trans i3, hl3.trans i4, i5⟩, i6, hf, i9, i10⟩

theorem setIc_inv {s : State} {i : Nat} {x : IcInst} (hi : s.Inv) (hx : s.mode ≠ .fault → x.Ok s.par) :
    (s.setIc i x).Inv :=
  inv_of_files hi rfl rfl rfl (by simp) fun h => (hi.2.2.2.1 h).setIc (hx h)

theorem setSm_inv {s : State} {i : Nat} {x : SmSlot} (hi : s.Inv) (hx : s.mode ≠ .fault → x.Ok s.par) :
    (s.setSm i x).Inv :=
  inv_of_files hi rfl (by simp) rfl rfl fun h => (hi.2.2.2.1 h).setSm (hx h)

theorem setBm_inv {s : State} {i : Nat} {x : BmSlot} (hi : s.Inv) (hx : s.mode ≠ .fault → x.Ok s.par) :
    (s.setBm i x).Inv :=
  inv_of_files hi rfl rfl (by simp) rfl fun h => (hi.2.2.2.1 h).setBm (hx h)

/-- A ready instance with a remembered magnitude (R216, R217). -/
theorem IcInst.ready_ok {p : Params} {inst : IcInst} {k : Nat} (h : inst.Ok p) (hs : inst.st = .ready)
    (hk : k ≤ inst.cbits.toNat) : ({ inst with k := BitVec.ofNat 6 k } : IcInst).Ok p := by
  simp only [IcInst.Ok, hs] at h ⊢
  obtain ⟨a, b, c, d, e⟩ := h
  refine ⟨a, b, c, d, ?_⟩
  show (BitVec.ofNat 6 k).toNat ≤ inst.cbits.toNat
  rw [BitVec.toNat_ofNat]; exact le_trans (Nat.mod_le _ _) hk

/-- The bit count of a configured range (R211). -/
theorem rangeBits_bounds {r : Nat} (h0 : 2 ≤ r) (h1 : r ≤ 2 ^ 31) : 1 ≤ rangeBits r ∧ rangeBits r ≤ 31 := by
  have a := bitlen_le (a := r) (by omega)
  have b := bitlen_lt r
  unfold rangeBits
  have hb : 2 ≤ bitlen r := by
    by_contra hc
    have : 2 ^ bitlen r ≤ 2 ^ 1 := Nat.pow_le_pow_right (by norm_num) (by omega)
    omega
  have hc : bitlen r - 1 ≤ 31 := by
    by_contra hc
    have : 2 ^ 32 ≤ 2 ^ (bitlen r - 1) := Nat.pow_le_pow_right (by norm_num) (by omega)
    omega
  split_ifs with h
  · omega
  · have : bitlen r - 1 ≠ 31 := by
      intro e; rw [e] at a h; omega
    omega

/-- An instance as `IC_SETUP` leaves it (R211). -/
theorem IcInst.withSetup_ok {p : Params} {inst : IcInst} {c : Index} {bh : Byte} {b sl : Index} (h : inst.Ok p)
    (hs : inst.st ≠ .unconf)
    (h1 : 1 ≤ c.toNat) (h2 : bh.toNat ≤ p.bhMax) (h3 : b.toNat + c.toNat + min inst.corrector.cbits bh.toNat ≤ p.nsm)
    (h4 : 1 ≤ bh.toNat → sl.toNat < p.nbm) :
    (inst.withSetup c bh b sl).Ok p := by
  have hcfg : inst.ConfigOk := by
    unfold IcInst.Ok at h
    cases hst : inst.st <;> rw [hst] at h hs
    · exact absurd rfl hs
    all_goals exact h.1
  obtain ⟨c1, c2, c3, c4⟩ := hcfg
  have hb : inst.corrector.cbits ≤ 32 ∧ 1 ≤ inst.corrector.cbits := by
    unfold IcInst.corrector deriveCorrector
    split_ifs with r1 r2
    · have := rangeBits_bounds (r := inst.range.toNat) (by omega) c4; simp only; omega
    · simp only; omega
    · simp only; omega
  have hcb : (BitVec.ofNat 6 inst.corrector.cbits).toNat = inst.corrector.cbits := by
    rw [BitVec.toNat_ofNat]; apply Nat.mod_eq_of_lt; omega
  show (inst.withSetup c bh b sl).ConfigOk ∧ _ ∧ _ ∧ _ ∧ _
  refine ⟨⟨c1, c2, by simp [IcInst.withSetup], by simp [IcInst.withSetup]⟩, rfl, ?_, ⟨h1, h2, ?_, h4⟩, rfl⟩
  · simp only [IcInst.CorrectorOk, IcInst.withSetup]
    rw [hcb]
    refine ⟨hb.2, hb.1, ?_⟩
    have hint : ∀ x : Int, -2 ^ 31 ≤ x → x < 2 ^ 31 → (BitVec.ofInt 32 x).toInt = x := by
      intro x h1 h2; rw [BitVec.toInt_ofInt]; apply Int.bmod_eq_of_le <;> norm_num at * <;> omega
    unfold IcInst.corrector deriveCorrector
    split_ifs with r1 r2
    · simp only
      have e : (BitVec.ofNat 32 inst.range.toNat).toNat = inst.range.toNat := by simp
      rw [e, hint _ (by omega) (by omega), hint _ (by omega) (by omega)]
      exact ⟨fun h => absurd h r1, fun _ => ⟨by omega, c4, rfl, by omega, rfl⟩⟩
    · simp only
      have hpow : 2 ^ inst.bits.toNat ≤ 2 ^ 31 := Nat.pow_le_pow_right (by norm_num) (by omega)
      have hpow1 : 2 ^ 1 ≤ 2 ^ inst.bits.toNat := Nat.pow_le_pow_right (by norm_num) (by omega)
      have e : (BitVec.ofNat 32 (2 ^ inst.bits.toNat)).toNat = 2 ^ inst.bits.toNat := by
        rw [BitVec.toNat_ofNat]; apply Nat.mod_eq_of_lt; omega
      rw [e, hint _ (by omega) (by omega), hint _ (by omega) (by omega)]
      refine ⟨fun h => by omega, fun _ => ⟨by omega, hpow, rfl, by omega, ?_⟩⟩
      have hb2 : bitlen (2 ^ inst.bits.toNat) = inst.bits.toNat + 1 := by
        unfold bitlen; rw [if_neg (by omega), Nat.log2_two_pow]
      unfold rangeBits; rw [hb2]; simp
    · simp only
      refine ⟨fun _ => ⟨trivial, ?_, ?_⟩, fun h => absurd rfl h⟩
      · exact hint _ (by norm_num) (by norm_num)
      · exact hint _ (by norm_num) (by norm_num)
  · show b.toNat + c.toNat + min (BitVec.ofNat 6 inst.corrector.cbits).toNat bh.toNat ≤ p.nsm
    rw [hcb]; exact h3

theorem initMagModels_inv (inst : IcInst) (n : Nat) {s : State} (hi : s.Inv) (hc : inst.cbits.toNat ≤ 32) :
    (initMagModels inst n s).Inv := by
  induction n with
  | zero => exact hi
  | succ n ih =>
    exact setSm_inv ih fun _ => SmSlot.fresh_ok ih.1 (by omega) (by have := ih.1.2.2.2.1; omega)

theorem initValModels_inv (inst : IcInst) (n : Nat) {s : State} (hi : s.Inv) (hn : n ≤ s.par.bhMax) :
    (initValModels inst n s).Inv := by
  induction n with
  | zero => exact hi
  | succ n ih =>
    have hpar : (initValModels inst n s).par = s.par := by rw [(initValModels_files inst n s).1]
    exact setSm_inv (ih (by omega)) fun _ => SmSlot.fresh_ok (ih (by omega)).1 Nat.one_le_two_pow
      (by rw [hpar, hi.1.2.2.2.1.2]; exact Nat.pow_le_pow_right (by norm_num) hn)

end Sys2Proof.Machine
end

