-- ==== Sys2Proof/Laws/Mirror.lean ====
section
/-! SUPPORT. Why the decoder finds what the encoder coded (R190): intervals nest, and a decoder that follows the encoder in a
code stream narrows its window by the same part. -/

namespace Sys2Proof.Machine

open Sys2Proof

/-! ### Nesting and following -/

/-- A code value inside the later interval is inside the earlier one, with one byte more for each renormalisation step. -/
def Nests (e e' : State) : Prop :=
  ∃ r, e'.out.length + e'.pend = e.out.length + e.pend + r ∧ ∀ n x, Inside e' n x → Inside e (n + r) x

/-- Whatever decoder follows `e` in a stream whose code value is inside `e'`, the decoding `T` takes it to one that follows
`e'` with the same models. -/
def Mirrors (e e' : State) (T : State → State → Prop) : Prop :=
  ∀ (d : State) (fut : List Byte) (rest : List GetAnswer) (x n : Nat), d.DecOk → e.SameModels d →
    Tracks e d fut rest x → Inside e' n x →
    e'.out.length + e'.pend + n = e.out.length + e.pend + fut.length →
    ∃ d', T d d' ∧ e'.SameModels d' ∧ Tracks e' d' (fut.drop (fut.length - n)) rest x ∧
      d'.value.toNat < d'.len.toNat ∧ d'.taken = d.taken + (fut.length - n) ∧ d'.DecOk ∧ n ≤ fut.length

theorem Nests.trans {e u e' : State} (h : Nests e u) (h' : Nests u e') : Nests e e' := by
  obtain ⟨r, a, b⟩ := h; obtain ⟨r', a', b'⟩ := h'
  exact ⟨r' + r, by omega, fun n x hx => by have := b _ _ (b' _ _ hx); rwa [← Nat.add_assoc]⟩

/-- One coding procedure after another. -/
theorem Mirrors.comp {e u e' : State} {T T'} (h : Mirrors e u T) (h' : Mirrors u e' T') (hn : Nests u e') :
    Mirrors e e' (fun d d' => ∃ w, T d w ∧ T' w d') := by
  intro d fut rest x n hd hm ht hi hl
  obtain ⟨r, a, b⟩ := hn
  obtain ⟨w, w1, w2, w3, w4, w5, w6, w7⟩ := h d fut rest x (n + r) hd hm ht (b _ _ hi) (by omega)
  obtain ⟨v, v1, v2, v3, v4, v5, v6, v7⟩ := h' w _ rest x n w6 w2 w3 hi (by rw [List.length_drop]; omega)
  rw [List.length_drop] at v3 v5 v7
  refine ⟨v, ⟨w, w1, v1⟩, v2, ?_, v4, by omega, v6, by omega⟩
  rw [List.drop_drop] at v3
  convert v3 using 2
  omega

theorem Mirrors.mono {e e' : State} {T T' : State → State → Prop} (h : Mirrors e e' T) (hT : ∀ d d', d.DecOk →
    e.SameModels d → T d d' → T' d d') : Mirrors e e' T' := by
  intro d fut rest x n hd hm ht hi hl
  obtain ⟨w, w1, w2⟩ := h d fut rest x n hd hm ht hi hl
  exact ⟨w, hT _ _ hd hm w1, w2⟩

/-! ### One narrowing -/

/-- A code value inside the interval after a narrowing is inside the narrowed part. -/
theorem Narrowed.refine {e u : State} {lo ln n x : Nat} (hn : Narrowed e u lo ln) (hi : Inside u n x) :
    (e.heldValue * 2 ^ 32 + lo) * 256 ^ (n + renormSteps ln) ≤ x ∧
      x < (e.heldValue * 2 ^ 32 + lo + ln) * 256 ^ (n + renormSteps ln) := by
  obtain ⟨_, h1, _, h2, _⟩ := hn
  obtain ⟨a, b⟩ := hi
  rw [h2] at a
  rw [h1, h2] at b
  constructor
  · calc _ = _ := by rw [Nat.pow_add]; ring
      _ ≤ _ := a
  · calc _ < _ := b
      _ = _ := by rw [Nat.pow_add]; ring

theorem Narrowed.nests {e u : State} {lo ln : Nat} (hp : Part e lo ln) (hn : Narrowed e u lo ln) : Nests e u := by
  obtain ⟨bs, b1, b2, b3⟩ := hn.2.2.2.2.1
  refine ⟨renormSteps ln, by rw [b1, List.length_append]; omega, fun n x hi => ?_⟩
  obtain ⟨a, b⟩ := hn.refine hi
  obtain ⟨p1, p2, p3⟩ := hp
  unfold Inside State.codeNumber
  exact ⟨le_trans (Nat.mul_le_mul_right _ (by omega)) a, lt_of_lt_of_le b (Nat.mul_le_mul_right _ (by omega))⟩

/-- The decoder's window is in the part the encoder chose, and after moving it the decoder follows again (R181). -/
theorem Narrowed.follow {e u d : State} {lo ln n x : Nat} {fut : List Byte} {rest : List GetAnswer}
    (hp : Part e lo ln) (hn : Narrowed e u lo ln)
    (ht : Tracks e d fut rest x) (hi : Inside u n x) (hl : n + renormSteps ln = fut.length) :
    lo - e.low.toNat ≤ d.value.toNat ∧ d.value.toNat - (lo - e.low.toNat) < ln ∧
    d.source = (fut.take (renormSteps ln)).map GetAnswer.byte ++ ((fut.drop (renormSteps ln)).map GetAnswer.byte ++ rest) ∧
    (fut.take (renormSteps ln)).length = renormSteps ln ∧
    Tracks u (d.windowed (d.value.toNat - (lo - e.low.toNat)) ln (fut.take (renormSteps ln))
      ((fut.drop (renormSteps ln)).map GetAnswer.byte ++ rest)) (fut.drop (renormSteps ln)) rest x ∧
    (d.windowed (d.value.toNat - (lo - e.low.toNat)) ln (fut.take (renormSteps ln))
      ((fut.drop (renormSteps ln)).map GetAnswer.byte ++ rest)).value.toNat < u.len.toNat := by
  obtain ⟨t1, t2, t3⟩ := ht
  obtain ⟨a, b⟩ := hn.refine hi
  have hln := hp.len_lt
  obtain ⟨p1, p2, p3⟩ := hp
  have hF := bytesValue_lt fut
  rw [hl] at a b
  set P := 256 ^ fut.length with hP
  have hPpos : 0 < P := by rw [hP]; positivity
  have hV1 : e.heldValue * 2 ^ 32 + lo ≤ e.codeNumber + d.value.toNat := by
    by_contra hx
    have : e.codeNumber + d.value.toNat + 1 ≤ e.heldValue * 2 ^ 32 + lo := by omega
    have := Nat.mul_le_mul_right P this
    rw [Nat.add_mul, one_mul] at this
    omega
  have hV2 : e.codeNumber + d.value.toNat < e.heldValue * 2 ^ 32 + lo + ln := by
    by_contra hx
    have := Nat.mul_le_mul_right P (not_lt.1 hx)
    omega
  unfold State.codeNumber at hV1 hV2
  set r := renormSteps ln with hr
  have htake : (fut.take r).length = r := by rw [List.length_take]; omega
  have hsrc : d.source = (fut.take r).map GetAnswer.byte ++ ((fut.drop r).map GetAnswer.byte ++ rest) := by
    rw [t1, ← List.append_assoc, ← List.map_append, List.take_append_drop]
  have hsp := renormSteps_spec p3 hln
  have hbv := bytesValue_lt (fut.take r)
  rw [htake] at hbv
  have hw : (d.value.toNat - (lo - e.low.toNat)) * 256 ^ r + bytesValue (fut.take r) < ln * 256 ^ r := by
    have h1 : d.value.toNat - (lo - e.low.toNat) + 1 ≤ ln := by omega
    have := Nat.mul_le_mul_right (256 ^ r) h1
    rw [Nat.add_mul, one_mul] at this
    omega
  have hval : (d.windowed (d.value.toNat - (lo - e.low.toNat)) ln (fut.take r)
      ((fut.drop r).map GetAnswer.byte ++ rest)).value.toNat =
      (d.value.toNat - (lo - e.low.toNat)) * 256 ^ r + bytesValue (fut.take r) := by
    simp only [State.windowed, htake, BitVec.toNat_ofNat]
    exact Nat.mod_eq_of_lt (lt_trans hw hsp.2)
  refine ⟨by omega, by omega, hsrc, htake, ⟨rfl, ?_, ?_⟩, ?_⟩
  · apply BitVec.eq_of_toNat_eq
    rw [hn.2.1]
    simp only [State.windowed, htake, BitVec.toNat_ofNat]
    exact Nat.mod_eq_of_lt hsp.2
  · rw [hval, t3, hn.2.2.2.1]
    have hd : (fut.drop r).length = fut.length - r := List.length_drop
    have hsplit : bytesValue fut = bytesValue (fut.take r) * 256 ^ (fut.drop r).length + bytesValue (fut.drop r) := by
      rw [← bytesValue_append, List.take_append_drop]
    have hPs : P = 256 ^ r * 256 ^ (fut.drop r).length := by rw [hP, hd, ← Nat.pow_add]; congr 1; omega
    rw [hsplit, hPs]
    obtain ⟨V', hV'⟩ : ∃ V', d.value.toNat + e.low.toNat = lo + V' := ⟨d.value.toNat + e.low.toNat - lo, by omega⟩
    have e1 : d.value.toNat - (lo - e.low.toNat) = V' := by omega
    have e2 : e.codeNumber + d.value.toNat = e.heldValue * 2 ^ 32 + lo + V' := by unfold State.codeNumber; omega
    rw [e1, e2]
    ring
  · rw [hval, hn.2.1]; exact hw

theorem Narrowed.sameModels {e u d : State} {lo ln} (hn : Narrowed e u lo ln) (h : e.SameModels d) (v l : Nat)
    (bs : List Byte) (rest : List GetAnswer) :
    u.SameModels (d.windowed v l bs rest) := by
  obtain ⟨a, b, c, f⟩ := h
  obtain ⟨h1, h2, h3, _⟩ := hn.files
  exact ⟨a.trans hn.around.1.symm, b.trans h1.symm, c.trans h2.symm, f.trans h3.symm⟩

/-- R127: the models adapt alike. -/
theorem symUpdate_sameModels {e d : State} (m sym : Nat) (h : e.SameModels d) :
    (symUpdate m sym e).SameModels (symUpdate m sym d) := by
  obtain ⟨a, b, c, f⟩ := h
  refine ⟨a, ?_, c, f⟩
  simp only [symUpdate, State.setSm, State.smAt, a, b]

theorem bitUpdate_sameModels {e d : State} (b : Nat) (bit : Bool) (h : e.SameModels d) :
    (bitUpdate b bit e).SameModels (bitUpdate b bit d) := by
  obtain ⟨a, b, c, f⟩ := h
  refine ⟨a, b, ?_, f⟩
  simp only [bitUpdate, State.setBm, State.bmAt, a, c]

/-- A narrowing and the model update after it, on both sides. -/
theorem mirrors_of_narrowed {e u : State} {lo ln : Nat} (hp : Part e lo ln) (hn : Narrowed e u lo ln)
    (hue : u.EncOk) (upd : State → State)
    (hupd : ∀ s : State, (upd s).len = s.len ∧ (upd s).value = s.value ∧ (upd s).source = s.source ∧
      (upd s).taken = s.taken ∧ (upd s).low = s.low ∧ (upd s).pend = s.pend ∧ (upd s).cache = s.cache ∧
      (upd s).out = s.out)
    (hs : ∀ a b : State, a.SameModels b → (upd a).SameModels (upd b)) {T : State → State → Prop}
    (hT : ∀ (d : State) (bs : List Byte) (rest : List GetAnswer), d.DecOk → e.SameModels d → d.len = e.len →
      lo - e.low.toNat ≤ d.value.toNat → d.value.toNat - (lo - e.low.toNat) < ln →
      d.source = bs.map GetAnswer.byte ++ rest →
      bs.length = renormSteps ln → T d (upd (d.windowed (d.value.toNat - (lo - e.low.toNat)) ln bs rest))) :
    Mirrors e (upd u) T := by
  intro d fut rest x n hd hm ht hi hl
  obtain ⟨b1, b2, b3, b4, b5, b6, b7, b8⟩ := hupd u
  have hi' : Inside u n x :=
    by unfold Inside State.codeNumber State.heldValue at *; rw [b1, b5, b6, b7, b8] at hi; exact hi
  obtain ⟨bs, c1, c2, c3⟩ := hn.2.2.2.2.1
  rw [b6, b8, c1, List.length_append] at hl
  have hl' : n + renormSteps ln = fut.length := by omega
  obtain ⟨f1, f2, f3, f4, f5, f6⟩ := Narrowed.follow hp hn ht hi' hl'
  have er : fut.length - n = renormSteps ln := by omega
  set w := d.windowed (d.value.toNat - (lo - e.low.toNat)) ln (fut.take (renormSteps ln))
    ((fut.drop (renormSteps ln)).map GetAnswer.byte ++ rest) with hw
  obtain ⟨k1, k2, k3, k4, k5, k6, k7, k8⟩ := hupd w
  have hlen : w.len = u.len := f5.2.1
  refine ⟨upd w, hT d _ _ hd hm ht.2.1 f1 f2 f3 f4, hs _ _ (Narrowed.sameModels hn hm _ _ _ _), ?_, ?_, ?_, ?_,
    by omega⟩
  · rw [er]
    unfold Tracks State.codeNumber State.heldValue at *
    rw [k1, k2, k3, b1, b5, b6, b7, b8]; exact f5
  · rw [k1, k2, hlen]; exact f6
  · rw [k4, er]; show d.taken + _ = _; rw [f4]
  · unfold State.DecOk; rw [k1, k5, k6, hlen]; exact ⟨hue.1, hd.2⟩

/-- Nesting looks at the coder registers and the stream alone. -/
theorem Nests.of_coder {e u v : State} (h : Nests e u) (h1 : v.len = u.len) (h2 : v.low = u.low)
    (h3 : v.pend = u.pend) (h4 : v.cache = u.cache) (h5 : v.out = u.out) : Nests e v := by
  obtain ⟨r, a, b⟩ := h
  refine ⟨r, by rw [h3, h5]; exact a, fun n x hi => b n x ?_⟩
  unfold Inside State.codeNumber State.heldValue at *; rw [h1, h2, h3, h4, h5] at hi; exact hi

/-! ### The coding procedures -/

/-- A symbol (R153, R182). -/
theorem CodesSymbol.mirrors {e e' : State} {m sym : Nat} (he : e.EncOk) (hs : SymOk e m sym)
    (hc : CodesSymbol e e' m sym) (he' : e'.EncOk) :
    Nests e e' ∧ Mirrors e e' (fun d d' => TakesSymbol d d' m sym) := by
  obtain ⟨u, hn, rfl⟩ := hc
  have hp := (hs.part he.1).1
  refine ⟨Nests.of_coder (hn.nests hp) rfl rfl rfl rfl rfl, mirrors_of_narrowed hp hn he' (symUpdate m sym)
    (fun s => ⟨rfl, rfl, rfl, rfl, rfl, rfl, rfl, rfl⟩) (fun a b h => symUpdate_sameModels m sym h) ?_⟩
  intro d bs rest hd hm hlen h1 h2 hsrc hb
  have hsm : d.smAt m = e.smAt m := by simp [State.smAt, hm.2.1]
  have hun := unit_ge hs.1 hs.2.1 hs.2.2.1 he.1
  set un := e.len.toNat / (e.smAt m).total with hun'
  have hun0 : 0 < un := by omega
  obtain ⟨hn1, hn2, hn3, hn4, hn5⟩ := hs.2.1 hs.2.2.1
  have hcum : (e.smAt m).cum (sym + 1) = (e.smAt m).cum sym + (e.smAt m).count sym := SmSlot.cum_succ _ _
  have hcl : (e.smAt m).cum (sym + 1) ≤ (e.smAt m).total := SmSlot.cum_mono _ hs.2.2.2
  have hoff : e.low.toNat + un * (e.smAt m).cum sym - e.low.toNat = un * (e.smAt m).cum sym := by omega
  rw [hoff] at h1 h2 ⊢
  have g1 : (e.smAt m).cum sym ≤ d.value.toNat / un := by rw [Nat.le_div_iff_mul_le hun0, Nat.mul_comm]; exact h1
  have g2 : d.value.toNat / un < (e.smAt m).cum (sym + 1) := by
    rw [Nat.div_lt_iff_lt_mul hun0, hcum, Nat.mul_comm, Nat.mul_add]; omega
  unfold TakesSymbol
  rw [hsm, hlen, ← hun']
  refine ⟨bs, rest, hsrc, hb, hs.2.2.2, ?_, ?_, rfl⟩
  · rw [Nat.le_min]; omega
  · rw [Nat.min_eq_left (by omega)]; exact g2

/-- A bit (R155, R184). -/
theorem CodesBit.mirrors {e e' : State} {b : Nat} {bit : Bool} (he : e.EncOk) (hs : BitOk e b)
    (hc : CodesBit e e' b bit) (he' : e'.EncOk) :
    Nests e e' ∧ Mirrors e e' (fun d d' => TakesBit d d' b bit) := by
  obtain ⟨u, hn, rfl⟩ := hc
  have hp := (hs.part bit he.1).1
  refine ⟨Nests.of_coder (hn.nests hp) rfl rfl rfl rfl rfl, mirrors_of_narrowed hp hn he' (bitUpdate b bit)
    (fun s => ⟨rfl, rfl, rfl, rfl, rfl, rfl, rfl, rfl⟩) (fun a c h => bitUpdate_sameModels b bit h) ?_⟩
  intro d bs rest hd hm hlen h1 h2 hsrc hb
  have hz : zeroPart d b = zeroPart e b := by unfold zeroPart State.bmAt; rw [hlen, hm.2.2.1]
  unfold TakesBit
  rw [hz, hlen]
  cases bit
  · simp only [Bool.false_eq_true, if_false, Nat.sub_self, Nat.sub_zero] at *
    refine ⟨?_, bs, rest, hsrc, hb, rfl⟩
    symm; rw [decide_eq_false_iff_not]; omega
  · simp only [if_true, Nat.add_sub_cancel_left] at *
    refine ⟨?_, bs, rest, hsrc, hb, rfl⟩
    symm; rw [decide_eq_true_iff]; omega

/-- A uniform symbol (R157, R186). -/
theorem CodesUniform.mirrors {e e' : State} {k x : Nat} (he : e.EncOk) (hk : k ≤ 19) (hx : x < 2 ^ k)
    (hc : CodesUniform e e' k x) (he' : e'.EncOk) :
    Nests e e' ∧ Mirrors e e' (fun d d' => TakesUniform d d' k x) := by
  have hn : Narrowed _ _ _ _ := hc
  obtain ⟨hp, hu⟩ := uniform_part hk hx he.1
  refine ⟨hn.nests hp, mirrors_of_narrowed hp hn he' id (fun s => ⟨rfl, rfl, rfl, rfl, rfl, rfl, rfl, rfl⟩)
    (fun a c h => h) ?_⟩
  intro d bs rest hd hm hlen h1 h2 hsrc hb
  unfold TakesUniform
  rw [hlen]
  have hoff : e.low.toNat + e.len.toNat / 2 ^ k * x - e.low.toNat = e.len.toNat / 2 ^ k * x := by omega
  rw [hoff] at h1 h2 ⊢
  have hq : d.value.toNat / (e.len.toNat / 2 ^ k) = x := by
    rw [Nat.div_eq_iff (by omega)]
    constructor
    · rw [Nat.mul_comm]; exact h1
    · rw [Nat.mul_comm]; omega
  refine ⟨?_, bs, rest, hsrc, hb, rfl⟩
  rw [hq, Nat.min_eq_left (by omega)]

theorem CodesSymbol.encOk {e e' : State} {m sym : Nat} (he : e.EncOk) (hs : SymOk e m sym)
    (hc : CodesSymbol e e' m sym) : e'.EncOk := by
  have := encodeSymbol_sat he hs
  rw [hc.run he hs] at this
  exact this.2

theorem CodesBit.encOk {e e' : State} {b : Nat} {bit : Bool} (he : e.EncOk) (hs : BitOk e b)
    (hc : CodesBit e e' b bit) : e'.EncOk := by
  have := encodeBit_sat bit he hs
  rw [hc.run he hs] at this
  exact this.2

theorem CodesBits.encOk {e e' : State} {k x : Nat} (he : e.EncOk) (hk : k ≤ 32) (hx : x < 2 ^ k)
    (hc : CodesBits e e' k x) : e'.EncOk := by
  have := encodeBits_sat he hk hx
  rw [hc.run he hk hx] at this
  exact this.2

/-- A raw field (R158, R187). -/
theorem CodesBits.mirrors {e e' : State} {k x : Nat} (he : e.EncOk) (hk : k ≤ 32) (hx : x < 2 ^ k)
    (hc : CodesBits e e' k x) :
    Nests e e' ∧ Mirrors e e' (fun d d' => TakesBits d d' k x) := by
  unfold CodesBits at hc
  unfold TakesBits
  by_cases h : k ≤ 19
  · rw [if_pos h] at hc
    simp only [if_pos h]
    exact CodesUniform.mirrors he h hx hc (hc.encOk he h hx)
  · rw [if_neg h] at hc
    simp only [if_neg h]
    obtain ⟨u, h1, h2⟩ := hc
    have hm : x % 2 ^ 16 < 2 ^ 16 := Nat.mod_lt _ (by positivity)
    have hu := h1.encOk he (by decide) hm
    have hh := high_lt hx h
    obtain ⟨a1, a2⟩ := CodesUniform.mirrors he (by decide) hm h1 hu
    obtain ⟨b1, b2⟩ := CodesUniform.mirrors hu (by omega) hh h2 (h2.encOk hu (by omega) hh)
    refine ⟨a1.trans b1, (a2.comp b2 b1).mono ?_⟩
    rintro d d' _ _ ⟨w, w1, w2⟩
    exact ⟨w, _, _, w1, w2, by have := Nat.div_add_mod x (2 ^ 16); omega⟩

/-- A corrector of known magnitude (R216, R217). -/
theorem CodesCorrector.mirrors {e e' : State} {inst : IcInst} {corr : Int} {k : Nat} (he : e.EncOk)
    (h : IcUsable e inst)
    (hm : magnitude corr = k) (hk : k ≤ inst.cbits.toNat) (hc : CodesCorrector e e' inst corr k) :
    Nests e e' ∧ Mirrors e e' (fun d d' => TakesCorrector d d' inst k corr) := by
  have hcb := h.corrector.2.1
  unfold CodesCorrector at hc
  unfold TakesCorrector
  by_cases h0 : k = 0
  · simp only [if_pos h0] at hc ⊢
    have h01 := magnitude_eq_zero.1 (hm.trans h0)
    by_cases hb : 1 ≤ inst.bh.toNat
    · simp only [if_pos hb] at hc ⊢
      have hbo : BitOk e inst.bmslot.toNat := ⟨h.1, h.2.1.bmAt _, h.bit hb⟩
      obtain ⟨a, b⟩ := CodesBit.mirrors he hbo hc (CodesBit.encOk he hbo hc)
      refine ⟨a, b.mono ?_⟩
      intro d d' _ _ ht
      refine ⟨_, ?_, ht⟩
      rcases h01 with rfl | rfl <;> simp
    · simp only [if_neg hb] at hc ⊢
      have hx : corr.toNat < 2 ^ 1 := by rcases h01 with rfl | rfl <;> decide
      obtain ⟨a, b⟩ := CodesUniform.mirrors he (by decide) hx hc (hc.encOk he (by decide) hx)
      refine ⟨a, b.mono ?_⟩
      intro d d' _ _ ht
      refine ⟨_, ?_, ht⟩
      rcases h01 with rfl | rfl <;> simp
  · simp only [if_neg h0] at hc ⊢
    have ht := translate_lt hm h0
    have hun := untranslate_eq hm h0
    suffices hs : Nests e e' ∧ Mirrors e e' (fun d d' => TakesPosition d d' inst k (Machine.translate corr k)) by
      refine ⟨hs.1, hs.2.mono ?_⟩
      intro d d' _ _ hx
      exact ⟨_, hun.symm, hx⟩
    unfold TakesPosition
    by_cases hkb : k ≤ inst.bh.toNat
    · simp only [if_pos hkb] at hc ⊢
      have hv := h.val (k := k) (by omega) (by unfold IcInst.nv; omega)
      have hso : SymOk e (inst.valSlot k) (Machine.translate corr k) := ⟨h.1, h.2.1.smAt _, hv.1,
        by rw [hv.2]; exact ht⟩
      exact CodesSymbol.mirrors he hso hc (CodesSymbol.encOk he hso hc)
    · simp only [if_neg hkb] at hc ⊢
      by_cases hb : 1 ≤ inst.bh.toNat
      · simp only [if_pos hb] at hc ⊢
        have hv := h.val (k := inst.bh.toNat) hb (by unfold IcInst.nv; omega)
        have hhi : Machine.translate corr k / 2 ^ (k - inst.bh.toNat) < 2 ^ inst.bh.toNat := by
          rw [Nat.div_lt_iff_lt_mul (by positivity), ← Nat.pow_add]
          rwa [show inst.bh.toNat + (k - inst.bh.toNat) = k by omega]
        have hs : SymOk e (inst.valSlot inst.bh.toNat) (Machine.translate corr k / 2 ^ (k - inst.bh.toNat)) :=
          ⟨h.1, h.2.1.smAt _, hv.1, by rw [hv.2]; exact hhi⟩
        obtain ⟨u, hu, hb'⟩ := hc
        have hok := CodesSymbol.encOk he hs hu
        obtain ⟨a1, a2⟩ := CodesSymbol.mirrors he hs hu hok
        obtain ⟨b1, b2⟩ := CodesBits.mirrors hok (by omega) (Nat.mod_lt _ (by positivity)) hb'
        refine ⟨a1.trans b1, (a2.comp b2 b1).mono ?_⟩
        rintro d d' _ _ ⟨w, w1, w2⟩
        have := Nat.div_add_mod (Machine.translate corr k) (2 ^ (k - inst.bh.toNat))
        rw [Nat.mul_comm] at this
        exact ⟨w, _, _, w1, w2, this.symm⟩
      · simp only [if_neg hb] at hc ⊢
        exact CodesBits.mirrors he (by omega) ht hc

/-! ### Updates of the register files -/

/-- An update that touches the register files alone and takes equal files to equal files. -/
def FilesUpdate (upd : State → State) : Prop :=
  (∀ s : State, upd s = { s with sm := (upd s).sm, bm := (upd s).bm, ic := (upd s).ic }) ∧
  ∀ a b : State, a.SameModels b → (upd a).SameModels (upd b)

theorem filesUpdate_id : FilesUpdate id := ⟨fun _ => rfl, fun _ _ h => h⟩

theorem filesUpdate_setSm (m : Nat) (sl : SmSlot) : FilesUpdate (·.setSm m sl) :=
  ⟨fun s => rfl, fun a b ⟨h1, h2, h3, h4⟩ => ⟨h1, by simp [State.setSm, h2], h3, h4⟩⟩

theorem filesUpdate_setBm (m : Nat) (sl : BmSlot) : FilesUpdate (·.setBm m sl) :=
  ⟨fun s => rfl, fun a b ⟨h1, h2, h3, h4⟩ => ⟨h1, h2, by simp [State.setBm, h3], h4⟩⟩

theorem filesUpdate_setIc (m : Nat) (f : IcInst → IcInst) : FilesUpdate (fun s => s.setIc m (f (s.icAt m))) :=
  ⟨fun s => rfl, fun a b ⟨h1, h2, h3, h4⟩ => ⟨h1, h2, h3, by simp [State.setIc, State.icAt, h4]⟩⟩

theorem FilesUpdate.comp {f g : State → State} (hf : FilesUpdate f) (hg : FilesUpdate g) : FilesUpdate
    (fun s => g (f s)) := by
  refine ⟨fun s => ?_, fun a b h => hg.2 _ _ (hf.2 _ _ h)⟩
  show g (f s) = { s with sm := (g (f s)).sm, bm := (g (f s)).bm, ic := (g (f s)).ic }
  have h1 := hg.1 (f s)
  have h2 := hf.1 s
  generalize (g (f s)).sm = A at *
  generalize (g (f s)).bm = B at *
  generalize (g (f s)).ic = C at *
  rw [h1, h2]

theorem filesUpdate_initMag (inst : IcInst) (n : Nat) : FilesUpdate (initMagModels inst n) := by
  induction n with
  | zero => exact ⟨fun s => rfl, fun _ _ h => h⟩
  | succ n ih => exact ih.comp (filesUpdate_setSm _ _)

theorem filesUpdate_initVal (inst : IcInst) (n : Nat) : FilesUpdate (initValModels inst n) := by
  induction n with
  | zero => exact ⟨fun s => rfl, fun _ _ h => h⟩
  | succ n ih => exact ih.comp (filesUpdate_setSm _ _)

theorem filesUpdate_initBit (inst : IcInst) : FilesUpdate (initBitModel inst) := by
  unfold initBitModel
  by_cases h : inst.bh.toNat ≥ 1
  · simp only [if_pos h]; exact filesUpdate_setBm _ _
  · simp only [if_neg h]; exact ⟨fun s => rfl, fun _ _ h => h⟩

theorem FilesUpdate.nests {e : State} {upd : State → State} (hu : FilesUpdate upd) :
    Nests e ((upd e).respond .ok 0) := by
  have a := hu.1 e
  refine ⟨0, by rw [State.respond_out, State.respond_pend, a]; rfl, fun n x hi => ?_⟩
  unfold Inside State.codeNumber State.heldValue at *
  rw [State.respond_out, State.respond_pend, State.respond_low, State.respond_len, State.respond_cache,
    a] at hi; exact hi

/-- R191: the window stays below the length while the code value is inside. -/
theorem Tracks.value_lt_len {e d : State} {fut rest x} (ht : Tracks e d fut rest x) (hi : Inside e fut.length x) :
    d.value.toNat < d.len.toNat := by
  obtain ⟨t1, t2, t3⟩ := ht
  obtain ⟨a, b⟩ := hi
  have hp : 0 < 256 ^ fut.length := by positivity
  rw [t2]
  by_contra hx
  have : (e.codeNumber + e.len.toNat) * 256 ^ fut.length ≤ (e.codeNumber + d.value.toNat) * 256 ^ fut.length :=
    Nat.mul_le_mul_right _ (by omega)
  omega

end Sys2Proof.Machine
end

