-- ==== Sys2Proof/Laws/PerInstr.lean ====
section
/-! SUPPORT. The per-instruction families: a statement about each command as syntax, proved constructor by constructor. -/

namespace Sys2Proof.Laws.RowSelects

open Sys2Proof

/-- The row R95 gives a command is a row of the table, and the command's `CMD` word matches it. -/
def Statement (i : Instr) : Prop := i.row ∈ opcodeTable ∧ i.row.Selects (encode i).cmd

/-- A word of format `Z` matches its row. -/
theorem formatZ (o : Byte) : (OpcodeRow.mk (cmdWord o 0 0) 0xFFFFFFFF).Selects (cmdWord o 0 0) := by
  show cmdWord o 0 0 &&& BitVec.allOnes 32 = cmdWord o 0 0
  rw [BitVec.and_allOnes]

/-- An eight-bit field under a mask of ones is itself. -/
theorem ones (x : Byte) : x &&& 0xFF = x := by
  show x &&& BitVec.allOnes 8 = x
  rw [BitVec.and_allOnes]

/-- A word of format `S` matches its row. -/
theorem formatS (o : Byte) (f2 : Index) : (OpcodeRow.mk (cmdWord o 0 0) 0xFFFF0000).Selects (cmdWord o 0 f2) := by
  show cmdWord o 0 f2 &&& cmdWord 0xFF 0xFF 0 = cmdWord o 0 0
  rw [cmdWord_and, ones]
  simp

/-- A word of format `K` matches its row. -/
theorem formatK (o f1 : Byte) : (OpcodeRow.mk (cmdWord o 0 0) 0xFF00FFFF).Selects (cmdWord o f1 0) := by
  show cmdWord o f1 0 &&& cmdWord 0xFF 0 0xFFFF = cmdWord o 0 0
  rw [cmdWord_and, ones]
  simp

/-- A word of format `KS` matches its row. -/
theorem formatKS (o f1 : Byte) (f2 : Index) : (OpcodeRow.mk (cmdWord o 0 0) 0xFF000000).Selects (cmdWord o f1 f2) := by
  show cmdWord o f1 f2 &&& cmdWord 0xFF 0 0 = cmdWord o 0 0
  rw [cmdWord_and, ones]
  simp

theorem srst : Statement .srst := ⟨by simp [Instr.row, opcodeTable], formatZ _⟩
theorem rdcsr (csr : Index) : Statement (.rdcsr csr) := ⟨by simp [Instr.row, opcodeTable], formatS _ _⟩
theorem smInit (m : Index) (n : Word) : Statement (.smInit m n) := ⟨by simp [Instr.row, opcodeTable], formatS _ _⟩
theorem bmInit (b : Index) : Statement (.bmInit b) := ⟨by simp [Instr.row, opcodeTable], formatS _ _⟩
theorem smRd (sel : Byte) (m : Index) (j : Word) : Statement (.smRd sel m j) := ⟨by simp [Instr.row, opcodeTable], formatKS _ _ _⟩
theorem bmRd (b : Index) : Statement (.bmRd b) := ⟨by simp [Instr.row, opcodeTable], formatS _ _⟩
theorem encStart : Statement .encStart := ⟨by simp [Instr.row, opcodeTable], formatZ _⟩
theorem encSym (m : Index) (sym : Word) : Statement (.encSym m sym) := ⟨by simp [Instr.row, opcodeTable], formatS _ _⟩
theorem encBit (b : Index) (bit : Word) : Statement (.encBit b bit) := ⟨by simp [Instr.row, opcodeTable], formatS _ _⟩
theorem encBits (k : Byte) (x : Word) : Statement (.encBits k x) := ⟨by simp [Instr.row, opcodeTable], formatK _ _⟩
theorem encDone : Statement .encDone := ⟨by simp [Instr.row, opcodeTable], formatZ _⟩
theorem decStart : Statement .decStart := ⟨by simp [Instr.row, opcodeTable], formatZ _⟩
theorem decSym (m : Index) : Statement (.decSym m) := ⟨by simp [Instr.row, opcodeTable], formatS _ _⟩
theorem decBit (b : Index) : Statement (.decBit b) := ⟨by simp [Instr.row, opcodeTable], formatS _ _⟩
theorem decBits (k : Byte) : Statement (.decBits k) := ⟨by simp [Instr.row, opcodeTable], formatK _ _⟩
theorem decDone : Statement .decDone := ⟨by simp [Instr.row, opcodeTable], formatZ _⟩
theorem icConfig (i : Byte) (b range : Word) : Statement (.icConfig i b range) := ⟨by simp [Instr.row, opcodeTable], formatK _ _⟩
theorem icSetup (i : Byte) (c : Index) (bh zero : Byte) (smbase bmslot : Index) : Statement (.icSetup i c bh zero smbase bmslot) := ⟨by simp [Instr.row, opcodeTable], formatK _ _⟩
theorem icInit (i : Byte) : Statement (.icInit i) := ⟨by simp [Instr.row, opcodeTable], formatK _ _⟩
theorem icCompress (i : Byte) (c : Index) (p v : Word) : Statement (.icCompress i c p v) := ⟨by simp [Instr.row, opcodeTable], formatKS _ _ _⟩
theorem icDecompress (i : Byte) (c : Index) (p : Word) : Statement (.icDecompress i c p) := ⟨by simp [Instr.row, opcodeTable], formatKS _ _ _⟩
theorem icGetk (i : Byte) : Statement (.icGetk i) := ⟨by simp [Instr.row, opcodeTable], formatK _ _⟩

end Sys2Proof.Laws.RowSelects
end

