-- ==== Sys2Proof/Tests/Slice0.lean ====
section
/-! SUPPORT. Tests on one step each, the decoding of written-out words, the smoke test of `WellFormed`, and for every
statement with hypotheses a concrete state and operands that meet them. Expected values come from `spec/`. -/

namespace Sys2Proof.Tests

open Sys2Proof Sys2Proof.Machine

/-! ### The ill-formed commands that `WellFormed` refuses, one for each of its checks -/

theorem test_wf_smInit_zero : Instr.wellFormed (.smInit 0 0) = false := by decide
theorem test_wf_smRd_sel : Instr.wellFormed (.smRd 3 0 0) = false := by decide
theorem test_wf_encBit_two : Instr.wellFormed (.encBit 0 2) = false := by decide
theorem test_wf_encBits_none : Instr.wellFormed (.encBits 0 0) = false := by decide
theorem test_wf_encBits_wide : Instr.wellFormed (.encBits 33 0) = false := by decide
theorem test_wf_encBits_value : Instr.wellFormed (.encBits 4 16) = false := by decide
theorem test_wf_decBits_none : Instr.wellFormed (.decBits 0) = false := by decide
theorem test_wf_decBits_wide : Instr.wellFormed (.decBits 33) = false := by decide
theorem test_wf_icConfig_none : Instr.wellFormed (.icConfig 0 0 0) = false := by decide
theorem test_wf_icConfig_wide : Instr.wellFormed (.icConfig 0 33 0) = false := by decide
theorem test_wf_icConfig_one : Instr.wellFormed (.icConfig 0 16 1) = false := by decide
theorem test_wf_icConfig_range : Instr.wellFormed (.icConfig 0 16 0x80000001) = false := by decide
theorem test_wf_icSetup_context : Instr.wellFormed (.icSetup 0 0 2 0 16 3) = false := by decide
theorem test_wf_icSetup_zero : Instr.wellFormed (.icSetup 0 1 2 1 16 3) = false := by decide
theorem test_wf_encBits_full : Instr.wellFormed (.encBits 32 0xFFFFFFFF) = true := by decide
theorem test_wf_icConfig_full : Instr.wellFormed (.icConfig 0 32 0x80000000) = true := by decide

/-! ### Words written out from R91, R95 and R99 -/

theorem test_word_srst : decode ⟨0x01000000, 0, 0⟩ = .ok .srst := by decide
theorem test_word_rdcsr : decode ⟨0x02000012, 0, 0⟩ = .ok (.rdcsr 18) := by decide
theorem test_word_smInit : decode ⟨0x10000002, 256, 0⟩ = .ok (.smInit 2 256) := by decide
theorem test_word_bmInit : decode ⟨0x11000101, 0, 0⟩ = .ok (.bmInit 257) := by decide
theorem test_word_smRd : decode ⟨0x12010203, 7, 0⟩ = .ok (.smRd 1 515 7) := by decide
theorem test_word_bmRd : decode ⟨0x13000001, 0, 0⟩ = .ok (.bmRd 1) := by decide
theorem test_word_encStart : decode ⟨0x20000000, 0, 0⟩ = .ok .encStart := by decide
theorem test_word_encSym : decode ⟨0x21000100, 3, 0⟩ = .ok (.encSym 256 3) := by decide
theorem test_word_encBit : decode ⟨0x22000004, 1, 0⟩ = .ok (.encBit 4 1) := by decide
theorem test_word_encBits : decode ⟨0x23130000, 0x0005A5A5, 0⟩ = .ok (.encBits 19 0x5A5A5) := by decide
theorem test_word_encDone : decode ⟨0x24000000, 0, 0⟩ = .ok .encDone := by decide
theorem test_word_decStart : decode ⟨0x30000000, 0, 0⟩ = .ok .decStart := by decide
theorem test_word_decSym : decode ⟨0x3100FFFF, 0, 0⟩ = .ok (.decSym 65535) := by decide
theorem test_word_decBit : decode ⟨0x32000003, 0, 0⟩ = .ok (.decBit 3) := by decide
theorem test_word_decBits : decode ⟨0x33200000, 0, 0⟩ = .ok (.decBits 32) := by decide
theorem test_word_decDone : decode ⟨0x34000000, 0, 0⟩ = .ok .decDone := by decide
theorem test_word_icConfig : decode ⟨0x40010000, 16, 1000⟩ = .ok (.icConfig 1 16 1000) := by decide
theorem test_word_icSetup :
    decode ⟨0x41000000, 0x00020002, 0x00030010⟩ = .ok (.icSetup 0 2 2 0 16 3) := by decide
theorem test_word_icInit : decode ⟨0x42050000, 0, 0⟩ = .ok (.icInit 5) := by decide
theorem test_word_icCompress : decode ⟨0x43000001, 200, 3⟩ = .ok (.icCompress 0 1 200 3) := by decide
theorem test_word_icDecompress : decode ⟨0x44020003, 200, 0⟩ = .ok (.icDecompress 2 3 200) := by decide
theorem test_word_icGetk : decode ⟨0x45EF0000, 0, 0⟩ = .ok (.icGetk 239) := by decide

/-- An operand word R98 calls ignored is not read. -/
theorem test_word_ignored : decode ⟨0x24000000, 0xFFFFFFFF, 0xFFFFFFFF⟩ = .ok .encDone := by decide

/-- A reserved field is checked before the operands (R96). -/
theorem test_word_reserved : decode ⟨0x24000001, 0, 0⟩ = .error .reservedField := by decide

/-- R97. -/
theorem test_word_unassigned : decode ⟨0x12000000 + 0x02000000, 0, 0⟩ = .error .unassignedOpcode := by decide

/-- The table's bit numbering: `A0` starts at bit 32, `A1` at bit 64 (log 18). -/
theorem test_table_word : decodeTableWord 96 (0x43000001 + 200 * 2 ^ 32 + 3 * 2 ^ 64) = some (.icCompress 0 1 200 3) := by
  decide

/-- The placed command is the next one to run. -/
theorem test_fetch : step (State.reset.withFetchWord 32 0x20000000) = exec .encStart State.reset := by rfl

/-! ### Small states -/

/-- A small implementation that satisfies R5. -/
def par : Params :=
  { nsm := 6, nbm := 2, nic := 2, nMax := 64, bhMax := 6, symInc := 32, symLimit := 1024, bmShift := 5, pendBits := 4 }

/-- Instance 0 of the small states: 4 bits, one context, two value models, ready. -/
def inst : IcInst :=
  { st := .ready, bits := 4, range := 0, ctx := 1, bh := 2, cbits := 4, crange := 16, cmin := -8, cmax := 7,
    smbase := 1, bmslot := 0, k := 0 }

/-- `IDLE`: slot 0 a model of 4 symbols, slots 1 to 3 and bit slot 0 the models of instance 0, the rest invalid; instance 1
configured with a range. -/
def idle : State :=
  { mode := .idle, cause := 0, finfo := 0, low := 0, len := 0, cache := 0, pend := 0, value := 0,
    sm := [SmSlot.fresh 4, SmSlot.fresh 5, SmSlot.fresh 2, SmSlot.fresh 4, SmSlot.reset, SmSlot.reset],
    bm := [BmSlot.fresh, BmSlot.reset], ic := [inst, IcInst.configured 16 10],
    par := par, inbox := [], responses := [], out := [], sink := [], source := [], taken := 0, freeCtr := 0 }

/-- The same in `ENC` mode, right after `ENC_START`. -/
def enc : State := { idle with mode := .enc, len := 0xFFFFFFFF }

/-- The same in `DEC` mode, with eight bytes to come. -/
def dec : State :=
  { idle with mode := .dec, len := 0xFFFFFFFF, value := 0x80000000, source := List.replicate 8 (.byte 0xAA) }

/-- The same in `FAULT` mode. -/
def broken : State := { idle with mode := .fault, cause := 5, finfo := 0x31000000 }

/-- The state after a command, the state itself where none follows. -/
def after (i : Instr) (s : State) : State :=
  match exec i s with
  | .next t => t
  | .fault _ => s
  | .refused _ => s

/-- The last response of a command. -/
def reply (i : Instr) (s : State) : Option Response := (after i s).responses.getLast?

/-! ### One step of each command, expected values from `95_test_vectors.md` -/

theorem test_srst : ((after .srst enc).mode, (after .srst enc).len) = (.idle, 0) := by decide
theorem test_rdcsr_len : reply (.rdcsr 0x012) enc = some ⟨.ok, 0xFFFFFFFF⟩ := by decide
theorem test_rdcsr_gap : reply (.rdcsr 0x016) idle = some ⟨.eOperand, 0⟩ := by decide
theorem test_smInit : (after (.smInit 4 3) idle).smAt 4 = { valid := true, n := 3, cnt := [1, 1, 1] } := by decide
theorem test_smInit_none : reply (.smInit 0 0) idle = some ⟨.eOperand, 0⟩ := by decide
theorem test_bmInit : (after (.bmInit 1) idle).bmAt 1 = { valid := true, bs := 0 } := by decide
theorem test_smRd_cum : reply (.smRd 1 0 4) (after (.encSym 0 2) enc) = some ⟨.ok, 36⟩ := by decide
theorem test_smRd_count : reply (.smRd 0 0 2) (after (.encSym 0 2) enc) = some ⟨.ok, 33⟩ := by decide
theorem test_bmRd : reply (.bmRd 0) { idle with bm := [{ valid := true, bs := -14 }] } = some ⟨.ok, 0xFFFFFFF2⟩ := by
  decide
theorem test_bmRd_uninit : reply (.bmRd 1) idle = some ⟨.eUninit, 0⟩ := by decide
theorem test_encStart : ((after .encStart idle).mode, (after .encStart idle).len) = (.enc, 0xFFFFFFFF) := by decide
theorem test_encSym :
    ((after (.encSym 0 2) enc).low, (after (.encSym 0 2) enc).len) = (0x7FFFFFFE, 0x3FFFFFFF) := by decide
theorem test_encSym_model : ((after (.encSym 0 3) enc).smAt 0).cnt = [1, 1, 1, 33] := by decide
theorem test_encBit : ((after (.encBit 0 1) enc).low, (after (.encBit 0 1) enc).len) = (0x7FFFF000, 0x80000FFF) := by
  decide
theorem test_encBit_model : ((after (.encBit 0 1) enc).bmAt 0).bs = -128 := by decide
theorem test_encBits_carry :
    (after (.encBits 1 1) { enc with low := 0xFF800000, len := 0x01000000, cache := 0x12, pend := 2 }).out =
      [0x13, 0x00, 0x00] := by decide
theorem test_encBits_wide : ((after (.encBits 32 0xFFFFFFFF) enc).out, (after (.encBits 32 0xFFFFFFFF) enc).pend) =
    ([0x00, 0xFF], 2) := by decide
theorem test_encDone : (after .encDone { enc with low := 0x1371DA044, cache := 0x6F }).out =
    [0x70, 0x37, 0x1D, 0xA0, 0x44] := by decide
theorem test_encDone_pending : (after .encDone { enc with low := 0xFF123456, cache := 0xAB, pend := 2 }).out =
    [0xAB, 0xFF, 0xFF, 0xFF, 0x12, 0x34, 0x56] := by decide
theorem test_decStart : ((after .decStart
      { idle with source := [.byte 0xAB, .byte 0x01, .byte 0x02, .byte 0x03, .byte 0x04] }).value,
    (after .decStart
      { idle with source := [.byte 0xAB, .byte 0x01, .byte 0x02, .byte 0x03, .byte 0x04] }).cache) =
    (0x01020304, 0xAB) := by decide
theorem test_decStart_short : reply .decStart { idle with source := [.byte 0xAB] } = some ⟨.eIo, 0⟩ := by decide
theorem test_decSym : reply (.decSym 0) { dec with sm := [SmSlot.fresh 3], value := 0x55555555 } = some ⟨.ok, 1⟩ := by
  decide
theorem test_decSym_clamped : reply (.decSym 0) { dec with sm := [SmSlot.fresh 3], value := 0xFFFFFFFF } =
    some ⟨.ok, 2⟩ := by decide
theorem test_decBit : reply (.decBit 0) { dec with len := 0x01000000, value := 0x00800000 } = some ⟨.ok, 1⟩ := by decide
theorem test_decBit_model : ((after (.decBit 0) { dec with len := 0x01000000, value := 0x007FFFFF }).bmAt 0).bs = 128 := by
  decide
theorem test_decBits_clamped : reply (.decBits 3) { dec with value := 0xFFFFFFFF } = some ⟨.ok, 7⟩ := by decide
theorem test_decBits_wide : (after (.decBits 19)
    { dec with len := 0x01000000, value := 0x00FFFFFF, source := [.byte 0xAA, .byte 0xBB, .byte 0xCC] }).value =
    0x1FAABBCC := by decide
theorem test_decDone : (after .decDone dec).mode = .idle := by decide
theorem test_icConfig : (after (.icConfig 1 16 1000) idle).icAt 1 = { IcInst.reset with st := .conf, bits := 16, range := 1000 } :=
  by decide
theorem test_icConfig_one : reply (.icConfig 1 8 1) idle = some ⟨.eOperand, 0⟩ := by decide
theorem test_icSetup_range : ((after (.icSetup 1 1 2 0 0 0) (after (.icConfig 1 8 3) idle)).icAt 1) =
    { st := .setup, bits := 8, range := 0, ctx := 1, bh := 2, cbits := 2, crange := 3, cmin := -1, cmax := 1, smbase := 0,
      bmslot := 0, k := 0 } := by decide
theorem test_icSetup_bits : ((after (.icSetup 1 1 4 0 0 0) (after (.icConfig 1 32 0) idle)).icAt 1) =
    { st := .setup, bits := 32, range := 0, ctx := 1, bh := 4, cbits := 32, crange := 0, cmin := 0x80000000,
      cmax := 0x7FFFFFFF, smbase := 0, bmslot := 0, k := 0 } := by decide
theorem test_icInit : ((after (.icInit 0) idle).smAt 1, (after (.icInit 0) idle).smAt 3) = (SmSlot.fresh 5, SmSlot.fresh 4) := by
  decide
theorem test_icInit_early : reply (.icInit 1) idle = some ⟨.eUninit, 0⟩ := by decide
/-- `p = 0`, `v = 5`: corrector 5, magnitude 3. -/
theorem test_icCompress : ((after (.icCompress 0 0 0 5) enc).icAt 0).k = 3 := by decide
theorem test_icCompress_refused : reply (.icCompress 0 0 1000 5) enc = some ⟨.eOperand, 0⟩ := by decide
/-- The first magnitude of a fresh model is 2 for `VALUE = 80000000`, and the position 2 of four: the corrector 3. -/
theorem test_icDecompress : reply (.icDecompress 0 0 15) dec = some ⟨.ok, 2⟩ := by decide
theorem test_icDecompress_k : ((after (.icDecompress 0 0 15) dec).icAt 0).k = 2 := by decide
theorem test_icGetk : reply (.icGetk 0) (after (.icCompress 0 0 0 5) enc) = some ⟨.ok, 3⟩ := by decide
theorem test_icGetk_uninit : reply (.icGetk 1) { idle with ic := [IcInst.reset, IcInst.reset] } = some ⟨.eUninit, 0⟩ := by
  decide

/-! ### The small states satisfy the invariant -/

/-- Instance 0 with the full 32-bit range. -/
def inst32 : IcInst :=
  { inst with bits := 32, cbits := 32, crange := 0, cmin := 0x80000000, cmax := 0x7FFFFFFF }

/-- `idle` with an instance of 32 bits configured without a range. -/
def idle32 : State := { idle with ic := [inst, IcInst.configured 32 0] }

/-- `dec` with the shortest interval there is at a command boundary, a byte to come and then a failure. -/
def short : State := { dec with len := 0x01000000, value := 0x00FFFFFF, source := [.byte 0xAA, .failed] }

theorem par_ok : par.Ok := by decide

theorem inst_ok : inst.Ok par := by
  show inst.ConfigOk ∧ _ ∧ inst.CorrectorOk ∧ inst.SlotsOk par ∧ _
  unfold IcInst.ConfigOk IcInst.CorrectorOk IcInst.SlotsOk
  decide

theorem inst32_ok : inst32.Ok par := by
  show inst32.ConfigOk ∧ _ ∧ inst32.CorrectorOk ∧ inst32.SlotsOk par ∧ _
  unfold IcInst.ConfigOk IcInst.CorrectorOk IcInst.SlotsOk
  decide

theorem configured_ok : (IcInst.configured 16 10).Ok par ∧ (IcInst.configured 32 0).Ok par := by
  show (IcInst.ConfigOk _ ∧ _) ∧ (IcInst.ConfigOk _ ∧ _)
  unfold IcInst.ConfigOk
  decide

theorem sm_ok : ∀ sl ∈ idle.sm, sl.Ok par := by
  intro sl h
  simp only [idle, List.mem_cons, List.not_mem_nil, or_false] at h
  rcases h with rfl | rfl | rfl | rfl | rfl | rfl
  all_goals first
    | exact SmSlot.fresh_ok par_ok (by decide) (by decide)
    | exact fun h => absurd h (by decide)

theorem bm_ok : ∀ sl ∈ idle.bm, sl.Ok par := by unfold BmSlot.Ok; decide

theorem files_ok : idle.FilesOk := by
  refine ⟨sm_ok, bm_ok, fun x hx => ?_⟩
  rcases List.mem_cons.1 hx with rfl | hx
  · exact inst_ok
  · rw [List.mem_singleton.1 hx]; exact configured_ok.1

theorem files32_ok : idle32.FilesOk := by
  refine ⟨sm_ok, bm_ok, fun x hx => ?_⟩
  rcases List.mem_cons.1 hx with rfl | hx
  · exact inst_ok
  · rw [List.mem_singleton.1 hx]; exact configured_ok.2

theorem idle_inv : idle.Inv :=
  ⟨par_ok, by unfold State.Shaped; decide, by unfold State.RecordOk; decide, fun _ => files_ok,
    fun h => absurd h (by decide), fun h => absurd h (by decide)⟩

theorem idle32_inv : idle32.Inv :=
  ⟨par_ok, by unfold State.Shaped; decide, by unfold State.RecordOk; decide, fun _ => files32_ok,
    fun h => absurd h (by decide), fun h => absurd h (by decide)⟩

theorem enc_inv : enc.Inv :=
  ⟨par_ok, by unfold State.Shaped; decide, by unfold State.RecordOk; decide, fun _ => files_ok,
    fun _ => by unfold State.EncOk; decide, fun h => absurd h (by decide)⟩

theorem dec_inv : dec.Inv :=
  ⟨par_ok, by unfold State.Shaped; decide, by unfold State.RecordOk; decide, fun _ => files_ok,
    fun h => absurd h (by decide), fun _ => by unfold State.DecOk; decide⟩

theorem short_inv : short.Inv :=
  ⟨par_ok, by unfold State.Shaped; decide, by unfold State.RecordOk; decide, fun _ => files_ok,
    fun h => absurd h (by decide), fun _ => by unfold State.DecOk; decide⟩

theorem broken_inv : broken.Inv :=
  ⟨par_ok, by unfold State.Shaped; decide, by unfold State.RecordOk; decide, fun h => absurd rfl h,
    fun h => absurd h (by decide), fun h => absurd h (by decide)⟩

theorem enc_undisturbed : enc.Undisturbed := ⟨List.not_mem_nil, List.not_mem_nil⟩

theorem enc_accepts (n : Nat) : enc.SinkAccepts n := by
  intro a h
  rw [show enc.sink = [] from rfl, List.take_nil] at h
  exact absurd h List.not_mem_nil

theorem dec_holds : dec.SourceHolds 8 := ⟨List.replicate 8 0xAA, [], by decide, by decide⟩

/-! ### For each statement with hypotheses, a state and operands that meet them -/

/-- `idle` with these events of the host. -/
def hosted (l : List HostEvent) : State := { idle with inbox := l }

theorem witness_ResetResults : (hosted [.hardReset]).inbox = .hardReset :: [] := by decide

/-- `enc` with the hard reset during its first transfer. -/
def disturbed : State := { enc with sink := [.resetDuring] }

theorem witness_ResetDuringTransfer :
    ∃ t, exec .encDone disturbed = .next t ∧ t.responses = disturbed.responses := by
  have e : exec .encDone disturbed = finish (encode .encDone).cmd
      (if disturbed.freeBool .inFlight then .aborted (disturbed.putOut 0 []) else .aborted (disturbed.setSink [])) := by
    show finish _ (Run.bind (Run.bind (Run.bind (if disturbed.freeBool .inFlight then _ else _) _) _) _) = _
    split <;> rfl
  rw [e]
  split
  · exact ⟨_, rfl, rfl⟩
  · exact ⟨_, rfl, rfl⟩

theorem witness_StepRunsDecodedCommand :
    (hosted [.command ⟨0x24000000, 0, 0⟩]).inbox = .command ⟨0x24000000, 0, 0⟩ :: [] ∧
    decode ⟨0x24000000, 0, 0⟩ = .ok .encDone ∧ idle.inbox = [] := by decide

/-- Both ends of each range of unassigned opcodes. -/
theorem witness_UnassignedOpcodeIsIllegal :
    ∀ n ∈ [0x00, 0x03, 0x0F, 0x14, 0x1F, 0x25, 0x2F, 0x35, 0x3F, 0x46, 0xFF],
      n = ((Packet.mk (BitVec.ofNat 32 (n * 2 ^ 24)) 0 0).cmd).toNat / 2 ^ 24 ∧
      (n = 0x00 ∨ (0x03 ≤ n ∧ n ≤ 0x0F) ∨ (0x14 ≤ n ∧ n ≤ 0x1F) ∨ (0x25 ≤ n ∧ n ≤ 0x2F) ∨ (0x35 ≤ n ∧ n ≤ 0x3F) ∨
        0x46 ≤ n) := by decide

theorem witness_ReservedFieldIsIllegal :
    (0x20010000#32).toNat / 2 ^ 24 = 0x20 ∧ (0x20010000#32).toNat / 2 ^ 16 % 2 ^ 8 ≠ 0 ∧
    (0x01000001#32).toNat / 2 ^ 24 = 0x01 ∧ (0x01000001#32).toNat % 2 ^ 16 ≠ 0 ∧
    (0x21010000#32).toNat / 2 ^ 24 = 0x21 ∧ (0x21010000#32).toNat / 2 ^ 16 % 2 ^ 8 ≠ 0 ∧
    (0x23080001#32).toNat / 2 ^ 24 = 0x23 ∧ (0x23080001#32).toNat % 2 ^ 16 ≠ 0 ∧
    (hosted [.command ⟨0x23080001, 0, 0⟩]).inbox = .command ⟨0x23080001, 0, 0⟩ :: [] := by decide

theorem witness_DecodeFollowsOpcodeTable : decode ⟨0x24000000, 0, 0⟩ = .ok .encDone := by decide

theorem witness_DecodeKeepsCommandWord :
    decode ⟨0x23130000, 7, 9⟩ = .ok (.encBits 19 7) ∧ 0x23 ∈ opcodesWithA0 ∧ 0x23 ∉ opcodesWithA1 ∧
    decode ⟨0x40000000, 8, 9⟩ = .ok (.icConfig 0 8 9) ∧ 0x40 ∈ opcodesWithA1 ∧ 0x34 ∉ opcodesWithA0 ∧
    decode ⟨0x34000000, 7, 9⟩ = .ok .decDone ∧ decode ⟨0x34000001, 7, 9⟩ = .error .reservedField := by decide

theorem witness_CommandsByMode :
    (broken.mode = .fault ∧ Instr.encDone ≠ .srst ∧ ∀ csr, Instr.encDone = .rdcsr csr → 2 < csr.toNat) ∧
    (broken.mode = .fault ∧ Instr.rdcsr 3 ≠ .srst ∧ ∀ csr, Instr.rdcsr 3 = .rdcsr csr → 2 < csr.toNat) ∧
    (idle.mode ≠ .fault ∧ idle.mode ∉ modesOf .encDone) ∧
    (enc.mode ∈ modesOf .encDone ∧ exec .encDone enc = .next (after .encDone enc) ∧
      (after .encDone enc).responses = enc.responses ++ [⟨.ok, 0⟩]) ∧
    (exec (.rdcsr 2) broken = .next (after (.rdcsr 2) broken) ∧
      (after (.rdcsr 2) broken).responses = broken.responses ++ [⟨.ok, 0x31000000⟩]) := by
  refine ⟨⟨by decide, by decide, fun _ h => by cases h⟩, ⟨by decide, by decide, fun c h => ?_⟩, by decide,
    ⟨by decide, rfl, by decide⟩, rfl, by decide⟩
  cases h
  decide

theorem witness_RefusalChangesNothing :
    exec .encDone idle = .next (after .encDone idle) ∧ (after .encDone idle).responses = idle.responses ++ [⟨.eMode, 0⟩] ∧
    Status.eMode ∈ [Status.eIllegal, .eMode, .eOperand, .eUninit, .eFaulted] := ⟨rfl, by decide, by decide⟩

theorem witness_OneResponsePerCommand :
    enc.Undisturbed ∧ exec .encDone enc = .next (after .encDone enc) ∧
    Instr.encDone ∈ [Instr.srst, .encStart, .encDone, .decStart, .decDone] := ⟨enc_undisturbed, rfl, by decide⟩

/-- `idle` with an `ENC_DONE` to come, in `ENC` mode with `PEND` full. -/
def full : State := { enc with pend := 15, low := 0xFF000000, inbox := [.command ⟨0x24000000, 0, 0⟩] }

theorem witness_StickyFaultEntry :
    full.inbox = .command ⟨0x24000000, 0, 0⟩ :: [] ∧ decode ⟨0x24000000, 0, 0⟩ = .ok .encDone ∧
    ∃ t, step full = .next t ∧ t.responses = full.responses ++ [⟨.ePendovf, 0⟩] :=
  ⟨rfl, by decide, _, rfl, rfl⟩

theorem witness_StickyFaultEntry_io :
    ∃ t, exec .encDone { enc with sink := [.failed] } = .next t ∧ t.responses = enc.responses ++ [⟨.eIo, 0⟩] :=
  ⟨_, rfl, rfl⟩

theorem witness_OnlyResetLeavesFault :
    broken.mode = .fault ∧ Instr.encStart ≠ .srst ∧ exec .encStart broken = .next (after .encStart broken) ∧
    exec (.rdcsr 0) broken = .next (after (.rdcsr 0) broken) ∧ exec (.rdcsr 2) broken = .next (after (.rdcsr 2) broken) :=
  ⟨by decide, by decide, rfl, rfl, rfl⟩

theorem witness_ModeWriters :
    exec .encStart idle = .next (after .encStart idle) ∧ (after .encStart idle).mode ≠ idle.mode := ⟨rfl, by decide⟩

theorem witness_IllFormedCommandIsRefused :
    Instr.wellFormed (.encBits 0 0) = false ∧ enc.mode ∈ modesOf (.encBits 0 0) := by decide

theorem witness_OnlyResetClearsValid :
    enc.Undisturbed ∧ Instr.encDone ≠ .srst ∧ exec .encDone enc = .next (after .encDone enc) ∧ 3 < enc.par.nsm ∧
    (enc.smAt 3).valid = true ∧ 0 < enc.par.nbm ∧ (enc.bmAt 0).valid = true :=
  ⟨enc_undisturbed, by decide, rfl, by decide, by decide, by decide, by decide⟩

theorem witness_StreamAccess :
    exec .encDone enc = .next (after .encDone enc) ∧ exec (.decBits 8) dec = .next (after (.decBits 8) dec) ∧
    dec.mode ≠ .enc ∧ enc.mode ≠ .dec ∧ Instr.encDone ≠ .decStart := ⟨rfl, rfl, by decide, by decide, by decide⟩

theorem witness_EveryCommandEnds : enc.Inv ∧ dec.Inv ∧ idle.Inv ∧ broken.Inv := ⟨enc_inv, dec_inv, idle_inv, broken_inv⟩

theorem witness_PendingOverflow :
    full.mode = .enc ∧ full.pend = 2 ^ full.par.pendBits - 1 ∧ full.low.toNat < 2 ^ 32 ∧ 0xFF000000 ≤ full.low.toNat := by
  decide

/-- `enc` with a byte stream that accepts one byte and then fails. -/
def failing : State := { enc with sink := [.accepted, .failed] }

theorem witness_FailedTransferKeepsEarlierBytes :
    exec .encDone { failing with sink := [] } = .next (after .encDone { failing with sink := [] }) ∧
    (after .encDone { failing with sink := [] }).out = failing.out ++ [0, 0, 0, 0, 0] ∧
    1 < ([0, 0, 0, 0, 0] : List Byte).length ∧ failing.sink = List.replicate 1 .accepted ++ .failed :: [] :=
  ⟨rfl, by decide, by decide, by decide⟩

/-- `enc` with a byte stream that accepts one byte and then never answers. -/
def hanging : State := { enc with sink := [.accepted, .silent] }

theorem witness_FailedTransferKeepsEarlierBytes_silent :
    exec .encDone { hanging with sink := [] } = .next (after .encDone { hanging with sink := [] }) ∧
    (after .encDone { hanging with sink := [] }).out = hanging.out ++ [0, 0, 0, 0, 0] ∧
    1 < ([0, 0, 0, 0, 0] : List Byte).length ∧ hanging.sink = List.replicate 1 .accepted ++ .silent :: [] :=
  ⟨rfl, by decide, by decide, by decide⟩

/-- R69, R305: the first byte of every stream (R77) was written before the flush hung. -/
theorem test_hang_shows_written_byte :
    exec .encDone hanging = .fault (.streamSilent { responses := [], out := [0x00], taken := 0 }) := rfl

/-- R69, R305: the byte of `IN` consumed before the start hung counts as taken. -/
theorem test_hang_shows_taken_byte :
    exec .decStart { idle with source := [.byte 0x00, .silent] } =
      .fault (.streamSilent { responses := [], out := [], taken := 1 }) := rfl

/-- `short` at the end of its input. -/
def starved : State := { short with source := [] }

theorem witness_TruncatedInputIsFault :
    ∀ i ∈ [Instr.decSym 0, .decBit 0, .decBits 8, .decBits 32, .icDecompress 0 0 0],
      (∃ u, exec i { starved with source := [0xAA, 0xAA, 0xAA].map GetAnswer.byte ++ [.byte 0xAA, .byte 0xAA] } = .next u ∧
        starved.taken + 0 < u.taken) ∧
      starved.source = (([0xAA, 0xAA, 0xAA] : List Byte).take 0).map GetAnswer.byte ++ [] := by
  intro i hi
  simp only [List.mem_cons, List.not_mem_nil, or_false] at hi
  rcases hi with rfl | rfl | rfl | rfl | rfl <;> exact ⟨⟨_, rfl, by decide⟩, rfl⟩

theorem witness_TruncatedInputIsFault_after_one :
    (∃ u, exec (.decBits 32) { short with source := [0xAA, 0xAA].map GetAnswer.byte ++ [.byte 0xAA, .byte 0xAA] } = .next u ∧
      short.taken + 1 < u.taken) ∧
    short.source = (([0xAA, 0xAA] : List Byte).take 1).map GetAnswer.byte ++ .failed :: [] := ⟨⟨_, rfl, by decide⟩, rfl⟩

theorem witness_TruncatedInputIsFault_silent :
    (∃ u, exec .decStart { idle with source := [0x00, 0x00].map GetAnswer.byte ++ [.byte 0, .byte 0, .byte 0] } = .next u ∧
      idle.taken + 1 < u.taken) ∧
    ({ idle with source := [.byte 0x00, .silent] } : State).source =
      (([0x00, 0x00] : List Byte).take 1).map GetAnswer.byte ++ .silent :: [] := ⟨⟨_, rfl, by decide⟩, rfl⟩

theorem witness_TruncatedInputIsFault_start :
    idle.Inv ∧ idle.source = ([] : List Byte).map GetAnswer.byte ++ [] ∧ idle.mode = .idle ∧ ([] : List Byte).length < 5 :=
  ⟨idle_inv, by decide, by decide, by decide⟩

theorem witness_TruncatedInputIsFault_bits :
    short.Inv ∧ short.source = ([0xAA] : List Byte).map GetAnswer.byte ++ [.failed] ∧ short.mode = .dec ∧
    1 ≤ (19 : Byte).toNat ∧ (19 : Byte).toNat ≤ 19 ∧
    ([0xAA] : List Byte).length < renormSteps (short.len.toNat / 2 ^ (19 : Byte).toNat) :=
  ⟨short_inv, by decide, by decide, by decide, by decide, by decide⟩

theorem witness_RdcsrReadsRegisters :
    idle.par.nic ≤ 240 ∧ (0x11B, 0) ∈ csrTable idle ∧ (0x012, 0xFFFFFFFF) ∈ csrTable enc ∧
    (0x002, 0x31000000) ∈ csrTable broken ∧ broken.mode = .fault ∧ 2 < (3 : Index).toNat ∧ idle.mode ≠ .fault ∧
    (∀ v, ((0x11C : Index).toNat, v) ∉ csrTable idle) ∧ (∀ v, ((0x016 : Index).toNat, v) ∉ csrTable idle) := by
  refine ⟨by decide, by decide, by decide, by decide, by decide, by decide, by decide, fun v h => ?_, fun v h => ?_⟩
  · exact absurd (List.mem_map_of_mem (f := Prod.fst) h) (show 0x11C ∉ (csrTable idle).map Prod.fst by decide)
  · exact absurd (List.mem_map_of_mem (f := Prod.fst) h) (show 0x016 ∉ (csrTable idle).map Prod.fst by decide)

theorem witness_SmInitResult :
    idle.mode ≠ .fault ∧ idle.par.nsm ≤ (6 : Index).toNat ∧ (0 : Word).toNat < 1 ∧ idle.par.nMax < (65 : Word).toNat ∧
    (5 : Index).toNat < idle.par.nsm ∧ 1 ≤ (64 : Word).toNat ∧ (64 : Word).toNat ≤ idle.par.nMax ∧
    Answers (.smInit 5 64) idle 0 (after (.smInit 5 64) idle) ∧ (5 : Index).toNat < idle.sm.length :=
  ⟨by decide, by decide, by decide, by decide, by decide, by decide, by decide, ⟨rfl, by decide⟩, by decide⟩

theorem witness_BmInitResult :
    idle.mode ≠ .fault ∧ idle.par.nbm ≤ (2 : Index).toNat ∧ (1 : Index).toNat < idle.par.nbm := by decide

theorem witness_SmRdResult :
    idle.mode ≠ .fault ∧ idle.par.nsm ≤ (6 : Index).toNat ∧ 2 < (3 : Byte).toNat ∧ (5 : Index).toNat < idle.par.nsm ∧
    (2 : Byte).toNat ≤ 2 ∧ (idle.smAt (5 : Index).toNat).valid = false ∧ (3 : Index).toNat < idle.par.nsm ∧
    (idle.smAt (3 : Index).toNat).valid = true ∧ (idle.smAt (3 : Index).toNat).n ≤ (4 : Word).toNat ∧
    (3 : Word).toNat < (idle.smAt (3 : Index).toNat).n ∧ (idle.smAt (3 : Index).toNat).n < (5 : Word).toNat ∧
    (4 : Word).toNat ≤ (idle.smAt (3 : Index).toNat).n := by decide

theorem witness_BmRdResult :
    idle.mode ≠ .fault ∧ idle.par.nbm ≤ (2 : Index).toNat ∧ (1 : Index).toNat < idle.par.nbm ∧
    (idle.bmAt (1 : Index).toNat).valid = false ∧ (idle.bmAt (0 : Index).toNat).valid = true := by decide

theorem witness_SymUpdateRule :
    idle.par.Ok ∧ (idle.smAt 0).Ok idle.par ∧ (idle.smAt 0).valid = true ∧ 3 < (idle.smAt 0).n :=
  ⟨par_ok, files_ok.1 _ (by decide), by decide, by decide⟩

theorem witness_BitUpdateRule : idle.par.Ok ∧ (idle.bmAt 0).Ok idle.par ∧ (idle.bmAt 0).valid = true :=
  ⟨par_ok, files_ok.2.1 _ (by decide), by decide⟩

theorem witness_FindSymRule : (SmSlot.fresh 4).Ok par ∧ (SmSlot.fresh 4).valid = true ∧ 3 < (SmSlot.fresh 4).total :=
  ⟨SmSlot.fresh_ok par_ok (by decide) (by decide), by decide, by decide⟩

theorem witness_ModelsAdaptAlike :
    enc.Inv ∧ dec.Inv ∧ enc.par = dec.par ∧ enc.smAt (0 : Index).toNat = dec.smAt (0 : Index).toNat ∧
    Answers (.encSym 0 2) enc 0 (after (.encSym 0 2) enc) ∧ Answers (.decSym 0) dec 2 (after (.decSym 0) dec) :=
  ⟨enc_inv, dec_inv, rfl, rfl, ⟨rfl, by decide⟩, ⟨rfl, by decide⟩⟩

theorem witness_ModelsAdaptAlike_bit :
    enc.Inv ∧ dec.Inv ∧ enc.par = dec.par ∧ enc.bmAt (0 : Index).toNat = dec.bmAt (0 : Index).toNat ∧
    Answers (.encBit 0 1) enc 0 (after (.encBit 0 1) enc) ∧ Answers (.decBit 0) dec 1 (after (.decBit 0) dec) :=
  ⟨enc_inv, dec_inv, rfl, rfl, ⟨rfl, by decide⟩, ⟨rfl, by decide⟩⟩

theorem witness_ShiftOutCases :
    (enc.SinkAccepts (enc.pend + 1) ∧ enc.low.toNat % 2 ^ 32 < 0xFF000000 ∧ enc.low.toNat < 2 ^ 32) ∧
    (2 ^ 32 ≤ ({ enc with low := 0x100000000 } : State).low.toNat) ∧
    (0xFF000000 ≤ ({ enc with low := 0xFF000000 } : State).low.toNat ∧
      ({ enc with low := 0xFF000000 } : State).low.toNat < 2 ^ 32 ∧ enc.pend ≠ 2 ^ enc.par.pendBits - 1) ∧
    full.pend = 2 ^ full.par.pendBits - 1 :=
  ⟨⟨enc_accepts _, by decide, by decide⟩, by decide, ⟨by decide, by decide, by decide⟩, by decide⟩

theorem witness_EncStartResult : idle.mode = .idle ∧ enc.mode = .enc ∧ dec.mode = .dec := by decide

theorem witness_EncSymResult :
    enc.Inv ∧ idle.Inv ∧ dec.Inv ∧ idle.mode = .idle ∧ dec.mode = .dec ∧ enc.mode = .enc ∧
    enc.par.nsm ≤ (6 : Index).toNat ∧ (5 : Index).toNat < enc.par.nsm ∧ (enc.smAt (5 : Index).toNat).valid = false ∧
    (enc.smAt (3 : Index).toNat).valid = true ∧ (enc.smAt (3 : Index).toNat).n ≤ (4 : Word).toNat ∧
    (3 : Word).toNat < (enc.smAt (3 : Index).toNat).n ∧ enc.SinkAccepts (enc.pend + 2) ∧
    enc.pend + 2 < 2 ^ enc.par.pendBits :=
  ⟨enc_inv, idle_inv, dec_inv, by decide, by decide, by decide, by decide, by decide, by decide, by decide, by decide,
    by decide, enc_accepts _, by decide⟩

theorem witness_EncBitResult :
    enc.Inv ∧ enc.mode = .enc ∧ enc.par.nbm ≤ (2 : Index).toNat ∧ (1 : Index).toNat < enc.par.nbm ∧
    (enc.bmAt (1 : Index).toNat).valid = false ∧ (enc.bmAt (0 : Index).toNat).valid = true ∧ 1 < (2 : Word).toNat ∧
    (1 : Word).toNat ≤ 1 ∧ enc.SinkAccepts (enc.pend + 2) ∧ enc.pend + 2 < 2 ^ enc.par.pendBits :=
  ⟨enc_inv, by decide, by decide, by decide, by decide, by decide, by decide, by decide, enc_accepts _, by decide⟩

theorem witness_EncBitsResult :
    enc.Inv ∧ enc.mode = .enc ∧ (0 : Byte).toNat < 1 ∧ 32 < (33 : Byte).toNat ∧ 2 ^ (3 : Byte).toNat ≤ (8 : Word).toNat ∧
    1 ≤ (1 : Byte).toNat ∧ (32 : Byte).toNat ≤ 32 ∧ (0xFFFFFFFF : Word).toNat < 2 ^ (32 : Byte).toNat ∧
    (1 : Word).toNat < 2 ^ (1 : Byte).toNat ∧ enc.SinkAccepts (enc.pend + 4) ∧ enc.pend + 4 < 2 ^ enc.par.pendBits :=
  ⟨enc_inv, by decide, by decide, by decide, by decide, by decide, by decide, by decide, by decide, enc_accepts _, by decide⟩

theorem witness_EncDoneResult :
    enc.Inv ∧ enc.mode = .enc ∧ enc.SinkAccepts (enc.pend + 5) ∧ enc.pend + 5 ≤ 2 ^ enc.par.pendBits :=
  ⟨enc_inv, by decide, enc_accepts _, by decide⟩

theorem witness_RenormStepBounds :
    enc.Inv ∧ enc.mode = .enc ∧ (enc.smAt 0).valid = true ∧ 3 < (enc.smAt 0).n ∧ (enc.bmAt 0).valid = true :=
  ⟨enc_inv, by decide, by decide, by decide, by decide⟩

theorem witness_DecStartResult :
    enc.mode = .enc ∧ dec.mode = .dec ∧ ({ idle with source := dec.source } : State).mode = .idle ∧
    ({ idle with source := dec.source } : State).source =
      .byte 0xAA :: .byte 0xAA :: .byte 0xAA :: .byte 0xAA :: .byte 0xAA :: List.replicate 3 (.byte 0xAA) := by decide

theorem witness_DecSymResult :
    dec.Inv ∧ dec.mode = .dec ∧ dec.par.nsm ≤ (6 : Index).toNat ∧ (5 : Index).toNat < dec.par.nsm ∧
    (dec.smAt (5 : Index).toNat).valid = false ∧ (dec.smAt (3 : Index).toNat).valid = true ∧ dec.SourceHolds 8 :=
  ⟨dec_inv, by decide, by decide, by decide, by decide, by decide, dec_holds⟩

theorem witness_DecBitResult :
    dec.Inv ∧ dec.mode = .dec ∧ dec.par.nbm ≤ (2 : Index).toNat ∧ (1 : Index).toNat < dec.par.nbm ∧
    (dec.bmAt (1 : Index).toNat).valid = false ∧ (dec.bmAt (0 : Index).toNat).valid = true ∧ dec.SourceHolds 8 :=
  ⟨dec_inv, by decide, by decide, by decide, by decide, by decide, dec_holds⟩

theorem witness_DecBitsResult :
    dec.Inv ∧ dec.mode = .dec ∧ (0 : Byte).toNat < 1 ∧ 32 < (33 : Byte).toNat ∧ 1 ≤ (1 : Byte).toNat ∧
    (32 : Byte).toNat ≤ 32 ∧ dec.SourceHolds 8 :=
  ⟨dec_inv, by decide, by decide, by decide, by decide, by decide, dec_holds⟩

theorem witness_DecDoneResult : dec.mode = .dec ∧ idle.mode = .idle ∧ enc.mode = .enc := by decide

theorem witness_IcConfigResult :
    idle.mode ≠ .fault ∧ idle.par.nic ≤ (2 : Byte).toNat ∧ (0 : Word).toNat < 1 ∧ 32 < (33 : Word).toNat ∧
    (1 : Word).toNat = 1 ∧ 2 ^ 31 < (0x80000001 : Word).toNat ∧ (1 : Byte).toNat < idle.par.nic ∧ 1 ≤ (32 : Word).toNat ∧
    (32 : Word).toNat ≤ 32 ∧ (0x80000000 : Word).toNat ≠ 1 ∧ (0x80000000 : Word).toNat ≤ 2 ^ 31 := by decide

/-- Instance 1 of `idle` has the range 10: `CBITS` 4, `CRANGE` 10, `CMIN` -5, `CMAX` 4. -/
theorem witness_IcSetupResult :
    idle.Inv ∧ idle.mode ≠ .fault ∧ (idle.icAt (1 : Byte).toNat).range.toNat ≠ 0 ∧
    10 = (idle.icAt (1 : Byte).toNat).range.toNat ∧ (2 : Nat) ^ (4 - 1) < 10 ∧ 10 ≤ 2 ^ 4 ∧
    (-5 : Int) = -((10 / 2 : Nat) : Int) ∧ (4 : Int) = -5 + 10 - 1 ∧ idle.par.nic ≤ (2 : Byte).toNat ∧
    (idle.icAt (1 : Byte).toNat).st ≠ .unconf ∧ (1 : Byte).toNat ≠ 0 ∧ (0 : Index).toNat < 1 ∧
    idle.par.bhMax < (7 : Byte).toNat ∧ idle.par.nsm < (4 : Index).toNat + (1 : Index).toNat + min 4 (2 : Byte).toNat ∧
    idle.par.nbm ≤ (2 : Index).toNat ∧ (3 : Index).toNat + (1 : Index).toNat + min 4 (2 : Byte).toNat ≤ idle.par.nsm ∧
    (2 : Byte).toNat ≤ idle.par.bhMax ∧ (1 : Index).toNat < idle.par.nbm := ⟨idle_inv, by decide⟩

/-- Instance 0 of `idle` has 4 bits and no range, instance 1 of `idle32` 32 bits and no range. -/
theorem witness_IcSetupResult_bits :
    idle.Inv ∧ (idle.icAt (0 : Byte).toNat).range.toNat = 0 ∧ (idle.icAt (0 : Byte).toNat).bits.toNat = 4 ∧
    idle32.Inv ∧ (idle32.icAt (1 : Byte).toNat).range.toNat = 0 ∧ 32 ≤ (idle32.icAt (1 : Byte).toNat).bits.toNat ∧
    idle32.mode ≠ .fault :=
  ⟨idle_inv, by decide, by decide, idle32_inv, by decide, by decide, by decide⟩

/-- An instance that nothing configured. -/
theorem witness_IcSetupResult_unconf :
    ({ idle with ic := [inst, IcInst.reset] } : State).Inv ∧
    (({ idle with ic := [inst, IcInst.reset] } : State).icAt (1 : Byte).toNat).st = .unconf ∧
    (1 : Byte).toNat < ({ idle with ic := [inst, IcInst.reset] } : State).par.nic := by
  refine ⟨⟨par_ok, by unfold State.Shaped; decide, by unfold State.RecordOk; decide, fun _ => ⟨sm_ok, bm_ok, ?_⟩,
    fun h => absurd h (by decide), fun h => absurd h (by decide)⟩, by decide, by decide⟩
  intro x hx
  rcases List.mem_cons.1 hx with rfl | hx
  · exact inst_ok
  · rw [List.mem_singleton.1 hx]; rfl

theorem witness_SecondSetupIsBitsOnly :
    idle.Inv ∧ Answers (.icSetup 1 1 2 0 3 1) idle 0 (after (.icSetup 1 1 2 0 3 1) idle) ∧
    Answers (.icSetup 1 1 0 0 5 0) (after (.icSetup 1 1 2 0 3 1) idle) 0
      (after (.icSetup 1 1 0 0 5 0) (after (.icSetup 1 1 2 0 3 1) idle)) ∧
    (idle.icAt (1 : Byte).toNat).bits.toNat < 32 := ⟨idle_inv, ⟨rfl, by decide⟩, ⟨rfl, by decide⟩, by decide⟩

theorem witness_SecondSetupIsBitsOnly_full :
    idle32.Inv ∧ Answers (.icSetup 1 1 2 0 3 1) idle32 0 (after (.icSetup 1 1 2 0 3 1) idle32) ∧
    Answers (.icSetup 1 1 0 0 5 0) (after (.icSetup 1 1 2 0 3 1) idle32) 0
      (after (.icSetup 1 1 0 0 5 0) (after (.icSetup 1 1 2 0 3 1) idle32)) ∧
    (idle32.icAt (1 : Byte).toNat).bits.toNat = 32 := ⟨idle32_inv, ⟨rfl, by decide⟩, ⟨rfl, by decide⟩, by decide⟩

/-- Both values occur: `idle` has the models of `inst`; with 32 bits the magnitude model has the wrong size. -/
theorem witness_IcModelsOkRule : icModelsOk idle inst = true ∧ icModelsOk idle inst32 = false := by decide

theorem witness_IcInitResult :
    idle.Inv ∧ idle.mode ≠ .fault ∧ idle.par.nic ≤ (2 : Byte).toNat ∧ (1 : Byte).toNat < idle.par.nic ∧
    (idle.icAt (1 : Byte).toNat).st = .conf ∧ (0 : Byte).toNat < idle.par.nic ∧ (idle.icAt (0 : Byte).toNat).st = .ready ∧
    5 < idle.sm.length := ⟨idle_inv, by decide⟩

theorem witness_FoldRule :
    inst.Ok par ∧ inst.st = .ready ∧ inst.crange ≠ 0 ∧ (15 : Word).toNat < inst.crange.toNat ∧
    (0 : Word).toNat < inst.crange.toNat ∧ (15 : Int) = ((15 : Word) - 0).toInt ∧ inst32.Ok par ∧ inst32.st = .ready ∧
    inst32.crange = 0 :=
  ⟨inst_ok, by decide, by decide, by decide, by decide, by decide, inst32_ok, by decide, by decide⟩

/-- The ends of both intervals of magnitude 3, and a position. -/
theorem witness_MagnitudeIntervals :
    (∀ corr ∈ [-7, -4, 5, 8], magnitude corr = 3) ∧ magnitude 0 = 0 ∧ magnitude 1 = 0 ∧ 1 ≤ 3 ∧ (7 : Nat) < 2 ^ 3 := by
  decide

theorem witness_FoldRoundTrip :
    inst.Ok par ∧ inst.st = .ready ∧ (15 : Word).toNat < inst.crange.toNat ∧ (0 : Word).toNat < inst.crange.toNat ∧
    inst32.Ok par ∧ inst32.st = .ready ∧ inst32.crange = 0 :=
  ⟨inst_ok, by decide, by decide, by decide, inst32_ok, by decide, by decide⟩

/-- Magnitude 0 with the bit model, and magnitude 4, which is above `BH`. -/
theorem witness_IcCompressResult :
    enc.Inv ∧ idle.Inv ∧ dec.Inv ∧ enc.mode = .enc ∧ (0 : Byte).toNat < enc.par.nic ∧
    enc.icAt (0 : Byte).toNat = inst ∧ inst.st = .ready ∧ (0 : Index).toNat < inst.ctx.toNat ∧ icModelsOk enc inst = true ∧
    (magnitude (foldCorr inst 0 1) = 0 ∧ magnitude (foldCorr inst 0 8) = 4 ∧ 4 ≤ inst.cbits.toNat) ∧
    inst.cbits.toNat < magnitude (foldCorr inst 1000 5) ∧ enc.par.nic ≤ (2 : Byte).toNat ∧
    (enc.icAt (1 : Byte).toNat).st ≠ .ready ∧ inst.ctx.toNat ≤ (1 : Index).toNat ∧
    icModelsOk { enc with bm := [BmSlot.reset, BmSlot.reset] } inst = false ∧
    enc.SinkAccepts (enc.pend + 8) ∧ enc.pend + 8 < 2 ^ enc.par.pendBits :=
  ⟨enc_inv, idle_inv, dec_inv, by decide, by decide, by decide, by decide, by decide, by decide, by decide, by decide,
    by decide, by decide, by decide, by decide, enc_accepts _, by decide⟩

theorem witness_IcDecompressResult :
    dec.Inv ∧ dec.mode = .dec ∧ dec.icAt (0 : Byte).toNat = inst ∧ (0 : Byte).toNat < dec.par.nic ∧ inst.st = .ready ∧
    (0 : Index).toNat < inst.ctx.toNat ∧ icModelsOk dec inst = true ∧ dec.SourceHolds 8 ∧ dec.par.nic ≤ (2 : Byte).toNat ∧
    (dec.icAt (1 : Byte).toNat).st ≠ .ready ∧ inst.ctx.toNat ≤ (1 : Index).toNat ∧
    icModelsOk { dec with bm := [BmSlot.reset, BmSlot.reset] } inst = false :=
  ⟨dec_inv, by decide, by decide, by decide, by decide, by decide, by decide, dec_holds, by decide, by decide, by decide,
    by decide⟩

theorem witness_IcGetkResult :
    idle.mode ≠ .fault ∧ idle.par.nic ≤ (2 : Byte).toNat ∧ (0 : Byte).toNat < idle.par.nic ∧
    (idle.icAt (0 : Byte).toNat).st ≠ .unconf ∧
    (({ idle with ic := [IcInst.reset] } : State).icAt (0 : Byte).toNat).st = .unconf := by decide

theorem witness_ExposedMagnitude :
    enc.Inv ∧ Answers (.icCompress 0 0 0 5) enc 0 (after (.icCompress 0 0 0 5) enc) ∧
    (4 : Int) = (if foldCorr (enc.icAt (0 : Byte).toNat) 0 5 ≤ 0 then -foldCorr (enc.icAt (0 : Byte).toNat) 0 5
      else foldCorr (enc.icAt (0 : Byte).toNat) 0 5 - 1) := ⟨enc_inv, ⟨rfl, by decide⟩, by decide⟩

theorem witness_StepKeepsInvariant : idle.Inv ∧ step idle = .next idle := ⟨idle_inv, rfl⟩

/-- A decoder on the six bytes of the session `ENC_START`, `ENC_BITS 8, 0xFF`, `ENC_DONE`, and one byte behind them. -/
def fed : State := { idle with source := [0x00, 0xFE, 0xFF, 0xFF, 0x01, 0x00, 0x77].map .byte }

/-- The decoder of that session, opened. -/
def opened : State :=
  { dec with low := 0, pend := 0, cache := 0, value := 0xFEFFFF01, source := [.byte 0x00, .byte 0x77], taken := 5 }

theorem opened_inv : opened.Inv :=
  ⟨par_ok, by unfold State.Shaped; decide, by unfold State.RecordOk; decide, fun _ => files_ok,
    fun h => absurd h (by decide), fun _ => by unfold State.DecOk; decide⟩

theorem witness_MirrorOfOneCommand :
    enc.Inv ∧ opened.Inv ∧ enc.mode = .enc ∧ opened.mode = .dec ∧ enc.SameModels opened ∧
    mirror (.encBits 8 0xFF) = some (.decBits 8, 0xFF) ∧ InDomain enc (.encBits 8 0xFF) ∧
    Answers (.encBits 8 0xFF) enc 0 (after (.encBits 8 0xFF) enc) ∧
    Tracks enc opened [0x00] [.byte 0x77] (0xFEFFFF01 * 256) ∧
    Inside (after (.encBits 8 0xFF) enc) 0 (0xFEFFFF01 * 256) ∧
    (after (.encBits 8 0xFF) enc).out.length + (after (.encBits 8 0xFF) enc).pend + 0 =
      enc.out.length + enc.pend + ([0x00] : List Byte).length := by
  refine ⟨enc_inv, opened_inv, by decide, by decide, ⟨rfl, rfl, rfl, rfl⟩, by decide, trivial, ⟨rfl, by decide⟩,
    ⟨by decide, by decide, by decide⟩, ⟨by decide, by decide⟩, by decide⟩

/-- The commands of that session, with reads of either host between. -/
def beats : List Beat := [.encoderReads (.smRd 1 0 4), .both (.encBits 8 0xFF), .decoderReads (.icGetk 0)]

/-- The encoder of that session before it is closed. -/
def filled : State := after (.encBits 8 0xFF) (after (.smRd 1 0 4) (after .encStart idle))

/-- The encoder of that session after it is closed. -/
def session : State := after .encDone filled

theorem session_answers :
    Answers .encStart idle 0 (after .encStart idle) ∧ EncodesTo beats (after .encStart idle) filled ∧
    Answers .encDone filled 0 session :=
  ⟨⟨rfl, by decide⟩, ⟨rfl, _, rfl, ⟨_, rfl⟩, _, ⟨rfl, by decide⟩, rfl, rfl⟩, rfl, by decide⟩

/-- A command outside R219's domain that is answered `OK`: its mirror gives back another value. -/
theorem witness_MirrorOfOneCommand_outside :
    mirror (.icCompress 0 0 0 20) = some (.icDecompress 0 0 0, 20) ∧ ¬ InDomain enc (.icCompress 0 0 0 20) ∧
    Answers (.icCompress 0 0 0 20) enc 0 (after (.icCompress 0 0 0 20) enc) ∧ isRead (.icGetk 0) = true :=
  ⟨rfl, by unfold InDomain; decide, ⟨rfl, by decide⟩, rfl⟩

theorem witness_SessionMirror :
    idle.Inv ∧ fed.Inv ∧ fed.mode = .idle ∧ idle.SameModels fed ∧ session.out = idle.out ++ [0x00, 0xFE, 0xFF, 0xFF, 0x01, 0x00] ∧
    fed.source = ([0x00, 0xFE, 0xFF, 0xFF, 0x01, 0x00] : List Byte).map GetAnswer.byte ++ [.byte 0x77] :=
  ⟨idle_inv, ⟨par_ok, by unfold State.Shaped; decide, by unfold State.RecordOk; decide, fun _ => files_ok,
    fun h => absurd h (by decide), fun h => absurd h (by decide)⟩, by decide, ⟨rfl, rfl, rfl, rfl⟩, by decide, by decide⟩

theorem witness_FirstStreamByte :
    idle.Inv ∧ Answers .encStart idle 0 (after .encStart idle) ∧
    ∃ e2 e3, KeepsEncoding [.icCompress 0 0 0 20, .icGetk 0, .rdcsr 0x012, .encStart] (after .encStart idle) e2 ∧
      Answers .encDone e2 0 e3 :=
  ⟨idle_inv, session_answers.1, _, _, ⟨_, rfl, rfl, _, rfl, rfl, _, rfl, rfl, _, rfl, rfl, rfl⟩, rfl, rfl⟩

end Sys2Proof.Tests
end

section
/-! What one step does with the next event of the host: one equation for each kind of event (R9, R101, R291, log 2). -/

namespace Sys2Proof.Machine

open Sys2Proof

theorem step_of_idle_host {s : State} (h : s.inbox = []) : step s = .next s := by
  simp only [step, h]

theorem step_of_hardReset {s : State} {rest : List HostEvent} (h : s.inbox = .hardReset :: rest) :
    step s = .next (resetBlock (s.setInbox rest)) := by
  simp only [step, h]

theorem step_of_decoded {s : State} {p : Packet} {i : Instr} {rest : List HostEvent}
    (h : s.inbox = .command p :: rest) (hd : decode p = .ok i) : step s = exec i (s.setInbox rest) := by
  simp only [step, h, hd]

theorem step_of_undecoded {s : State} {p : Packet} {e : DecodeError} {rest : List HostEvent}
    (h : s.inbox = .command p :: rest) (hd : decode p = .error e) :
    step s = refuseUndecoded (s.setInbox rest) := by
  simp only [step, h, hd]

/-- Settles O3: the two events it speaks of, a packet that decodes and no event, each by its equation of `step`. -/
theorem stepRunsDecodedCommand : Obligations.StepRunsDecodedCommand := by
  intro s
  constructor
  · intro p i rest hinbox hdecode
    exact step_of_decoded hinbox hdecode
  · intro hinbox
    exact step_of_idle_host hinbox

end Sys2Proof.Machine
end

section
/-! Every command keeps the invariant, from every state that satisfies it (R20, R24 to R27, R34, R36 to R38, R161). A command
ends in a refusal, an answer, the fault state or the reset state; only the answers change the coder or the files. -/

namespace Sys2Proof.Machine

open Sys2Proof

/-! ### How the runs of the coding commands end -/

theorem State.Inv.pend_lt {s : State} (h : s.Inv) : s.pend < 2 ^ s.par.pendBits := h.2.1.2.2.2

theorem State.Inv.filesOk {s : State} (h : s.Inv) (hm : s.mode ≠ .fault) : s.FilesOk := h.2.2.2.1 hm

/-- A command whose run returns only states with the invariant keeps it: a run left early still has the parameters, and the
fault state and the reset state satisfy the invariant whatever else they hold. -/
theorem finish_sat_inv {cmd : Word} {s t : State} {r : Run Word} {P : Word → State → Prop} {R : Fault → Prop} (hi : s.Inv)
    (hr : r.Sat P s.Around R) (hP : ∀ v u, P v u → u.Inv) (h : finish cmd r = .next t) : t.Inv :=
  finish_inv (hr.mono hP (fun _ hu => hu.parOk hi.1) fun _ hf => hf) h

/-- The same from the trace of the run, for the bodies of `ENC_DONE` and `DEC_START`. -/
theorem finish_traced_inv {cmd : Word} {s t : State} {r : Run Word} {R A : State → State → Prop} (hi : s.Inv)
    (hr : r.Traced s R A) (hR : ∀ u, R s u → u.par = s.par) (hA : ∀ u, A s u → u.par = s.par)
    (hd : ∀ v u, r = .done v u → u.Inv) (h : finish cmd r = .next t) : t.Inv := by
  have parOk : ∀ u : State, u.par = s.par → u.par.Ok := fun u hu => hu ▸ hi.1
  refine finish_inv (R := fun _ => True) ?_ h
  cases r with
  | done v u => exact hd v u rfl
  | raised e u => exact parOk u (hR u hr)
  | aborted u => exact parOk u (hA u hr.1)
  | stopped f => trivial

theorem noResult_sat {r : Run Unit} {P : State → Prop} {Q : State → Prop} {R : Fault → Prop}
    (h : r.Sat (fun _ t => P t) Q R) : (noResult r).Sat (fun _ t => P t) Q R := h.bind fun _ _ ht => ht

theorem wordResult_sat {r : Run Nat} {P : Nat → State → Prop} {Q : State → Prop} {R : Fault → Prop} (h : r.Sat P Q R) :
    (wordResult r).Sat (fun _ t => ∃ n, P n t) Q R := h.bind fun n _ ht => ⟨n, ht⟩

/-! ### The commands that open and close a session -/

/-- The start and done commands write `MODE`, the coder and the byte stream only. -/
theorem inv_of_session {s t : State} (hi : s.Inv) (hm : s.mode ≠ .fault)
    (ht : t = { s with
      mode := t.mode, low := t.low, len := t.len, cache := t.cache, pend := t.pend, value := t.value,
      out := t.out, sink := t.sink, source := t.source, taken := t.taken })
    (hpend : t.pend < 2 ^ s.par.pendBits) (hmode : t.mode ≠ .fault) (henc : t.mode = .enc → t.EncOk)
    (hdec : t.mode = .dec → t.DecOk) : t.Inv := by
  obtain ⟨hpar, ⟨hsm, hbm, hic, -⟩, ⟨hrec, -⟩, hfiles, -, -⟩ := hi
  have par_eq : t.par = s.par := by rw [ht]
  have sm_eq : t.sm = s.sm := by rw [ht]
  have bm_eq : t.bm = s.bm := by rw [ht]
  have ic_eq : t.ic = s.ic := by rw [ht]
  have cause_eq : t.cause = s.cause := by rw [ht]
  have finfo_eq : t.finfo = s.finfo := by rw [ht]
  refine ⟨by rwa [par_eq], ?_, ⟨fun _ => ?_, fun h => absurd h hmode⟩, fun _ => ?_, henc, hdec⟩
  · unfold State.Shaped
    rw [par_eq, sm_eq, bm_eq, ic_eq]
    exact ⟨hsm, hbm, hic, hpend⟩
  · rw [cause_eq, finfo_eq]
    exact hrec hm
  · exact filesOk_of (hfiles hm) sm_eq bm_eq ic_eq par_eq

theorem encStart_inv {s t : State} (hi : s.Inv) (h : exec .encStart s = .next t) : t.Inv := by
  refine guarded_inv hi h fun hf _ h => ?_
  refine answer_inv (inv_of_session hi hf rfl (Nat.two_pow_pos _) (by simp) (fun _ => ?_) (by simp)) h
  exact ⟨by simp [Config.top, Config.fullLen], by simp [Config.fullLen], by simp, rfl⟩

theorem encDone_inv {s t : State} (hi : s.Inv) (h : exec .encDone s = .next t) : t.Inv := by
  refine guarded_inv hi h fun hf _ h => ?_
  refine finish_traced_inv hi (encDone_traced s) (fun u hu => hu.1) (fun u hu => hu.1) (fun v u hd => ?_) h
  obtain ⟨_, w, hw, hu⟩ := Run.bind_eq_done.mp hd
  cases hu
  have hpend := shiftOuts_pend hw hi.pend_lt
  have hframe := (shiftOuts_frame hw).2
  have hpar : w.par = s.par := by rw [hframe]
  refine inv_of_session hi hf ?_ (hpar ▸ hpend) (by simp) (by simp) (by simp)
  rw [hframe]
  rfl

theorem decStart_inv {s t : State} (hi : s.Inv) (h : exec .decStart s = .next t) : t.Inv := by
  refine guarded_inv hi h fun hf _ h => ?_
  refine finish_traced_inv hi (decStart_traced s) (fun u hu => hu.1) (fun u hu => hu.1) (fun v u hd => ?_) h
  obtain ⟨b, s1, h1, hd⟩ := Run.bind_eq_done.mp hd
  obtain ⟨_, s2, h2, hd⟩ := Run.bind_eq_done.mp hd
  obtain ⟨rest, -, rfl⟩ := getByte_done.mp h1
  obtain ⟨bs, rest', -, -, rfl⟩ := (shiftIns_done 4).mp h2
  cases hd
  exact inv_of_session hi hf rfl (Nat.two_pow_pos _) (by simp) (by simp)
    fun _ => ⟨by simp [Config.top, Config.fullLen], rfl, rfl⟩

theorem decDone_inv {s t : State} (hi : s.Inv) (h : exec .decDone s = .next t) : t.Inv := by
  refine guarded_inv hi h fun hf _ h => ?_
  exact answer_inv (inv_of_session (t := s.setMode .idle) hi hf rfl hi.pend_lt (by simp) (by simp) (by simp)) h

/-! ### The coding commands of the encoder -/

theorem encSym_inv {m : Index} {sym : Word} {s t : State} (hi : s.Inv) (h : exec (.encSym m sym) s = .next t) : t.Inv := by
  refine guarded_inv hi h fun _ hm h => ?_
  have hm : s.mode = .enc := by simpa using hm
  obtain ⟨hp, hfiles, he⟩ := State.Inv.enc hi hm
  split_ifs at h with hslot hvalid hsym
  · exact refuse_inv hi h
  · exact refuse_inv hi h
  · exact refuse_inv hi h
  · have hok : SymOk s m.toNat sym.toNat := ⟨hp, hfiles.smAt _, by simpa using hvalid, by omega⟩
    exact finish_sat_inv hi (noResult_sat (encodeSymbol_sat he hok))
      (fun _ _ ⟨hc, hu⟩ => inv_of_encoded hi hm hu (hc.passed hp hfiles (by omega)) (hc.pend_lt hi.pend_lt)) h

theorem encBit_inv {b : Index} {bit : Word} {s t : State} (hi : s.Inv) (h : exec (.encBit b bit) s = .next t) : t.Inv := by
  refine guarded_inv hi h fun _ hm h => ?_
  have hm : s.mode = .enc := by simpa using hm
  obtain ⟨hp, hfiles, he⟩ := State.Inv.enc hi hm
  split_ifs at h with hslot hvalid hbit
  · exact refuse_inv hi h
  · exact refuse_inv hi h
  · exact refuse_inv hi h
  · have hok : BitOk s b.toNat := ⟨hp, hfiles.bmAt _, by simpa using hvalid⟩
    exact finish_sat_inv hi (noResult_sat (encodeBit_sat _ he hok))
      (fun _ _ ⟨hc, hu⟩ => inv_of_encoded hi hm hu (hc.passed hp hfiles) (hc.pend_lt hi.pend_lt)) h

/-- The operand check of R159 as a bound. -/
theorem rawField_lt {k : Byte} {x : Word} (hk : k.toNat ≤ 32) (h : ¬ (k.toNat < 32 ∧ 2 ^ k.toNat ≤ x.toNat)) :
    x.toNat < 2 ^ k.toNat := by
  rcases hk.lt_or_eq with hlt | heq
  · exact not_le.mp fun hx => h ⟨hlt, hx⟩
  · rw [heq]
    exact x.isLt

theorem encBits_inv {k : Byte} {x : Word} {s t : State} (hi : s.Inv) (h : exec (.encBits k x) s = .next t) : t.Inv := by
  refine guarded_inv hi h fun _ hm h => ?_
  have hm : s.mode = .enc := by simpa using hm
  obtain ⟨-, hfiles, he⟩ := State.Inv.enc hi hm
  split_ifs at h with hwidth hvalue
  · exact refuse_inv hi h
  · exact refuse_inv hi h
  · have hk : k.toNat ≤ 32 := by omega
    exact finish_sat_inv hi (noResult_sat (encodeBits_sat he hk (rawField_lt hk hvalue)))
      (fun _ _ ⟨hc, hu⟩ => inv_of_encoded hi hm hu (hc.passed hfiles) (hc.pend_lt hi.pend_lt)) h

/-- A coding procedure has left the invariant, and a ready compressor remembers the magnitude it coded (R216, R217). -/
theorem remembered_inv {s t : State} {i k : Nat} {inst : IcInst} (hu : IcUsable s inst) (hp : Passed s t) (ht : t.Inv)
    (hk : k ≤ inst.cbits.toNat) : (t.setIc i { inst with k := BitVec.ofNat 6 k }).Inv := by
  obtain ⟨-, -, hok, hready, -⟩ := hu
  exact setIc_inv ht fun _ => hp.1.1 ▸ IcInst.ready_ok hok hready hk

theorem icCompress_inv {i : Byte} {c : Index} {p v : Word} {s t : State} (hi : s.Inv)
    (h : exec (.icCompress i c p v) s = .next t) : t.Inv := by
  refine guarded_inv hi h fun _ hm h => ?_
  have hm : s.mode = .enc := by simpa using hm
  obtain ⟨hp, hfiles, he⟩ := State.Inv.enc hi hm
  split_ifs at h with hindex hst hctx hmodels hmag
  · exact refuse_inv hi h
  · exact refuse_inv hi h
  · exact refuse_inv hi h
  · exact refuse_inv hi h
  · exact refuse_inv hi h
  · have hu : IcUsable s (s.icAt i.toNat) := ⟨hp, hfiles, hfiles.icAt _, not_not.mp hst, by simpa using hmodels⟩
    refine finish_sat_inv hi (compressCorrector_sat he hu (by omega) (by omega)) ?_ h
    rintro _ _ ⟨-, w, u, hsym, hcorr, henc, hpass, rfl⟩
    have hpend := hcorr.pend_lt (hsym.pend_lt hi.pend_lt)
    exact remembered_inv hu hpass (inv_of_encoded hi hm henc hpass hpend) (by omega)

/-! ### The coding commands of the decoder -/

theorem decSym_inv {m : Index} {s t : State} (hi : s.Inv) (h : exec (.decSym m) s = .next t) : t.Inv := by
  refine guarded_inv hi h fun _ hm h => ?_
  have hm : s.mode = .dec := by simpa using hm
  obtain ⟨hp, hfiles, hd⟩ := State.Inv.dec hi hm
  split_ifs at h with hslot hvalid
  · exact refuse_inv hi h
  · exact refuse_inv hi h
  · have hok : ModelOk s m.toNat := ⟨hp, hfiles.smAt _, by simpa using hvalid⟩
    exact finish_sat_inv hi (wordResult_sat (decodeSymbol_sat hd hok))
      (fun _ _ ⟨_, hc, hu⟩ => inv_of_decoded hi hm hu (hc.passed hp hfiles)) h

theorem decBit_inv {b : Index} {s t : State} (hi : s.Inv) (h : exec (.decBit b) s = .next t) : t.Inv := by
  refine guarded_inv hi h fun _ hm h => ?_
  have hm : s.mode = .dec := by simpa using hm
  obtain ⟨hp, hfiles, hd⟩ := State.Inv.dec hi hm
  split_ifs at h with hslot hvalid
  · exact refuse_inv hi h
  · exact refuse_inv hi h
  · have hok : BitOk s b.toNat := ⟨hp, hfiles.bmAt _, by simpa using hvalid⟩
    exact finish_sat_inv hi (wordResult_sat (decodeBit_sat hd hok))
      (fun _ _ ⟨_, ⟨_, _, hc⟩, hu⟩ => inv_of_decoded hi hm hu (hc.passed hp hfiles)) h

theorem decBits_inv {k : Byte} {s t : State} (hi : s.Inv) (h : exec (.decBits k) s = .next t) : t.Inv := by
  refine guarded_inv hi h fun _ hm h => ?_
  have hm : s.mode = .dec := by simpa using hm
  obtain ⟨-, hfiles, hd⟩ := State.Inv.dec hi hm
  split_ifs at h with hwidth
  · exact refuse_inv hi h
  · exact finish_sat_inv hi (wordResult_sat (decodeBits_sat hd (by omega)))
      (fun _ _ ⟨_, hc, hu⟩ => inv_of_decoded hi hm hu (hc.passed hfiles)) h

theorem icDecompress_inv {i : Byte} {c : Index} {p : Word} {s t : State} (hi : s.Inv)
    (h : exec (.icDecompress i c p) s = .next t) : t.Inv := by
  refine guarded_inv hi h fun _ hm h => ?_
  have hm : s.mode = .dec := by simpa using hm
  obtain ⟨hp, hfiles, hd⟩ := State.Inv.dec hi hm
  split_ifs at h with hindex hst hctx hmodels
  · exact refuse_inv hi h
  · exact refuse_inv hi h
  · exact refuse_inv hi h
  · exact refuse_inv hi h
  · have hu : IcUsable s (s.icAt i.toNat) := ⟨hp, hfiles, hfiles.icAt _, not_not.mp hst, by simpa using hmodels⟩
    refine finish_sat_inv hi (decompressValue_sat hd hu (by omega)) ?_ h
    rintro _ _ ⟨w, u, k, corr, -, hk, -, hdec, hpass, -, rfl⟩
    exact remembered_inv hu hpass (inv_of_decoded hi hm hdec hpass) hk

/-! ### The commands that set up the files -/

theorem smInit_inv {m : Index} {n : Word} {s t : State} (hi : s.Inv) (h : exec (.smInit m n) s = .next t) : t.Inv := by
  refine guarded_inv hi h fun _ _ h => ?_
  split_ifs at h with hslot hsize
  · exact refuse_inv hi h
  · exact refuse_inv hi h
  · exact answer_inv (setSm_inv hi fun _ => SmSlot.fresh_ok hi.1 (by omega) (by omega)) h

theorem bmInit_inv {b : Index} {s t : State} (hi : s.Inv) (h : exec (.bmInit b) s = .next t) : t.Inv := by
  refine guarded_inv hi h fun _ _ h => ?_
  split_ifs at h with hslot
  · exact refuse_inv hi h
  · exact answer_inv (setBm_inv hi fun _ => BmSlot.fresh_ok hi.1) h

/-- What `IC_CONFIG` writes is as R37 says, with `B` and `range` in the ranges of R210. -/
theorem IcInst.configured_ok (p : Params) {b range : Word} (hb : ¬ (b.toNat < 1 ∨ b.toNat > 32))
    (hr : ¬ (range.toNat = 1 ∨ range.toNat > 2 ^ 31)) : (IcInst.configured b range).Ok p := by
  have hbits : (b.setWidth 6).toNat = b.toNat := by
    rw [BitVec.toNat_setWidth]
    exact Nat.mod_eq_of_lt (by omega)
  have hback : ((b.setWidth 6).setWidth 32).setWidth 6 = b.setWidth 6 := by
    apply BitVec.eq_of_toNat_eq
    simp
  refine ⟨⟨?_, ?_, ?_, ?_⟩, ?_⟩
  · show 1 ≤ (b.setWidth 6).toNat
    omega
  · show (b.setWidth 6).toNat ≤ 32
    omega
  · show range.toNat ≠ 1
    omega
  · show range.toNat ≤ 2 ^ 31
    omega
  · simp only [IcInst.configured, hback]

theorem icConfig_inv {i : Byte} {b range : Word} {s t : State} (hi : s.Inv)
    (h : exec (.icConfig i b range) s = .next t) : t.Inv := by
  refine guarded_inv hi h fun _ _ h => ?_
  split_ifs at h with hindex hbits hrange
  · exact refuse_inv hi h
  · exact refuse_inv hi h
  · exact refuse_inv hi h
  · exact answer_inv (setIc_inv hi fun _ => IcInst.configured_ok s.par hbits hrange) h

theorem icSetup_inv {i : Byte} {c : Index} {bh zero : Byte} {smbase bmslot : Index} {s t : State} (hi : s.Inv)
    (h : exec (.icSetup i c bh zero smbase bmslot) s = .next t) : t.Inv := by
  refine guarded_inv hi h fun _ _ h => ?_
  split_ifs at h with hindex hst hrange hslots hbit
  · exact refuse_inv hi h
  · exact refuse_inv hi h
  · exact refuse_inv hi h
  · exact refuse_inv hi h
  · exact refuse_inv hi h
  · refine answer_inv (setIc_inv hi fun hm => ?_) h
    exact IcInst.withSetup_ok ((hi.filesOk hm).icAt _) hst (by omega) (by omega) (by omega) (by omega)

/-- What R37 says after `IC_SETUP`, whether or not the models were initialised. -/
theorem IcInst.Ok.of_setup {p : Params} {inst : IcInst} (h : inst.Ok p) (hs : ¬ (inst.st = .unconf ∨ inst.st = .conf)) :
    inst.ConfigOk ∧ inst.range = 0 ∧ inst.CorrectorOk ∧ inst.SlotsOk p := by
  unfold IcInst.Ok at h
  cases hst : inst.st with
  | unconf => exact absurd (.inl hst) hs
  | conf => exact absurd (.inr hst) hs
  | setup =>
    rw [hst] at h
    obtain ⟨hcfg, hrange, hcorr, hslots, -⟩ := h
    exact ⟨hcfg, hrange, hcorr, hslots⟩
  | ready =>
    rw [hst] at h
    obtain ⟨hcfg, hrange, hcorr, hslots, -⟩ := h
    exact ⟨hcfg, hrange, hcorr, hslots⟩

theorem initBitModel_inv (inst : IcInst) {s : State} (hi : s.Inv) : (initBitModel inst s).Inv := by
  unfold initBitModel
  split
  · exact setBm_inv hi fun _ => BmSlot.fresh_ok hi.1
  · exact hi

theorem FilesOnly.par_eq {s t : State} (h : FilesOnly s t) : t.par = s.par := by rw [h.1]

theorem icInit_inv {i : Byte} {s t : State} (hi : s.Inv) (h : exec (.icInit i) s = .next t) : t.Inv := by
  refine guarded_inv hi h fun hf _ h => ?_
  split_ifs at h with hindex hst
  · exact refuse_inv hi h
  · exact refuse_inv hi h
  · have hok := (hi.filesOk hf).icAt i.toNat
    generalize s.icAt i.toNat = inst at hok hst h
    obtain ⟨hcfg, hrange, hcorr, hslots⟩ := hok.of_setup hst
    have hmag := initMagModels_files inst inst.ctx.toNat s
    have hval := hmag.trans (initValModels_files inst inst.nv _)
    have hall := hval.trans (initBitModel_files inst _)
    have hmagInv := initMagModels_inv inst inst.ctx.toNat hi hcorr.2.1
    have hvalInv := initValModels_inv inst inst.nv hmagInv
      (by rw [hmag.par_eq]; exact (Nat.min_le_right _ _).trans hslots.2.1)
    refine answer_inv (setIc_inv (initBitModel_inv inst hvalInv) fun _ => ?_) h
    rw [hall.par_eq]
    exact ⟨hcfg, hrange, hcorr, hslots, Nat.zero_le _⟩

/-! ### The system and read commands -/

theorem srst_inv {s t : State} (hi : s.Inv) (h : exec .srst s = .next t) : t.Inv := answer_inv (resetBlock_inv hi.1) h

theorem rdcsr_inv {csr : Index} {s t : State} (hi : s.Inv) (h : exec (.rdcsr csr) s = .next t) : t.Inv := by
  change execRdcsr csr s = .next t at h
  unfold execRdcsr at h
  split at h
  · exact refuse_inv hi h
  · split at h
    · exact refuse_inv hi h
    · exact answer_inv hi h

theorem smRd_inv {sel : Byte} {m : Index} {j : Word} {s t : State} (hi : s.Inv)
    (h : exec (.smRd sel m j) s = .next t) : t.Inv := by
  refine guarded_inv hi h fun _ _ h => ?_
  split_ifs at h
  · exact refuse_inv hi h
  · exact refuse_inv hi h
  · exact refuse_inv hi h
  · exact answer_inv hi h
  · exact refuse_inv hi h
  · exact answer_inv hi h
  · exact answer_inv hi h

theorem bmRd_inv {b : Index} {s t : State} (hi : s.Inv) (h : exec (.bmRd b) s = .next t) : t.Inv := by
  refine guarded_inv hi h fun _ _ h => ?_
  split_ifs at h
  · exact refuse_inv hi h
  · exact refuse_inv hi h
  · exact answer_inv hi h

theorem icGetk_inv {i : Byte} {s t : State} (hi : s.Inv) (h : exec (.icGetk i) s = .next t) : t.Inv := by
  refine guarded_inv hi h fun _ _ h => ?_
  split_ifs at h
  · exact refuse_inv hi h
  · exact refuse_inv hi h
  · exact answer_inv hi h

/-! ### All commands, and the step -/

theorem exec_inv {i : Instr} {s t : State} (hi : s.Inv) (h : exec i s = .next t) : t.Inv := by
  cases i with
  | srst => exact srst_inv hi h
  | rdcsr csr => exact rdcsr_inv hi h
  | smInit m n => exact smInit_inv hi h
  | bmInit b => exact bmInit_inv hi h
  | smRd sel m j => exact smRd_inv hi h
  | bmRd b => exact bmRd_inv hi h
  | encStart => exact encStart_inv hi h
  | encSym m sym => exact encSym_inv hi h
  | encBit b bit => exact encBit_inv hi h
  | encBits k x => exact encBits_inv hi h
  | encDone => exact encDone_inv hi h
  | decStart => exact decStart_inv hi h
  | decSym m => exact decSym_inv hi h
  | decBit b => exact decBit_inv hi h
  | decBits k => exact decBits_inv hi h
  | decDone => exact decDone_inv hi h
  | icConfig i b range => exact icConfig_inv hi h
  | icSetup i c bh zero smbase bmslot => exact icSetup_inv hi h
  | icInit i => exact icInit_inv hi h
  | icCompress i c p v => exact icCompress_inv hi h
  | icDecompress i c p => exact icDecompress_inv hi h
  | icGetk i => exact icGetk_inv hi h

theorem refuseUndecoded_inv {s t : State} (hi : s.Inv) (h : refuseUndecoded s = .next t) : t.Inv := by
  unfold refuseUndecoded at h
  split at h
  · exact refuse_inv hi h
  · exact refuse_inv hi h

/-- The invariant says nothing of the host's events. -/
theorem setInbox_inv {s : State} {rest : List HostEvent} (hi : s.Inv) : (s.setInbox rest).Inv := hi

/-- Settles O57: by the next event of the host, and for a command that decodes by the command. -/
theorem stepKeepsInvariant : Obligations.StepKeepsInvariant := by
  intro s t hi h
  match hinbox : s.inbox with
  | [] =>
    rw [step_of_idle_host hinbox] at h
    cases h
    exact hi
  | .hardReset :: rest =>
    rw [step_of_hardReset hinbox] at h
    cases h
    exact resetBlock_inv hi.1
  | .command p :: rest =>
    cases hdecode : decode p with
    | ok i =>
      rw [step_of_decoded hinbox hdecode] at h
      exact exec_inv (setInbox_inv hi) h
    | error e =>
      rw [step_of_undecoded hinbox hdecode] at h
      exact refuseUndecoded_inv (setInbox_inv hi) h

end Sys2Proof.Machine
end

section
/-! The words of a packet through the decoder and back (R91, R95, R96, R98, R99). -/

namespace Sys2Proof

/-! ### The formats -/

theorem decodeZ_eq_ok {p : Packet} {i j : Instr} : decodeZ p i = .ok j ↔ i = j ∧ p.f1 = 0 ∧ p.f2 = 0 := by
  unfold decodeZ
  split <;> simp_all

theorem decodeS_eq_ok {p : Packet} {i j : Instr} : decodeS p i = .ok j ↔ i = j ∧ p.f1 = 0 := by
  unfold decodeS
  split <;> simp_all

theorem decodeK_eq_ok {p : Packet} {i j : Instr} : decodeK p i = .ok j ↔ i = j ∧ p.f2 = 0 := by
  unfold decodeK
  split <;> simp_all

theorem decodeZ_eq_error {p : Packet} {i : Instr} {e : DecodeError} :
    decodeZ p i = .error e ↔ e = .reservedField ∧ ¬ (p.f1 = 0 ∧ p.f2 = 0) := by
  unfold decodeZ
  split <;> simp_all [eq_comm]

theorem decodeS_eq_error {p : Packet} {i : Instr} {e : DecodeError} :
    decodeS p i = .error e ↔ e = .reservedField ∧ p.f1 ≠ 0 := by
  unfold decodeS
  split <;> simp_all [eq_comm]

theorem decodeK_eq_error {p : Packet} {i : Instr} {e : DecodeError} :
    decodeK p i = .error e ↔ e = .reservedField ∧ p.f2 ≠ 0 := by
  unfold decodeK
  split <;> simp_all [eq_comm]

/-! ### The words a command uses -/

theorem Packet.fields_of_cmd {p q : Packet} (hc : q.cmd = p.cmd) : q.opc = p.opc ∧ q.f1 = p.f1 ∧ q.f2 = p.f2 := by
  unfold Packet.opc Packet.f1 Packet.f2
  rw [hc]
  exact ⟨rfl, rfl, rfl⟩

/-- The packet with its ignored words set to 0 (R98). -/
def Packet.used (p : Packet) : Packet :=
  ⟨p.cmd, if p.opc.toNat ∈ opcodesWithA0 then p.a0 else 0, if p.opc.toNat ∈ opcodesWithA1 then p.a1 else 0⟩

/-- Two packets with the same `CMD` that agree on the words R95 uses. -/
theorem Packet.used_eq {p q : Packet} (hc : q.cmd = p.cmd) (h0 : p.opc.toNat ∈ opcodesWithA0 → q.a0 = p.a0)
    (h1 : p.opc.toNat ∈ opcodesWithA1 → q.a1 = p.a1) : q.used = p.used := by
  obtain ⟨hopc, -, -⟩ := Packet.fields_of_cmd hc
  rw [Packet.used, Packet.used, hopc, hc]
  congr 1
  · exact if_ctx_congr Iff.rfl h0 fun _ => rfl
  · exact if_ctx_congr Iff.rfl h1 fun _ => rfl

/-- A command whose encoding has a packet's fields and its used words; the opcode as the number in the decoder's cases. -/
theorem encode_eq_used {p : Packet} {i : Instr} {n : Nat} {f1 : Byte} {f2 : Index} (ho : p.opc.toNat = n)
    (h1 : p.f1 = f1) (h2 : p.f2 = f2)
    (hi : encode i = ⟨cmdWord (BitVec.ofNat 8 n) f1 f2, if n ∈ opcodesWithA0 then p.a0 else 0,
      if n ∈ opcodesWithA1 then p.a1 else 0⟩) : encode i = p.used := by
  have hopc : p.opc = BitVec.ofNat 8 n := by rw [← ho, BitVec.ofNat_toNat, BitVec.setWidth_eq]
  rw [hi, Packet.used, ← p.cmdWord_fields, hopc, h1, h2, ← hopc, ho]

/-- The packed operands of `IC_SETUP` in `A0` are the word (R99). -/
theorem a0_of_slices (w : Word) : w.extractLsb' 24 8 ++ w.extractLsb' 16 8 ++ w.extractLsb' 0 16 = w :=
  (Packet.mk w 0 0).cmdWord_fields

/-- The packed operands of `IC_SETUP` in `A1` are the word (R99). -/
theorem a1_of_slices (w : Word) : w.extractLsb' 16 16 ++ w.extractLsb' 0 16 = w := by
  apply BitVec.eq_of_toNat_eq
  rw [append_toNat, BitVec.extractLsb'_toNat, BitVec.extractLsb'_toNat, Nat.shiftRight_eq_div_pow]
  have := w.isLt
  omega

/-- What was decoded encodes to the packet that came, its ignored words apart. The cases are the rows of R95, by format. -/
theorem encode_of_decode {p : Packet} {i : Instr} (h : decode p = .ok i) : encode i = p.used := by
  unfold decode at h
  split at h
  case h_1 ho | h_7 ho | h_11 ho | h_12 ho | h_16 ho =>
    obtain ⟨rfl, h1, h2⟩ := decodeZ_eq_ok.mp h
    exact encode_eq_used ho h1 h2 rfl
  case h_2 ho | h_3 ho | h_4 ho | h_6 ho | h_8 ho | h_9 ho | h_13 ho | h_14 ho =>
    obtain ⟨rfl, h1⟩ := decodeS_eq_ok.mp h
    exact encode_eq_used ho h1 rfl rfl
  case h_10 ho | h_15 ho | h_17 ho | h_19 ho | h_22 ho =>
    obtain ⟨rfl, h2⟩ := decodeK_eq_ok.mp h
    exact encode_eq_used ho rfl h2 rfl
  case h_18 ho =>
    obtain ⟨rfl, h2⟩ := decodeK_eq_ok.mp h
    refine encode_eq_used ho rfl h2 ?_
    rw [encode, a0_of_slices, a1_of_slices]
    rfl
  case h_5 ho | h_20 ho | h_21 ho =>
    cases h
    exact encode_eq_used ho rfl rfl rfl
  case h_23 => cases h

/-- The slices that `IC_SETUP` reads of a word it packed (R99). -/
theorem slices_of_a0 (x y : Byte) (z : Index) :
    (x ++ y ++ z : Word).extractLsb' 24 8 = x ∧ (x ++ y ++ z : Word).extractLsb' 16 8 = y ∧
    (x ++ y ++ z : Word).extractLsb' 0 16 = z :=
  ⟨cmdWord_opc x y z 0 0, cmdWord_f1 x y z 0 0, cmdWord_f2 x y z 0 0⟩

theorem slices_of_a1 (x y : Index) : (x ++ y : Word).extractLsb' 16 16 = x ∧ (x ++ y : Word).extractLsb' 0 16 = y := by
  constructor
  · apply BitVec.eq_of_toNat_eq
    rw [BitVec.extractLsb'_toNat, append_toNat, Nat.shiftRight_eq_div_pow]
    omega
  · apply BitVec.eq_of_toNat_eq
    rw [BitVec.extractLsb'_toNat, append_toNat, Nat.shiftRight_zero]
    omega

theorem decode_encode (i : Instr) : decode (encode i) = .ok i := by
  cases i with
  | icSetup i c bh zero smbase bmslot =>
    obtain ⟨hzero, hbh, hc⟩ := slices_of_a0 zero bh c
    obtain ⟨hslot, hbase⟩ := slices_of_a1 bmslot smbase
    simp [decode, encode, decodeK, hzero, hbh, hc, hslot, hbase]
  | _ => simp [decode, encode, decodeZ, decodeS, decodeK]

/-- Whether a packet is a command, and why not, depends on its `CMD` word alone (R96, R97, R98). -/
theorem decode_error_of_cmd {p q : Packet} {e : DecodeError} (hc : q.cmd = p.cmd) (h : decode p = .error e) :
    decode q = .error e := by
  obtain ⟨hopc, hf1, hf2⟩ := Packet.fields_of_cmd hc
  unfold decode at h
  split at h
  case h_1 ho | h_7 ho | h_11 ho | h_12 ho | h_16 ho =>
    simp only [decode, hopc, ho]
    rw [decodeZ_eq_error] at h ⊢
    rwa [hf1, hf2]
  case h_2 ho | h_3 ho | h_4 ho | h_6 ho | h_8 ho | h_9 ho | h_13 ho | h_14 ho =>
    simp only [decode, hopc, ho]
    rw [decodeS_eq_error] at h ⊢
    rwa [hf1]
  case h_10 ho | h_15 ho | h_17 ho | h_18 ho | h_19 ho | h_22 ho =>
    simp only [decode, hopc, ho]
    rw [decodeK_eq_error] at h ⊢
    rwa [hf2]
  case h_5 | h_20 | h_21 => cases h
  case h_23 => simp_all [decode]

/-- A packet decodes as it does without its ignored words (R98). -/
theorem decode_used (p : Packet) : decode p.used = decode p := by
  cases h : decode p with
  | ok i => rw [← encode_of_decode h, decode_encode]
  | error e => exact decode_error_of_cmd (p := p) (q := p.used) rfl h

/-- Settles O8: what was decoded encodes to the used words, and only they decide what is decoded. -/
theorem decodeKeepsCommandWord : Obligations.DecodeKeepsCommandWord := by
  intro p q opc hopc
  rw [← p.opc_toNat] at hopc
  subst hopc
  refine ⟨fun i h => ?_, fun hc h0 h1 => ?_, fun hc e => decode_error_of_cmd hc⟩
  · rw [encode_of_decode h]
    exact ⟨rfl, fun h0 => if_pos h0, fun h1 => if_pos h1⟩
  · rw [← decode_used q, Packet.used_eq hc h0 h1, decode_used]

end Sys2Proof
end

section
/-! What a command can do to `MODE` and to the `VALID` bits, from the shape of its outcome (R23, R40, R270, R290). -/

namespace Sys2Proof.Machine

open Sys2Proof

/-- The reset of the block is the reset state of R290. -/
theorem resetBlock_isReset (s : State) : (resetBlock s).IsReset := by
  refine ⟨rfl, rfl, rfl, rfl, by simp [State.carry, resetBlock], rfl, rfl, rfl, rfl, by simp [resetBlock],
    by simp [resetBlock], by simp [resetBlock], fun sl h => ?_, fun sl h => ?_, fun inst h => List.eq_of_mem_replicate h, rfl⟩
  · obtain ⟨m, -, rfl⟩ := List.mem_map.mp h
    rfl
  · obtain ⟨b, -, rfl⟩ := List.mem_map.mp h
    rfl

/-- The five ways a command can end, for every command and from every state. -/
inductive Ends (i : Instr) (s : State) : State → Prop where
  /-- A refusal (R260). -/
  | refused (e : Status) : Ends i s (s.respond e 0)
  /-- `SRST` (R250). -/
  | reset (hi : i = .srst) : Ends i s ((resetBlock s).respond .ok 0)
  /-- An answer `OK`, which clears no `VALID` bit. -/
  | answered (u : State) (v : Word) (hm : ModeMoves i s u) (hv : KeepsValid s u) : Ends i s (u.respond .ok v)
  /-- A sticky fault (R270). -/
  | faulted (u : State) (e : Sticky) (cmd : Word) (hp : u.par = s.par) (hr : u.responses = s.responses)
      (hv : KeepsValid s u) : Ends i s (takeFault u e cmd)
  /-- The hard reset during a blocked transfer (R291). -/
  | abandoned (u : State) (hu : ¬ s.Undisturbed) (hr : u.responses = s.responses) : Ends i s (resetBlock u)

/-- How a command ends that began to execute, from the trace of its run (R260, R270, R291). -/
theorem finish_ends {i : Instr} {cmd : Word} {s t : State} {r : Run Word} {R A : State → State → Prop}
    (hr : r.Traced s R A) (hR : ∀ u, R s u → u.par = s.par ∧ u.responses = s.responses ∧ KeepsValid s u)
    (hA : ∀ u, A s u → u.responses = s.responses) (hd : ∀ v u, r = .done v u → ModeMoves i s u)
    (h : finish cmd r = .next t) : Ends i s t := by
  cases r with
  | done v u =>
    cases h
    exact .answered u v (hd v u rfl) (hR u hr).2.2
  | raised e u =>
    cases h
    obtain ⟨hpar, hresp, hvalid⟩ := hR u hr
    exact .faulted u e cmd hpar hresp hvalid
  | aborted u =>
    cases h
    obtain ⟨hleft, hdisturbed⟩ := hr
    exact .abandoned u hdisturbed (hA u hleft)
  | stopped f => cases h

theorem EncMoved.keeps {s u : State} (h : EncMoved s u) :
    u.par = s.par ∧ u.responses = s.responses ∧ KeepsValid s u := by
  obtain ⟨hpar, -, hresp, -, -, -, -, hvalid⟩ := h
  exact ⟨hpar, hresp, hvalid⟩

theorem DecMoved.keeps {s u : State} (h : DecMoved s u) :
    u.par = s.par ∧ u.responses = s.responses ∧ KeepsValid s u := by
  obtain ⟨hpar, -, hresp, -, -, -, -, hvalid⟩ := h
  exact ⟨hpar, hresp, hvalid⟩

theorem exec_ends {i : Instr} {s t : State} (h : exec i s = .next t) : Ends i s t := by
  have hshape := exec_shape i s
  generalize exec i s = o at hshape h
  cases hshape with
  | refused e =>
    cases h
    exact .refused e
  | reset hi =>
    cases h
    exact .reset hi
  | answered u v _ _ _ _ hm hv =>
    cases h
    exact .answered u v hm hv
  | encoded r _ _ _ ht hd =>
    exact finish_ends ht (fun _ => EncMoved.keeps) (fun _ hu => hu.keeps.2.1) (fun v u hr => (hd v u hr).2) h
  | decoded r _ _ _ ht hd =>
    exact finish_ends ht (fun _ => DecMoved.keeps) (fun _ ⟨_, _, hresp, _⟩ => hresp) (fun v u hr => (hd v u hr).2) h

/-- Settles O15, by the way the command ends. -/
theorem modeWriters : Obligations.ModeWriters := by
  intro i s t h hne
  cases exec_ends h with
  | refused e => exact absurd rfl hne
  | reset hi => exact .inr (.inr (.inr (.inr (.inl ⟨resetBlock_isReset s, .inl hi⟩))))
  | answered u v hm hv =>
    obtain hm | hm | hm | hm | hm := hm
    · exact absurd hm hne
    · exact .inl hm
    · exact .inr (.inl hm)
    · exact .inr (.inr (.inl hm))
    · exact .inr (.inr (.inr (.inl hm)))
  | faulted u e cmd hp hr hv =>
    refine .inr (.inr (.inr (.inr (.inr ⟨rfl, ⟨e.status, 0⟩, ?_, ?_⟩))))
    · rw [takeFault_responses, hr]
    · cases e with
      | io => exact .inl rfl
      | pendovf => exact .inr rfl
  | abandoned u hu hr => exact .inr (.inr (.inr (.inr (.inl ⟨resetBlock_isReset u, .inr hr⟩))))

theorem takeFault_smAt {s : State} {m : Nat} (e : Sticky) (cmd : Word) (hm : m < s.par.nsm) :
    (takeFault s e cmd).smAt m = s.freeSm ((s.smAt m).valid || s.freeBool (.smValid m)) m := by
  simp [takeFault, State.smAt, List.getD_eq_getElem?_getD, hm]

theorem takeFault_bmAt {s : State} {b : Nat} (e : Sticky) (cmd : Word) (hb : b < s.par.nbm) :
    (takeFault s e cmd).bmAt b = s.freeBm ((s.bmAt b).valid || s.freeBool (.bmValid b)) b := by
  simp [takeFault, State.bmAt, List.getD_eq_getElem?_getD, hb]

/-- A slot that is valid when the fault is taken is valid in the fault state (R40; log 9). -/
theorem takeFault_keeps_valid {s : State} (e : Sticky) (cmd : Word) :
    (∀ m, m < s.par.nsm → (s.smAt m).valid = true → ((takeFault s e cmd).smAt m).valid = true) ∧
    (∀ b, b < s.par.nbm → (s.bmAt b).valid = true → ((takeFault s e cmd).bmAt b).valid = true) := by
  constructor
  · intro m hm hv
    rw [takeFault_smAt e cmd hm, hv]
    rfl
  · intro b hb hv
    rw [takeFault_bmAt e cmd hb, hv]
    rfl

/-- Settles O17, by the way the command ends: only a reset clears the bits, and neither reset can come. -/
theorem onlyResetClearsValid : Obligations.OnlyResetClearsValid := by
  intro i s t hquiet hi h
  cases exec_ends h with
  | refused e => exact ⟨fun _ _ hv => hv, fun _ _ hv => hv⟩
  | reset hsrst => exact absurd hsrst hi
  | answered u v hm hv => exact ⟨fun m _ => hv.1 m, fun b _ => hv.2 b⟩
  | faulted u e cmd hp hr hv =>
    obtain ⟨hsm, hbm⟩ := takeFault_keeps_valid (s := u) e cmd
    rw [hp] at hsm hbm
    exact ⟨fun m hm hvalid => hsm m hm (hv.1 m hvalid), fun b hb hvalid => hbm b hb (hv.2 b hvalid)⟩
  | abandoned u hu hr => exact absurd hquiet hu

end Sys2Proof.Machine
end

section
/-! The numbers `RDCSR` reads: the map of R41 as a function and as a table say the same (R41, R251). -/

namespace Sys2Proof.Machine

open Sys2Proof

/-- The registers of the coder and the record, the first rows of R41's table. -/
def State.coderCsrs (s : State) : List (Nat × Word) :=
  [(0x000, BitVec.ofNat 32 s.mode.code), (0x001, s.cause.setWidth 32), (0x002, s.finfo),
   (0x010, s.low.extractLsb' 0 32), (0x011, (s.low.extractLsb' 32 1).setWidth 32), (0x012, s.len),
   (0x013, s.cache.setWidth 32), (0x014, BitVec.ofNat 32 s.pend), (0x015, s.value)]

/-- A number of the table is one of the fixed rows or a row of one compressor. -/
theorem mem_csrTable {s : State} {n : Nat} {v : Word} :
    (n, v) ∈ csrTable s ↔ (n, v) ∈ s.coderCsrs ∨ ∃ i, i < s.par.nic ∧ (n, v) ∈ icCsrs i (s.icAt i) := by
  rw [csrTable, List.mem_append, List.mem_flatMap]
  simp only [List.mem_range]
  rfl

/-- `LOW` without its carry flag (R26). -/
theorem low_word (x : BitVec 33) : x.extractLsb' 0 32 = x.setWidth 32 := by
  apply BitVec.eq_of_toNat_eq
  simp

/-- `CARRY` as its bit of `LOW` and as a number (R26, R40). -/
theorem State.carry_word (s : State) : (s.low.extractLsb' 32 1).setWidth 32 = BitVec.ofNat 32 s.carryNat := by
  apply BitVec.eq_of_toNat_eq
  have hlow := s.low.isLt
  rw [BitVec.toNat_setWidth, BitVec.extractLsb'_toNat, Nat.shiftRight_eq_div_pow, BitVec.toNat_ofNat, State.carryNat,
    State.carry_eq]
  by_cases hcarry : 2 ^ 32 ≤ s.low.toNat
  · rw [decide_eq_true hcarry, if_pos rfl]
    omega
  · rw [decide_eq_false hcarry, if_neg Bool.false_ne_true]
    omega

theorem State.mem_coderCsrs {s : State} {n : Nat} {v : Word} (hn : n < 0x100) :
    (n, v) ∈ s.coderCsrs ↔ s.csr n = some v := by
  unfold State.csr
  split
  case h_10 => -- a number that is in no fixed row
    rw [if_neg (by omega)]
    simp_all [State.coderCsrs]
  all_goals simp [State.coderCsrs, low_word, State.carry_word, eq_comm]

theorem State.lt_of_mem_coderCsrs {s : State} {n : Nat} {v : Word} (h : (n, v) ∈ s.coderCsrs) : n ≤ 0x15 := by
  simp only [State.coderCsrs, List.mem_cons, Prod.mk.injEq, List.not_mem_nil, or_false] at h
  omega

theorem IcInst.csr_lt {inst : IcInst} {off : Nat} {v : Word} (h : inst.csr off = some v) : off < 12 := by
  unfold IcInst.csr at h
  split at h
  case h_13 => cases h
  all_goals omega

/-- The rows of one compressor are the offsets at which it has a field. -/
theorem icCsrs_eq (i : Nat) (inst : IcInst) :
    icCsrs i inst = (List.range 12).filterMap fun off => (inst.csr off).map fun v => (0x100 + 16 * i + off, v) := rfl

theorem mem_icCsrs {i n : Nat} {inst : IcInst} {v : Word} :
    (n, v) ∈ icCsrs i inst ↔ ∃ off, n = 0x100 + 16 * i + off ∧ inst.csr off = some v := by
  simp only [icCsrs_eq, List.mem_filterMap, List.mem_range, Option.map_eq_some_iff, Prod.mk.injEq]
  constructor
  · rintro ⟨off, -, _, hv, hn, rfl⟩
    exact ⟨off, hn.symm, hv⟩
  · rintro ⟨off, hn, hv⟩
    exact ⟨off, IcInst.csr_lt hv, v, hv, hn.symm, rfl⟩

theorem State.csr_of_ge {s : State} {n : Nat} (hn : 0x100 ≤ n) : s.csr n =
    if (n - 0x100) / 16 < s.par.nic then (s.icAt ((n - 0x100) / 16)).csr ((n - 0x100) % 16) else none := by
  unfold State.csr
  split
  case h_10 => simp only [hn, true_and]; rfl
  all_goals omega

/-- The table of R41 has exactly the numbers that name a register, with its bits. -/
theorem mem_csrTable_iff {s : State} {n : Nat} {v : Word} : (n, v) ∈ csrTable s ↔ s.csr n = some v := by
  rw [mem_csrTable]
  rcases lt_or_ge n 0x100 with hn | hn
  · rw [← State.mem_coderCsrs hn, or_iff_left]
    rintro ⟨i, -, hrow⟩
    obtain ⟨off, hoff, -⟩ := mem_icCsrs.mp hrow
    omega
  · rw [State.csr_of_ge hn, or_iff_right (fun h => by have := State.lt_of_mem_coderCsrs h; omega)]
    constructor
    · rintro ⟨i, hi, hrow⟩
      obtain ⟨off, hoff, hv⟩ := mem_icCsrs.mp hrow
      have hlt := IcInst.csr_lt hv
      have hindex : (n - 0x100) / 16 = i := by omega
      have hrest : (n - 0x100) % 16 = off := by omega
      simp only [hindex, hrest, hv, if_pos hi]
    · intro hv
      obtain ⟨hi, hv⟩ := Option.ite_none_right_eq_some.mp hv
      exact ⟨_, hi, mem_icCsrs.mpr ⟨_, by omega, hv⟩⟩

/-- A register's number fits the operand field of `RDCSR` for every `NIC` that R5 allows. -/
theorem csr_number_lt {s : State} {n : Nat} {v : Word} (hnic : s.par.nic ≤ 240) (h : (n, v) ∈ csrTable s) :
    n < 2 ^ 16 := by
  rcases mem_csrTable.mp h with hrow | ⟨i, hi, hrow⟩
  · have := State.lt_of_mem_coderCsrs hrow
    omega
  · obtain ⟨off, hoff, hv⟩ := mem_icCsrs.mp hrow
    have := IcInst.csr_lt hv
    omega

/-! ### `RDCSR` -/

theorem rdcsr_faulted {s : State} {csr : Index} (hf : s.mode = .fault) (hc : 2 < csr.toNat) :
    exec (.rdcsr csr) s = refuse s .eFaulted := if_pos ⟨hf, hc⟩

theorem rdcsr_allowed {s : State} {csr : Index} (h : s.mode = .fault → csr.toNat ≤ 2) :
    exec (.rdcsr csr) s = (s.csr csr.toNat).elim (refuse s .eOperand) (answer s) := by
  change execRdcsr csr s = _
  rw [execRdcsr, if_neg fun hc => by have := h hc.1; omega]
  cases s.csr csr.toNat <;> rfl

/-- Settles O23, from the two forms of R41's map and the two outcomes of the mode check. -/
theorem rdcsrReadsRegisters : Obligations.RdcsrReadsRegisters := by
  intro s hnic
  refine ⟨fun n v hmem hmode => ?_, fun csr hf hc => rdcsr_faulted hf hc, fun csr hf hnone => ?_⟩
  · have hn : (BitVec.ofNat 16 n).toNat = n := Nat.mod_eq_of_lt (csr_number_lt hnic hmem)
    rw [rdcsr_allowed (by rwa [hn]), hn, mem_csrTable_iff.mp hmem]
    rfl
  · have hcsr : s.csr csr.toNat = none :=
      Option.eq_none_iff_forall_ne_some.mpr fun v hv => hnone v (mem_csrTable_iff.mpr hv)
    rw [Refuses, rdcsr_allowed fun h => absurd h hf, hcsr]
    rfl

end Sys2Proof.Machine
end

section
/-! Which commands touch the streams and the coder: the modes of R102 sort the commands, and those that every session allows
write the register files alone (R60 to R62, R73). -/

namespace Sys2Proof.Machine

open Sys2Proof

/-- How a command may move the streams: `OUT` in `ENC` mode, `IN` in `DEC` mode and by `DEC_START` (R60 to R62, R73). -/
def StreamsMove (i : Instr) (s t : State) : Prop :=
  (∃ bs, t.out = s.out ++ bs ∧ (s.mode ≠ .enc → bs = [])) ∧ s.taken ≤ t.taken ∧ (∃ n, t.source = s.source.drop n) ∧
  (s.mode ≠ .dec → i ≠ .decStart → t.taken = s.taken ∧ t.source = s.source)

theorem StreamsMove.of_same {i : Instr} {s t : State} (hout : t.out = s.out) (htaken : t.taken = s.taken)
    (hsource : t.source = s.source) : StreamsMove i s t :=
  ⟨⟨[], by simp [hout], fun _ => rfl⟩, htaken.ge, ⟨0, hsource⟩, fun _ _ => ⟨htaken, hsource⟩⟩

theorem StreamsMove.of_encoder {i : Instr} {s t : State} (hm : s.mode = .enc) (hout : ∃ bs, t.out = s.out ++ bs)
    (hsource : t.source = s.source) (htaken : t.taken = s.taken) : StreamsMove i s t := by
  obtain ⟨bs, hout⟩ := hout
  exact ⟨⟨bs, hout, fun h => absurd hm h⟩, htaken.ge, ⟨0, hsource⟩, fun _ _ => ⟨htaken, hsource⟩⟩

theorem StreamsMove.of_decoder {i : Instr} {s t : State} (hm : s.mode = .dec ∨ i = .decStart) (hout : t.out = s.out)
    (hsource : ∃ n, t.source = s.source.drop n) (htaken : s.taken ≤ t.taken) : StreamsMove i s t :=
  ⟨⟨[], by simp [hout], fun _ => rfl⟩, htaken, hsource, fun hdec hstart => (hm.elim hdec hstart).elim⟩

/-- A run that ends in a next state ends in one of three ways, and each keeps the streams as the procedure left them
(R260, R270, R291). -/
theorem finish_streams {i : Instr} {cmd : Word} {s t : State} {r : Run Word} {R A : State → State → Prop}
    (hr : r.Traced s R A) (hR : ∀ u, R s u → StreamsMove i s u) (hA : ∀ u, A s u → StreamsMove i s u)
    (h : finish cmd r = .next t) : StreamsMove i s t := by
  cases r with
  | done v u =>
    cases h
    exact hR u hr
  | raised e u =>
    cases h
    exact hR u hr
  | aborted u =>
    cases h
    exact hA u hr.1
  | stopped f => cases h

theorem exec_streams {i : Instr} {s t : State} (h : exec i s = .next t) : StreamsMove i s t := by
  have hshape := exec_shape i s
  generalize exec i s = o at hshape h
  cases hshape with
  | refused e =>
    cases h
    exact .of_same rfl rfl rfl
  | reset =>
    cases h
    exact .of_same rfl rfl rfl
  | answered u v _ _ hs =>
    cases h
    obtain ⟨-, -, hout, -, hsource, htaken⟩ := hs
    exact .of_same hout htaken hsource
  | encoded r _ hm _ ht =>
    have moved : ∀ u, EncMoved s u → StreamsMove i s u := fun u ⟨_, _, _, hout, _, hsource, htaken, _⟩ =>
      .of_encoder hm hout hsource htaken
    exact finish_streams ht moved moved h
  | decoded r _ hm _ ht =>
    exact finish_streams ht
      (fun u ⟨_, _, _, hout, _, hsource, htaken, _⟩ => .of_decoder hm hout hsource htaken)
      (fun u ⟨_, _, _, hout, _, hsource, htaken⟩ => .of_decoder hm hout hsource htaken) h

/-- Settles O18, by the shape of the command's outcome. -/
theorem streamAccess : Obligations.StreamAccess := fun _ _ _ h => exec_streams h

/-! ### The commands by their modes -/

/-- R102 allows a command in every session or in exactly one mode. -/
theorem modesOf_cases (i : Instr) :
    modesOf i = anySession ∨ modesOf i = [.idle] ∨ modesOf i = [.enc] ∨ modesOf i = [.dec] := by
  cases i <;> simp [modesOf, anySession]

/-- Outside its modes a command is refused, `FAULT` mode apart. -/
theorem exec_outside_modes {i : Instr} {s t : State} (hf : s.mode ≠ .fault) (hm : s.mode ∉ modesOf i)
    (h : exec i s = .next t) : ∃ e, t = s.respond e 0 := by
  have hany : modesOf i ≠ anySession := fun he => hm (by
    rw [he]
    revert hf
    cases s.mode <;> simp [anySession])
  have hshape := exec_shape i s
  generalize exec i s = o at hshape h
  cases hshape with
  | refused e =>
    cases h
    exact ⟨e, rfl⟩
  | reset hi => exact absurd (hi ▸ rfl) hany
  | answered u v hi ha =>
    rcases ha with ha | ha | ⟨csr, ha, -⟩
    · exact absurd ha hm
    · exact absurd ha hi
    · exact absurd (ha ▸ rfl) hany
  | encoded r _ _ ha => exact absurd ha hm
  | decoded r _ _ ha => exact absurd ha hm

/-- Between `s` and `t` only the register files and the responses changed. -/
def FilesMove (s t : State) : Prop := t = { s with sm := t.sm, bm := t.bm, ic := t.ic, responses := t.responses }

theorem filesMove_respond (s : State) (e : Status) (v : Word) : FilesMove s (s.respond e v) := rfl

/-- Wherever this outcome of a command is a next state, only the files and the responses changed. -/
def FilesMoveIn (s : State) (o : Out) : Prop := ∀ t, o = .next t → FilesMove s t

theorem filesMove_refuse (s : State) (e : Status) : FilesMoveIn s (refuse s e) := by
  rintro _ ⟨⟩
  exact filesMove_respond s e 0

theorem filesMove_answer {s u : State} (v : Word) (h : u = { s with sm := u.sm, bm := u.bm, ic := u.ic }) :
    FilesMoveIn s (answer u v) := by
  rintro _ ⟨⟩
  generalize u.sm = sm, u.bm = bm, u.ic = ic at h
  subst h
  rfl

theorem filesMove_ite {s : State} {c : Prop} [Decidable c] {a b : Out} (ha : FilesMoveIn s a) (hb : FilesMoveIn s b) :
    FilesMoveIn s (if c then a else b) := by
  split
  · exact ha
  · exact hb

theorem filesMove_guarded {s : State} {modes : List Mode} {k : Out} (hk : FilesMoveIn s k) :
    FilesMoveIn s (guarded s modes k) :=
  filesMove_ite (filesMove_refuse s _) (filesMove_ite hk (filesMove_refuse s _))

theorem filesMove_rdcsr (csr : Index) (s : State) : FilesMoveIn s (execRdcsr csr s) := by
  refine filesMove_ite (filesMove_refuse s _) ?_
  cases s.csr csr.toNat with
  | none => exact filesMove_refuse s _
  | some v => exact filesMove_answer v rfl

theorem filesMove_icInit (i : Byte) (s : State) : FilesMoveIn s (execIcInit i s) := by
  have hfiles := ((initMagModels_files (s.icAt i.toNat) (s.icAt i.toNat).ctx.toNat s).trans
    (initValModels_files (s.icAt i.toNat) (s.icAt i.toNat).nv _)).trans (initBitModel_files (s.icAt i.toNat) _)
  refine filesMove_guarded (filesMove_ite (filesMove_refuse s _) (filesMove_ite (filesMove_refuse s _) ?_))
  refine filesMove_answer _ ?_
  generalize initBitModel (s.icAt i.toNat) _ = u at hfiles ⊢
  rw [hfiles.1]
  rfl

/-- A set-up or read command writes the files alone: no coder register, no byte of a stream. -/
theorem exec_filesMove {i : Instr} {s t : State} (hi : modesOf i = anySession) (hne : i ≠ .srst)
    (h : exec i s = .next t) : FilesMove s t := by
  have refused : ∀ e, FilesMoveIn s (refuse s e) := filesMove_refuse s
  suffices hall : FilesMoveIn s (exec i s) from hall t h
  cases i with
  | srst => exact absurd rfl hne
  | rdcsr csr => exact filesMove_rdcsr csr s
  | smInit m n =>
    exact filesMove_guarded (filesMove_ite (refused _) (filesMove_ite (refused _) (filesMove_answer _ rfl)))
  | bmInit b => exact filesMove_guarded (filesMove_ite (refused _) (filesMove_answer _ rfl))
  | smRd sel m j =>
    refine filesMove_guarded (filesMove_ite (refused _) (filesMove_ite (refused _) (filesMove_ite ?_
      (filesMove_ite ?_ ?_))))
    · exact filesMove_ite (refused _) (filesMove_answer _ rfl)
    · exact filesMove_ite (refused _) (filesMove_answer _ rfl)
    · exact filesMove_answer _ rfl
  | bmRd b =>
    exact filesMove_guarded (filesMove_ite (refused _) (filesMove_ite (refused _) (filesMove_answer _ rfl)))
  | icConfig k b range =>
    exact filesMove_guarded (filesMove_ite (refused _) (filesMove_ite (refused _) (filesMove_ite (refused _)
      (filesMove_answer _ rfl))))
  | icSetup k c bh zero smbase bmslot =>
    exact filesMove_guarded (filesMove_ite (refused _) (filesMove_ite (refused _) (filesMove_ite (refused _)
      (filesMove_ite (refused _) (filesMove_ite (refused _) (filesMove_answer _ rfl))))))
  | icInit k => exact filesMove_icInit k s
  | icGetk k => exact filesMove_guarded (filesMove_ite (refused _) (filesMove_ite (refused _) (filesMove_answer _ rfl)))
  | _ => simp [modesOf, anySession] at hi

/-- In a mode that is not its own a command writes the files at most, unless it is `SRST`. -/
theorem exec_foreign_mode {i : Instr} {s t : State} (hf : s.mode ≠ .fault) (hm : modesOf i ≠ [s.mode])
    (h : exec i s = .next t) : FilesMove s t ∨ i = .srst := by
  have outside : ∀ m, modesOf i = [m] → FilesMove s t := fun m hi => by
    obtain ⟨e, rfl⟩ := exec_outside_modes hf (fun hmem => hm (by
      rw [hi] at hmem ⊢
      rw [List.mem_singleton.mp hmem])) h
    exact filesMove_respond s e 0
  rcases modesOf_cases i with hi | hi | hi | hi
  · by_cases hs : i = .srst
    · exact .inr hs
    · exact .inl (exec_filesMove hi hs h)
  · exact .inl (outside _ hi)
  · exact .inl (outside _ hi)
  · exact .inl (outside _ hi)

/-- Only the commands of `ENC` mode write to `OUT` (R61, R73). -/
theorem exec_out_eq {i : Instr} {s t : State} (hi : modesOf i ≠ [.enc]) (h : exec i s = .next t) : t.out = s.out := by
  by_cases hm : s.mode = .enc
  · rcases exec_foreign_mode (by simp [hm]) (by rwa [hm]) h with hfiles | rfl
    · rw [hfiles]
    · cases h
      rfl
  · obtain ⟨⟨bs, hout, hnil⟩, -⟩ := exec_streams h
    rw [hout, hnil hm, List.append_nil]

/-- Only `DEC_START` and the commands of `DEC` mode read from `IN` (R62, R73). -/
theorem exec_taken_eq {i : Instr} {s t : State} (hi : modesOf i ≠ [.dec]) (hs : i ≠ .decStart) (h : exec i s = .next t) :
    t.taken = s.taken := by
  by_cases hm : s.mode = .dec
  · rcases exec_foreign_mode (by simp [hm]) (by rwa [hm]) h with hfiles | rfl
    · rw [hfiles]
    · cases h
      rfl
  · obtain ⟨-, -, -, htaken⟩ := exec_streams h
    exact (htaken hm hs).1

end Sys2Proof.Machine
end

section
/-! The first byte of a code stream (R77): every command that keeps a session open nests its interval in the one before, so the
number the session leaves in the stream lies in the interval `ENC_START` opened, below the first byte. -/

namespace Sys2Proof.Machine

open Sys2Proof

/-! ### Opening and closing a session -/

/-- The state in which `ENC_START` opens a session (R150). -/
def State.sessionStart (s : State) : State :=
  ((s.setCoder 0 (BitVec.ofNat 32 Config.fullLen) 0 0 0).setMode .enc).respond .ok 0

theorem encStart_answered {s t : State} {v : Word} (h : Answers .encStart s v t) : t = s.sessionStart := by
  obtain ⟨h, hr⟩ := h
  obtain ⟨-, -, h⟩ := guarded_answered h hr
  cases h
  rfl

/-- A run whose command was answered `OK` returned. -/
theorem finish_traced_answered {cmd : Word} {s t : State} {r : Run Word} {v : Word} (hr : r.Traced s EncMoved EncMoved)
    (h : finish cmd r = .next t) (ha : t.responses = s.responses ++ [⟨.ok, v⟩]) :
    ∃ u, r = .done v u ∧ t = u.respond .ok v := by
  refine finish_answered (s := s) (fun u => ?_) (fun w u hd => ?_) h ha
  · cases r with
    | done w x => exact .inl ⟨nofun, nofun⟩
    | stopped f => exact .inl ⟨nofun, nofun⟩
    | raised e x =>
      by_cases hx : x = u
      · exact .inr (hx ▸ hr.keeps.2.1)
      · exact .inl ⟨fun _ he => hx (Run.raised.inj he).2, nofun⟩
    | aborted x =>
      by_cases hx : x = u
      · exact .inr (hx ▸ hr.1.keeps.2.1)
      · exact .inl ⟨nofun, fun he => hx (Run.aborted.inj he)⟩
  · subst hd
    exact hr.keeps.2.1

/-- An `ENC_DONE` answered `OK` leaves the code number in the stream (R160, R65). -/
theorem encDone_answered {s t : State} {v : Word} (hi : s.Inv) (h : Answers .encDone s v t) :
    t.mode = .idle ∧ ∃ bs : List Byte, bs.length = 5 + s.pend ∧ bytesValue (s.out ++ bs) = s.codeNumber ∧
      t.out = s.out ++ bs := by
  obtain ⟨h, hr⟩ := h
  obtain ⟨-, hm, h⟩ := guarded_answered h hr
  have he : s.EncOk := (hi.enc (by simpa using hm)).2.2
  obtain ⟨u, hu, rfl⟩ := finish_traced_answered (encDone_traced s) h hr
  obtain ⟨_, w, hw, hd⟩ := Run.bind_eq_done.mp hu
  cases hd
  have hlen : Config.top ≤ s.len.toNat := he.1
  obtain ⟨bs, hlen, hvalue, rfl⟩ := shiftOuts_flush hw (he.carrySafe.mono (by unfold Config.top at hlen; omega))
  exact ⟨rfl, bs, hlen, hvalue, rfl⟩

/-! ### One command of an open session -/

theorem Nests.refl (s : State) : Nests s s := ⟨0, rfl, fun _ _ hx => hx⟩

theorem FilesMove.nests {s t : State} (h : FilesMove s t) : Nests s t := by
  rw [h]
  exact (Nests.refl s).of_coder rfl rfl rfl rfl rfl

/-- A fault and a reset close the session, so a run that leaves it open returned. -/
theorem finish_in_session {cmd : Word} {s t : State} {r : Run Word} {R A : State → State → Prop} (hr : r.Traced s R A)
    (hR : ∀ u, R s u → u.responses = s.responses) (h : finish cmd r = .next t) (ht : t.mode = .enc) :
    ∃ v, t.responses = s.responses ++ [⟨.ok, v⟩] := by
  cases r with
  | done v u =>
    cases h
    exact ⟨v, by rw [State.respond_responses, hR u hr]⟩
  | raised e u =>
    cases h
    cases ht
  | aborted u =>
    cases h
    cases ht
  | stopped f => cases h

/-- A command that leaves an encoding session open is refused or answered `OK`. -/
theorem exec_in_session {i : Instr} {s t : State} (h : exec i s = .next t) (ht : t.mode = .enc) :
    (∃ e, t = s.respond e 0) ∨ ∃ v, Answers i s v t := by
  have hshape := exec_shape i s
  have ho := h
  generalize exec i s = o at hshape ho
  cases hshape with
  | refused e =>
    cases ho
    exact .inl ⟨e, rfl⟩
  | reset =>
    cases ho
    cases ht
  | answered u v _ _ _ hr =>
    cases ho
    exact .inr ⟨v, h, by rw [State.respond_responses, hr]⟩
  | encoded r _ _ _ htr =>
    obtain ⟨v, hv⟩ := finish_in_session htr (fun u hu => hu.keeps.2.1) ho ht
    exact .inr ⟨v, h, hv⟩
  | decoded r _ _ _ htr =>
    obtain ⟨v, hv⟩ := finish_in_session htr (fun u hu => hu.keeps.2.1) ho ht
    exact .inr ⟨v, h, hv⟩

/-- The response and the magnitude `IC_COMPRESS` remembers are no part of the interval. -/
theorem Nests.respond {e u : State} (h : Nests e u) (st : Status) (v : Word) : Nests e (u.respond st v) :=
  h.of_coder rfl rfl rfl rfl rfl

theorem Nests.setIc {e u : State} (h : Nests e u) (i : Nat) (inst : IcInst) : Nests e (u.setIc i inst) :=
  h.of_coder rfl rfl rfl rfl rfl

/-- Each coding command of the encoder narrows the interval to a part of it (R153, R155, R157, R216). -/
theorem answers_nests {i : Instr} {s t : State} {v : Word} (hi : s.Inv) (hm : modesOf i = [.enc]) (ht : t.mode = .enc)
    (h : Answers i s v t) : Nests s t := by
  cases i with
  | encSym m sym =>
    obtain ⟨hmode, hok, -, u, hc, hu, rfl⟩ := encSym_answered hi h
    exact (hc.mirrors (hi.enc hmode).2.2 hok hu).1.respond _ _
  | encBit b bit =>
    obtain ⟨hmode, -, -, hok, -, u, hc, hu, rfl⟩ := encBit_answered hi h
    exact (hc.mirrors (hi.enc hmode).2.2 hok hu).1.respond _ _
  | encBits k x =>
    obtain ⟨hmode, -, hk, hx, -, u, hc, -, rfl⟩ := encBits_answered hi h
    exact (hc.mirrors (hi.enc hmode).2.2 hk hx).1.respond _ _
  | encDone =>
    rw [(encDone_answered hi h).1] at ht
    cases ht
  | icCompress j c p x =>
    obtain ⟨hmode, -, hctx, hu, hk, -, w, u, hsym, hcorr, -, -, rfl⟩ := icCompress_answered hi h
    have he := (hi.enc hmode).2.2
    obtain ⟨hvalid, hsize⟩ := hu.mag hctx
    have hok : SymOk s ((s.icAt j.toNat).magSlot c.toNat) (magnitude (foldCorr (s.icAt j.toNat) p x)) :=
      ⟨hu.1, hu.2.1.smAt _, hvalid, by omega⟩
    have hw := hsym.encOk he hok
    have hpass := hsym.passed hu.1 hu.2.1 (by omega)
    have hnest := (hsym.mirrors he hok hw).1.trans (hcorr.mirrors hw (hu.passed hpass) rfl hk).1
    exact (hnest.setIc _ _).respond _ _
  | _ => simp [modesOf] at hm

/-! ### The session -/

/-- What a session that is still open has kept since `s`: the invariant, the interval inside that of `s`, and `OUT` behind what
it was. -/
def SessionOpen (s t : State) : Prop := t.Inv ∧ t.mode = .enc ∧ Nests s t ∧ s.out <+: t.out

theorem exec_sessionOpen {i : Instr} {s t : State} (hi : s.Inv) (hm : s.mode = .enc) (h : exec i s = .next t)
    (ht : t.mode = .enc) : SessionOpen s t := by
  obtain ⟨⟨bs, hout, -⟩, -⟩ := exec_streams h
  refine ⟨exec_inv hi h, ht, ?_, bs, hout.symm⟩
  by_cases hmi : modesOf i = [.enc]
  · rcases exec_in_session h ht with ⟨e, rfl⟩ | ⟨v, ha⟩
    · exact (filesMove_respond s e 0).nests
    · exact answers_nests hi hmi ht ha
  · rcases exec_foreign_mode (by simp [hm]) (by rwa [hm]) h with hfiles | rfl
    · exact hfiles.nests
    · cases h
      cases ht

theorem keepsEncoding_sessionOpen {cmds : List Instr} {s t : State} (hi : s.Inv) (hm : s.mode = .enc)
    (h : KeepsEncoding cmds s t) : SessionOpen s t := by
  induction cmds generalizing s with
  | nil =>
    obtain rfl : t = s := h
    exact ⟨hi, hm, Nests.refl t, List.prefix_refl _⟩
  | cons i cmds ih =>
    obtain ⟨u, hu, hmode, hrest⟩ := h
    obtain ⟨hui, -, hnest, hout⟩ := exec_sessionOpen hi hm hu hmode
    obtain ⟨hti, htm, hnest', hout'⟩ := ih hui hmode hrest
    exact ⟨hti, htm, hnest.trans hnest', hout.trans hout'⟩

/-! ### The number and its first byte -/

/-- Bytes whose number needs one byte fewer begin with `0x00`. -/
theorem first_byte_zero {bs : List Byte} {n : Nat} (hl : bs.length = n + 1) (h : bytesValue bs < 256 ^ n) :
    ∃ rest, bs = 0x00 :: rest ∧ rest.length = n := by
  cases bs with
  | nil => simp at hl
  | cons b rest =>
    have hrest : rest.length = n := by simpa using hl
    rw [bytesValue_cons, hrest] at h
    have hb : b.toNat = 0 := by
      by_contra hne
      have := Nat.le_mul_of_pos_left (256 ^ n) (Nat.pos_of_ne_zero hne)
      omega
    exact ⟨rest, by rw [show b = 0 from BitVec.eq_of_toNat_eq hb], hrest⟩

theorem sessionStart_codeNumber (s : State) : s.sessionStart.codeNumber = bytesValue s.out * 256 ^ 5 := by
  have hlow : s.sessionStart.low.toNat = 0 := rfl
  have hheld : s.sessionStart.heldValue = bytesValue s.out * 256 := by simp [State.heldValue, State.sessionStart]
  rw [State.codeNumber, hheld, hlow, Nat.add_zero, Nat.mul_assoc]
  rfl

/-- A code value in the interval that `ENC_START` opens exceeds the number of the bytes before it by less than four bytes hold,
with one byte behind for each byte since. -/
theorem sessionStart_inside {s : State} {r x : Nat} (h : Inside s.sessionStart r x) :
    x < (bytesValue s.out * 256 ^ 5 + 256 ^ 4) * 256 ^ r := by
  obtain ⟨-, h⟩ := h
  rw [sessionStart_codeNumber] at h
  have hlen : s.sessionStart.len.toNat < 256 ^ 4 := s.sessionStart.len.isLt
  exact h.trans_le (Nat.mul_le_mul_right _ (by omega))

/-- The code number is the low end of the interval, which is not empty. -/
theorem State.EncOk.inside {s : State} (h : s.EncOk) : Inside s 0 s.codeNumber := by
  have := h.1
  unfold Config.top at this
  exact ⟨by simp, by simp; omega⟩

/-- Settles O60: the code number the flush leaves lies in the interval of `ENC_START`, and the bytes of the session are one
more than what such a number needs. -/
theorem firstStreamByte : Obligations.FirstStreamByte := by
  intro cmds e e1 e2 e3 hi hstart hcmds hdone
  have hi1 := exec_inv hi hstart.1
  obtain rfl := encStart_answered hstart
  obtain ⟨hi2, hm2, ⟨r, hcount, hnest⟩, ⟨as, hout⟩⟩ := keepsEncoding_sessionOpen hi1 rfl hcmds
  obtain ⟨-, bs, hlen, hvalue, hout3⟩ := encDone_answered hi2 hdone
  have hlength : (as ++ bs).length = 4 + r + 1 := by
    rw [← hout, List.length_append] at hcount
    rw [List.length_append]
    have hpend : e.sessionStart.pend = 0 := rfl
    omega
  have hbytes : e2.out ++ bs = e.out ++ (as ++ bs) := by
    rw [← List.append_assoc, ← hout]
    rfl
  have hsmall : bytesValue (as ++ bs) < 256 ^ (4 + r) := by
    have hx := sessionStart_inside (hnest 0 _ (hi2.enc hm2).2.2.inside)
    have hpow : 256 ^ (4 + r + 1) = 256 ^ 5 * 256 ^ r := by ring
    rw [← hvalue, hbytes, bytesValue_append, hlength, Nat.zero_add, Nat.add_mul, Nat.mul_assoc, ← hpow,
      ← Nat.pow_add] at hx
    exact Nat.lt_of_add_lt_add_left hx
  obtain ⟨rest, hrest, hl⟩ := first_byte_zero hlength hsmall
  exact ⟨rest, by rw [hout3, hbytes, hrest], by omega⟩

end Sys2Proof.Machine
end

section
/-! A transfer that fails or hangs in the middle of a command (R62, R64, R69, R266, R273): the command is compared with itself on
a stream that holds out, check by check and then as the run of its coding procedure. -/

namespace Sys2Proof.Machine

open Sys2Proof

/-! ### Two outcomes of one command -/

/-- Where the first outcome is a state `past` some point, the second one ends as `ends` says. -/
def Follows (past : State → Prop) (ends : State → Out → Prop) (o o' : Out) : Prop :=
  ∀ u, o = .next u → past u → ends u o'

variable {past : State → Prop} {ends : State → Out → Prop} {s s' : State} {k k' : Out}

theorem follows_of_not_past {o o' : Out} (h : ∀ u, o = .next u → ¬ past u) : Follows past ends o o' :=
  fun u hu hp => absurd hp (h u hu)

theorem follows_refuse (hr : ∀ e, ¬ past (s.respond e 0)) (e : Status) (o : Out) : Follows past ends (refuse s e) o :=
  follows_of_not_past (by
    rintro _ ⟨⟩
    exact hr e)

/-- A check that both commands pass or both fail. -/
theorem follows_check {c : Prop} [Decidable c] (hr : ∀ e, ¬ past (s.respond e 0)) (e : Status)
    (hk : Follows past ends k k') : Follows past ends (if c then refuse s e else k) (if c then refuse s' e else k') := by
  split
  · exact follows_refuse hr e _
  · exact hk

theorem follows_guarded {modes : List Mode} (hr : ∀ e, ¬ past (s.respond e 0)) (hm : s'.mode = s.mode)
    (hk : Follows past ends k k') : Follows past ends (guarded s modes k) (guarded s' modes k') := by
  unfold guarded
  rw [hm]
  refine follows_check hr _ ?_
  split
  · exact hk
  · exact follows_refuse hr _ _

/-! ### `OUT` stops accepting -/

/-- The command of outcome `o` was stopped by the byte stream with `written` in `OUT` (R64, R69, R266). -/
def StoppedAt (s : State) (written : List Byte) (tail : List PutAnswer) (o : Out) : Prop :=
  (∀ rest, tail = .failed :: rest → ∃ t : State, o = .next t ∧ t.mode = .fault ∧ t.cause = 5 ∧
    t.responses = s.responses ++ [⟨.eIo, 0⟩] ∧ t.out = written ∧ t.sink = rest) ∧
  (∀ rest, tail = .silent :: rest →
    o = .fault (.streamSilent { responses := s.responses, out := written, taken := s.taken }))

/-- Where the first outcome makes `OUT` longer than `N` bytes, the second one, from `s'`, is stopped with the first `N` of
them. -/
abbrev StopsAt (s' : State) (N : Nat) (tail : List PutAnswer) : Out → Out → Prop :=
  Follows (fun u => N < u.out.length) fun u => StoppedAt s' (u.out.take N) tail

/-- A command on a stream that accepts everything and on one that stops when `OUT` is `N` bytes long. -/
theorem exec_stopsAt (i : Instr) {N : Nat} {tail : List PutAnswer} {s s' : State}
    (hn : (∃ rest, tail = .failed :: rest) ∨ ∃ rest, tail = .silent :: rest) (h : SinkRel N tail s s') :
    StopsAt s' N tail (exec i s) (exec i s') := by
  have hN : s.out.length ≤ N := by
    obtain ⟨n, -, hlen, -⟩ := h
    omega
  have hr : ∀ e, ¬ N < (s.respond e 0).out.length := fun e => not_lt.mpr hN
  have finished : ∀ {r r' : Run Word}, r.CutOut N tail r' → r'.Traced s' EncMoved EncMoved →
      StopsAt s' N tail (finish (encode i).cmd r) (finish (encode i).cmd r') :=
    fun hcut htraced u hu hlt => finish_cutOut hcut hu hlt htraced
  have quiet : modesOf i ≠ [.enc] → StopsAt s' N tail (exec i s) (exec i s') := fun hi =>
    follows_of_not_past fun u hu => not_lt.mpr ((exec_out_eq hi hu).symm ▸ hN)
  obtain ⟨l, hl⟩ := h.eq_setSink
  subst hl
  cases i with
  | encSym m sym =>
    refine follows_guarded hr rfl (follows_check hr _ (follows_check hr _ (follows_check hr _ ?_)))
    exact finished (noResult_cutOut (encodeSymbol_cutOut hn _ _ h)) (enc_of_traced (noResult_traced (encodeSymbol_traced _ _ _)))
  | encBit b bit =>
    refine follows_guarded hr rfl (follows_check hr _ (follows_check hr _ (follows_check hr _ ?_)))
    exact finished (noResult_cutOut (encodeBit_cutOut hn _ _ h)) (enc_of_traced (noResult_traced (encodeBit_traced _ _ _)))
  | encBits k x =>
    refine follows_guarded hr rfl (follows_check hr _ (follows_check hr _ ?_))
    exact finished (noResult_cutOut (encodeBits_cutOut hn _ _ h)) (enc_of_traced (noResult_traced (encodeBits_traced _ _ _)))
  | encDone => exact follows_guarded hr rfl (finished (encDone_cutOut hn h) (encDone_traced _))
  | icCompress j c p v =>
    refine follows_guarded hr rfl (follows_check hr _ (follows_check hr _ (follows_check hr _ (follows_check hr _
      (follows_check hr _ ?_)))))
    exact finished (compressCorrector_cutOut hn _ _ _ _ h) (enc_of_traced (compressCorrector_traced _ _ _ _ _))
  | _ => exact quiet (by simp [modesOf])

/-- Settles O21: the stream that accepts everything and the one that stops are related by `SinkRel`. -/
theorem failedTransferKeepsEarlierBytes : Obligations.FailedTransferKeepsEarlierBytes := by
  intro i s u bs n rest hu hout hlt
  have hlen : s.out.length + n < u.out.length := by
    rw [hout, List.length_append]
    omega
  have htake : u.out.take (s.out.length + n) = s.out ++ bs.take n := by
    rw [hout, List.take_length_add_append]
  have related : ∀ tail, s.sink = List.replicate n .accepted ++ tail →
      SinkRel (s.out.length + n) tail { s with sink := [] } s := fun tail hs =>
    ⟨n, rfl, rfl, by rw [← hs]; rfl⟩
  constructor
  · intro hs
    obtain ⟨t, ht, hmode, hcause, hresp, hto, hsink⟩ :=
      (exec_stopsAt i (.inl ⟨rest, rfl⟩) (related _ hs) u hu hlen).1 rest rfl
    exact ⟨t, ht, hmode, hcause, hto.trans htake, hsink, hresp⟩
  · intro hs
    rw [(exec_stopsAt i (.inr ⟨rest, rfl⟩) (related _ hs) u hu hlen).2 rest rfl, htake]

/-! ### `IN` runs off its end -/

/-- The command of outcome `o` was stopped by the byte stream when `N` bytes of `IN` were taken (R62, R64, R266). -/
def StarvedAt (s : State) (N : Nat) (tail : List GetAnswer) (cmd : Word) (o : Out) : Prop :=
  ((¬ ∃ rest, tail = .silent :: rest) → ∃ t : State, o = .next t ∧ t.mode = .fault ∧ t.cause = 5 ∧ t.finfo = cmd ∧
    t.responses = s.responses ++ [⟨.eIo, 0⟩] ∧ t.taken = N ∧ t.source = tail.drop 1 ∧ t.out = s.out) ∧
  ((∃ rest, tail = .silent :: rest) →
    o = .fault (.streamSilent { responses := s.responses, out := s.out, taken := N }))

/-- Where the first outcome takes more than `N` bytes of `IN`, the second one, from `s'`, is stopped after `N` of them. -/
abbrev StarvesAt (s' : State) (N : Nat) (tail : List GetAnswer) (cmd : Word) : Out → Out → Prop :=
  Follows (fun u => N < u.taken) fun _ => StarvedAt s' N tail cmd

/-- A command on a source that goes on and on one that is cut where `N` bytes are taken. -/
theorem exec_starvesAt (i : Instr) {N : Nat} {more tail : List GetAnswer} {s s' : State} (hn : Broken tail)
    (h : CutRel N more tail s s') :
    StarvesAt s' N tail (encode i).cmd (exec i s) (exec i s') := by
  have hN : s.taken ≤ N := by
    obtain ⟨bs, n, -, -, htaken, -⟩ := h
    omega
  have hr : ∀ e, ¬ N < (s.respond e 0).taken := fun e => not_lt.mpr hN
  have finished : ∀ {r r' : Run Word}, r.Cut N more tail r' → r'.Traced s' DecMoved DecLeft →
      StarvesAt s' N tail (encode i).cmd (finish (encode i).cmd r) (finish (encode i).cmd r') :=
    fun hcut htraced u hu hlt => finish_cut hcut hu hlt htraced
  have quiet : modesOf i ≠ [.dec] → i ≠ .decStart →
      StarvesAt s' N tail (encode i).cmd (exec i s) (exec i s') := fun hi hs =>
    follows_of_not_past fun u hu => not_lt.mpr ((exec_taken_eq hi hs hu).trans_le hN)
  obtain ⟨l, hl⟩ := h.eq_setSource
  subst hl
  cases i with
  | decStart => exact follows_guarded hr rfl (finished (decStart_cut hn h) (decStart_traced _))
  | decSym m =>
    refine follows_guarded hr rfl (follows_check hr _ (follows_check hr _ ?_))
    exact finished (wordResult_cut (decodeSymbol_cut hn _ h)) (dec_of_traced (wordResult_traced (decodeSymbol_traced _ _)))
  | decBit b =>
    refine follows_guarded hr rfl (follows_check hr _ (follows_check hr _ ?_))
    exact finished (wordResult_cut (decodeBit_cut hn _ h)) (dec_of_traced (wordResult_traced (decodeBit_traced _ _)))
  | decBits k =>
    refine follows_guarded hr rfl (follows_check hr _ ?_)
    exact finished (wordResult_cut (decodeBits_cut hn _ h)) (dec_of_traced (wordResult_traced (decodeBits_traced _ _)))
  | decDone =>
    refine follows_guarded hr rfl (follows_of_not_past ?_)
    rintro _ ⟨⟩
    exact not_lt.mpr hN
  | icDecompress j c p =>
    refine follows_guarded hr rfl (follows_check hr _ (follows_check hr _ (follows_check hr _ (follows_check hr _ ?_))))
    exact finished (decompressValue_cut hn _ _ _ _ h) (dec_of_traced (decompressValue_traced _ _ _ _ _))
  | _ => exact quiet (by simp [modesOf]) (by simp)

/-- The same for a source given as bytes and what follows them. -/
theorem exec_starved_of_bytes {i : Instr} {s u : State} {bs : List Byte} {more tail : List GetAnswer} {n : Nat}
    (hn : Broken tail) (hu : exec i { s with source := bs.map GetAnswer.byte ++ more } = .next u) (hlt : n < bs.length)
    (hpast : s.taken + n < u.taken) (hs : s.source = (bs.take n).map GetAnswer.byte ++ tail) :
    StarvedAt s (s.taken + n) tail (encode i).cmd (exec i s) :=
  exec_starvesAt i (s := { s with source := bs.map GetAnswer.byte ++ more }) hn
    ⟨bs, n, hlt, rfl, rfl, by rw [← hs]; rfl⟩ u hu hpast

theorem not_silent_of_ended {tail : List GetAnswer} (h : tail = [] ∨ ∃ rest, tail = .failed :: rest) :
    ¬ ∃ rest, tail = .silent :: rest := by
  rintro ⟨rest, rfl⟩
  rcases h with h | ⟨rest', h⟩
  · cases h
  · cases h

/-- `DEC_START` in `IDLE` mode takes five bytes where the source holds them (R180). -/
theorem decStart_takes_five {s : State} (hm : s.mode = .idle) (hs : s.SourceHolds 5) :
    ∃ u, exec .decStart s = .next u ∧ u.taken = s.taken + 5 := by
  obtain ⟨_ | ⟨b, bs⟩, rest, hsource, hl⟩ := hs.take le_rfl
  · simp at hl
  · have hget : getByte (s.setCoder 0 (BitVec.ofNat 32 Config.fullLen) s.cache 0 s.value) = .done b _ :=
      getByte_done.mpr ⟨_, hsource, rfl⟩
    have hexec : exec .decStart s = guarded s [.idle] _ := rfl
    rw [guarded_idle hm, hget, Run.bind_done, (shiftIns_done 4).mpr ⟨bs, rest, rfl, by simpa using hl, rfl⟩] at hexec
    exact ⟨_, hexec, rfl⟩

/-- A raw field of up to 19 bits takes a byte for each renormalisation step where the source holds three (R186, R188). -/
theorem decBits_takes_steps {s : State} {k : Byte} (hi : s.Inv) (hm : s.mode = .dec) (h1 : 1 ≤ k.toNat)
    (hk : k.toNat ≤ 19) (hs : s.SourceHolds 3) :
    ∃ u, exec (.decBits k) s = .next u ∧ u.taken = s.taken + renormSteps (s.len.toNat / 2 ^ k.toNat) := by
  obtain ⟨x, t, hrun, ht, -⟩ := decodeBits_completes (hi.dec hm).2.2 (show k.toNat ≤ 32 by omega) (by rwa [if_pos hk])
  have hexec : exec (.decBits k) s = guarded s [.dec] _ := rfl
  rw [guarded_dec hm, if_neg (by omega), hrun] at hexec
  refine ⟨_, hexec, ?_⟩
  rw [TakesBits, if_pos hk] at ht
  obtain ⟨-, bs, rest, -, hl, rfl⟩ := ht
  rw [← hl]
  rfl

/-- `s` with `bs` and five zero bytes behind them to read, enough for every step of the decoder (R180, R181). -/
def State.padded (s : State) (bs : List Byte) : State :=
  s.setSource ((bs ++ List.replicate 5 0).map GetAnswer.byte ++ [])

theorem padded_sourceHolds (s : State) (bs : List Byte) {n : Nat} (hn : n ≤ 5) : (s.padded bs).SourceHolds n := by
  refine ⟨bs ++ List.replicate 5 0, [], rfl, ?_⟩
  rw [List.length_append, List.length_replicate]
  omega

/-- A source of `bs` alone starves a command that takes more bytes once zero bytes stand behind them. -/
theorem exec_starved_of_padded {i : Instr} {s u : State} {bs : List Byte} {tail : List GetAnswer}
    (htail : tail = [] ∨ ∃ rest, tail = .failed :: rest) (hs : s.source = bs.map GetAnswer.byte ++ tail)
    (hu : exec i (s.padded bs) = .next u) (hpast : s.taken + bs.length < u.taken) :
    StarvedAt s (s.taken + bs.length) tail (encode i).cmd (exec i s) :=
  exec_starved_of_bytes (.inl htail) hu (by simp) hpast (by rw [List.take_left, hs])

/-- Settles O22: the first clause compares the two sources by `CutRel`, the second is the first with the source lengthened by
zero bytes, on which the command goes past the cut. -/
theorem truncatedInputIsFault : Obligations.TruncatedInputIsFault := by
  refine ⟨fun i s u bs more tail n hu hlt hpast hs => ⟨fun htail => ?_, fun htail => ?_⟩, ?_⟩
  · exact (exec_starved_of_bytes (.inl htail) hu hlt hpast hs).1 (not_silent_of_ended htail)
  · exact (exec_starved_of_bytes (.inr htail) hu hlt hpast hs).2 htail
  · intro s bs tail i hi hs htail hcase
    suffices hlong : ∃ u, exec i (s.padded bs) = .next u ∧ s.taken + bs.length < u.taken by
      obtain ⟨u, hu, hpast⟩ := hlong
      exact (exec_starved_of_padded htail hs hu hpast).1 (not_silent_of_ended htail)
    rcases hcase with ⟨rfl, hm, hlt⟩ | ⟨k, rfl, hm, h1, hk, hlt⟩
    · obtain ⟨u, hu, htaken⟩ := decStart_takes_five (s := s.padded bs) hm (padded_sourceHolds s bs le_rfl)
      exact ⟨u, hu, htaken ▸ Nat.add_lt_add_left hlt s.taken⟩
    · obtain ⟨u, hu, htaken⟩ := decBits_takes_steps (s := s.padded bs) hi hm h1 hk (padded_sourceHolds s bs (by omega))
      exact ⟨u, hu, htaken ▸ Nat.add_lt_add_left hlt s.taken⟩

end Sys2Proof.Machine
end

section
/-! Which packets are commands: the opcodes of R95 by the format of their row, and the rows a `CMD` word matches (R94 to
R97). -/

namespace Sys2Proof

open Sys2Proof.Laws.RowSelects

/-! ### The formats of R94 -/

/-- The four formats of R94, by the fields they reserve. -/
inductive Format where
  /-- `F1` and `F2` reserved. -/
  | z
  /-- `F1` reserved. -/
  | s
  /-- `F2` reserved. -/
  | k
  /-- Nothing reserved. -/
  | ks

/-- The opcodes R95 gives each format. -/
def Format.opcodes : Format → List Nat
  | .z => [0x01, 0x20, 0x24, 0x30, 0x34]
  | .s => [0x02, 0x10, 0x11, 0x13, 0x21, 0x22, 0x31, 0x32]
  | .k => [0x23, 0x33, 0x40, 0x41, 0x42, 0x45]
  | .ks => [0x12, 0x43, 0x44]

/-- The reserved fields of a packet are zero (R96). -/
def Format.ReservedZero (p : Packet) : Format → Prop
  | .z => p.f1 = 0 ∧ p.f2 = 0
  | .s => p.f1 = 0
  | .k => p.f2 = 0
  | .ks => True

/-- The decoder of each format. -/
def Format.decodeAs (p : Packet) (i : Instr) : Format → Except DecodeError Instr
  | .z => decodeZ p i
  | .s => decodeS p i
  | .k => decodeK p i
  | .ks => .ok i

theorem Format.decodeAs_eq_ok {f : Format} {p : Packet} (i : Instr) (h : f.ReservedZero p) : f.decodeAs p i = .ok i := by
  cases f with
  | z => exact decodeZ_eq_ok.mpr ⟨rfl, h⟩
  | s => exact decodeS_eq_ok.mpr ⟨rfl, h⟩
  | k => exact decodeK_eq_ok.mpr ⟨rfl, h⟩
  | ks => rfl

theorem Format.decodeAs_eq_error {f : Format} {p : Packet} (i : Instr) (h : ¬ f.ReservedZero p) :
    f.decodeAs p i = .error .reservedField := by
  cases f with
  | z => exact decodeZ_eq_error.mpr ⟨rfl, h⟩
  | s => exact decodeS_eq_error.mpr ⟨rfl, h⟩
  | k => exact decodeK_eq_error.mpr ⟨rfl, h⟩
  | ks => exact absurd trivial h

/-- The decoder reads an opcode of R95 under the opcode's format (R94). -/
theorem decode_of_opcode {p : Packet} {f : Format} (h : p.opc.toNat ∈ f.opcodes) : ∃ i, decode p = f.decodeAs p i := by
  cases f with
  | z =>
    simp only [Format.opcodes, List.mem_cons, List.not_mem_nil, or_false] at h
    obtain h | h | h | h | h := h <;> simp only [decode, h] <;> exact ⟨_, rfl⟩
  | s =>
    simp only [Format.opcodes, List.mem_cons, List.not_mem_nil, or_false] at h
    obtain h | h | h | h | h | h | h | h := h <;> simp only [decode, h] <;> exact ⟨_, rfl⟩
  | k =>
    simp only [Format.opcodes, List.mem_cons, List.not_mem_nil, or_false] at h
    obtain h | h | h | h | h | h := h <;> simp only [decode, h] <;> exact ⟨_, rfl⟩
  | ks =>
    simp only [Format.opcodes, List.mem_cons, List.not_mem_nil, or_false] at h
    obtain h | h | h := h <;> simp only [decode, h] <;> exact ⟨_, rfl⟩

theorem decode_of_reserved_zero {p : Packet} {f : Format} (h : p.opc.toNat ∈ f.opcodes) (hz : f.ReservedZero p) :
    ∃ i, decode p = .ok i := by
  obtain ⟨i, hi⟩ := decode_of_opcode h
  exact ⟨i, hi.trans (f.decodeAs_eq_ok i hz)⟩

theorem decode_of_reserved_field {p : Packet} {f : Format} (h : p.opc.toNat ∈ f.opcodes) (hz : ¬ f.ReservedZero p) :
    decode p = .error .reservedField := by
  obtain ⟨i, hi⟩ := decode_of_opcode h
  exact hi.trans (f.decodeAs_eq_error i hz)

/-- The opcodes that no row of R95 assigns (R97). -/
def UnassignedOpcode (n : Nat) : Prop :=
  n = 0x00 ∨ (0x03 ≤ n ∧ n ≤ 0x0F) ∨ (0x14 ≤ n ∧ n ≤ 0x1F) ∨ (0x25 ≤ n ∧ n ≤ 0x2F) ∨ (0x35 ≤ n ∧ n ≤ 0x3F) ∨ 0x46 ≤ n

theorem decode_of_unassigned {p : Packet} (h : UnassignedOpcode p.opc.toNat) :
    decode p = .error .unassignedOpcode := by
  unfold UnassignedOpcode at h
  unfold decode
  split
  case h_23 => rfl
  all_goals omega

/-- Settles O7: the fields of the encoding are the operands, and the slices `IC_SETUP` packs are the slices it reads. -/
theorem decodeUndoesEncode : Obligations.DecodeUndoesEncode := decode_encode

/-! ### The rows of R95 -/

/-- The mask of each format: `OPC` and the reserved fields (R95). -/
def Format.mask : Format → Word
  | .z => 0xFFFFFFFF
  | .s => 0xFFFF0000
  | .k => 0xFF00FFFF
  | .ks => 0xFF000000

/-- The row of R95 for an opcode under a format. -/
def Format.row (f : Format) (n : Nat) : OpcodeRow := ⟨cmdWord (BitVec.ofNat 8 n) 0 0, f.mask⟩

theorem opcodeTable_by_format :
    ∀ r ∈ opcodeTable, ∃ f ∈ [Format.z, .s, .k, .ks], ∃ n ∈ f.opcodes, r = f.row n := by decide

theorem cmdWord_inj {a b a' b' : Byte} {c c' : Index} :
    cmdWord a b c = cmdWord a' b' c' ↔ a = a' ∧ b = b' ∧ c = c' := by
  refine ⟨fun h => ?_, by rintro ⟨rfl, rfl, rfl⟩; rfl⟩
  obtain ⟨hopc, hf1, hf2⟩ :=
    Packet.fields_of_cmd (p := ⟨cmdWord a' b' c', 0, 0⟩) (q := ⟨cmdWord a b c, 0, 0⟩) h
  simp only [cmdWord_opc, cmdWord_f1, cmdWord_f2] at hopc hf1 hf2
  exact ⟨hopc, hf1, hf2⟩

/-- A sixteen-bit field under a mask of ones is itself. -/
theorem index_and_ones (x : Index) : x &&& 0xFFFF = x := by
  show x &&& BitVec.allOnes 16 = x
  rw [BitVec.and_allOnes]

/-- A mask as the fields it keeps. -/
theorem Format.mask_eq (f : Format) : ∃ m1 m2, f.mask = cmdWord 0xFF m1 m2 ∧
    ∀ p : Packet, (p.f1 &&& m1 = 0 ∧ p.f2 &&& m2 = 0) ↔ f.ReservedZero p := by
  cases f with
  | z => exact ⟨0xFF, 0xFFFF, by decide, fun p => by rw [ones, index_and_ones]; rfl⟩
  | s => exact ⟨0xFF, 0, by decide, fun p => by rw [ones]; simp [Format.ReservedZero]⟩
  | k => exact ⟨0, 0xFFFF, by decide, fun p => by rw [index_and_ones]; simp [Format.ReservedZero]⟩
  | ks => exact ⟨0, 0, by decide, fun p => by simp [Format.ReservedZero]⟩

/-- A `CMD` matches a row exactly if it has the row's opcode and its reserved fields are zero (R95, R96). -/
theorem Format.row_selects {f : Format} {n : Nat} {p : Packet} :
    (f.row n).Selects p.cmd ↔ p.opc = BitVec.ofNat 8 n ∧ f.ReservedZero p := by
  obtain ⟨m1, m2, hmask, hzero⟩ := f.mask_eq
  show p.cmd &&& f.mask = cmdWord (BitVec.ofNat 8 n) 0 0 ↔ _
  rw [hmask, ← p.cmdWord_fields, cmdWord_and, ones, cmdWord_inj, hzero]

/-- Every command's row is in the table, and the command's `CMD` word matches it. -/
theorem row_of_encode (i : Instr) : i.row ∈ opcodeTable ∧ i.row.Selects (encode i).cmd := by
  cases i with
  | srst => exact srst
  | rdcsr csr => exact rdcsr csr
  | smInit m n => exact smInit m n
  | bmInit b => exact bmInit b
  | smRd sel m j => exact smRd sel m j
  | bmRd b => exact bmRd b
  | encStart => exact encStart
  | encSym m sym => exact encSym m sym
  | encBit b bit => exact encBit b bit
  | encBits k x => exact encBits k x
  | encDone => exact encDone
  | decStart => exact decStart
  | decSym m => exact decSym m
  | decBit b => exact decBit b
  | decBits k => exact decBits k
  | decDone => exact decDone
  | icConfig i b range => exact icConfig i b range
  | icSetup i c bh zero smbase bmslot => exact icSetup i c bh zero smbase bmslot
  | icInit i => exact icInit i
  | icCompress i c p v => exact icCompress i c p v
  | icDecompress i c p => exact icDecompress i c p
  | icGetk i => exact icGetk i

theorem row_of_decode {p : Packet} {i : Instr} (h : decode p = .ok i) :
    i.row ∈ opcodeTable ∧ i.row.Selects p.cmd := by
  have hcmd : (encode i).cmd = p.cmd := by rw [encode_of_decode h]; rfl
  exact hcmd ▸ row_of_encode i

theorem decode_of_row {p : Packet} {r : OpcodeRow} (hr : r ∈ opcodeTable) (hs : r.Selects p.cmd) :
    ∃ i, decode p = .ok i := by
  obtain ⟨f, -, n, hn, rfl⟩ := opcodeTable_by_format r hr
  obtain ⟨hopc, hzero⟩ := Format.row_selects.mp hs
  have hlt : n < 256 := by
    have hbound : ∀ f ∈ [Format.z, .s, .k, .ks], ∀ n ∈ f.opcodes, n < 256 := by decide
    exact hbound f (by cases f <;> simp) n hn
  refine decode_of_reserved_zero (f := f) ?_ hzero
  rwa [hopc, BitVec.toNat_ofNat, Nat.mod_eq_of_lt hlt]

/-- Two rows that match the same word have the same opcode, and so the same pattern (R95). -/
theorem pattern_of_selects {r q : OpcodeRow} {cmd : Word} (hr : r ∈ opcodeTable) (hq : q ∈ opcodeTable)
    (hrs : r.Selects cmd) (hqs : q.Selects cmd) : r.pattern = q.pattern := by
  obtain ⟨f, -, n, -, rfl⟩ := opcodeTable_by_format r hr
  obtain ⟨g, -, m, -, rfl⟩ := opcodeTable_by_format q hq
  obtain ⟨hn, -⟩ := Format.row_selects (p := ⟨cmd, 0, 0⟩).mp hrs
  obtain ⟨hm, -⟩ := Format.row_selects (p := ⟨cmd, 0, 0⟩).mp hqs
  show cmdWord _ 0 0 = cmdWord _ 0 0
  rw [← hn, ← hm]

theorem opcodeTable_patterns_distinct : opcodeTable.Pairwise fun r q => r.pattern ≠ q.pattern := by decide

/-- Settles O6: a match fixes the opcode and the reserved fields, which the decoder looks at, and no two rows share an
opcode. -/
theorem decodeFollowsOpcodeTable : Obligations.DecodeFollowsOpcodeTable := by
  refine ⟨fun p => ⟨⟨?_, ?_⟩, fun i => row_of_decode⟩, ?_⟩
  · rintro ⟨i, h⟩
    exact ⟨i.row, row_of_decode h⟩
  · rintro ⟨r, hr, hs⟩
    exact decode_of_row hr hs
  · refine opcodeTable_patterns_distinct.imp_of_mem fun hr hq hne cmd => ?_
    rintro ⟨hrs, hqs⟩
    exact hne (pattern_of_selects hr hq hrs hqs)

/-- Settles O9: the first five words are encodings, the last two have an opcode without a row and a reserved field that is
not zero. -/
theorem sampleWordsDecode : Obligations.SampleWordsDecode := by
  refine ⟨?_, ?_, ?_, ?_, ?_, ?_, ?_⟩
  · exact decode_encode (.icSetup 0 2 2 0 16 3)
  · exact decode_encode (.icCompress 0 1 200 3)
  · exact decode_encode (.encBits 19 0x5A5A5)
  · exact decode_encode (.smInit 0 4)
  · exact decode_encode .decStart
  · refine decode_of_unassigned ?_
    unfold UnassignedOpcode
    decide
  · refine decode_of_reserved_field (f := .s) (by decide) ?_
    unfold Format.ReservedZero
    decide

end Sys2Proof
end

section
/-! The answer to a `CMD` that is no command (R96, R97, R262). -/

namespace Sys2Proof.Machine

open Sys2Proof

/-- A packet that does not decode is answered with one of two codes, and changes nothing else (R97, R102). -/
theorem step_refuses_undecoded {s : State} {p : Packet} {e : DecodeError} {rest : List HostEvent}
    (h : s.inbox = .command p :: rest) (hd : decode p = .error e) :
    step s = .next ((s.setInbox rest).respond (if s.mode = .fault then .eFaulted else .eIllegal) 0) := by
  rw [step_of_undecoded h hd, refuseUndecoded, State.setInbox_mode]
  split <;> rfl

/-- Settles O4: the six ranges of R97 hold no row's opcode. -/
theorem unassignedOpcodeIsIllegal : Obligations.UnassignedOpcodeIsIllegal := by
  intro s p rest n hinbox hn hrange
  rw [← p.opc_toNat] at hn
  subst hn
  exact step_refuses_undecoded hinbox (decode_of_unassigned hrange)

theorem step_refuses_reserved {s : State} {p : Packet} {rest : List HostEvent} {f : Format}
    (h : s.inbox = .command p :: rest) (ho : p.opc.toNat ∈ f.opcodes) (hz : ¬ f.ReservedZero p) :
    step s = .next ((s.setInbox rest).respond (if s.mode = .fault then .eFaulted else .eIllegal) 0) :=
  step_refuses_undecoded h (decode_of_reserved_field ho hz)

/-- Settles O5, by the format of the opcode. -/
theorem reservedFieldIsIllegal : Obligations.ReservedFieldIsIllegal := by
  intro s p rest opc f1 f2 hinbox hopc hf1 hf2 hcase
  rw [← p.opc_toNat] at hopc
  rw [← p.f1_toNat] at hf1
  rw [← p.f2_toNat] at hf2
  subst hopc hf1 hf2
  obtain ⟨ho, hne⟩ | ⟨ho, hne⟩ | ⟨ho, hne⟩ := hcase
  · refine step_refuses_reserved (f := .z) hinbox ho fun hz => ?_
    obtain ⟨h1, h2⟩ := hz
    exact hne.elim (fun h => h (by rw [h1]; rfl)) fun h => h (by rw [h2]; rfl)
  · exact step_refuses_reserved (f := .s) hinbox ho fun hz => hne (congrArg BitVec.toNat hz)
  · exact step_refuses_reserved (f := .k) hinbox ho fun hz => hne (congrArg BitVec.toNat hz)

end Sys2Proof.Machine
end

section
/-! The response to a command: in which modes it is allowed, and what it answers (R92, R101, R102). -/

namespace Sys2Proof.Machine

open Sys2Proof

/-! ### The modes of R102 -/

theorem fault_not_mem_modesOf (i : Instr) : Mode.fault ∉ modesOf i := by
  obtain h | h | h | h := modesOf_cases i <;> simp [h, anySession]

theorem mem_modesOf_of_allowedInFault {i : Instr} {m : Mode} (hi : AllowedInFault i) (hm : m ≠ .fault) :
    m ∈ modesOf i := by
  have hmodes : modesOf i = anySession := by obtain rfl | ⟨csr, rfl, -⟩ := hi <;> rfl
  rw [hmodes]
  cases m with
  | fault => exact absurd rfl hm
  | _ => simp [anySession]

/-- A command that R102 does not allow is refused, in `FAULT` mode with its own code. -/
theorem exec_not_allowed {i : Instr} {s : State} (hm : s.mode ∉ modesOf i) (hi : s.mode = .fault → ¬ AllowedInFault i) :
    exec i s = refuse s (if s.mode = .fault then .eFaulted else .eMode) := by
  have hnot : ¬ AllowedInFault i := fun ha =>
    hm (mem_modesOf_of_allowedInFault ha fun hf => hi hf ha)
  have hshape := exec_shape i s
  generalize exec i s = o at hshape ⊢
  cases hshape with
  | refused e hfault hmode =>
    split
    · next hf => rw [(hfault hf).2]
    · next hf => rw [hmode hf hm]
  | reset hsrst => exact absurd (.inl hsrst) hnot
  | answered u v _ ha => exact absurd ha (not_or.mpr ⟨hm, hnot⟩)
  | encoded r _ _ ha => exact absurd ha hm
  | decoded r _ _ ha => exact absurd ha hm

/-! ### The response -/

/-- What a command adds to the responses: one response, or none where the hard reset abandons it (R92, R291). -/
inductive Replies (i : Instr) (s t : State) : Prop where
  /-- A refusal (R260); an allowed command is refused for its operands or for what was not set up (R101). -/
  | refused (e : Status) (hr : t.responses = s.responses ++ [⟨e, 0⟩])
      (he : s.mode ∈ modesOf i ∨ AllowedInFault i → e = .eOperand ∨ e = .eUninit)
  /-- An answer `OK`. -/
  | answered (v : Word) (hr : t.responses = s.responses ++ [⟨.ok, v⟩]) (hv : NoResult i → v = 0)
  /-- A sticky fault (R270). -/
  | faulted (e : Sticky) (hr : t.responses = s.responses ++ [⟨e.status, 0⟩])
  /-- The hard reset during a blocked transfer (R291). -/
  | abandoned (hu : ¬ s.Undisturbed) (hr : t.responses = s.responses)

/-- How a command replies that began to execute, from the trace of its run. -/
theorem finish_replies {i : Instr} {cmd : Word} {s t : State} {r : Run Word} {R A : State → State → Prop}
    (hr : r.Traced s R A) (hR : ∀ u, R s u → u.responses = s.responses) (hA : ∀ u, A s u → u.responses = s.responses)
    (hd : ∀ v u, r = .done v u → NoResult i → v = 0) (h : finish cmd r = .next t) : Replies i s t := by
  cases r with
  | done v u =>
    cases h
    exact .answered v (by rw [State.respond_responses, hR u hr]) (hd v u rfl)
  | raised e u =>
    cases h
    exact .faulted e (by rw [takeFault_responses, hR u hr])
  | aborted u =>
    cases h
    obtain ⟨hleft, hdisturbed⟩ := hr
    exact .abandoned hdisturbed (hA u hleft)
  | stopped f => cases h

theorem exec_replies {i : Instr} {s t : State} (h : exec i s = .next t) : Replies i s t := by
  have hshape := exec_shape i s
  generalize exec i s = o at hshape h
  cases hshape with
  | refused e hfault _ hoperand =>
    cases h
    refine .refused e rfl fun hadm => hoperand (hadm.elim id fun ha => ?_)
    exact mem_modesOf_of_allowedInFault ha fun hf => (hfault hf).1 ha
  | reset =>
    cases h
    exact .answered 0 rfl fun _ => rfl
  | answered u v _ _ _ hresp _ _ hv =>
    cases h
    exact .answered v (by rw [State.respond_responses, hresp]) hv
  | encoded r _ _ _ ht hd =>
    exact finish_replies ht (fun _ hu => hu.keeps.2.1) (fun _ hu => hu.keeps.2.1) (fun v u hr _ => (hd v u hr).1) h
  | decoded r _ _ _ ht hd =>
    exact finish_replies ht (fun _ hu => hu.keeps.2.1) (fun _ ⟨_, _, hresp, _⟩ => hresp)
      (fun v u hr => (hd v u hr).1) h

/-- The status of an allowed command is none of the two that R102 refuses with. -/
theorem Replies.status_of_allowed {i : Instr} {s t : State} {r : Response} (h : Replies i s t)
    (ha : s.mode ∈ modesOf i ∨ AllowedInFault i) (hr : t.responses = s.responses ++ [r]) :
    r.st ≠ .eMode ∧ r.st ≠ .eFaulted := by
  cases h with
  | refused e he hcode =>
    obtain rfl := append_last_inj (hr.symm.trans he)
    obtain rfl | rfl := hcode ha <;> decide
  | answered v hv =>
    obtain rfl := append_last_inj (hr.symm.trans hv)
    simp
  | faulted e he =>
    obtain rfl := append_last_inj (hr.symm.trans he)
    cases e <;> decide
  | abandoned _ hnone => simp [hnone] at hr

/-- Settles O10: the first two clauses are the refusal of a command R102 does not allow, the third the reply of one it
allows. -/
theorem commandsByMode : Obligations.CommandsByMode := by
  intro i s
  refine ⟨fun hf hsrst hcsr => ?_, fun hf hm => ?_, fun ha t r h => ?_⟩
  · have hnot : ¬ AllowedInFault i := by
      rintro (hi | ⟨csr, hi, hle⟩)
      · exact hsrst hi
      · exact absurd (hcsr csr hi) (by omega)
    have hrefused := exec_not_allowed (hf ▸ fault_not_mem_modesOf i) fun _ => hnot
    rwa [if_pos hf] at hrefused
  · have hrefused := exec_not_allowed hm fun h => absurd h hf
    rwa [if_neg hf] at hrefused
  · exact (exec_replies h).status_of_allowed ha

/-- Settles O12, by the way the command replies: it is not abandoned, and only an answer `OK` carries a result. -/
theorem oneResponsePerCommand : Obligations.OneResponsePerCommand := by
  intro i s t hquiet h
  cases exec_replies h with
  | refused e hr => exact ⟨_, hr, fun _ => rfl⟩
  | answered v hr hv => exact ⟨_, hr, fun hz => hv (hz.resolve_left fun hne => hne rfl)⟩
  | faulted e hr => exact ⟨_, hr, fun _ => rfl⟩
  | abandoned hu => exact absurd hquiet hu

end Sys2Proof.Machine
end

section
/-! The adaptive models one update at a time: the counts, the probability state and the search, slot by slot, and what an
update leaves of the files (R124 to R126). -/

namespace Sys2Proof.Machine

open Sys2Proof

/-! ### The symbol models -/

/-- Before any halving, one count has grown and the others are as they were (R124). -/
theorem SmSlot.bump_count {p : Params} {sl : SmSlot} {sym : Nat} (hp : p.Ok) (h : sl.Ok p) (hv : sl.valid = true)
    (hs : sym < sl.n) (j : Nat) : (sl.bump p sym).count j = sl.count j + if j = sym then p.symInc else 0 := by
  obtain ⟨-, -, hlen, -, -⟩ := h hv
  obtain ⟨-, hgrown⟩ := SmSlot.bump_total hp h hv hs
  by_cases hj : j = sym
  · rw [if_pos hj, hj, ← hgrown]
    simp [SmSlot.count, SmSlot.bump, show sym < sl.cnt.length from hlen ▸ hs]
  · simp [SmSlot.count, SmSlot.bump, hj, List.getElem?_set_ne (Ne.symm hj)]

/-- Halving every count halves each one that is read; beyond the list both read 0. -/
theorem getD_map_halveCount (cs : List (BitVec 17)) (j : Nat) :
    ((cs.map halveCount).getD j 0).toNat = ((cs.getD j 0).toNat + 1) / 2 := by
  have hread : (cs.map halveCount).getD j (halveCount 0) = halveCount (cs.getD j 0) := List.getD_map ..
  exact (congrArg BitVec.toNat hread).trans (halveCount_toNat _)

/-- The counts an update leaves (R124). -/
theorem SmSlot.update_count {p : Params} {sl : SmSlot} {sym : Nat} (hp : p.Ok) (h : sl.Ok p) (hv : sl.valid = true)
    (hs : sym < sl.n) (j : Nat) : (sl.update p sym).count j =
      if p.symLimit < sl.total + p.symInc then (sl.count j + (if j = sym then p.symInc else 0) + 1) / 2
      else sl.count j + if j = sym then p.symInc else 0 := by
  obtain ⟨htotal, -⟩ := SmSlot.bump_total hp h hv hs
  rw [← SmSlot.bump_count hp h hv hs, ← htotal, SmSlot.update]
  split
  · exact getD_map_halveCount _ j
  · rfl

theorem symUpdate_smAt_self {s : State} {m : Nat} (sym : Nat) (hv : (s.smAt m).valid = true) :
    (symUpdate m sym s).smAt m = (s.smAt m).update s.par sym := State.smAt_setSm_self _ (State.smAt_lt hv)

theorem symUpdate_smAt_ne {s : State} {m j : Nat} (sym : Nat) (hj : j ≠ m) : (symUpdate m sym s).smAt j = s.smAt j :=
  State.smAt_setSm_ne _ hj

/-- Settles O28: the update of the slot gives the counts, and the slot it leaves is as R34 says, which bounds the total and
every count. -/
theorem symUpdateRule : Obligations.SymUpdateRule := by
  intro s m sym hp hok hv hs
  have hok' : ((s.smAt m).update s.par sym).Ok s.par := hok.update hp hs
  have hv' : ((s.smAt m).update s.par sym).valid = true := by rwa [SmSlot.update_valid]
  obtain ⟨-, -, -, -, htotal⟩ := hok' hv'
  rw [symUpdate_smAt_self sym hv]
  refine ⟨fun j _ => SmSlot.update_count hp hok hv hs j, SmSlot.update_n _ _ _, hv', htotal, fun j hj => ?_,
    fun j hj => symUpdate_smAt_ne sym hj, rfl⟩
  exact hok'.count_pos hv' (by rwa [SmSlot.update_n])

/-- Settles O30: the search finds a symbol whose counts hold the position, and the cumulative counts leave room for one
only. -/
theorem findSymRule : Obligations.FindSymRule := by
  intro p sl t hok hv ht
  obtain ⟨-, -, hlen, -, -⟩ := hok hv
  obtain ⟨hlt, hle, hgt⟩ := SmSlot.findSym_spec hlen ht
  exact ⟨hlt, hle, hgt, fun j _ hj hj' => SmSlot.symbol_unique hj hj' hle hgt⟩

/-! ### The bit models -/

/-- The shift of R125 is the division of the model. -/
theorem shiftRight_eq_div (x : Int) (k : Nat) : x >>> k = x / 2 ^ k := by
  rw [Int.shiftRight_eq_div_pow, Nat.cast_pow]
  rfl

/-- A distance shifted right stays a distance no longer than it was. -/
theorem shiftRight_bounds {x : Int} (k : Nat) (hx : 0 ≤ x) : 0 ≤ x >>> k ∧ x >>> k ≤ x := by
  rw [shiftRight_eq_div]
  exact ⟨Int.ediv_nonneg hx (by positivity), Int.ediv_le_self _ hx⟩

/-- A value well inside the signed 16-bit range is kept by the field `BS`. -/
theorem toInt_ofInt_16 {x : Int} (hlo : -8192 ≤ x) (hhi : x ≤ 8192) : (BitVec.ofInt 16 x).toInt = x := by
  rw [BitVec.toInt_ofInt]
  apply Int.bmod_eq_of_le <;> omega

/-- The state a bit leaves: no wrap at 16 bits, since `BS` moves by no more than its distance to an end of the scale
(R125). -/
theorem BmSlot.update_bs {p : Params} {sl : BmSlot} (bit : Bool) (hp : p.Ok) (h : sl.Ok p) (hv : sl.valid = true) :
    (sl.update p bit).bs.toInt =
      if bit then sl.bs.toInt - ((4096 + sl.bs.toInt) >>> p.bmShift)
      else sl.bs.toInt + ((4096 - sl.bs.toInt) >>> p.bmShift) := by
  obtain ⟨hlo, hhi⟩ := h.p0_bounds hp hv
  unfold BmSlot.p0 Config.bmMid at hlo hhi
  cases bit with
  | true =>
    have hstep := shiftRight_bounds p.bmShift (x := 4096 + sl.bs.toInt) (by omega)
    simp only [BmSlot.update, if_true]
    rw [shiftRight_eq_div] at hstep ⊢
    exact toInt_ofInt_16 (by omega) (by omega)
  | false =>
    have hstep := shiftRight_bounds p.bmShift (x := 4096 - sl.bs.toInt) (by omega)
    simp only [BmSlot.update, Bool.false_eq_true, if_false]
    rw [shiftRight_eq_div] at hstep ⊢
    exact toInt_ofInt_16 (by omega) (by omega)

theorem bitUpdate_bmAt_self {s : State} {b : Nat} (bit : Bool) (hv : (s.bmAt b).valid = true) :
    (bitUpdate b bit s).bmAt b = (s.bmAt b).update s.par bit := State.bmAt_setBm_self _ (State.bmAt_lt hv)

theorem bitUpdate_bmAt_ne {s : State} {b j : Nat} (bit : Bool) (hj : j ≠ b) : (bitUpdate b bit s).bmAt j = s.bmAt j :=
  State.bmAt_setBm_ne _ hj

/-- Settles O29: the update of the slot gives `BS`, and the slot it leaves is as R36 says. -/
theorem bitUpdateRule : Obligations.BitUpdateRule := by
  intro s b bit hp hok hv
  have hv' : ((s.bmAt b).update s.par bit).valid = true := by rwa [BmSlot.update_valid]
  obtain ⟨hlo, hhi⟩ := hok.update hp hv'
  rw [bitUpdate_bmAt_self bit hv]
  exact ⟨BmSlot.update_bs bit hp hok hv, hlo, hhi, hv', fun j hj => bitUpdate_bmAt_ne bit hj, rfl⟩

end Sys2Proof.Machine
end

section
/-! The coding commands adapt their model in the same way on both sides (R127): whatever they do to the coder and the streams,
their part in the files is one update. -/

namespace Sys2Proof.Machine

open Sys2Proof

/-! ### What a command does to the models -/

/-- The model files of `t` are those of `s` after one update of symbol model `m` with `sym`. -/
structure AdaptsSymbol (s t : State) (m sym : Nat) : Prop where
  valid : (s.smAt m).valid = true
  slots : ∀ j, t.smAt j = (symUpdate m sym s).smAt j
  bitModels : t.bm = s.bm

/-- The model files of `t` are those of `s` after one update of bit model `b` with `bit`. -/
structure AdaptsBit (s t : State) (b : Nat) (bit : Bool) : Prop where
  valid : (s.bmAt b).valid = true
  slots : ∀ j, t.bmAt j = (bitUpdate b bit s).bmAt j
  symbolModels : t.sm = s.sm

/-- An update after the coder moved: `u` has the files of `s`. -/
theorem adaptsSymbol_symUpdate {s u : State} {m sym : Nat} (hv : (s.smAt m).valid = true) (hsm : u.sm = s.sm)
    (hbm : u.bm = s.bm) (hpar : u.par = s.par) (st : Status) (v : Word) :
    AdaptsSymbol s ((symUpdate m sym u).respond st v) m sym := by
  refine ⟨hv, fun j => ?_, hbm⟩
  simp only [symUpdate, State.smAt, State.respond_sm, State.setSm_sm, hsm, hpar]

theorem adaptsBit_bitUpdate {s u : State} {b : Nat} {bit : Bool} (hv : (s.bmAt b).valid = true) (hsm : u.sm = s.sm)
    (hbm : u.bm = s.bm) (hpar : u.par = s.par) (st : Status) (v : Word) :
    AdaptsBit s ((bitUpdate b bit u).respond st v) b bit := by
  refine ⟨hv, fun j => ?_, hsm⟩
  simp only [bitUpdate, State.bmAt, State.respond_bm, State.setBm_bm, hbm, hpar]

/-- The slot after the update is fixed by the slot before it and the parameters. -/
theorem AdaptsSymbol.alike {e e' d d' : State} {m sym : Nat} (he : AdaptsSymbol e e' m sym) (hd : AdaptsSymbol d d' m sym)
    (hpar : e.par = d.par) (hslot : e.smAt m = d.smAt m) : e'.smAt m = d'.smAt m := by
  rw [he.slots, hd.slots, symUpdate_smAt_self sym he.valid, symUpdate_smAt_self sym hd.valid, hslot, hpar]

theorem AdaptsBit.alike {e e' d d' : State} {b : Nat} {bit : Bool} (he : AdaptsBit e e' b bit) (hd : AdaptsBit d d' b bit)
    (hpar : e.par = d.par) (hslot : e.bmAt b = d.bmAt b) : e'.bmAt b = d'.bmAt b := by
  rw [he.slots, hd.slots, bitUpdate_bmAt_self bit he.valid, bitUpdate_bmAt_self bit hd.valid, hslot, hpar]

theorem AdaptsSymbol.smAt_ne {s t : State} {m sym j : Nat} (h : AdaptsSymbol s t m sym) (hj : j ≠ m) :
    t.smAt j = s.smAt j := (h.slots j).trans (symUpdate_smAt_ne sym hj)

theorem AdaptsBit.bmAt_ne {s t : State} {b j : Nat} {bit : Bool} (h : AdaptsBit s t b bit) (hj : j ≠ b) :
    t.bmAt j = s.bmAt j := (h.slots j).trans (bitUpdate_bmAt_ne bit hj)

/-! ### The four coding commands -/

theorem encSym_adapts {m : Index} {sym v : Word} {s t : State} (hi : s.Inv) (h : Answers (.encSym m sym) s v t) :
    AdaptsSymbol s t m.toNat sym.toNat := by
  obtain ⟨-, ⟨-, -, hv, -⟩, -, u, ⟨w, hw, rfl⟩, -, rfl⟩ := encSym_answered hi h
  obtain ⟨hsm, hbm, -⟩ := hw.files
  exact adaptsSymbol_symUpdate hv hsm hbm hw.around.1 _ _

theorem encBit_adapts {b : Index} {bit v : Word} {s t : State} (hi : s.Inv) (h : Answers (.encBit b bit) s v t) :
    AdaptsBit s t b.toNat (decide (bit.toNat = 1)) := by
  obtain ⟨-, -, -, ⟨-, -, hv⟩, -, u, ⟨w, hw, rfl⟩, -, rfl⟩ := encBit_answered hi h
  obtain ⟨hsm, hbm, -⟩ := hw.files
  exact adaptsBit_bitUpdate hv hsm hbm hw.around.1 _ _

/-- A symbol of a valid model fits the result word (R5, R34). -/
theorem ModelOk.symbol_toNat {s : State} {m sym : Nat} (h : ModelOk s m) (hs : sym < (s.smAt m).n) :
    (BitVec.ofNat 32 sym).toNat = sym := by
  obtain ⟨⟨-, -, -, -, -, ⟨hsize, hlimit⟩, -⟩, hok, hv⟩ := h
  obtain ⟨-, hn, -⟩ := hok hv
  have : s.par.symLimit ≤ 65536 := hlimit
  exact Nat.mod_eq_of_lt (by omega)

theorem decSym_adapts {m : Index} {v : Word} {s t : State} (hi : s.Inv) (h : Answers (.decSym m) s v t) :
    AdaptsSymbol s t m.toNat v.toNat := by
  obtain ⟨-, hm, u, sym, htakes, rfl, rfl⟩ := decSym_answered hi h
  rw [hm.symbol_toNat htakes.lt]
  obtain ⟨-, -, hv⟩ := hm
  obtain ⟨bs, rest, -, -, -, -, -, rfl⟩ := htakes
  exact adaptsSymbol_symUpdate (u := s.windowed _ _ bs rest) hv rfl rfl rfl _ _

/-- A `DEC_BIT` answered `OK` (R184, R185). -/
theorem decBit_answered {b : Index} {v : Word} {s t : State} (hi : s.Inv) (h : Answers (.decBit b) s v t) :
    s.mode = .dec ∧ BitOk s b.toNat ∧ ∃ (u : State) (bit : Bool), TakesBit s u b.toNat bit ∧
      v = BitVec.ofNat 32 bit.toNat ∧ t = u.respond .ok v := by
  obtain ⟨h, hr⟩ := h
  obtain ⟨-, hm, h⟩ := guarded_answered h hr
  have hm : s.mode = .dec := by simpa using hm
  obtain ⟨hp, hfiles, hd⟩ := State.Inv.dec hi hm
  split_ifs at h with hslot hvalid
  · exact (refuse_not_ok (by decide) h hr).elim
  · exact (refuse_not_ok (by decide) h hr).elim
  · have hok : BitOk s b.toNat := ⟨hp, hfiles.bmAt _, by simpa using hvalid⟩
    have hsat := (decodeBit_sat hd hok).bind (f := fun n s' => (.done (BitVec.ofNat 32 n) s' : Run Word))
      (P' := fun w u => ∃ bit : Bool, TakesBit s u b.toNat bit ∧ w = BitVec.ofNat 32 bit.toNat)
      fun n u ⟨⟨bit, hn, htakes⟩, _⟩ => ⟨bit, htakes, by rw [hn]⟩
    obtain ⟨u, -, ⟨bit, htakes, rfl⟩, rfl⟩ := finish_answered_sat hsat
      (fun w u ⟨_, htakes, _⟩ => (htakes.passed hp hfiles).1) h hr
    exact ⟨hm, hok, u, bit, htakes, rfl, rfl⟩

theorem decBit_adapts {b : Index} {v : Word} {s t : State} (hi : s.Inv) (h : Answers (.decBit b) s v t) :
    AdaptsBit s t b.toNat (decide (v.toNat = 1)) := by
  obtain ⟨-, ⟨-, -, hv⟩, u, bit, ⟨-, bs, rest, -, -, rfl⟩, rfl, rfl⟩ := decBit_answered hi h
  have hbit : decide ((BitVec.ofNat 32 bit.toNat).toNat = 1) = bit := by cases bit <;> rfl
  rw [hbit]
  exact adaptsBit_bitUpdate (u := s.windowed _ _ bs rest) hv rfl rfl rfl _ _

/-- Settles O31: encoded or decoded, the command is one update of its slot, and the answer of the decoder is the operand of
the encoder. -/
theorem modelsAdaptAlike : Obligations.ModelsAdaptAlike := by
  intro e d e' d' hie hid hpar
  refine ⟨fun m sym hslot he hd => ?_, fun b bit hslot he hd => ?_⟩
  · have he := encSym_adapts hie he
    have hd := decSym_adapts hid hd
    exact ⟨he.alike hd hpar hslot, he.bitModels, hd.bitModels, fun j hj => ⟨he.smAt_ne hj, hd.smAt_ne hj⟩⟩
  · have he := encBit_adapts hie he
    have hd := decBit_adapts hid hd
    exact ⟨he.alike hd hpar hslot, he.symbolModels, hd.symbolModels, fun j hj => ⟨he.bmAt_ne hj, hd.bmAt_ne hj⟩⟩

end Sys2Proof.Machine
end

section
/-! The commands that set up and read the model files, outside `FAULT` mode: one equation for each outcome of their checks
(R120 to R123). -/

namespace Sys2Proof.Machine

open Sys2Proof

variable {s : State}

/-! ### `SM_INIT` and `BM_INIT` -/

/-- The cumulative counts of a slot with every count 1 (R120). -/
theorem SmSlot.fresh_cum {n j : Nat} (hj : j ≤ n) : (SmSlot.fresh n).cum j = j := by
  simp [SmSlot.cum, SmSlot.fresh, List.take_replicate, hj]

theorem smInit_slot_refused {m : Index} (n : Word) (hf : s.mode ≠ .fault) (hm : s.par.nsm ≤ m.toNat) :
    exec (.smInit m n) s = refuse s .eOperand := (guarded_any hf).trans (if_pos hm)

theorem smInit_size_refused (m : Index) {n : Word} (hf : s.mode ≠ .fault) (hn : n.toNat < 1 ∨ s.par.nMax < n.toNat) :
    exec (.smInit m n) s = refuse s .eOperand := by
  by_cases hm : s.par.nsm ≤ m.toNat
  · exact smInit_slot_refused n hf hm
  · exact (guarded_any hf).trans ((if_neg hm).trans (if_pos hn))

theorem smInit_answers {m : Index} {n : Word} (hf : s.mode ≠ .fault) (hm : m.toNat < s.par.nsm) (h1 : 1 ≤ n.toNat)
    (hn : n.toNat ≤ s.par.nMax) : exec (.smInit m n) s = answer (s.setSm m.toNat (SmSlot.fresh n.toNat)) 0 :=
  (guarded_any hf).trans ((if_neg (by omega)).trans (if_neg (by omega)))

/-- An `SM_INIT` answered `OK` wrote the fresh slot (R120). -/
theorem smInit_answered {m : Index} {n v : Word} {t : State} (h : Answers (.smInit m n) s v t) :
    t = (s.setSm m.toNat (SmSlot.fresh n.toNat)).respond .ok 0 := by
  obtain ⟨h, hr⟩ := h
  obtain ⟨-, -, h⟩ := guarded_answered h hr
  split_ifs at h with hslot hsize
  · exact (refuse_not_ok (by decide) h hr).elim
  · exact (refuse_not_ok (by decide) h hr).elim
  · cases h
    rfl

/-- Settles O24, from the outcomes of the checks and the counts of the fresh slot. -/
theorem smInitResult : Obligations.SmInitResult := by
  intro m n s hf
  refine ⟨smInit_slot_refused n hf, smInit_size_refused m hf, smInit_answers hf, fun t ht hm => ?_⟩
  have hslot : t.smAt m.toNat = SmSlot.fresh n.toNat := by
    rw [smInit_answered ht]
    exact State.smAt_setSm_self _ hm
  rw [hslot]
  exact ⟨SmSlot.fresh_total _, fun j hj => SmSlot.fresh_cum hj⟩

/-- Settles O25: the one check of R121 either refuses or lets the fresh slot be written. -/
theorem bmInitResult : Obligations.BmInitResult := by
  intro b s hf
  exact ⟨fun hb => (guarded_any hf).trans (if_pos hb), fun hb => (guarded_any hf).trans (if_neg (by omega))⟩

/-! ### `SM_RD` and `BM_RD` -/

theorem smRd_operand_refused {sel : Byte} {m : Index} (j : Word) (hf : s.mode ≠ .fault)
    (h : s.par.nsm ≤ m.toNat ∨ 2 < sel.toNat) : exec (.smRd sel m j) s = refuse s .eOperand :=
  (guarded_any hf).trans (if_pos h)

theorem smRd_uninit_refused {sel : Byte} {m : Index} (j : Word) (hf : s.mode ≠ .fault) (hm : m.toNat < s.par.nsm)
    (hsel : sel.toNat ≤ 2) (hv : (s.smAt m.toNat).valid = false) : exec (.smRd sel m j) s = refuse s .eUninit :=
  (guarded_any hf).trans ((if_neg (by omega)).trans (if_pos hv))

section valid

variable {m : Index} (j : Word) (hf : s.mode ≠ .fault) (hm : m.toNat < s.par.nsm) (hv : (s.smAt m.toNat).valid = true)
include hf hm hv

theorem smRd_count : exec (.smRd 0 m j) s =
    if (s.smAt m.toNat).n ≤ j.toNat then refuse s .eOperand
    else answer s (BitVec.ofNat 32 ((s.smAt m.toNat).count j.toNat)) :=
  (guarded_any hf).trans ((if_neg (by simpa using hm)).trans ((if_neg (by simp [hv])).trans (if_pos rfl)))

theorem smRd_cum : exec (.smRd 1 m j) s =
    if (s.smAt m.toNat).n < j.toNat then refuse s .eOperand
    else answer s (BitVec.ofNat 32 ((s.smAt m.toNat).cum j.toNat)) :=
  (guarded_any hf).trans ((if_neg (by simpa using hm)).trans
    ((if_neg (by simp [hv])).trans ((if_neg (by decide)).trans (if_pos rfl))))

theorem smRd_size : exec (.smRd 2 m j) s = answer s (BitVec.ofNat 32 (s.smAt m.toNat).n) :=
  (guarded_any hf).trans ((if_neg (by simpa using hm)).trans
    ((if_neg (by simp [hv])).trans ((if_neg (by decide)).trans (if_neg (by decide)))))

end valid

/-- Settles O26, by the checks of R122 in order and then by the selector. -/
theorem smRdResult : Obligations.SmRdResult := by
  intro sel m j s hf
  refine ⟨smRd_operand_refused j hf, smRd_uninit_refused j hf, fun hm hv => ⟨?_, ?_, ?_, ?_, ?_⟩⟩
  · rintro rfl hj
    exact (smRd_count j hf hm hv).trans (if_pos hj)
  · rintro rfl hj
    exact (smRd_count j hf hm hv).trans (if_neg (by omega))
  · rintro rfl hj
    exact (smRd_cum j hf hm hv).trans (if_pos hj)
  · rintro rfl hj
    exact (smRd_cum j hf hm hv).trans (if_neg (by omega))
  · rintro rfl
    exact smRd_size j hf hm hv

/-- Settles O27: the two checks of R123 in order, then `BS`. -/
theorem bmRdResult : Obligations.BmRdResult := by
  intro b s hf
  refine ⟨fun hb => (guarded_any hf).trans (if_pos hb), fun hb hv => ?_, fun hb hv => ?_⟩
  · exact (guarded_any hf).trans ((if_neg (by omega)).trans (if_pos hv))
  · exact (guarded_any hf).trans ((if_neg (by omega)).trans (if_neg (by simp [hv])))

end Sys2Proof.Machine
end

section
/-! The encoder, command by command (R150 to R161): which case of `ShiftOut` a state is in, how many renormalisation steps the
parts of an interval need, and one equation for each outcome of a command's checks. -/

namespace Sys2Proof.Machine

open Sys2Proof

variable {s : State}

/-! ### The cases of `ShiftOut` -/

/-- `LOW` at `2^32` or more is the carry (R26). -/
theorem State.carryNat_of_ge (h : 2 ^ 32 ≤ s.low.toNat) : s.carryNat = 1 := by
  rw [State.carryNat, State.carry_eq, if_pos (decide_eq_true h)]

theorem State.carryNat_of_lt (h : s.low.toNat < 2 ^ 32) : s.carryNat = 0 := by
  rw [State.carryNat, State.carry_eq, if_neg (by simpa using h)]

/-- A shift-out releases unless the top byte of `LOW` is 0xFF without a carry above it (R151). -/
theorem releases_iff : Releases s ↔ s.low.toNat < 0xFF000000 ∨ 2 ^ 32 ≤ s.low.toNat := by
  have hlow := s.low.isLt
  simp only [Releases, State.carry_eq, decide_eq_true_eq]
  omega

theorem topByte_eq (s : State) : topByte s = BitVec.ofNat 8 (s.low.toNat / 2 ^ 24) :=
  BitVec.eq_of_toNat_eq (by rw [topByte_toNat, BitVec.toNat_ofNat])

/-- Without a carry `CACHE` and the pending bytes leave as they were held (R151). -/
theorem releasedBytes_of_lt (h : s.low.toNat < 2 ^ 32) : releasedBytes s = s.cache :: List.replicate s.pend 0xFF := by
  simp [releasedBytes, State.carryNat_of_lt h]

/-- A carry runs through the pending bytes into `CACHE`, which may wrap (R151). -/
theorem releasedBytes_of_carry (h : 2 ^ 32 ≤ s.low.toNat) :
    releasedBytes s = (s.cache + 1) :: List.replicate s.pend 0x00 := by
  simp [releasedBytes, State.carryNat_of_ge h, BitVec.ofNat_add]

/-- Settles O32: `LOW` decides between releasing, with or without a carry, and deferring, which needs room in `PEND`. -/
theorem shiftOutCases : Obligations.ShiftOutCases := by
  intro s
  refine ⟨fun ha hlow hcarry => ?_, fun ha hcarry => ?_, fun hlow hcarry hp => ?_, fun hlow hcarry hp => ?_⟩
  · rw [shiftOut_releases (.inl hlow) ha, State.released, releasedBytes_of_lt hcarry, topByte_eq, shiftedLow]
  · rw [shiftOut_releases (releases_iff.mpr (.inr hcarry)) ha, State.released, releasedBytes_of_carry hcarry, topByte_eq,
      shiftedLow]
  · exact shiftOut_defers (by rw [releases_iff]; omega) hp
  · exact shiftOut_of_full (by rw [releases_iff]; omega) hp

/-! ### Renormalisation steps -/

/-- In an open session the length is at least `TOP` (R27). -/
theorem State.Inv.len_ge (hi : s.Inv) (hm : s.mode = .enc ∨ s.mode = .dec) : 2 ^ 24 ≤ s.len.toNat := by
  obtain hm | hm := hm
  · obtain ⟨-, -, hlen, -⟩ := hi.enc hm
    exact hlen
  · obtain ⟨-, -, hlen, -⟩ := hi.dec hm
    exact hlen

/-- One step for every eight bits begun by which a length falls short of `TOP` (R161). -/
theorem renormSteps_le_of_bits {len k : Nat} (hk : k ≤ 24) (h : 2 ^ (24 - k) ≤ len) :
    renormSteps len ≤ (k + 7) / 8 := by
  have hpow : ∀ i, i ≤ 24 - k → 2 ^ i ≤ len := fun i hi => (Nat.pow_le_pow_right (by omega) hi).trans h
  have h24 := hpow 24
  have h16 := hpow 16
  have h8 := hpow 8
  unfold renormSteps
  split_ifs <;> omega

/-- Settles O38: the parts of an interval of at least `TOP` are long enough, by the bounds of the counts, of `P0` and of the
width. -/
theorem renormStepBounds : Obligations.RenormStepBounds := by
  intro s hi hm
  have hpar : s.par.Ok := hi.1
  have hfiles : s.FilesOk := hi.filesOk (by rcases hm with hm | hm <;> simp [hm])
  have hlen := hi.len_ge hm
  refine ⟨fun m sym hv hs => ?_, fun b hv => ?_, fun k _ hk => ?_⟩
  · have hok : SymOk s m sym := ⟨hpar, hfiles.smAt m, hv, hs⟩
    obtain ⟨⟨-, hle, -⟩, hsize⟩ := hok.part hlen
    exact ⟨hsize, by rw [Nat.mul_add]; omega, renormSteps_le_two hsize⟩
  · obtain ⟨hlo, hhi⟩ := zeroPart_bounds hpar (hfiles.bmAt b) hv hlen
    exact ⟨by omega, by omega, renormSteps_le_two (by omega), renormSteps_le_two (by omega)⟩
  · have hpow : 2 ^ (24 - k) ≤ s.len.toNat / 2 ^ k := by
      rw [Nat.le_div_iff_mul_le (by positivity), ← Nat.pow_add, Nat.sub_add_cancel (by omega)]
      exact hlen
    exact ⟨(uniform_part hk (Nat.two_pow_pos k) hlen).2, renormSteps_le_of_bits (by omega) hpow⟩

/-! ### The coding commands -/

/-- A coding procedure that returned is answered `OK` with no result (R15). -/
theorem finish_noResult {cmd : Word} {r : Run Unit} {t : State} (h : r = .done () t) :
    finish cmd (noResult r) = .next (t.respond .ok 0) := by
  rw [h]
  rfl

section session

variable (hm : s.mode = .enc)
include hm

theorem encSym_slot_refused {m : Index} (sym : Word) (h : s.par.nsm ≤ m.toNat) :
    exec (.encSym m sym) s = refuse s .eOperand := (guarded_enc hm).trans (if_pos h)

theorem encSym_uninit_refused {m : Index} (sym : Word) (h : m.toNat < s.par.nsm) (hv : (s.smAt m.toNat).valid = false) :
    exec (.encSym m sym) s = refuse s .eUninit := (guarded_enc hm).trans ((if_neg (by omega)).trans (if_pos hv))

theorem encSym_symbol_refused {m : Index} {sym : Word} (h : m.toNat < s.par.nsm) (hv : (s.smAt m.toNat).valid = true)
    (hs : (s.smAt m.toNat).n ≤ sym.toNat) : exec (.encSym m sym) s = refuse s .eOperand :=
  (guarded_enc hm).trans ((if_neg (by omega)).trans ((if_neg (by simp [hv])).trans (if_pos hs)))

/-- `ENC_SYM` whose checks pass and whose procedure returns (R154). -/
theorem encSym_answers {m : Index} {sym : Word} {t : State} (h : m.toNat < s.par.nsm)
    (hv : (s.smAt m.toNat).valid = true) (hs : sym.toNat < (s.smAt m.toNat).n)
    (ht : encodeSymbol m.toNat sym.toNat s = .done () t) : exec (.encSym m sym) s = .next (t.respond .ok 0) :=
  (guarded_enc hm).trans ((if_neg (by omega)).trans ((if_neg (by simp [hv])).trans
    ((if_neg (by omega)).trans (finish_noResult ht))))

theorem encBit_slot_refused {b : Index} (bit : Word) (h : s.par.nbm ≤ b.toNat) :
    exec (.encBit b bit) s = refuse s .eOperand := (guarded_enc hm).trans (if_pos h)

theorem encBit_uninit_refused {b : Index} (bit : Word) (h : b.toNat < s.par.nbm) (hv : (s.bmAt b.toNat).valid = false) :
    exec (.encBit b bit) s = refuse s .eUninit := (guarded_enc hm).trans ((if_neg (by omega)).trans (if_pos hv))

theorem encBit_bit_refused {b : Index} {bit : Word} (h : b.toNat < s.par.nbm) (hv : (s.bmAt b.toNat).valid = true)
    (hbit : 1 < bit.toNat) : exec (.encBit b bit) s = refuse s .eOperand :=
  (guarded_enc hm).trans ((if_neg (by omega)).trans ((if_neg (by simp [hv])).trans (if_pos hbit)))

/-- `ENC_BIT` whose checks pass and whose procedure returns (R156). -/
theorem encBit_answers {b : Index} {bit : Word} {t : State} (h : b.toNat < s.par.nbm)
    (hv : (s.bmAt b.toNat).valid = true) (hbit : bit.toNat ≤ 1)
    (ht : encodeBit b.toNat (decide (bit.toNat = 1)) s = .done () t) :
    exec (.encBit b bit) s = .next (t.respond .ok 0) :=
  (guarded_enc hm).trans ((if_neg (by omega)).trans ((if_neg (by simp [hv])).trans
    ((if_neg (by omega)).trans (finish_noResult ht))))

/-- Both checks of R159 refuse with the same code. -/
theorem encBits_refused {k : Byte} {x : Word} (h : k.toNat < 1 ∨ 32 < k.toNat ∨ 2 ^ k.toNat ≤ x.toNat) :
    exec (.encBits k x) s = refuse s .eOperand := by
  refine (guarded_enc hm).trans ?_
  by_cases hwidth : k.toNat < 1 ∨ 32 < k.toNat
  · exact if_pos hwidth
  · have hvalue : 2 ^ k.toNat ≤ x.toNat := by tauto
    have hk : k.toNat < 32 := (Nat.pow_lt_pow_iff_right (by omega)).mp (hvalue.trans_lt x.isLt)
    exact (if_neg hwidth).trans (if_pos ⟨hk, hvalue⟩)

/-- `ENC_BITS` whose checks pass and whose procedure returns (R159). -/
theorem encBits_answers {k : Byte} {x : Word} {t : State} (h1 : 1 ≤ k.toNat) (hk : k.toNat ≤ 32)
    (hx : x.toNat < 2 ^ k.toNat) (ht : encodeBits k.toNat x.toNat s = .done () t) :
    exec (.encBits k x) s = .next (t.respond .ok 0) :=
  (guarded_enc hm).trans ((if_neg (by omega)).trans ((if_neg (by omega)).trans (finish_noResult ht)))

/-- `ENC_DONE` whose five shift-outs return (R160). -/
theorem encDone_answers {t : State} (ht : shiftOuts 5 s = .done () t) :
    exec .encDone s = .next ((t.setMode .idle).respond .ok 0) := by
  refine (guarded_enc hm).trans ?_
  rw [show Config.flushBytes = 5 from rfl, ht]
  rfl

end session

/-- Settles O34: the checks of R154 in order, then the specification of `EncodeSymbol`. -/
theorem encSymResult : Obligations.EncSymResult := by
  intro m sym s hi
  refine ⟨guarded_not_enc, fun hm => encSym_slot_refused hm sym, fun hm => encSym_uninit_refused hm sym,
    fun hm => encSym_symbol_refused hm, fun hm hslot hv hs ha hp => ?_⟩
  obtain ⟨hpar, hfiles, he⟩ := hi.enc hm
  obtain ⟨t, ht, hcodes, -⟩ := encodeSymbol_completes he ⟨hpar, hfiles.smAt _, hv, hs⟩ ha hp
  exact ⟨t, hcodes, encSym_answers hm hslot hv hs ht⟩

/-- Settles O35: the checks of R156 in order, then the specification of `EncodeBit`. -/
theorem encBitResult : Obligations.EncBitResult := by
  intro b bit s hi
  refine ⟨guarded_not_enc, fun hm => encBit_slot_refused hm bit, fun hm => encBit_uninit_refused hm bit,
    fun hm => encBit_bit_refused hm, fun hm hslot hv hbit ha hp => ?_⟩
  obtain ⟨hpar, hfiles, he⟩ := hi.enc hm
  obtain ⟨t, ht, hcodes, -⟩ := encodeBit_completes _ he ⟨hpar, hfiles.bmAt _, hv⟩ ha hp
  exact ⟨t, hcodes, encBit_answers hm hslot hv hbit ht⟩

/-- Settles O36: the checks of R159, then the specification of `EncodeBits`. -/
theorem encBitsResult : Obligations.EncBitsResult := by
  intro k x s hi
  refine ⟨guarded_not_enc, fun hm => encBits_refused hm, fun hm h1 hk hx ha hp => ?_⟩
  obtain ⟨-, -, he⟩ := hi.enc hm
  obtain ⟨t, ht, hcodes, -⟩ := encodeBits_completes he hk hx ha hp
  exact ⟨t, hcodes, encBits_answers hm h1 hk hx ht⟩

/-! ### Opening and closing a session -/

/-- Settles O33: the mode check of R150 is the only one. -/
theorem encStartResult : Obligations.EncStartResult := by
  intro s
  exact ⟨guarded_idle, guarded_not_idle⟩

/-- Five shift-outs need room in `PEND` for four only: after four `LOW` is 0, so the fifth releases (R151, R160). -/
theorem shiftOuts_five_completes (ha : s.SinkAccepts (s.pend + 5)) (hp : s.pend + 5 ≤ 2 ^ s.par.pendBits) :
    ∃ t, shiftOuts 5 s = .done () t := by
  obtain ⟨u, hu⟩ := shiftOuts_completes 4 (ha.mono (by omega)) (by omega)
  obtain ⟨⟨bs, -, hsink, hbytes⟩, -⟩ := shiftOuts_frame hu
  have hlow : u.low.toNat = 0 := by
    rw [shiftOuts_low hu (by omega) (by omega)]
    omega
  have hrelease : shiftOut u = .done () u.released :=
    shiftOut_releases (releases_iff.mpr (.inl (by omega))) (State.SinkAccepts.drop (ha.mono (by omega)) hsink)
  exact ⟨u.released, by rw [shiftOuts_add 4 1, hu, Run.bind_done, shiftOuts, hrelease]; rfl⟩

/-- Settles O37: the five shift-outs return, and what they leave is the flushed state. -/
theorem encDoneResult : Obligations.EncDoneResult := by
  intro s hi
  refine ⟨guarded_not_enc, fun hm ha hp => ?_⟩
  have hlen : 2 ^ 24 ≤ s.len.toNat := hi.len_ge (.inl hm)
  obtain ⟨-, -, he⟩ := hi.enc hm
  have hsafe : CarrySafe s 1 := he.carrySafe.mono (by omega)
  obtain ⟨t, ht⟩ := shiftOuts_five_completes ha hp
  obtain ⟨bs, hcount, hvalue, rfl⟩ := shiftOuts_flush ht hsafe
  exact ⟨bs, hcount, hvalue, encDone_answers hm ht⟩

end Sys2Proof.Machine
end

section
/-! The decoder, command by command (R180 to R189): one equation for each outcome of a command's checks, and the bytes that
open a session. -/

namespace Sys2Proof.Machine

open Sys2Proof

variable {s : State}

/-! ### The coding commands -/

/-- A decoding procedure that returned is answered `OK` with what it decoded (R15). -/
theorem finish_wordResult {cmd : Word} {r : Run Nat} {v : Nat} {t : State} (h : r = .done v t) :
    finish cmd (wordResult r) = .next (t.respond .ok (BitVec.ofNat 32 v)) := by
  rw [h]
  rfl

section session

variable (hm : s.mode = .dec)
include hm

theorem decSym_slot_refused {m : Index} (h : s.par.nsm ≤ m.toNat) : exec (.decSym m) s = refuse s .eOperand :=
  (guarded_dec hm).trans (if_pos h)

theorem decSym_uninit_refused {m : Index} (h : m.toNat < s.par.nsm) (hv : (s.smAt m.toNat).valid = false) :
    exec (.decSym m) s = refuse s .eUninit := (guarded_dec hm).trans ((if_neg (by omega)).trans (if_pos hv))

/-- `DEC_SYM` whose checks pass and whose procedure returns (R183). -/
theorem decSym_answers {m : Index} {t : State} {sym : Nat} (h : m.toNat < s.par.nsm)
    (hv : (s.smAt m.toNat).valid = true) (ht : decodeSymbol m.toNat s = .done sym t) :
    exec (.decSym m) s = .next (t.respond .ok (BitVec.ofNat 32 sym)) :=
  (guarded_dec hm).trans ((if_neg (by omega)).trans ((if_neg (by simp [hv])).trans (finish_wordResult ht)))

theorem decBit_slot_refused {b : Index} (h : s.par.nbm ≤ b.toNat) : exec (.decBit b) s = refuse s .eOperand :=
  (guarded_dec hm).trans (if_pos h)

theorem decBit_uninit_refused {b : Index} (h : b.toNat < s.par.nbm) (hv : (s.bmAt b.toNat).valid = false) :
    exec (.decBit b) s = refuse s .eUninit := (guarded_dec hm).trans ((if_neg (by omega)).trans (if_pos hv))

/-- `DEC_BIT` whose checks pass and whose procedure returns (R185). -/
theorem decBit_answers {b : Index} {t : State} {bit : Bool} (h : b.toNat < s.par.nbm)
    (hv : (s.bmAt b.toNat).valid = true) (ht : decodeBit b.toNat s = .done bit.toNat t) :
    exec (.decBit b) s = .next (t.respond .ok (if bit then 1 else 0)) := by
  have hword : BitVec.ofNat 32 bit.toNat = if bit then 1 else 0 := by cases bit <;> rfl
  rw [← hword]
  exact (guarded_dec hm).trans ((if_neg (by omega)).trans ((if_neg (by simp [hv])).trans (finish_wordResult ht)))

theorem decBits_refused {k : Byte} (h : k.toNat < 1 ∨ 32 < k.toNat) : exec (.decBits k) s = refuse s .eOperand :=
  (guarded_dec hm).trans (if_pos h)

/-- `DEC_BITS` whose check passes and whose procedure returns (R188). -/
theorem decBits_answers {k : Byte} {t : State} {x : Nat} (h1 : 1 ≤ k.toNat) (hk : k.toNat ≤ 32)
    (ht : decodeBits k.toNat s = .done x t) : exec (.decBits k) s = .next (t.respond .ok (BitVec.ofNat 32 x)) :=
  (guarded_dec hm).trans ((if_neg (by omega)).trans (finish_wordResult ht))

end session

/-- Settles O40: the checks of R183 in order, then the specification of `DecodeSymbol`. -/
theorem decSymResult : Obligations.DecSymResult := by
  intro m s hi
  refine ⟨guarded_not_dec, fun hm => decSym_slot_refused hm, fun hm => decSym_uninit_refused hm,
    fun hm hslot hv hs => ?_⟩
  obtain ⟨hpar, hfiles, hd⟩ := hi.dec hm
  obtain ⟨sym, t, ht, htakes, -⟩ := decodeSymbol_completes hd ⟨hpar, hfiles.smAt _, hv⟩ hs
  exact ⟨t, sym, htakes, decSym_answers hm hslot hv ht⟩

/-- Settles O41: the checks of R185 in order, then the specification of `DecodeBit`. -/
theorem decBitResult : Obligations.DecBitResult := by
  intro b s hi
  refine ⟨guarded_not_dec, fun hm => decBit_slot_refused hm, fun hm => decBit_uninit_refused hm,
    fun hm hslot hv hs => ?_⟩
  obtain ⟨hpar, hfiles, hd⟩ := hi.dec hm
  obtain ⟨bit, t, ht, htakes, -⟩ := decodeBit_completes hd ⟨hpar, hfiles.bmAt _, hv⟩ hs
  exact ⟨t, bit, htakes, decBit_answers hm hslot hv ht⟩

/-- The clamp of R186 bounds the outcome. -/
theorem TakesUniform.lt {t : State} {k x : Nat} (h : TakesUniform s t k x) : x < 2 ^ k := by
  obtain ⟨rfl, -⟩ := h
  have := Nat.two_pow_pos k
  omega

/-- Two parts of `k - 16` and 16 bits make a value of `k` bits (R187). -/
theorem TakesBits.lt {t : State} {k x : Nat} (h : TakesBits s t k x) : x < 2 ^ k := by
  unfold TakesBits at h
  split at h
  · exact h.lt
  · obtain ⟨u, lo, hi, hlo, hhi, rfl⟩ := h
    have hlo := hlo.lt
    have hpow : 2 ^ k = 2 ^ (k - 16) * 2 ^ 16 := by rw [← Nat.pow_add, Nat.sub_add_cancel (by omega)]
    have hstep : (hi + 1) * 2 ^ 16 ≤ 2 ^ (k - 16) * 2 ^ 16 := Nat.mul_le_mul_right _ hhi.lt
    omega

/-- Settles O42: the check of R188, then the specification of `DecodeBits`. -/
theorem decBitsResult : Obligations.DecBitsResult := by
  intro k s hi
  refine ⟨guarded_not_dec, fun hm => decBits_refused hm, fun hm h1 hk hs => ?_⟩
  obtain ⟨-, -, hd⟩ := hi.dec hm
  obtain ⟨x, t, ht, htakes, -⟩ := decodeBits_completes hd hk hs
  exact ⟨t, x, htakes, htakes.lt, decBits_answers hm h1 hk ht⟩

/-! ### Opening and closing a session -/

/-- The state in which `DEC_START` opens a session after `cache` and the bytes `bs`; `rest` is what is left of the source
(R180). -/
def State.decoderStart (s : State) (cache : Byte) (bs : List Byte) (rest : List GetAnswer) : State :=
  { s with low := 0, pend := 0, len := 0xFFFFFFFF, cache := cache, value := BitVec.ofNat 32 (bytesValue bs), mode := .dec,
           source := rest, taken := s.taken + 5 }

/-- `DEC_START` on a source that begins with five bytes (R180). -/
theorem decStart_answers {b : Byte} {bs : List Byte} {rest : List GetAnswer} (hm : s.mode = .idle)
    (hs : s.source = (b :: bs).map GetAnswer.byte ++ rest) (hl : bs.length = 4) :
    exec .decStart s = .next ((s.decoderStart b bs rest).respond .ok 0) := by
  have hfirst := getByte_done (s := s.setCoder 0 (BitVec.ofNat 32 Config.fullLen) s.cache 0 s.value).mpr ⟨_, hs, rfl⟩
  refine (guarded_idle hm).trans ?_
  rw [hfirst, Run.bind_done, (shiftIns_done 4).mpr ⟨bs, rest, rfl, hl, rfl⟩]
  simp [State.decoderStart, State.setCoder, State.tookIn, State.setMode, finish, answer, Config.fullLen]

/-- A byte put behind a word (R66). -/
theorem append_byte_toNat {w : Nat} (x : BitVec w) (b : Byte) : (x ++ b).toNat = x.toNat * 256 + b.toNat := by
  rw [BitVec.toNat_append, ← Nat.shiftLeft_add_eq_or_of_lt b.isLt, Nat.shiftLeft_eq]

/-- Four bytes side by side are their number, the first the most significant (R66). -/
theorem append_four_bytes (b1 b2 b3 b4 : Byte) :
    (b1 ++ b2 ++ b3 ++ b4 : Word) = BitVec.ofNat 32 (bytesValue [b1, b2, b3, b4]) := by
  have hnumber : (b1 ++ b2 ++ b3 ++ b4).toNat = bytesValue [b1, b2, b3, b4] := by
    simp only [append_byte_toNat, bytesValue, List.foldl]
    omega
  rw [← hnumber, BitVec.ofNat_toNat, BitVec.setWidth_eq]

/-- Settles O39: the mode check of R180, then the five bytes. -/
theorem decStartResult : Obligations.DecStartResult := by
  intro s
  refine ⟨guarded_not_idle, fun b0 b1 b2 b3 b4 rest hm hs => ?_⟩
  rw [append_four_bytes]
  exact decStart_answers hm (bs := [b1, b2, b3, b4]) hs rfl

/-- Settles O43: the mode check of R189 is the only one. -/
theorem decDoneResult : Obligations.DecDoneResult := by
  intro s
  exact ⟨guarded_dec, guarded_not_dec⟩

end Sys2Proof.Machine
end

section
/-! Every command ends (R191, R161, R64, R305): in a state with the invariant every division has a divisor and every
renormalisation ends, so only a byte stream that never answers stops the machine. -/

namespace Sys2Proof.Machine

open Sys2Proof

/-! ### Runs that stop only where the byte stream never answers -/

/-- A run that returns, or is left early, or hangs on a transfer; it stops for no other reason. -/
def Run.HangsOnly {α : Type} (r : Run α) : Prop := r.Sat (fun _ _ => True) (fun _ => True) Fault.Silent

theorem Run.Sat.hangsOnly {α : Type} {r : Run α} {P : α → State → Prop} {Q : State → Prop}
    (h : r.Sat P Q Fault.Silent) : r.HangsOnly := h.mono (fun _ _ _ => trivial) (fun _ _ => trivial) fun _ hf => hf

theorem Run.HangsOnly.bind {α β : Type} {r : Run α} {f : α → State → Run β} (h : r.HangsOnly)
    (hf : ∀ a s, (f a s).HangsOnly) : (r.bind f).HangsOnly := Run.Sat.bind h fun a s _ => hf a s

theorem Run.hangsOnly_done {α : Type} (a : α) (s : State) : (Run.done a s).HangsOnly := trivial

theorem shiftOuts_hangsOnly (n : Nat) (s : State) : (shiftOuts n s).HangsOnly := by
  induction n generalizing s with
  | zero => exact Run.hangsOnly_done () s
  | succ n ih => exact (shiftOut_early s).hangsOnly.bind fun _ t => ih t

theorem shiftIns_hangsOnly (n : Nat) (s : State) : (shiftIns n s).HangsOnly := by
  induction n generalizing s with
  | zero => exact Run.hangsOnly_done () s
  | succ n ih => exact ((getByte_sat s).hangsOnly.bind fun _ _ => Run.hangsOnly_done _ _).bind fun _ t => ih t

theorem noResult_hangsOnly {r : Run Unit} (h : r.HangsOnly) : (noResult r).HangsOnly :=
  h.bind fun _ _ => Run.hangsOnly_done _ _

theorem wordResult_hangsOnly {r : Run Nat} (h : r.HangsOnly) : (wordResult r).HangsOnly :=
  h.bind fun _ _ => Run.hangsOnly_done _ _

/-! ### Outcomes that are no fault of the block -/

/-- The outcome is a fault only where the byte stream never answers. -/
def HangsOnly (o : Out) : Prop := ∀ f, o = .fault f → f.Silent

theorem hangsOnly_refuse (s : State) (e : Status) : HangsOnly (refuse s e) := nofun

theorem hangsOnly_answer (s : State) (v : Word) : HangsOnly (answer s v) := nofun

theorem hangsOnly_finish {cmd : Word} {r : Run Word} (h : r.HangsOnly) : HangsOnly (finish cmd r) := by
  rintro f hf
  cases r with
  | done v t => cases hf
  | raised e t => cases hf
  | aborted t => cases hf
  | stopped g =>
    cases hf
    exact h

theorem hangsOnly_ite {c : Prop} [Decidable c] {a b : Out} (ha : c → HangsOnly a) (hb : ¬ c → HangsOnly b) :
    HangsOnly (if c then a else b) := by
  split
  · next h => exact ha h
  · next h => exact hb h

theorem hangsOnly_guarded {s : State} {modes : List Mode} {k : Out} (hk : s.mode ∈ modes → HangsOnly k) :
    HangsOnly (guarded s modes k) :=
  hangsOnly_ite (fun _ => hangsOnly_refuse s _) fun _ => hangsOnly_ite hk fun _ => hangsOnly_refuse s _

/-- A check that refuses, and what follows where it passes. -/
theorem hangsOnly_check {s : State} {c : Prop} [Decidable c] {e : Status} {k : Out} (hk : ¬ c → HangsOnly k) :
    HangsOnly (if c then refuse s e else k) := hangsOnly_ite (fun _ => hangsOnly_refuse s e) hk

/-! ### The commands -/

/-- The commands that every session allows transfer no byte: a fault is none of their outcomes. -/
theorem exec_hangsOnly_of_anySession {i : Instr} {s : State} (hi : modesOf i = anySession) : HangsOnly (exec i s) := by
  cases i with
  | srst => exact hangsOnly_answer _ _
  | rdcsr csr =>
    refine hangsOnly_check fun _ => ?_
    cases s.csr csr.toNat with
    | none => exact hangsOnly_refuse s _
    | some v => exact hangsOnly_answer s v
  | smInit m n =>
    exact hangsOnly_guarded fun _ => hangsOnly_check fun _ => hangsOnly_check fun _ => hangsOnly_answer _ _
  | bmInit b => exact hangsOnly_guarded fun _ => hangsOnly_check fun _ => hangsOnly_answer _ _
  | smRd sel m j =>
    refine hangsOnly_guarded fun _ => hangsOnly_check fun _ => hangsOnly_check fun _ => hangsOnly_ite (fun _ => ?_) fun _ =>
      hangsOnly_ite (fun _ => ?_) fun _ => ?_
    · exact hangsOnly_check fun _ => hangsOnly_answer s _
    · exact hangsOnly_check fun _ => hangsOnly_answer s _
    · exact hangsOnly_answer s _
  | bmRd b =>
    exact hangsOnly_guarded fun _ => hangsOnly_check fun _ => hangsOnly_check fun _ => hangsOnly_answer s _
  | icConfig k b range =>
    exact hangsOnly_guarded fun _ => hangsOnly_check fun _ => hangsOnly_check fun _ => hangsOnly_check fun _ =>
      hangsOnly_answer _ _
  | icSetup k c bh zero smbase bmslot =>
    exact hangsOnly_guarded fun _ => hangsOnly_check fun _ => hangsOnly_check fun _ => hangsOnly_check fun _ =>
      hangsOnly_check fun _ => hangsOnly_check fun _ => hangsOnly_answer _ _
  | icInit k => exact hangsOnly_guarded fun _ => hangsOnly_check fun _ => hangsOnly_check fun _ => hangsOnly_answer _ _
  | icGetk k => exact hangsOnly_guarded fun _ => hangsOnly_check fun _ => hangsOnly_check fun _ => hangsOnly_answer s _
  | _ => simp [modesOf, anySession] at hi

/-- No command stops on a division by zero or in an endless loop (R191, R161). -/
theorem exec_hangsOnly (i : Instr) {s : State} (hi : s.Inv) : HangsOnly (exec i s) := by
  have henc : s.mode ∈ [Mode.enc] → s.par.Ok ∧ s.FilesOk ∧ s.EncOk := fun hm => hi.enc (List.mem_singleton.mp hm)
  have hdec : s.mode ∈ [Mode.dec] → s.par.Ok ∧ s.FilesOk ∧ s.DecOk := fun hm => hi.dec (List.mem_singleton.mp hm)
  cases i with
  | encStart => exact hangsOnly_guarded fun _ => hangsOnly_answer _ _
  | encSym m sym =>
    refine hangsOnly_guarded fun hm => hangsOnly_check fun _ => hangsOnly_check fun hv => hangsOnly_check fun hs => ?_
    obtain ⟨hpar, hfiles, he⟩ := henc hm
    have hok : SymOk s m.toNat sym.toNat := ⟨hpar, hfiles.smAt _, by simpa using hv, by omega⟩
    exact hangsOnly_finish (noResult_hangsOnly (encodeSymbol_sat he hok).hangsOnly)
  | encBit b bit =>
    refine hangsOnly_guarded fun hm => hangsOnly_check fun _ => hangsOnly_check fun hv => hangsOnly_check fun _ => ?_
    obtain ⟨hpar, hfiles, he⟩ := henc hm
    have hok : BitOk s b.toNat := ⟨hpar, hfiles.bmAt _, by simpa using hv⟩
    exact hangsOnly_finish (noResult_hangsOnly (encodeBit_sat _ he hok).hangsOnly)
  | encBits k x =>
    refine hangsOnly_guarded fun hm => hangsOnly_check fun hk => hangsOnly_check fun hx => ?_
    obtain ⟨-, -, he⟩ := henc hm
    exact hangsOnly_finish (noResult_hangsOnly (encodeBits_sat he (by omega) (rawField_lt (by omega) hx)).hangsOnly)
  | encDone =>
    exact hangsOnly_guarded fun _ => hangsOnly_finish ((shiftOuts_hangsOnly _ s).bind fun _ _ => Run.hangsOnly_done _ _)
  | decStart =>
    exact hangsOnly_guarded fun _ => hangsOnly_finish ((getByte_sat _).hangsOnly.bind fun _ _ =>
      (shiftIns_hangsOnly _ _).bind fun _ _ => Run.hangsOnly_done _ _)
  | decSym m =>
    refine hangsOnly_guarded fun hm => hangsOnly_check fun _ => hangsOnly_check fun hv => ?_
    obtain ⟨hpar, hfiles, hd⟩ := hdec hm
    have hok : ModelOk s m.toNat := ⟨hpar, hfiles.smAt _, by simpa using hv⟩
    exact hangsOnly_finish (wordResult_hangsOnly (decodeSymbol_sat hd hok).hangsOnly)
  | decBit b =>
    refine hangsOnly_guarded fun hm => hangsOnly_check fun _ => hangsOnly_check fun hv => ?_
    obtain ⟨hpar, hfiles, hd⟩ := hdec hm
    have hok : BitOk s b.toNat := ⟨hpar, hfiles.bmAt _, by simpa using hv⟩
    exact hangsOnly_finish (wordResult_hangsOnly (decodeBit_sat hd hok).hangsOnly)
  | decBits k =>
    refine hangsOnly_guarded fun hm => hangsOnly_check fun hk => ?_
    obtain ⟨-, -, hd⟩ := hdec hm
    exact hangsOnly_finish (wordResult_hangsOnly (decodeBits_sat hd (by omega)).hangsOnly)
  | decDone => exact hangsOnly_guarded fun _ => hangsOnly_answer _ _
  | icCompress i c p v =>
    refine hangsOnly_guarded fun hm => hangsOnly_check fun _ => hangsOnly_check fun hst => hangsOnly_check fun hctx =>
      hangsOnly_check fun hmodels => hangsOnly_check fun hmag => ?_
    obtain ⟨hpar, hfiles, he⟩ := henc hm
    have hu : IcUsable s (s.icAt i.toNat) := ⟨hpar, hfiles, hfiles.icAt _, not_not.mp hst, by simpa using hmodels⟩
    exact hangsOnly_finish (compressCorrector_sat he hu (by omega) (by omega)).hangsOnly
  | icDecompress i c p =>
    refine hangsOnly_guarded fun hm => hangsOnly_check fun _ => hangsOnly_check fun hst => hangsOnly_check fun hctx =>
      hangsOnly_check fun hmodels => ?_
    obtain ⟨hpar, hfiles, hd⟩ := hdec hm
    have hu : IcUsable s (s.icAt i.toNat) := ⟨hpar, hfiles, hfiles.icAt _, not_not.mp hst, by simpa using hmodels⟩
    exact hangsOnly_finish (decompressValue_sat hd hu (by omega)).hangsOnly
  | _ => exact exec_hangsOnly_of_anySession rfl

/-! ### What was seen -/

/-- Where the byte stream did not answer: what was seen is that of a state with no new response, the streams moved as the
command may move them (R64, R305). -/
def HungAt (i : Instr) (s : State) (seen : Observed) : Prop :=
  ¬ s.Answering ∧ ∃ u : State, seen = u.seen ∧ u.responses = s.responses ∧ StreamsMove i s u

/-- How a coding command ends: in a next state, or in a fault that says what was seen. -/
theorem finish_next_or_fault {i : Instr} {cmd : Word} {s : State} {r : Run Word} {R A : State → State → Prop}
    (hr : r.Traced s R A) (hR : ∀ u, R s u → u.responses = s.responses ∧ StreamsMove i s u) :
    (∃ t, finish cmd r = .next t) ∨
      ∃ f, finish cmd r = .fault f ∧ ∀ seen, f = .streamSilent seen → HungAt i s seen := by
  cases r with
  | done v u => exact .inl ⟨_, rfl⟩
  | raised e u => exact .inl ⟨_, rfl⟩
  | aborted u => exact .inl ⟨_, rfl⟩
  | stopped f =>
    refine .inr ⟨f, rfl, fun seen hf => ?_⟩
    obtain ⟨hsilent, u, hu, hseen⟩ := hr seen hf
    exact ⟨hsilent, u, hseen, hR u hu⟩

theorem exec_next_or_fault (i : Instr) (s : State) : (∃ t, exec i s = .next t) ∨
    ∃ f, exec i s = .fault f ∧ ∀ seen, f = .streamSilent seen → HungAt i s seen := by
  have hshape := exec_shape i s
  generalize exec i s = o at hshape ⊢
  cases hshape with
  | refused e => exact .inl ⟨_, rfl⟩
  | reset => exact .inl ⟨_, rfl⟩
  | answered t v => exact .inl ⟨_, rfl⟩
  | encoded r _ hm _ ht =>
    exact finish_next_or_fault ht fun u ⟨_, _, hresp, hout, _, hsource, htaken, _⟩ =>
      ⟨hresp, .of_encoder hm hout hsource htaken⟩
  | decoded r _ hm _ ht =>
    exact finish_next_or_fault ht fun u ⟨_, _, hresp, hout, _, hsource, htaken, _⟩ =>
      ⟨hresp, .of_decoder hm hout hsource htaken⟩

/-- Settles O19: a command that ends in no next state ends in a fault, the fault can only be the silent stream's, and what
was seen then is what the command had moved. -/
theorem everyCommandEnds : Obligations.EveryCommandEnds := by
  intro i s hi
  obtain hnext | ⟨f, hf, hseen⟩ := exec_next_or_fault i s
  · exact .inl hnext
  · obtain ⟨seen, rfl⟩ := exec_hangsOnly i hi f hf
    obtain ⟨hsilent, u, rfl, hresp, hout, htaken, -, hkept⟩ := hseen seen rfl
    exact .inr ⟨hsilent, u.seen, hf, hresp, hout, htaken, fun hdec hstart => (hkept hdec hstart).1⟩

end Sys2Proof.Machine
end

section
/-! Folding and unfolding (R214, R217, R219): a decoder that adds the folded corrector to the prediction and folds back gets
the value. -/

namespace Sys2Proof.Machine

open Sys2Proof

/-- The folded corrector is the wrapped difference up to one range (R214). -/
theorem foldCorr_cases (inst : IcInst) (p v : Word) :
    foldCorr inst p v = s32 (v - p) ∨ foldCorr inst p v = s32 (v - p) + inst.crange.toNat ∨
      foldCorr inst p v = s32 (v - p) - inst.crange.toNat := by
  unfold foldCorr
  dsimp only
  split_ifs
  · exact .inr (.inl rfl)
  · exact .inr (.inr rfl)
  · exact .inl rfl
  · exact .inl rfl

/-- Without a range the corrector is the difference, and the sum wraps to the value (R217). -/
theorem unfoldValue_foldCorr_of_unranged {inst : IcInst} (p v : Word) (h : inst.crange = 0) :
    unfoldValue inst p (foldCorr inst p v) = v := by
  have hfold : foldCorr inst p v = (v - p).toInt := if_neg (by simpa using h)
  simp only [unfoldValue, hfold, h, s32, wrap32, ne_eq, not_true_eq_false, if_false]
  rw [BitVec.ofInt_add, BitVec.ofInt_toInt, BitVec.ofInt_toInt, BitVec.add_comm, BitVec.sub_add_cancel]

/-- The difference of two words below `2^31` does not wrap. -/
theorem s32_sub_of_lt {p v : Word} (hp : p.toNat < 2 ^ 31) (hv : v.toNat < 2 ^ 31) :
    s32 (v - p) = (v.toNat : Int) - p.toNat := by
  rw [s32, BitVec.toInt_sub, BitVec.toInt_eq_toNat_of_lt (by omega), BitVec.toInt_eq_toNat_of_lt (by omega)]
  exact Int.bmod_eq_of_le (by omega) (by omega)

/-- With a range and both words below it the sum is the value up to one range, and the fold back finds which (R217). -/
theorem unfoldValue_foldCorr_of_ranged {inst : IcInst} {p v : Word} (h0 : inst.crange ≠ 0)
    (hle : inst.crange.toNat ≤ 2 ^ 31) (hp : p.toNat < inst.crange.toNat) (hv : v.toNat < inst.crange.toNat) :
    unfoldValue inst p (foldCorr inst p v) = v := by
  have hdiff := s32_sub_of_lt (hp.trans_le hle) (hv.trans_le hle)
  have hpred : s32 p = p.toNat := BitVec.toInt_eq_toNat_of_lt (by omega)
  have hcases := foldCorr_cases inst p v
  have hword : wrap32 v.toNat = v := by simp [wrap32]
  refine Eq.trans ?_ hword
  rw [unfoldValue, if_pos h0]
  congr 1
  split_ifs <;> omega

/-- R219: in its domain the value comes back. -/
theorem unfoldValue_foldCorr {inst : IcInst} {p v : Word} (h : inst.CorrectorOk)
    (hd : inst.crange = 0 ∨ (p.toNat < inst.crange.toNat ∧ v.toNat < inst.crange.toNat)) :
    unfoldValue inst p (foldCorr inst p v) = v := by
  by_cases h0 : inst.crange = 0
  · exact unfoldValue_foldCorr_of_unranged p v h0
  · obtain ⟨hp, hv⟩ := hd.resolve_left h0
    obtain ⟨-, -, -, hrange⟩ := h
    obtain ⟨-, hle, -⟩ := hrange fun hz => h0 (BitVec.eq_of_toNat_eq hz)
    exact unfoldValue_foldCorr_of_ranged h0 hle hp hv

end Sys2Proof.Machine
end

section
/-! The mirror of one command (R190): set-up commands do the same to equal files, and a coding command narrows the decoder's
window by the part the encoder chose, so that the decoder finds what was coded and follows still. -/

namespace Sys2Proof.Machine

open Sys2Proof

/-! ### Read commands -/

/-- The outcome is a response and nothing else. -/
def OnlyResponds (s : State) (o : Out) : Prop := ∃ r : Response, o = .next (s.respond r.st r.res)

theorem onlyResponds_refuse (s : State) (e : Status) : OnlyResponds s (refuse s e) := ⟨⟨e, 0⟩, rfl⟩

theorem onlyResponds_answer (s : State) (v : Word) : OnlyResponds s (answer s v) := ⟨⟨.ok, v⟩, rfl⟩

theorem onlyResponds_ite {s : State} {c : Prop} [Decidable c] {a b : Out} (ha : OnlyResponds s a) (hb : OnlyResponds s b) :
    OnlyResponds s (if c then a else b) := by
  split
  · exact ha
  · exact hb

/-- A check that refuses, and what follows where it passes. -/
theorem onlyResponds_check {s : State} {c : Prop} [Decidable c] {e : Status} {k : Out} (hk : OnlyResponds s k) :
    OnlyResponds s (if c then refuse s e else k) := onlyResponds_ite (onlyResponds_refuse s e) hk

theorem onlyResponds_guarded {s : State} {modes : List Mode} {k : Out} (hk : OnlyResponds s k) :
    OnlyResponds s (guarded s modes k) := onlyResponds_check (onlyResponds_ite hk (onlyResponds_refuse s _))

/-- A read command changes nothing but the responses, in every state (R122, R123, R218, R251). -/
theorem exec_read {i : Instr} (s : State) (hi : isRead i = true) : OnlyResponds s (exec i s) := by
  have answers : ∀ v, OnlyResponds s (answer s v) := onlyResponds_answer s
  cases i with
  | rdcsr csr =>
    refine onlyResponds_check ?_
    cases s.csr csr.toNat with
    | none => exact onlyResponds_refuse s _
    | some v => exact answers v
  | smRd sel m j =>
    exact onlyResponds_guarded (onlyResponds_check (onlyResponds_check (onlyResponds_ite (onlyResponds_check (answers _))
      (onlyResponds_ite (onlyResponds_check (answers _)) (answers _)))))
  | bmRd b => exact onlyResponds_guarded (onlyResponds_check (onlyResponds_check (answers _)))
  | icGetk k => exact onlyResponds_guarded (onlyResponds_check (onlyResponds_check (answers _)))
  | _ => cases hi

/-! ### Equal files -/

section sameModels

variable {e d : State} (h : e.SameModels d)
include h

theorem State.SameModels.smAt_eq (m : Nat) : d.smAt m = e.smAt m := by
  obtain ⟨-, hsm, -, -⟩ := h
  rw [State.smAt, hsm, State.smAt]

theorem State.SameModels.bmAt_eq (b : Nat) : d.bmAt b = e.bmAt b := by
  obtain ⟨-, -, hbm, -⟩ := h
  rw [State.bmAt, hbm, State.bmAt]

theorem State.SameModels.icAt_eq (i : Nat) : d.icAt i = e.icAt i := by
  obtain ⟨-, -, -, hic⟩ := h
  rw [State.icAt, hic, State.icAt]

theorem SymOk.modelOk {m sym : Nat} (hs : SymOk e m sym) : ModelOk d m := by
  obtain ⟨hpar, hok, hv, -⟩ := hs
  rw [ModelOk, h.smAt_eq, h.1]
  exact ⟨hpar, hok, hv⟩

theorem BitOk.sameModels {b : Nat} (hb : BitOk e b) : BitOk d b := by
  rwa [BitOk, h.bmAt_eq, h.1]

/-- A compressor is usable wherever the files and the parameters are the same. -/
theorem IcUsable.sameModels {inst : IcInst} (hu : IcUsable e inst) : IcUsable d inst := by
  obtain ⟨hpar, hfiles, hok, hready, hmodels⟩ := hu
  have hmodels' : icModelsOk d inst = icModelsOk e inst := by
    simp only [icModelsOk, h.smAt_eq, h.bmAt_eq]
  obtain ⟨hpeq, hsm, hbm, hic⟩ := h
  exact ⟨hpeq ▸ hpar, filesOk_of hfiles hsm hbm hic hpeq, hpeq ▸ hok, hready, hmodels'.trans hmodels⟩

end sameModels

/-! ### Following a command -/

/-- A valid slot has a number the commands accept (R20). -/
theorem State.Inv.slot_lt {s : State} {m : Nat} (h : s.Inv) (hv : (s.smAt m).valid = true) : m < s.par.nsm := by
  obtain ⟨-, ⟨hlength, -⟩, -⟩ := h
  exact hlength ▸ State.smAt_lt hv

/-- Decoder `d`, in its session, follows encoder `e`, in its own, with the same models (R190). -/
structure Following (e d : State) (fut : List Byte) (rest : List GetAnswer) (x : Nat) : Prop where
  encInv : e.Inv
  decInv : d.Inv
  encMode : e.mode = .enc
  decMode : d.mode = .dec
  models : e.SameModels d
  tracks : Tracks e d fut rest x

/-- The decoder that was `d` is `d'` when the encoder is `e'`, and follows it; `n` of the bytes `fut` are still to be
read. -/
structure FollowsOn (e' d d' : State) (fut : List Byte) (rest : List GetAnswer) (x n : Nat) : Prop where
  models : e'.SameModels d'
  decMode : d'.mode = .dec
  tracks : Tracks e' d' (fut.drop (fut.length - n)) rest x
  window : d'.value.toNat < d'.len.toNat
  taken : d'.taken = d.taken + (fut.length - n)

section following

variable {e e' u d d' : State} {fut : List Byte} {rest : List GetAnswer} {x n : Nat}

theorem FollowsOn.respond (h : FollowsOn e' d d' fut rest x n) (st st' : Status) (v v' : Word) :
    FollowsOn (e'.respond st v) d (d'.respond st' v') fut rest x n :=
  ⟨h.models, h.decMode, h.tracks, h.window, h.taken⟩

theorem FollowsOn.setIc (h : FollowsOn e' d d' fut rest x n) (i : Nat) (inst : IcInst) :
    FollowsOn (e'.setIc i inst) d (d'.setIc i inst) fut rest x n :=
  ⟨(filesUpdate_setIc i fun _ => inst).2 _ _ h.models, h.decMode, h.tracks, h.window, h.taken⟩

/-- A decoding procedure that mirrors a coding procedure takes the decoder along. -/
theorem Mirrors.followsOn {T : State → State → Prop} (h : Mirrors e u T) (hf : Following e d fut rest x)
    (hin : Inside u n x) (hlen : u.out.length + u.pend + n = e.out.length + e.pend + fut.length)
    (hT : ∀ d', T d d' → d.Around d') :
    ∃ d', T d d' ∧ d'.responses = d.responses ∧ FollowsOn u d d' fut rest x n := by
  obtain ⟨-, -, hd⟩ := hf.decInv.dec hf.decMode
  obtain ⟨d', ht, hmodels, htracks, hwindow, htaken, -, -⟩ := h d fut rest x n hd hf.models hf.tracks hin hlen
  obtain ⟨-, -, hresp, -, hmode, -, -⟩ := hT d' ht
  exact ⟨d', ht, hresp, hmodels, hmode.trans hf.decMode, htracks, hwindow, htaken⟩

/-- An update of the files moves no byte, so the decoder follows where it did. -/
theorem FilesUpdate.followsOn {upd : State → State} (hu : FilesUpdate upd) (hf : Following e d fut rest x)
    (hin : Inside (upd e) n x) (hlen : (upd e).out.length + (upd e).pend + n = e.out.length + e.pend + fut.length) :
    FollowsOn (upd e) d (upd d) fut rest x n := by
  have htracks : Tracks (upd e) (upd d) fut rest x := by
    have ht := hf.tracks
    rw [hu.1 e, hu.1 d]
    exact ht
  have hn : n = fut.length := by
    rw [hu.1 e] at hlen
    exact Nat.add_left_cancel hlen
  subst hn
  refine ⟨hu.2 e d hf.models, ?_, ?_, htracks.value_lt_len hin, ?_⟩
  · rw [hu.1 d]
    exact hf.decMode
  · rwa [Nat.sub_self, List.drop_zero]
  · rw [hu.1 d, Nat.sub_self, Nat.add_zero]

end following

/-! ### Set-up commands -/

/-- What a set-up command answered `OK` did to the encoder's files it does to the decoder's. -/
def SetsAlike (e d : State) (oe od : Out) : Prop :=
  ∀ e' : State, oe = .next e' → e'.responses = e.responses ++ [⟨.ok, 0⟩] →
    ∃ upd, FilesUpdate upd ∧ e' = (upd e).respond .ok 0 ∧ od = .next ((upd d).respond .ok 0)

theorem setsAlike_answer {e d : State} {upd : State → State} (hu : FilesUpdate upd) :
    SetsAlike e d (answer (upd e) 0) (answer (upd d) 0) := by
  rintro _ ⟨⟩ -
  exact ⟨upd, hu, rfl, rfl⟩

/-- The same check on both sides. -/
theorem setsAlike_check {e d : State} {ce cd : Prop} [Decidable ce] [Decidable cd] {err : Status} {ke kd : Out}
    (hc : cd ↔ ce) (herr : err ≠ .ok) (hk : SetsAlike e d ke kd) :
    SetsAlike e d (if ce then refuse e err else ke) (if cd then refuse d err else kd) := by
  by_cases h : ce
  · rw [if_pos h]
    exact fun e' he hr => (refuse_not_ok herr he hr).elim
  · rwa [if_neg h, if_neg (mt hc.mp h)]

theorem setsAlike_guarded {e d : State} {ke kd : Out} (hd : d.mode ≠ .fault) (hk : SetsAlike e d ke kd) :
    SetsAlike e d (guarded e anySession ke) (guarded d anySession kd) := by
  intro e' he hr
  obtain ⟨-, -, he⟩ := guarded_answered he hr
  rw [guarded_any hd]
  exact hk e' he hr

/-- The commands that mirror themselves read the files and the parameters alone. -/
theorem exec_setsAlike {i : Instr} {v : Word} {e d : State} (hi : mirror i = some (i, v)) (hs : e.SameModels d)
    (hd : d.mode ≠ .fault) : SetsAlike e d (exec i e) (exec i d) := by
  have hpar := hs.1
  cases i with
  | smInit m n =>
    exact setsAlike_guarded hd (setsAlike_check (by rw [hpar]) (by decide) (setsAlike_check (by rw [hpar]) (by decide)
      (setsAlike_answer (filesUpdate_setSm _ _))))
  | bmInit b =>
    exact setsAlike_guarded hd (setsAlike_check (by rw [hpar]) (by decide) (setsAlike_answer (filesUpdate_setBm _ _)))
  | icConfig k b range =>
    exact setsAlike_guarded hd (setsAlike_check (by rw [hpar]) (by decide) (setsAlike_check Iff.rfl (by decide)
      (setsAlike_check Iff.rfl (by decide) (setsAlike_answer (filesUpdate_setIc _ fun _ => _)))))
  | icSetup k c bh zero smbase bmslot =>
    have hic := hs.icAt_eq k.toNat
    exact setsAlike_guarded hd (setsAlike_check (by rw [hpar]) (by decide) (setsAlike_check (by rw [hic]) (by decide)
      (setsAlike_check (by rw [hpar]) (by decide) (setsAlike_check (by rw [hpar, hic]) (by decide)
        (setsAlike_check (by rw [hpar]) (by decide)
          (setsAlike_answer (filesUpdate_setIc _ fun inst => inst.withSetup c bh smbase bmslot)))))))
  | icInit k =>
    have hic := hs.icAt_eq k.toNat
    refine setsAlike_guarded hd (setsAlike_check (by rw [hpar]) (by decide) (setsAlike_check (by rw [hic]) (by decide) ?_))
    rw [hic]
    generalize e.icAt k.toNat = inst
    exact setsAlike_answer ((((filesUpdate_initMag inst _).comp (filesUpdate_initVal inst _)).comp
      (filesUpdate_initBit inst)).comp (filesUpdate_setIc _ fun _ => { inst with k := 0, st := .ready }))
  | _ => simp [mirror] at hi

/-! ### Decompressing -/

/-- The magnitude model of a context, for decoding (R212). -/
theorem IcUsable.magModel {s : State} {inst : IcInst} {c : Nat} (h : IcUsable s inst) (hc : c < inst.ctx.toNat) :
    ModelOk s (inst.magSlot c) := by
  obtain ⟨hvalid, -⟩ := h.mag hc
  obtain ⟨hpar, hfiles, -⟩ := h
  exact ⟨hpar, hfiles.smAt _, hvalid⟩

/-- The magnitude model of a context codes every magnitude up to `CBITS` (R212). -/
theorem IcUsable.magSymOk {s : State} {inst : IcInst} {c k : Nat} (h : IcUsable s inst) (hc : c < inst.ctx.toNat)
    (hk : k ≤ inst.cbits.toNat) : SymOk s (inst.magSlot c) k := by
  obtain ⟨hpar, hok, hvalid⟩ := h.magModel hc
  obtain ⟨-, hsize⟩ := h.mag hc
  exact ⟨hpar, hok, hvalid, by omega⟩

/-- The body of R217, from what its two procedures decoded. -/
theorem decompressValue_done {s u t : State} {i c k : Nat} {inst : IcInst} {corr : Int} (p : Word) (hd : s.DecOk)
    (h : IcUsable s inst) (hc : c < inst.ctx.toNat) (hsym : TakesSymbol s u (inst.magSlot c) k)
    (hcorr : TakesCorrector u t inst k corr) :
    decompressValue i inst c p s = .done (unfoldValue inst p corr) (t.setIc i { inst with k := BitVec.ofNat 6 k }) := by
  have hmodel := h.magModel hc
  have hk : k ≤ inst.cbits.toNat := by
    obtain ⟨-, hsize⟩ := h.mag hc
    have := hsym.lt
    omega
  have hpass := hsym.passed h.1 h.2.1
  rw [decompressValue, (decodeSymbol_done hd.1 hmodel).mpr hsym, Run.bind_done,
    (decodeCorrector_done (hsym.decOk hd hmodel) (h.passed hpass) hk).mpr hcorr, Run.bind_done]

/-- `IC_DECOMPRESS` whose checks pass and whose body returns (R217). -/
theorem icDecompress_answers {s t : State} {i : Byte} {c : Index} {p w : Word} (hm : s.mode = .dec)
    (hi : i.toNat < s.par.nic) (hu : IcUsable s (s.icAt i.toNat)) (hc : c.toNat < (s.icAt i.toNat).ctx.toNat)
    (ht : decompressValue i.toNat (s.icAt i.toNat) c.toNat p s = .done w t) :
    exec (.icDecompress i c p) s = .next (t.respond .ok w) := by
  obtain ⟨-, -, -, hready, hmodels⟩ := hu
  refine (guarded_dec hm).trans ((if_neg (by omega)).trans ((if_neg (not_not.mpr hready)).trans
    ((if_neg (by omega)).trans ((if_neg (by simp [hmodels])).trans ?_))))
  rw [ht]
  rfl

/-! ### The coding commands -/

/-- The mirror of the command that took the encoder to `e'` is answered `OK` with a word of `Q`, and the decoder follows
on. -/
def Mirrored (e' d : State) (j : Instr) (fut : List Byte) (rest : List GetAnswer) (x n : Nat) (Q : Word → Prop) : Prop :=
  ∃ (d' : State) (w : Word), Answers j d w d' ∧ Q w ∧ FollowsOn e' d d' fut rest x n

/-- A mirror whose procedure returned is answered `OK`, and the responses are no part of what is followed. -/
theorem mirrored_of_returned {u d t : State} {j : Instr} {fut : List Byte} {rest : List GetAnswer} {x n : Nat} {w : Word}
    {Q : Word → Prop} (hexec : exec j d = .next (t.respond .ok w)) (hresp : t.responses = d.responses) (hw : Q w)
    (hfollows : FollowsOn u d t fut rest x n) : Mirrored (u.respond .ok 0) d j fut rest x n Q :=
  ⟨t.respond .ok w, w, ⟨hexec, by rw [State.respond_responses, hresp]⟩, hw, hfollows.respond _ _ _ _⟩

section mirrored

variable {e e' d : State} {fut : List Byte} {rest : List GetAnswer} {x n : Nat} (hf : Following e d fut rest x)
  (hin : Inside e' n x) (hlen : e'.out.length + e'.pend + n = e.out.length + e.pend + fut.length)
include hf hin hlen

theorem setup_mirrored {i : Instr} {v : Word} (hi : mirror i = some (i, v)) (ha : Answers i e 0 e') :
    Mirrored e' d i fut rest x n (· = 0) := by
  obtain ⟨upd, hu, rfl, hexec⟩ := exec_setsAlike hi hf.models (by simp [hf.decMode]) e' ha.1 ha.2
  refine mirrored_of_returned hexec ?_ rfl (hu.followsOn hf hin hlen)
  rw [hu.1 d]

theorem encSym_mirrored {m : Index} {sym : Word} (ha : Answers (.encSym m sym) e 0 e') :
    Mirrored e' d (.decSym m) fut rest x n (· = sym) := by
  obtain ⟨hm, hok, -, u, hcodes, hu, rfl⟩ := encSym_answered hf.encInv ha
  obtain ⟨-, -, he⟩ := hf.encInv.enc hm
  obtain ⟨hpar, hfiles, hd⟩ := hf.decInv.dec hf.decMode
  have hmodel := hok.modelOk hf.models
  obtain ⟨d', htakes, hresp, hfollows⟩ :=
    (hcodes.mirrors he hok hu).2.followsOn hf hin hlen fun _ ht => (ht.passed hpar hfiles).1
  have hvalid := hmodel.2.2
  have hexec := decSym_answers hf.decMode (hf.decInv.slot_lt hvalid) hvalid ((decodeSymbol_done hd.1 hmodel).mpr htakes)
  exact mirrored_of_returned hexec hresp (by simp) hfollows

theorem encBit_mirrored {b : Index} {bit : Word} (ha : Answers (.encBit b bit) e 0 e') :
    Mirrored e' d (.decBit b) fut rest x n (· = bit) := by
  obtain ⟨hm, hslot, hbit, hok, -, u, hcodes, hu, rfl⟩ := encBit_answered hf.encInv ha
  obtain ⟨-, -, he⟩ := hf.encInv.enc hm
  obtain ⟨hpar, hfiles, hd⟩ := hf.decInv.dec hf.decMode
  have hmodel := hok.sameModels hf.models
  obtain ⟨d', htakes, hresp, hfollows⟩ :=
    (hcodes.mirrors he hok hu).2.followsOn hf hin hlen fun _ ht => (ht.passed hpar hfiles).1
  have hexec := decBit_answers hf.decMode (hf.models.1 ▸ hslot) hmodel.2.2
    ((decodeBit_done hd.1 hmodel).mpr ⟨_, rfl, htakes⟩)
  refine mirrored_of_returned hexec hresp ?_ hfollows
  obtain h | h : bit.toNat = 0 ∨ bit.toNat = 1 := by omega
  · exact BitVec.eq_of_toNat_eq (by simp [h])
  · exact BitVec.eq_of_toNat_eq (by simp [h])

theorem encBits_mirrored {k : Byte} {y : Word} (ha : Answers (.encBits k y) e 0 e') :
    Mirrored e' d (.decBits k) fut rest x n (· = y) := by
  obtain ⟨hm, h1, hk, hy, -, u, hcodes, -, rfl⟩ := encBits_answered hf.encInv ha
  obtain ⟨-, -, he⟩ := hf.encInv.enc hm
  obtain ⟨-, hfiles, hd⟩ := hf.decInv.dec hf.decMode
  obtain ⟨d', htakes, hresp, hfollows⟩ :=
    (hcodes.mirrors he hk hy).2.followsOn hf hin hlen fun _ ht => (ht.passed hfiles).1
  have hexec := decBits_answers hf.decMode h1 hk ((decodeBits_done hd hk).mpr htakes)
  exact mirrored_of_returned hexec hresp (by simp) hfollows

theorem icCompress_mirrored {i : Byte} {c : Index} {p v : Word} (ha : Answers (.icCompress i c p v) e 0 e') :
    Mirrored e' d (.icDecompress i c p) fut rest x n fun w => InDomain e (.icCompress i c p v) → w = v := by
  obtain ⟨hm, hi, hctx, hu, hk, -, w, t, hsym, hcorr, -, -, rfl⟩ := icCompress_answered hf.encInv ha
  obtain ⟨-, -, he⟩ := hf.encInv.enc hm
  obtain ⟨hpar, hfiles, hd⟩ := hf.decInv.dec hf.decMode
  have hic := hf.models.icAt_eq i.toNat
  have hud : IcUsable d (e.icAt i.toNat) := hu.sameModels hf.models
  have hok := hu.magSymOk hctx hk
  have hw := hsym.encOk he hok
  have hpass := hsym.passed hu.1 hu.2.1 hok.2.2.2
  obtain ⟨hnest, hmirror⟩ := hcorr.mirrors hw (hu.passed hpass) rfl hk
  have hdecodes := (hsym.mirrors he hok hw).2.comp hmirror hnest
  have around : ∀ y d', TakesSymbol d y ((e.icAt i.toNat).magSlot c.toNat) (magnitude (foldCorr (e.icAt i.toNat) p v)) →
      TakesCorrector y d' (e.icAt i.toNat) (magnitude (foldCorr (e.icAt i.toNat) p v)) (foldCorr (e.icAt i.toNat) p v) →
      d.Around d' := fun y d' hfirst hsecond => by
    have hpassed := hfirst.passed hpar hfiles
    have hy := hfirst.decOk hd (hok.modelOk hf.models)
    exact hpassed.1.trans (hsecond.next hy (hud.passed hpassed) hk).2.1
  obtain ⟨d', ⟨y, hfirst, hsecond⟩, hresp, hfollows⟩ :=
    hdecodes.followsOn hf hin hlen fun d' ⟨y, hfirst, hsecond⟩ => around y d' hfirst hsecond
  have hrun := decompressValue_done (i := i.toNat) p hd hud hctx hfirst hsecond
  rw [← hic] at hrun hud hctx
  have hexec := icDecompress_answers hf.decMode (hf.models.1 ▸ hi) hud hctx hrun
  rw [hic] at hexec
  exact mirrored_of_returned hexec hresp (unfoldValue_foldCorr hu.corrector) (hfollows.setIc _ _)

/-- R190 for one command, by the command. -/
theorem answers_mirrored {i j : Instr} {v : Word} (hi : mirror i = some (j, v)) (ha : Answers i e 0 e') :
    Mirrored e' d j fut rest x n fun w => InDomain e i → w = v := by
  have always : ∀ {Q : Word → Prop}, (∀ w, Q w → w = v) → Mirrored e' d j fut rest x n Q →
      Mirrored e' d j fut rest x n fun w => InDomain e i → w = v := by
    rintro Q hQ ⟨d', w, hans, hw, hfollows⟩
    exact ⟨d', w, hans, fun _ => hQ w hw, hfollows⟩
  cases i with
  | smInit m k =>
    cases hi
    exact always (fun _ => id) (setup_mirrored hf hin hlen rfl ha)
  | bmInit b =>
    cases hi
    exact always (fun _ => id) (setup_mirrored hf hin hlen rfl ha)
  | encSym m sym =>
    cases hi
    exact always (fun _ => id) (encSym_mirrored hf hin hlen ha)
  | encBit b bit =>
    cases hi
    exact always (fun _ => id) (encBit_mirrored hf hin hlen ha)
  | encBits k y =>
    cases hi
    exact always (fun _ => id) (encBits_mirrored hf hin hlen ha)
  | icConfig k b range =>
    cases hi
    exact always (fun _ => id) (setup_mirrored hf hin hlen rfl ha)
  | icSetup k c bh zero smbase bmslot =>
    cases hi
    exact always (fun _ => id) (setup_mirrored hf hin hlen rfl ha)
  | icInit k =>
    cases hi
    exact always (fun _ => id) (setup_mirrored hf hin hlen rfl ha)
  | icCompress k c p y =>
    cases hi
    exact icCompress_mirrored hf hin hlen ha
  | _ => cases hi

end mirrored

/-- Settles O58: the mirror of each command follows it, and a read command only responds. -/
theorem mirrorOfOneCommand : Obligations.MirrorOfOneCommand := by
  refine ⟨fun i j v e e' d fut rest x n hie hid hme hmd hmodels hi ha htracks hin hlen => ?_,
    fun _ s hi => exec_read s hi⟩
  obtain ⟨d', w, hans, hw, hfollows⟩ := answers_mirrored ⟨hie, hid, hme, hmd, hmodels, htracks⟩ hin hlen hi ha
  exact ⟨d', w, hans, hw, hfollows.models, hfollows.decMode, hfollows.tracks, hfollows.window, hfollows.taken⟩

end Sys2Proof.Machine
end

section
/-! The mirror of a session (R190, R78, R79): on the bytes an encoding session wrote, a decoding session that opens on the
first five of them follows it command by command and ends where its bytes end. -/

namespace Sys2Proof.Machine

open Sys2Proof

/-! ### The encoder's commands -/

/-- What the encoding host sends. -/
def encoderCommands : List Beat → List Instr
  | [] => []
  | .both i :: beats => i :: encoderCommands beats
  | .encoderReads i :: beats => i :: encoderCommands beats
  | .decoderReads _ :: beats => encoderCommands beats

/-- A mirrored command answered `OK` leaves the session as it was: the start and done commands have no mirror (R23). -/
theorem mirrored_mode {i : Instr} {m : Instr × Word} {s t : State} (hi : mirror i = some m) (h : Answers i s 0 t) :
    t.mode = s.mode := by
  obtain ⟨h, hr⟩ := h
  cases exec_ends h with
  | refused e => rfl
  | reset hs =>
    subst hs
    cases hi
  | answered u v hm =>
    obtain hm | ⟨hs, -⟩ | ⟨hs, -⟩ | ⟨hs, -⟩ | ⟨hs, -⟩ := hm
    · exact hm
    all_goals
      subst hs
      cases hi
  | faulted u e cmd hp hresp =>
    rw [takeFault_responses, hresp] at hr
    cases e <;> cases append_last_inj hr
  | abandoned u hu hresp => simp [hresp] at hr

/-- The encoding host's part keeps the session open. -/
theorem keepsEncoding_of_encodesTo {beats : List Beat} {s t : State} (hm : s.mode = .enc) (h : EncodesTo beats s t) :
    KeepsEncoding (encoderCommands beats) s t := by
  induction beats generalizing s with
  | nil => exact h
  | cons beat beats ih =>
    cases beat with
    | both i =>
      obtain ⟨⟨m, hi⟩, u, ha, hrest⟩ := h
      have hu : u.mode = .enc := (mirrored_mode hi ha).trans hm
      exact ⟨u, ha.1, hu, ih hu hrest⟩
    | encoderReads i =>
      obtain ⟨hi, u, hexec, hrest⟩ := h
      obtain ⟨r, hr⟩ := exec_read s hi
      obtain rfl : s.respond r.st r.res = u := by
        rw [hr] at hexec
        exact Host.Outcome.next.inj hexec
      exact ⟨_, hexec, hm, ih hm hrest⟩
    | decoderReads i => exact ih hm h.2

/-! ### The beats -/

section beats

variable {e e' f d g d' : State} {fut : List Byte} {rest : List GetAnswer} {x m n : Nat}

/-- Behind an answered command and its mirror the decoder follows again. -/
theorem FollowsOn.following {i j : Instr} {w : Word} (h : FollowsOn f d g fut rest x n) (hf : Following e d fut rest x)
    (hm : f.mode = .enc) (hi : Answers i e 0 f) (hj : Answers j d w g) :
    Following f g (fut.drop (fut.length - n)) rest x :=
  ⟨exec_inv hf.encInv hi.1, exec_inv hf.decInv hj.1, hm, h.decMode, h.models, h.tracks⟩

theorem FollowsOn.trans (h : FollowsOn f d g fut rest x m)
    (h' : FollowsOn e' g d' (fut.drop (fut.length - m)) rest x n) (hn : n ≤ m) (hm : m ≤ fut.length) :
    FollowsOn e' d d' fut rest x n := by
  have hlength : (fut.drop (fut.length - m)).length = m := by
    rw [List.length_drop]
    omega
  have htracks := h'.tracks
  have htaken := h'.taken
  rw [hlength] at htracks htaken
  rw [List.drop_drop, show fut.length - m + (m - n) = fut.length - n by omega] at htracks
  refine ⟨h'.models, h'.decMode, htracks, h'.window, ?_⟩
  rw [htaken, h.taken]
  omega

/-- Beat by beat the decoder follows: a mirrored pair takes both on, a read command of either host moves nothing. -/
theorem beats_mirrored {beats : List Beat} (hf : Following e d fut rest x) (h : EncodesTo beats e e') (hin : Inside e' n x)
    (hlen : e'.out.length + e'.pend + n = e.out.length + e.pend + fut.length) :
    ∃ d', MirrorsTo beats e e' d d' ∧ FollowsOn e' d d' fut rest x n := by
  induction beats generalizing e d fut with
  | nil =>
    obtain rfl : e' = e := h
    exact ⟨d, ⟨rfl, rfl⟩, filesUpdate_id.followsOn hf hin hlen⟩
  | cons beat beats ih =>
    cases beat with
    | both i =>
      obtain ⟨⟨⟨j, v⟩, hi⟩, f, ha, hrest⟩ := h
      have hm : f.mode = .enc := (mirrored_mode hi ha).trans hf.encMode
      obtain ⟨hfi, -, ⟨before, hbefore, -⟩, -⟩ := exec_sessionOpen hf.encInv hf.encMode ha.1 hm
      obtain ⟨-, -, ⟨after, hafter, hnest⟩, -⟩ :=
        keepsEncoding_sessionOpen hfi hm (keepsEncoding_of_encodesTo hm hrest)
      obtain ⟨g, w, hj, hw, hon⟩ := answers_mirrored hf (hnest n x hin) (by omega) hi ha
      have hlength : (fut.drop (fut.length - (n + after))).length = n + after := by
        rw [List.length_drop]
        omega
      obtain ⟨d', hbeats, hon'⟩ := ih (hon.following hf hm ha hj) hrest (by omega)
      have htaken := hon.taken
      exact ⟨d', ⟨j, v, w, f, g, hi, ha, hj, hw, hon.tracks.2.1, hon.models, hon.window, by omega, hbeats⟩,
        hon.trans hon' (by omega) (by omega)⟩
    | encoderReads i =>
      obtain ⟨hi, f, hexec, hrest⟩ := h
      obtain ⟨r, hr⟩ := exec_read e hi
      obtain rfl : e.respond r.st r.res = f := Host.Outcome.next.inj (hr.symm.trans hexec)
      have hf' : Following (e.respond r.st r.res) d fut rest x :=
        ⟨exec_inv hf.encInv hexec, hf.decInv, hf.encMode, hf.decMode, hf.models, hf.tracks⟩
      obtain ⟨d', hbeats, hon⟩ := ih hf' hrest hlen
      exact ⟨d', ⟨_, hexec, hbeats⟩, hon⟩
    | decoderReads i =>
      obtain ⟨hi, hrest⟩ := h
      obtain ⟨r, hr⟩ := exec_read d hi
      have hf' : Following e (d.respond r.st r.res) fut rest x :=
        ⟨hf.encInv, exec_inv hf.decInv hr, hf.encMode, hf.decMode, hf.models, hf.tracks⟩
      obtain ⟨d', hbeats, hon⟩ := ih hf' hrest hlen
      exact ⟨d', ⟨_, hr, hbeats⟩, hon.models, hon.decMode, hon.tracks, hon.window, hon.taken⟩

end beats

/-! ### The ends of the session -/

/-- An `ENC_DONE` answered `OK` leaves the files (R160). -/
theorem encDone_sameModels {s t : State} {v : Word} (h : Answers .encDone s v t) : s.SameModels t := by
  obtain ⟨h, hr⟩ := h
  obtain ⟨-, -, h⟩ := guarded_answered h hr
  obtain ⟨u, hu, rfl⟩ := finish_traced_answered (encDone_traced s) h hr
  obtain ⟨_, w, hw, hd⟩ := Run.bind_eq_done.mp hu
  cases hd
  rw [(shiftOuts_frame hw).2]
  exact ⟨rfl, rfl, rfl, rfl⟩

theorem State.SameModels.of_common {s t u : State} (ht : s.SameModels t) (hu : s.SameModels u) : t.SameModels u := by
  obtain ⟨hpar, hsm, hbm, hic⟩ := ht
  obtain ⟨hpar', hsm', hbm', hic'⟩ := hu
  exact ⟨hpar'.trans hpar.symm, hsm'.trans hsm.symm, hbm'.trans hbm.symm, hic'.trans hic.symm⟩

/-- The number of a stream whose session begins with `0x00` and four bytes (R65, R77). -/
theorem bytesValue_session {out first fut : List Byte} (hl : first.length = 4) :
    bytesValue (out ++ 0x00 :: (first ++ fut)) =
      (bytesValue out * 256 ^ 5 + bytesValue first) * 256 ^ fut.length + bytesValue fut := by
  rw [← List.cons_append, ← List.append_assoc, bytesValue_append, bytesValue_append, bytesValue_cons, List.length_cons,
    hl]
  simp

/-- The stream of a closed session: `0x00`, four bytes, and one for each byte the commands added. Its number is the code
number the flush left, which lies in the intervals at both ends of the session (R77, R160, R190). -/
structure SessionStream (e e2 : State) (bs first fut : List Byte) : Prop where
  bytes : bs = 0x00 :: (first ++ fut)
  first_length : first.length = 4
  count : e2.out.length + e2.pend = e.out.length + fut.length
  inside_end : Inside e2 0 (bytesValue (e.out ++ bs))
  inside_start : Inside e.sessionStart fut.length (bytesValue (e.out ++ bs))

theorem sessionStream_of_answered {cmds : List Instr} {e e2 e3 : State} {bs : List Byte} (hi : e.Inv)
    (hstart : Answers .encStart e 0 e.sessionStart) (hcmds : KeepsEncoding cmds e.sessionStart e2)
    (hdone : Answers .encDone e2 0 e3) (hout : e3.out = e.out ++ bs) : ∃ first fut, SessionStream e e2 bs first fut := by
  obtain ⟨hi2, hm2, ⟨r, hcount, hnest⟩, -⟩ := keepsEncoding_sessionOpen (exec_inv hi hstart.1) rfl hcmds
  have hcount : e2.out.length + e2.pend = e.out.length + r := hcount
  obtain ⟨bytes, hbytes, hfour⟩ := firstStreamByte cmds e _ e2 e3 hi hstart hcmds hdone
  obtain rfl : bs = 0x00 :: bytes := List.append_cancel_left (hout.symm.trans hbytes)
  obtain ⟨-, flushed, hflushed, hvalue, hout2⟩ := encDone_answered hi2 hdone
  have hsame := hout2.symm.trans hout
  have hlength : (bytes.drop 4).length = r := by
    have := congrArg List.length hsame
    simp only [List.length_append, List.length_cons] at this
    rw [List.length_drop]
    omega
  obtain ⟨-, -, he⟩ := hi2.enc hm2
  have hinside := he.inside
  rw [← hvalue, hsame] at hinside
  have hstartInside := hnest 0 _ hinside
  rw [Nat.zero_add] at hstartInside
  exact ⟨bytes.take 4, bytes.drop 4, by rw [List.take_append_drop], List.length_take_of_le hfour, hlength ▸ hcount,
    hinside, hlength ▸ hstartInside⟩

/-- The decoder that took the first five bytes of the session follows the encoder that began it (R180, R190). -/
theorem decoderStart_following {e d : State} {first fut : List Byte} {rest : List GetAnswer} (hie : e.sessionStart.Inv)
    (hid : d.Inv) (hm : d.mode = .idle) (hs : e.SameModels d)
    (hsrc : d.source = (0x00 :: (first ++ fut)).map GetAnswer.byte ++ rest) (hl : first.length = 4) :
    ∃ d1, Answers .decStart d 0 d1 ∧ d1.taken = d.taken + 5 ∧
      Following e.sessionStart d1 fut rest (bytesValue (e.out ++ 0x00 :: (first ++ fut))) := by
  have hexec := decStart_answers (b := 0x00) (bs := first) (rest := fut.map GetAnswer.byte ++ rest) hm
    (by rw [hsrc, ← List.append_assoc, ← List.map_append]; rfl) hl
  have hvalue : (BitVec.ofNat 32 (bytesValue first)).toNat = bytesValue first := by
    have := bytesValue_lt first
    rw [hl] at this
    exact Nat.mod_eq_of_lt this
  refine ⟨_, ⟨hexec, rfl⟩, rfl, hie, exec_inv hid hexec, rfl, rfl, hs, rfl, rfl, ?_⟩
  rw [bytesValue_session hl, sessionStart_codeNumber]
  show _ = (_ + (BitVec.ofNat 32 (bytesValue first)).toNat) * _ + _
  rw [hvalue]

/-- Settles O59: the decoder opens on the five bytes the first of which is `0x00`, follows the encoder to the number its
flush left in the stream, and has then read the bytes of the session. -/
theorem sessionMirror : Obligations.SessionMirror := by
  intro beats e e1 e2 e3 d bs rest hie hid hmd hmodels hstart hbeats hdone hout hsrc
  obtain rfl := encStart_answered hstart
  obtain ⟨first, fut, rfl, hfirst, hcount, hend, hbegin⟩ :=
    sessionStream_of_answered hie hstart (keepsEncoding_of_encodesTo rfl hbeats) hdone hout
  obtain ⟨d1, hd1, htaken1, hf⟩ := decoderStart_following (exec_inv hie hstart.1) hid hmd hmodels hsrc hfirst
  obtain ⟨d2, hmirrors, hon⟩ := beats_mirrored hf hbeats hend hcount
  obtain ⟨hsource2, -, -⟩ := hon.tracks
  have htaken2 := hon.taken
  obtain ⟨-, hlen, -⟩ := hf.tracks
  refine ⟨d1, d2, (d2.setMode .idle).respond .ok 0, hd1, htaken1, hlen, hf.tracks.value_lt_len hbegin, hmirrors,
    ⟨guarded_dec hon.decMode, rfl⟩, (encDone_sameModels hdone).of_common hon.models, ?_, ?_⟩
  · rwa [Nat.sub_zero, List.drop_length] at hsource2
  · show d2.taken = _
    simp only [List.length_cons, List.length_append]
    omega

end Sys2Proof.Machine
end

section
/-! Correctors (R211, R214, R215): the bits of a range, the interval of each magnitude and the positions in it, and the
bounds of a folded corrector. -/

namespace Sys2Proof.Machine

open Sys2Proof

/-! ### Bit lengths -/

theorem bitlen_eq_iff {a k : Nat} (hk : 1 ≤ k) : bitlen a = k ↔ 2 ^ (k - 1) ≤ a ∧ a < 2 ^ k := by
  constructor
  · rintro rfl
    exact ⟨bitlen_le (by rintro rfl; simp [bitlen] at hk), bitlen_lt a⟩
  · rintro ⟨hlo, hhi⟩
    have hle := bitlen_le_of_lt hhi
    by_contra hne
    have hpow : 2 ^ bitlen a ≤ 2 ^ (k - 1) := Nat.pow_le_pow_right (by omega) (by omega)
    have hlt := bitlen_lt a
    omega

/-- The bit count of a range is the least whose power of two holds the range (R211). -/
theorem rangeBits_eq {r n : Nat} (h1 : 1 ≤ n) (hlo : 2 ^ (n - 1) < r) (hhi : r ≤ 2 ^ n) : rangeBits r = n := by
  rcases hhi.eq_or_lt with rfl | hlt
  · have hbits : bitlen (2 ^ n) = n + 1 := (bitlen_eq_iff (by omega)).mpr ⟨le_refl _, Nat.pow_lt_pow_succ (by omega)⟩
    rw [rangeBits, hbits, Nat.add_sub_cancel, if_pos rfl]
  · have hbits : bitlen r = n := (bitlen_eq_iff h1).mpr ⟨hlo.le, hlt⟩
    rw [rangeBits, hbits, if_neg hlo.ne']

theorem le_two_pow_rangeBits (r : Nat) : r ≤ 2 ^ rangeBits r := by
  unfold rangeBits
  split
  · next h => exact h.le
  · exact (bitlen_lt r).le

/-! ### The interval of a magnitude -/

theorem two_pow_pred_add {k : Nat} (hk : 1 ≤ k) : (2 : Int) ^ k = 2 ^ (k - 1) + 2 ^ (k - 1) := by
  have := pow_sub_one_mul (show k ≠ 0 by omega) (2 : Int)
  omega

/-- The two intervals of magnitude `k` (R215). -/
theorem magnitude_eq_iff {corr : Int} {k : Nat} (hk : 1 ≤ k) : magnitude corr = k ↔
    (-((2 : Int) ^ k - 1) ≤ corr ∧ corr ≤ -(2 : Int) ^ (k - 1)) ∨ ((2 : Int) ^ (k - 1) + 1 ≤ corr ∧ corr ≤ 2 ^ k) := by
  have hstep := two_pow_pred_add hk
  have hpos : (0 : Int) < 2 ^ (k - 1) := by positivity
  rw [magnitude, bitlen_eq_iff hk]
  zify
  rw [absAdj]
  generalize (2 : Int) ^ (k - 1) = q at *
  split <;> omega

section interval

variable {corr : Int} {k : Nat} (hk : 1 ≤ k) (h : magnitude corr = k)
include hk h

/-- The number a position stands for, without truncation (R215). -/
theorem translate_cast : (translate corr k : Int) = if corr < 0 then corr + (2 ^ k - 1) else corr - 1 := by
  have hpos : (0 : Int) < 2 ^ (k - 1) := by positivity
  have hcases := (magnitude_eq_iff hk).mp h
  rw [translate]
  split <;> omega

/-- The negative part of the interval lies below its middle (R215). -/
theorem translate_lt_half_iff : translate corr k < 2 ^ (k - 1) ↔ corr < 0 := by
  have hstep := two_pow_pred_add hk
  have hpos : (0 : Int) < 2 ^ (k - 1) := by positivity
  have hcases := (magnitude_eq_iff hk).mp h
  have hcast := translate_cast hk h
  zify
  split at hcast <;> omega

end interval

section position

variable {t k : Nat} (hk : 1 ≤ k) (ht : t < 2 ^ k)
include hk ht

theorem magnitude_untranslate : magnitude (untranslate t k) = k := by
  have hstep := two_pow_pred_add hk
  zify at ht
  rw [magnitude_eq_iff hk, untranslate]
  zify
  split <;> omega

theorem translate_untranslate : translate (untranslate t k) k = t := by
  have hstep := two_pow_pred_add hk
  have hpos : (0 : Int) < 2 ^ (k - 1) := by positivity
  have hcast := translate_cast hk (magnitude_untranslate hk ht)
  zify at ht ⊢
  rw [hcast, untranslate]
  zify
  split <;> split <;> omega

end position

/-- Settles O50, from the bounds of each magnitude's interval. -/
theorem magnitudeIntervals : Obligations.MagnitudeIntervals := by
  intro corr k
  refine ⟨magnitude_eq_zero, magnitude_eq_iff, fun hk h => ?_, fun hk t ht => ?_⟩
  · exact ⟨translate_cast hk h, translate_lt h (by omega), translate_lt_half_iff hk h, untranslate_eq h (by omega)⟩
  · exact ⟨rfl, magnitude_untranslate hk ht, translate_untranslate hk ht⟩

/-! ### Folding -/

theorem foldCorr_of_unranged {inst : IcInst} (p v : Word) (h : inst.crange = 0) : foldCorr inst p v = (v - p).toInt :=
  if_neg (by simpa using h)

theorem foldCorr_of_ranged {inst : IcInst} (p v : Word) (h : inst.crange ≠ 0) : foldCorr inst p v =
    if (v - p).toInt < inst.cmin.toInt then (v - p).toInt + inst.crange.toNat
    else if inst.cmax.toInt < (v - p).toInt then (v - p).toInt - inst.crange.toNat
    else (v - p).toInt := if_pos h

/-- One range is what a fold adds or takes away (R214). -/
theorem crange_dvd_foldCorr_sub (inst : IcInst) (p v : Word) :
    (inst.crange.toNat : Int) ∣ foldCorr inst p v - (v - p).toInt := by
  obtain h | h | h := foldCorr_cases inst p v <;> rw [h, s32]
  · rw [sub_self]
    exact dvd_zero _
  · rw [add_sub_cancel_left]
  · rw [sub_sub_cancel_left]
    exact (dvd_refl _).neg_right

/-- A corrector that the derived parameters allow: inside `[CMIN, CMAX]`, with a magnitude of at most `CBITS` (R214). -/
def IcInst.Fits (inst : IcInst) (corr : Int) : Prop :=
  inst.cmin.toInt ≤ corr ∧ corr ≤ inst.cmax.toInt ∧ magnitude corr ≤ inst.cbits.toNat

theorem magnitude_le {corr : Int} {n : Nat} (hlo : -2 ^ n < corr) (hhi : corr ≤ 2 ^ n) : magnitude corr ≤ n := by
  have hpos : (0 : Int) < 2 ^ n := by positivity
  refine bitlen_le_of_lt ?_
  zify
  rw [absAdj]
  split <;> omega

/-- Without a range every difference fits (R214). -/
theorem IcInst.CorrectorOk.fits_of_unranged {inst : IcInst} (h : inst.CorrectorOk) (h0 : inst.crange = 0) (p v : Word) :
    inst.Fits (foldCorr inst p v) := by
  obtain ⟨-, -, hfull, -⟩ := h
  obtain ⟨hbits, hmin, hmax⟩ := hfull (by rw [h0]; rfl)
  have hlo := (v - p).le_toInt
  have hhi := (v - p).toInt_lt
  rw [foldCorr_of_unranged p v h0, Fits, hbits, hmin, hmax]
  exact ⟨by omega, by omega, magnitude_le (by omega) (by omega)⟩

/-- With a range one fold is enough for the difference of two words below it (R214). -/
theorem IcInst.CorrectorOk.fits_of_ranged {inst : IcInst} {p v : Word} (h : inst.CorrectorOk) (h0 : inst.crange ≠ 0)
    (hp : p.toNat < inst.crange.toNat) (hv : v.toNat < inst.crange.toNat) : inst.Fits (foldCorr inst p v) := by
  obtain ⟨-, -, -, hranged⟩ := h
  obtain ⟨htwo, hle, hmin, hmax, hbits⟩ := hranged fun hz => h0 (BitVec.eq_of_toNat_eq hz)
  have hdiff : (v - p).toInt = (v.toNat : Int) - p.toNat := s32_sub_of_lt (hp.trans_le hle) (hv.trans_le hle)
  have hpow : (inst.crange.toNat : Int) ≤ 2 ^ inst.cbits.toNat := by
    rw [hbits]
    exact_mod_cast le_two_pow_rangeBits inst.crange.toNat
  have hbounds : inst.cmin.toInt ≤ foldCorr inst p v ∧ foldCorr inst p v ≤ inst.cmax.toInt := by
    rw [foldCorr_of_ranged p v h0, hdiff]
    split_ifs <;> omega
  obtain ⟨hlo, hhi⟩ := hbounds
  exact ⟨hlo, hhi, magnitude_le (by omega) (by omega)⟩

/-- The derived parameters of a compressor that was set up (R38). -/
theorem IcInst.Ok.correctorOk {p : Params} {inst : IcInst} (h : inst.Ok p) (hst : inst.st = .setup ∨ inst.st = .ready) :
    inst.CorrectorOk := by
  obtain ⟨-, -, hcorr, -⟩ := h.of_setup (by rcases hst with hst | hst <;> simp [hst])
  exact hcorr

/-- Settles O49: what a fold adds is a multiple of the range, and one is enough in R214's domain. -/
theorem foldRule : Obligations.FoldRule := by
  rintro p inst pr v corr hok hst rfl
  have hcorr := hok.correctorOk hst
  refine ⟨?_, fun c => rfl, fun _ => crange_dvd_foldCorr_sub inst pr v, fun hd => ?_⟩
  · split
    · next h0 => exact foldCorr_of_unranged pr v h0
    · next h0 => exact foldCorr_of_ranged pr v h0
  · by_cases h0 : inst.crange = 0
    · exact hcorr.fits_of_unranged h0 pr v
    · obtain ⟨hp, hv⟩ := hd.resolve_left h0
      exact hcorr.fits_of_ranged h0 hp hv

/-- Settles O51: R219 for the derived parameters. -/
theorem foldRoundTrip : Obligations.FoldRoundTrip := by
  intro p inst pr v hok hst hd
  exact unfoldValue_foldCorr (hok.correctorOk hst) hd

end Sys2Proof.Machine
end

section
/-! Setting up a compressor (R210 to R213, R218, R221): one equation for each outcome of a command's checks, and what
`IC_INIT` leaves in every slot. -/

namespace Sys2Proof.Machine

open Sys2Proof

variable {s : State} {i : Byte}

/-! ### `IC_CONFIG` and `IC_GETK` -/

/-- The three checks of R210 refuse with the same code. -/
theorem icConfig_refused {b range : Word} (hf : s.mode ≠ .fault)
    (h : s.par.nic ≤ i.toNat ∨ b.toNat < 1 ∨ 32 < b.toNat ∨ range.toNat = 1 ∨ 2 ^ 31 < range.toNat) :
    exec (.icConfig i b range) s = refuse s .eOperand := by
  refine (guarded_any hf).trans ?_
  by_cases hi : s.par.nic ≤ i.toNat
  · exact if_pos hi
  by_cases hb : b.toNat < 1 ∨ b.toNat > 32
  · exact (if_neg hi).trans (if_pos hb)
  · exact (if_neg hi).trans ((if_neg hb).trans (if_pos (by omega)))

theorem icConfig_answers {b range : Word} (hf : s.mode ≠ .fault) (hi : i.toNat < s.par.nic) (h1 : 1 ≤ b.toNat)
    (hb : b.toNat ≤ 32) (hne : range.toNat ≠ 1) (hr : range.toNat ≤ 2 ^ 31) :
    exec (.icConfig i b range) s = answer (s.setIc i.toNat (IcInst.configured b range)) 0 :=
  (guarded_any hf).trans ((if_neg (by omega)).trans ((if_neg (by omega)).trans (if_neg (by omega))))

/-- Settles O44: the checks of R210, then the configured compressor, every other field 0. -/
theorem icConfigResult : Obligations.IcConfigResult := by
  intro i b range s hf
  refine ⟨icConfig_refused hf, fun hi h1 hb hne hr => (icConfig_answers hf hi h1 hb hne hr).trans ?_⟩
  rw [BitVec.ofNat_toNat]
  rfl

theorem icGetk_answers (hf : s.mode ≠ .fault) (hi : i.toNat < s.par.nic) (hst : (s.icAt i.toNat).st ≠ .unconf) :
    exec (.icGetk i) s = answer s ((s.icAt i.toNat).k.setWidth 32) :=
  (guarded_any hf).trans ((if_neg (by omega)).trans (if_neg hst))

/-- Settles O54: the two checks of R218 in order, then `K`. -/
theorem icGetkResult : Obligations.IcGetkResult := by
  intro i s hf
  exact ⟨fun hi => (guarded_any hf).trans (if_pos hi),
    fun hi hst => (guarded_any hf).trans ((if_neg (by omega)).trans (if_pos hst)), icGetk_answers hf⟩

/-! ### `IC_SETUP` -/

section setup

variable {c : Index} {bh zero : Byte} {smbase bmslot : Index}

theorem icSetup_uninit_refused (hf : s.mode ≠ .fault) (hi : i.toNat < s.par.nic) (hst : (s.icAt i.toNat).st = .unconf) :
    exec (.icSetup i c bh zero smbase bmslot) s = refuse s .eUninit :=
  (guarded_any hf).trans ((if_neg (by omega)).trans (if_pos hst))

/-- The three operand checks of R211 refuse with the same code. -/
theorem icSetup_operand_refused (hf : s.mode ≠ .fault) (hi : i.toNat < s.par.nic) (hst : (s.icAt i.toNat).st ≠ .unconf)
    (h : zero.toNat ≠ 0 ∨ c.toNat < 1 ∨ s.par.bhMax < bh.toNat ∨
      s.par.nsm < smbase.toNat + c.toNat + min (s.icAt i.toNat).corrector.cbits bh.toNat ∨
      (1 ≤ bh.toNat ∧ s.par.nbm ≤ bmslot.toNat)) :
    exec (.icSetup i c bh zero smbase bmslot) s = refuse s .eOperand := by
  refine (guarded_any hf).trans ((if_neg (by omega)).trans ((if_neg hst).trans ?_))
  by_cases hrange : zero.toNat ≠ 0 ∨ c.toNat < 1 ∨ bh.toNat > s.par.bhMax
  · exact if_pos hrange
  by_cases hslots : smbase.toNat + c.toNat + min (s.icAt i.toNat).corrector.cbits bh.toNat > s.par.nsm
  · exact (if_neg hrange).trans (if_pos hslots)
  · exact (if_neg hrange).trans ((if_neg hslots).trans (if_pos (by omega)))

theorem icSetup_answers (hf : s.mode ≠ .fault) (hi : i.toNat < s.par.nic) (hst : (s.icAt i.toNat).st ≠ .unconf)
    (hzero : zero.toNat = 0) (hc : 1 ≤ c.toNat) (hbh : bh.toNat ≤ s.par.bhMax)
    (hslots : smbase.toNat + c.toNat + min (s.icAt i.toNat).corrector.cbits bh.toNat ≤ s.par.nsm)
    (hbit : 1 ≤ bh.toNat → bmslot.toNat < s.par.nbm) :
    exec (.icSetup i c bh zero smbase bmslot) s =
      answer (s.setIc i.toNat ((s.icAt i.toNat).withSetup c bh smbase bmslot)) 0 :=
  (guarded_any hf).trans ((if_neg (by omega)).trans ((if_neg hst).trans
    ((if_neg (by omega)).trans ((if_neg (by omega)).trans (if_neg (by omega))))))

/-- An `IC_SETUP` answered `OK` wrote the compressor with its derived parameters (R211). -/
theorem icSetup_answered {v : Word} {t : State} (h : Answers (.icSetup i c bh zero smbase bmslot) s v t) :
    s.mode ≠ .fault ∧ i.toNat < s.par.nic ∧
      t = (s.setIc i.toNat ((s.icAt i.toNat).withSetup c bh smbase bmslot)).respond .ok 0 := by
  obtain ⟨h, hr⟩ := h
  obtain ⟨hf, -, h⟩ := guarded_answered h hr
  split_ifs at h with hindex hst hrange hslots hbit
  · exact (refuse_not_ok (by decide) h hr).elim
  · exact (refuse_not_ok (by decide) h hr).elim
  · exact (refuse_not_ok (by decide) h hr).elim
  · exact (refuse_not_ok (by decide) h hr).elim
  · exact (refuse_not_ok (by decide) h hr).elim
  · cases h
    exact ⟨hf, by omega, rfl⟩

/-- The compressor that an `IC_SETUP` answered `OK` leaves (R211). -/
theorem icSetup_icAt {v : Word} {t : State} (hi : s.Inv) (h : Answers (.icSetup i c bh zero smbase bmslot) s v t) :
    t.icAt i.toNat = (s.icAt i.toNat).withSetup c bh smbase bmslot := by
  obtain ⟨-, hindex, rfl⟩ := icSetup_answered h
  obtain ⟨-, ⟨-, -, hlen, -⟩, -⟩ := hi
  exact State.icAt_setIc_self _ (by rwa [hlen])

end setup

/-! ### The derived parameters -/

/-- The range branch of R211. -/
theorem deriveCorrector_range {bits range : Nat} (h : range ≠ 0) : deriveCorrector bits range =
    { cbits := rangeBits range, crange := range,
      cmin := -((range / 2 : Nat) : Int), cmax := -((range / 2 : Nat) : Int) + range - 1 } := if_pos h

/-- The bits-only branch of R211. -/
theorem deriveCorrector_bits {bits : Nat} (h : bits < 32) : deriveCorrector bits 0 =
    { cbits := bits, crange := 2 ^ bits,
      cmin := -((2 ^ bits / 2 : Nat) : Int), cmax := -((2 ^ bits / 2 : Nat) : Int) + (2 ^ bits : Nat) - 1 } :=
  (if_neg (by decide)).trans (if_pos h)

/-- The full range of R211. -/
theorem deriveCorrector_full {bits : Nat} (h : 32 ≤ bits) : deriveCorrector bits 0 =
    { cbits := 32, crange := 0, cmin := -2 ^ 31, cmax := 2 ^ 31 - 1 } :=
  (if_neg (by decide)).trans (if_neg (by omega))

/-- The three branches of R211 by what they say of the parameters: the bits of a range are the least that hold it. -/
theorem deriveCorrector_eq {bits range cbits crange : Nat} {cmin cmax : Int}
    (hrange : range ≠ 0 → crange = range ∧ 1 ≤ cbits ∧ 2 ^ (cbits - 1) < crange ∧ crange ≤ 2 ^ cbits)
    (hbits : range = 0 → bits < 32 → cbits = bits ∧ crange = 2 ^ cbits)
    (hfull : range = 0 → 32 ≤ bits → cbits = 32 ∧ crange = 0)
    (hmin : cmin = if crange = 0 then -2 ^ 31 else -((crange / 2 : Nat) : Int))
    (hmax : cmax = if crange = 0 then 2 ^ 31 - 1 else cmin + crange - 1) :
    deriveCorrector bits range = { cbits := cbits, crange := crange, cmin := cmin, cmax := cmax } := by
  subst hmax hmin
  by_cases h0 : range = 0
  · subst h0
    by_cases hb : bits < 32
    · obtain ⟨rfl, rfl⟩ := hbits rfl hb
      have hpos : 2 ^ cbits ≠ 0 := (Nat.two_pow_pos cbits).ne'
      rw [deriveCorrector_bits hb, if_neg hpos, if_neg hpos]
    · obtain ⟨rfl, rfl⟩ := hfull rfl (by omega)
      rw [deriveCorrector_full (by omega), if_pos rfl, if_pos rfl]
  · obtain ⟨rfl, h1, hlo, hhi⟩ := hrange h0
    rw [deriveCorrector_range h0, rangeBits_eq h1 hlo hhi, if_neg h0, if_neg h0]

/-- Settles O45: the parameters are R211's, and then its checks in order. -/
theorem icSetupResult : Obligations.IcSetupResult := by
  intro i c bh zero smbase bmslot s cbits crange cmin cmax _ hf hrange hbits hfull hmin hmax
  have hderive : (s.icAt i.toNat).corrector = { cbits := cbits, crange := crange, cmin := cmin, cmax := cmax } :=
    deriveCorrector_eq hrange hbits hfull hmin hmax
  have hcbits : (s.icAt i.toNat).corrector.cbits = cbits := by rw [hderive]
  refine ⟨fun hi => (guarded_any hf).trans (if_pos hi), icSetup_uninit_refused hf, fun hi hst h => ?_,
    fun hi hst hzero hc hbh hslots hbit => ?_⟩
  · exact icSetup_operand_refused hf hi hst (by rwa [hcbits])
  · rw [icSetup_answers hf hi hst hzero hc hbh (by rwa [hcbits]) hbit, IcInst.withSetup, hderive]
    rfl

/-- Settles O46: the first set-up leaves `RANGE` 0, so the second takes a branch of R211 that reads `BITS` only. -/
theorem secondSetupIsBitsOnly : Obligations.SecondSetupIsBitsOnly := by
  intro s u t i c c' bh bh' zero zero' base base' slot slot' hi hfirst hsecond
  have hu := icSetup_icAt hi hfirst
  have ht := icSetup_icAt (exec_inv hi hfirst.1) hsecond
  have hrange : (u.icAt i.toNat).range = 0 := by rw [hu]; rfl
  have hderive : (u.icAt i.toNat).corrector = deriveCorrector (s.icAt i.toNat).bits.toNat 0 := by rw [hu]; rfl
  have hcbits : (t.icAt i.toNat).cbits = BitVec.ofNat 6 (deriveCorrector (s.icAt i.toNat).bits.toNat 0).cbits := by
    rw [ht, ← hderive]; rfl
  have hcrange : (t.icAt i.toNat).crange = BitVec.ofNat 32 (deriveCorrector (s.icAt i.toNat).bits.toNat 0).crange := by
    rw [ht, ← hderive]; rfl
  refine ⟨hrange, fun hb => ?_, fun hb => ?_⟩
  · rw [hcbits, hcrange, deriveCorrector_bits hb]
    exact ⟨by rw [BitVec.ofNat_toNat, BitVec.setWidth_eq], Nat.mod_eq_of_lt (Nat.pow_lt_pow_right (by omega) hb)⟩
  · rw [hcbits, hcrange, deriveCorrector_full hb.ge]
    exact ⟨rfl, rfl⟩

/-! ### `IcModelsOk` and `IC_INIT` -/

theorem forall_magnitude_iff {n : Nat} {P : Nat → Prop} : (∀ k, k < n → P (k + 1)) ↔ ∀ k, 1 ≤ k → k ≤ n → P k := by
  constructor
  · intro h k h1 hk
    have := h (k - 1) (by omega)
    rwa [Nat.sub_add_cancel h1] at this
  · exact fun h k hk => h (k + 1) (by omega) (by omega)

/-- Settles O47: the two sweeps over the slots of R39 and the bit model. -/
theorem icModelsOkRule : Obligations.IcModelsOkRule := by
  intro s inst
  have hvalues := forall_magnitude_iff (n := inst.nv)
    (P := fun k => (s.smAt (inst.valSlot k)).valid = true ∧ (s.smAt (inst.valSlot k)).n = 2 ^ k)
  have hbit : inst.bh.toNat = 0 ∨ (s.bmAt inst.bmslot.toNat).valid = true ↔
      (1 ≤ inst.bh.toNat → (s.bmAt inst.bmslot.toNat).valid = true) := by
    rw [Nat.one_le_iff_ne_zero, or_iff_not_imp_left]
  simp only [icModelsOk, Bool.and_eq_true, Bool.or_eq_true, List.all_eq_true, List.mem_range, decide_eq_true_eq,
    and_assoc]
  rw [hvalues, hbit]
  rfl

/-- The magnitude models are written and nothing else (R213). -/
theorem initMagModels_eq (inst : IcInst) (n : Nat) (s : State) :
    initMagModels inst n s = { s with sm := (initMagModels inst n s).sm } := by
  induction n with
  | zero => rfl
  | succ n ih => rw [initMagModels, ih]; rfl

theorem initValModels_eq (inst : IcInst) (n : Nat) (s : State) :
    initValModels inst n s = { s with sm := (initValModels inst n s).sm } := by
  induction n with
  | zero => rfl
  | succ n ih => rw [initValModels, ih]; rfl

@[simp] theorem initMagModels_length (inst : IcInst) (n : Nat) (s : State) :
    (initMagModels inst n s).sm.length = s.sm.length := by
  induction n with
  | zero => rfl
  | succ n ih => simpa [initMagModels] using ih

@[simp] theorem initValModels_length (inst : IcInst) (n : Nat) (s : State) :
    (initValModels inst n s).sm.length = s.sm.length := by
  induction n with
  | zero => rfl
  | succ n ih => simpa [initValModels] using ih

/-- The magnitude models of `n` contexts lie from `SMBASE` up (R39, R213). -/
theorem initMagModels_smAt (inst : IcInst) (n : Nat) {s : State} {j : Nat} (hj : j < s.sm.length) :
    (initMagModels inst n s).smAt j =
      if inst.smbase.toNat ≤ j ∧ j < inst.smbase.toNat + n then SmSlot.fresh (inst.cbits.toNat + 1) else s.smAt j := by
  induction n with
  | zero => rw [if_neg (by omega)]; rfl
  | succ n ih =>
    rw [initMagModels]
    by_cases hslot : j = inst.magSlot n
    · have hpos : inst.smbase.toNat ≤ j ∧ j < inst.smbase.toNat + (n + 1) := by unfold IcInst.magSlot at hslot; omega
      rw [if_pos hpos, ← hslot, State.smAt_setSm_self _ (by simpa using hj)]
    · rw [State.smAt_setSm_ne _ hslot, ih]
      refine if_congr ?_ rfl rfl
      unfold IcInst.magSlot at hslot
      omega

/-- The value models of `n` magnitudes lie behind those of the contexts, the one of magnitude 1 first (R39, R213). -/
theorem initValModels_smAt (inst : IcInst) (n : Nat) {s : State} {j : Nat} (hj : j < s.sm.length) :
    (initValModels inst n s).smAt j =
      if inst.smbase.toNat + inst.ctx.toNat ≤ j ∧ j < inst.smbase.toNat + inst.ctx.toNat + n then
        SmSlot.fresh (2 ^ (j - (inst.smbase.toNat + inst.ctx.toNat) + 1))
      else s.smAt j := by
  induction n with
  | zero => rw [if_neg (by omega)]; rfl
  | succ n ih =>
    rw [initValModels]
    by_cases hslot : j = inst.valSlot (n + 1)
    · have hplace : j = inst.smbase.toNat + inst.ctx.toNat + n := hslot
      have hmag : j - (inst.smbase.toNat + inst.ctx.toNat) = n := by omega
      rw [if_pos (by omega), hmag, ← hslot, State.smAt_setSm_self _ (by simpa using hj)]
    · have hplace : j ≠ inst.smbase.toNat + inst.ctx.toNat + n := hslot
      rw [State.smAt_setSm_ne _ hslot, ih]
      exact if_congr (by omega) rfl rfl

/-- The symbol models of the compressor, fresh (R213). -/
def IcInst.initModels (inst : IcInst) (s : State) : State :=
  initValModels inst inst.nv (initMagModels inst inst.ctx.toNat s)

theorem IcInst.initModels_eq (inst : IcInst) (s : State) :
    inst.initModels s = { s with sm := (inst.initModels s).sm } := by
  rw [initModels, initValModels_eq, initMagModels_eq]

theorem icInit_answers (hf : s.mode ≠ .fault) (hi : i.toNat < s.par.nic)
    (hst : (s.icAt i.toNat).st = .setup ∨ (s.icAt i.toNat).st = .ready) :
    exec (.icInit i) s =
      answer ((initBitModel (s.icAt i.toNat) ((s.icAt i.toNat).initModels s)).setIc i.toNat
        { s.icAt i.toNat with k := 0, st := .ready }) 0 :=
  (guarded_any hf).trans ((if_neg (by omega)).trans (if_neg (by rcases hst with hst | hst <;> simp [hst])))

/-- Settles O48: the checks of R213 in order, then what every slot reads after the two sweeps. -/
theorem icInitResult : Obligations.IcInitResult := by
  intro i s _ hf
  refine ⟨fun hi => (guarded_any hf).trans (if_pos hi),
    fun hi hst => (guarded_any hf).trans ((if_neg (by omega)).trans (if_pos hst)), fun hi hst => ?_⟩
  have hexec := icInit_answers hf hi hst
  generalize s.icAt i.toNat = inst at hexec ⊢
  refine ⟨(inst.initModels s).sm, by simp [IcInst.initModels], ?_, fun j hj => ?_⟩
  · rw [hexec, inst.initModels_eq s, initBitModel]
    by_cases hb : 1 ≤ inst.bh.toNat
    · rw [if_pos hb, if_pos hb]; rfl
    · rw [if_neg hb, if_neg hb]; rfl
  · have hval := initValModels_smAt inst inst.nv (s := initMagModels inst inst.ctx.toNat s) (j := j) (by simpa using hj)
    rw [initMagModels_smAt inst inst.ctx.toNat hj] at hval
    refine hval.trans ?_
    by_cases hmag : inst.smbase.toNat ≤ j ∧ j < inst.smbase.toNat + inst.ctx.toNat
    · rw [if_neg (by omega), if_pos hmag, if_pos hmag]; rfl
    · rw [if_neg hmag, if_neg hmag]; rfl

end Sys2Proof.Machine
end

section
/-! Coding with a compressor (R216, R217, R220): the checks of `IC_COMPRESS` and `IC_DECOMPRESS`, the bodies from what their
two procedures coded, and the remembered magnitude. -/

namespace Sys2Proof.Machine

open Sys2Proof

variable {s : State} {i : Byte} {c : Index} {p : Word}

/-- A compressor that the checks of R216 and R217 let pass, in an open session. -/
theorem State.Inv.icUsable (h : s.Inv) (hf : s.mode ≠ .fault) (hst : (s.icAt i.toNat).st = .ready)
    (hok : icModelsOk s (s.icAt i.toNat) = true) : IcUsable s (s.icAt i.toNat) :=
  ⟨h.1, h.filesOk hf, (h.filesOk hf).icAt _, hst, hok⟩

/-! ### `IC_COMPRESS` -/

/-- The compressor is usable still after a magnitude was coded with the model of a context (R216). -/
theorem IcUsable.after_magnitude {u : State} {m k : Nat} {inst : IcInst} (h : IcUsable s inst) (hm : m < inst.ctx.toNat)
    (hk : k ≤ inst.cbits.toNat) (hsym : CodesSymbol s u (inst.magSlot m) k) : IcUsable u inst := by
  obtain ⟨-, -, -, hlt⟩ := h.magSymOk hm hk
  exact h.passed (hsym.passed h.1 h.2.1 hlt)

/-- The body of R216, from what its two procedures coded. -/
theorem compressCorrector_done {u t : State} {j m : Nat} {inst : IcInst} {corr : Int} (he : s.EncOk)
    (h : IcUsable s inst) (hm : m < inst.ctx.toNat) (hk : magnitude corr ≤ inst.cbits.toNat)
    (hsym : CodesSymbol s u (inst.magSlot m) (magnitude corr)) (hcorr : CodesCorrector u t inst corr (magnitude corr)) :
    compressCorrector j inst m corr s =
      .done 0 (t.setIc j { inst with k := BitVec.ofNat 6 (magnitude corr) }) := by
  have hok := h.magSymOk hm hk
  rw [compressCorrector, hsym.run he hok, Run.bind_done,
    hcorr.run (hsym.encOk he hok) (h.after_magnitude hm hk hsym) rfl hk, Run.bind_done]

/-- The body of R216 returns where the stream accepts the held bytes and eight more (R161). -/
theorem compressCorrector_codes {m : Nat} {inst : IcInst} {corr : Int} (he : s.EncOk) (h : IcUsable s inst)
    (hm : m < inst.ctx.toNat) (hk : magnitude corr ≤ inst.cbits.toNat) (ha : s.SinkAccepts (s.pend + 8))
    (hr : s.pend + 8 < 2 ^ s.par.pendBits) :
    ∃ u t, CodesSymbol s u (inst.magSlot m) (magnitude corr) ∧ CodesCorrector u t inst corr (magnitude corr) := by
  have hok := h.magSymOk hm hk
  obtain ⟨u, -, hsym, hu⟩ := encodeSymbol_completes he hok (ha.mono (by omega)) (by omega)
  obtain ⟨hsink, hroom⟩ := hsym.uses he hok (j := 6) ha hr
  obtain ⟨t, hcorr⟩ := encodeCorrector_completes hu (h.after_magnitude hm hk hsym) rfl hk hsink hroom
  exact ⟨u, t, hsym, hcorr⟩

section compress

variable {v : Word} (hm : s.mode = .enc) (hi : i.toNat < s.par.nic)
include hm hi

theorem icCompress_uninit_refused (hst : (s.icAt i.toNat).st ≠ .ready) :
    exec (.icCompress i c p v) s = refuse s .eUninit := (guarded_enc hm).trans ((if_neg (by omega)).trans (if_pos hst))

variable (hst : (s.icAt i.toNat).st = .ready)
include hst

theorem icCompress_context_refused (hc : (s.icAt i.toNat).ctx.toNat ≤ c.toNat) :
    exec (.icCompress i c p v) s = refuse s .eOperand :=
  (guarded_enc hm).trans ((if_neg (by omega)).trans ((if_neg (by simp [hst])).trans (if_pos hc)))

variable (hc : c.toNat < (s.icAt i.toNat).ctx.toNat)
include hc

theorem icCompress_models_refused (hok : icModelsOk s (s.icAt i.toNat) = false) :
    exec (.icCompress i c p v) s = refuse s .eUninit :=
  (guarded_enc hm).trans ((if_neg (by omega)).trans ((if_neg (by simp [hst])).trans
    ((if_neg (by omega)).trans (if_pos hok))))

variable (hok : icModelsOk s (s.icAt i.toNat) = true)
include hok

theorem icCompress_magnitude_refused
    (hk : (s.icAt i.toNat).cbits.toNat < magnitude (foldCorr (s.icAt i.toNat) p v)) :
    exec (.icCompress i c p v) s = refuse s .eOperand :=
  (guarded_enc hm).trans ((if_neg (by omega)).trans ((if_neg (by simp [hst])).trans
    ((if_neg (by omega)).trans ((if_neg (by simp [hok])).trans (if_pos hk)))))

/-- `IC_COMPRESS` whose checks pass and whose body returns (R216). -/
theorem icCompress_answers {t : State} {w : Word}
    (hk : magnitude (foldCorr (s.icAt i.toNat) p v) ≤ (s.icAt i.toNat).cbits.toNat)
    (ht : compressCorrector i.toNat (s.icAt i.toNat) c.toNat (foldCorr (s.icAt i.toNat) p v) s = .done w t) :
    exec (.icCompress i c p v) s = .next (t.respond .ok w) := by
  refine (guarded_enc hm).trans ((if_neg (by omega)).trans ((if_neg (by simp [hst])).trans
    ((if_neg (by omega)).trans ((if_neg (by simp [hok])).trans ((if_neg (by omega)).trans ?_)))))
  rw [ht]
  rfl

end compress

/-- Settles O52: the checks of R216 in order, then the two procedures of its body. -/
theorem icCompressResult : Obligations.IcCompressResult := by
  rintro i c p v s inst corr k hinv rfl rfl rfl
  refine ⟨guarded_not_enc, fun hm hi => (guarded_enc hm).trans (if_pos hi), icCompress_uninit_refused,
    icCompress_context_refused, icCompress_models_refused, icCompress_magnitude_refused,
    fun hm hi hst hc hok hk ha hr => ?_⟩
  obtain ⟨-, -, he⟩ := hinv.enc hm
  have hu := hinv.icUsable (by simp [hm]) hst hok
  obtain ⟨u, t, hsym, hcorr⟩ := compressCorrector_codes he hu hc hk ha hr
  exact ⟨u, t, hsym, hcorr, icCompress_answers hm hi hst hc hok hk (compressCorrector_done he hu hc hk hsym hcorr)⟩

/-! ### `IC_DECOMPRESS` -/

/-- The fold back as R217 writes it. -/
theorem unfoldValue_eq (inst : IcInst) (p : Word) (corr : Int) : unfoldValue inst p corr = BitVec.ofInt 32
    (if inst.crange = 0 then p.toInt + corr
    else if p.toInt + corr < 0 then p.toInt + corr + inst.crange.toNat
    else if inst.crange.toNat ≤ p.toInt + corr then p.toInt + corr - inst.crange.toNat
    else p.toInt + corr) := congrArg (BitVec.ofInt 32) (ite_not _ _ _)

theorem State.SourceHolds.mono {m n : Nat} (h : s.SourceHolds n) (hm : m ≤ n) : s.SourceHolds m := by
  obtain ⟨bs, rest, hsrc, hl⟩ := h
  exact ⟨bs, rest, hsrc, hm.trans hl⟩

/-- The body of R217 returns where the source holds eight bytes (R161). -/
theorem decompressValue_takes {m : Nat} {inst : IcInst} (hd : s.DecOk) (h : IcUsable s inst) (hm : m < inst.ctx.toNat)
    (hs : s.SourceHolds 8) : ∃ u t k corr, TakesSymbol s u (inst.magSlot m) k ∧ k ≤ inst.cbits.toNat ∧
      TakesCorrector u t inst k corr := by
  have hmodel := h.magModel hm
  obtain ⟨k, u, -, hsym, hu⟩ := decodeSymbol_completes hd hmodel (hs.mono (by omega))
  have hk : k ≤ inst.cbits.toNat := by
    obtain ⟨-, hsize⟩ := h.mag hm
    have := hsym.lt
    omega
  have hpass := hsym.passed h.1 h.2.1
  obtain ⟨corr, t, hcorr⟩ := decodeCorrector_completes hu (h.passed hpass) hk (hsym.source (j := 6) hd hmodel hs)
  exact ⟨u, t, k, corr, hsym, hk, hcorr⟩

section decompress

variable (hm : s.mode = .dec) (hi : i.toNat < s.par.nic)
include hm hi

theorem icDecompress_uninit_refused (hst : (s.icAt i.toNat).st ≠ .ready) :
    exec (.icDecompress i c p) s = refuse s .eUninit := (guarded_dec hm).trans ((if_neg (by omega)).trans (if_pos hst))

variable (hst : (s.icAt i.toNat).st = .ready)
include hst

theorem icDecompress_context_refused (hc : (s.icAt i.toNat).ctx.toNat ≤ c.toNat) :
    exec (.icDecompress i c p) s = refuse s .eOperand :=
  (guarded_dec hm).trans ((if_neg (by omega)).trans ((if_neg (by simp [hst])).trans (if_pos hc)))

theorem icDecompress_models_refused (hc : c.toNat < (s.icAt i.toNat).ctx.toNat)
    (hok : icModelsOk s (s.icAt i.toNat) = false) : exec (.icDecompress i c p) s = refuse s .eUninit :=
  (guarded_dec hm).trans ((if_neg (by omega)).trans ((if_neg (by simp [hst])).trans
    ((if_neg (by omega)).trans (if_pos hok))))

end decompress

/-- Settles O53: the checks of R217 in order, then the two procedures of its body. -/
theorem icDecompressResult : Obligations.IcDecompressResult := by
  rintro i c p s inst hinv rfl
  refine ⟨guarded_not_dec, fun hm hi => (guarded_dec hm).trans (if_pos hi), icDecompress_uninit_refused,
    icDecompress_context_refused, icDecompress_models_refused, fun hm hi hst hc hok hs => ?_⟩
  obtain ⟨-, -, hd⟩ := hinv.dec hm
  have hu := hinv.icUsable (by simp [hm]) hst hok
  obtain ⟨u, t, k, corr, hsym, hk, hcorr⟩ := decompressValue_takes hd hu hc hs
  refine ⟨u, t, k, corr, _, hsym, hk, hcorr, rfl, ?_⟩
  rw [← unfoldValue_eq]
  exact icDecompress_answers hm hi hu hc (decompressValue_done p hd hu hc hsym hcorr)

/-! ### The remembered magnitude -/

/-- The compressor that an `IC_COMPRESS` answered `OK` leaves, in a session that is still open (R216, R220). -/
theorem icCompress_icAt {v w : Word} {t : State} (hinv : s.Inv) (ha : Answers (.icCompress i c p v) s w t) :
    t.mode = .enc ∧ i.toNat < t.par.nic ∧ t.icAt i.toNat =
      { s.icAt i.toNat with k := BitVec.ofNat 6 (magnitude (foldCorr (s.icAt i.toNat) p v)) } := by
  obtain ⟨hm, hi, -, -, -, -, u, t', -, -, -, ⟨haround, hshape, -⟩, rfl⟩ := icCompress_answered hinv ha
  obtain ⟨hpar, -, -, -, hmode, -⟩ := haround
  obtain ⟨-, -, hic, -⟩ := hshape
  obtain ⟨-, ⟨-, -, hlen, -⟩, -⟩ := hinv
  exact ⟨hmode.trans hm, hpar ▸ hi, State.icAt_setIc_self _ (by rwa [hic, hlen])⟩

/-- Settles O55: `K` holds the magnitude without loss, because it is at most `CBITS`. -/
theorem exposedMagnitude : Obligations.ExposedMagnitude := by
  rintro i c p v s t absadj hinv ha rfl
  obtain ⟨hm, hi, hinst⟩ := icCompress_icAt hinv ha
  obtain ⟨-, -, -, hu, hk, -⟩ := icCompress_answered hinv ha
  obtain ⟨-, hbits, -⟩ := hu.corrector
  obtain ⟨-, -, -, hready, -⟩ := hu
  have hst : (t.icAt i.toNat).st = .ready := by
    rw [hinst]
    exact hready
  have hget := icGetk_answers (i := i) (by simp [hm]) hi (by simp [hst])
  have hword : (t.icAt i.toNat).k.setWidth 32 = BitVec.ofNat 32 (magnitude (foldCorr (s.icAt i.toNat) p v)) := by
    rw [hinst]
    exact BitVec.setWidth_ofNat_of_le_of_lt (by omega) (by omega)
  rw [hget, hword]
  rfl

end Sys2Proof.Machine
end

section
/-! Refusals and sticky faults (R260 to R273): what each kind of response says of the state that gives it, the commands that
`FAULT` mode still answers, and the two faults an operand or a flush is sure to meet. -/

namespace Sys2Proof.Machine

open Sys2Proof

/-! ### Refusals -/

/-- Settles O11, by the way the command ends: only a refusal gives one of the five codes. -/
theorem refusalChangesNothing : Obligations.RefusalChangesNothing := by
  intro i s t r h hr hcode
  cases exec_ends h with
  | refused e =>
    obtain rfl := append_last_inj hr
    rfl
  | reset =>
    obtain rfl := append_last_inj hr
    simp at hcode
  | answered u v =>
    obtain rfl := List.singleton_inj.mp (List.append_inj' hr rfl).2
    simp at hcode
  | faulted u e cmd =>
    obtain rfl := List.singleton_inj.mp (List.append_inj' hr rfl).2
    cases e <;> simp [Sticky.status] at hcode
  | abandoned u _ hnone => simp [hnone] at hr

/-- Settles O14: R101 refuses every command but `SRST` and three numbers of `RDCSR`, which read the record. -/
theorem onlyResetLeavesFault : Obligations.OnlyResetLeavesFault := by
  intro i s t hf hsrst h
  by_cases ha : AllowedInFault i
  · obtain rfl | ⟨csr, rfl, hcsr⟩ := ha
    · exact absurd rfl hsrst
    · refine .inr ⟨csr, rfl, ?_⟩
      rw [rdcsr_allowed fun _ => hcsr] at h
      obtain hn | hn | hn : csr.toNat = 0 ∨ csr.toNat = 1 ∨ csr.toNat = 2 := by omega
      · simp only [hn, State.csr, hf] at h
        cases h
        exact .inl ⟨hn, rfl⟩
      · simp only [hn, State.csr] at h
        cases h
        exact .inr (.inl ⟨hn, rfl⟩)
      · simp only [hn, State.csr] at h
        cases h
        exact .inr (.inr ⟨hn, rfl⟩)
  · rw [exec_not_allowed (hf ▸ fault_not_mem_modesOf i) fun _ => ha, if_pos hf] at h
    cases h
    exact .inl rfl

/-! ### Operands outside the shared ranges -/

/-- The value operand of `ENC_BIT` is checked last, after the slot (R156). -/
theorem encBit_ill_refused {s : State} {b : Index} {bit : Word} (hm : s.mode = .enc) (hbit : 1 < bit.toNat) :
    Refuses (.encBit b bit) s .eOperand ∨ Refuses (.encBit b bit) s .eUninit := by
  by_cases hslot : s.par.nbm ≤ b.toNat
  · exact .inl (encBit_slot_refused hm bit hslot)
  · by_cases hv : (s.bmAt b.toNat).valid = true
    · exact .inl (encBit_bit_refused hm (by omega) hv hbit)
    · exact .inr (encBit_uninit_refused hm bit (by omega) (by simpa using hv))

/-- The operands of `IC_SETUP` are checked after the compressor and its state (R211). -/
theorem icSetup_ill_refused {s : State} {i : Byte} {c : Index} {bh zero : Byte} {smbase bmslot : Index}
    (hf : s.mode ≠ .fault) (h : zero.toNat ≠ 0 ∨ c.toNat < 1) :
    Refuses (.icSetup i c bh zero smbase bmslot) s .eOperand ∨ Refuses (.icSetup i c bh zero smbase bmslot) s .eUninit := by
  by_cases hi : s.par.nic ≤ i.toNat
  · exact .inl ((guarded_any hf).trans (if_pos hi))
  · by_cases hst : (s.icAt i.toNat).st = .unconf
    · exact .inr (icSetup_uninit_refused hf (by omega) hst)
    · exact .inl (icSetup_operand_refused hf (by omega) hst (by tauto))

/-- Settles O16: of the commands with a range that every implementation shares, two check another operand's slot first. -/
theorem illFormedCommandIsRefused : Obligations.IllFormedCommandIsRefused := by
  intro i s hill hm
  have hf : s.mode ≠ .fault := fun hf => fault_not_mem_modesOf i (hf ▸ hm)
  cases i <;> simp only [Instr.wellFormed, Bool.true_eq_false, Bool.and_eq_false_iff, decide_eq_false_iff_not] at hill
  case smInit m n => exact .inl (smInit_size_refused m hf (by omega))
  case smRd sel m j => exact .inl (smRd_operand_refused j hf (by omega))
  case encBit b bit => exact encBit_ill_refused (by simpa [modesOf] using hm) (by omega)
  case encBits k x => exact .inl (encBits_refused (by simpa [modesOf] using hm) (by omega))
  case decBits k => exact .inl (decBits_refused (by simpa [modesOf] using hm) (by omega))
  case icConfig k b range => exact .inl (icConfig_refused hf (by omega))
  case icSetup k c bh zero smbase bmslot => exact icSetup_ill_refused hf (by omega)

/-! ### Sticky faults -/

/-- Between `s` and `u` bytes may have been transferred; the parameters, the host and the responses are as they were. -/
structure Transferred (s u : State) : Prop where
  par : u.par = s.par
  inbox : u.inbox = s.inbox
  responses : u.responses = s.responses
  out : ∃ bs, u.out = s.out ++ bs
  taken : s.taken ≤ u.taken
  sink : ∃ n, u.sink = s.sink.drop n
  source : ∃ n, u.source = s.source.drop n

theorem EncMoved.transferred {s u : State} (h : EncMoved s u) : Transferred s u := by
  obtain ⟨hpar, hinbox, hresp, hout, hsink, hsource, htaken, -⟩ := h
  exact ⟨hpar, hinbox, hresp, hout, htaken.ge, hsink, 0, hsource⟩

theorem DecMoved.transferred {s u : State} (h : DecMoved s u) : Transferred s u := by
  obtain ⟨hpar, hinbox, hresp, hout, hsink, hsource, htaken, -⟩ := h
  exact ⟨hpar, hinbox, hresp, ⟨[], by simp [hout]⟩, htaken, ⟨0, hsink⟩, hsource⟩

/-- `t` is the fault entry of R270 for the command word `cmd`, after what was transferred, and `r` its response. -/
def FaultTaken (s t : State) (cmd : Word) (r : Response) : Prop :=
  ∃ (u : State) (e : Sticky), Transferred s u ∧ t = takeFault u e cmd ∧ r = ⟨e.status, 0⟩

/-- A run answered with a sticky code raised that fault: it neither returned nor was it abandoned (R260, R270, R291). -/
theorem finish_faultTaken {cmd : Word} {s t : State} {run : Run Word} {r : Response} {R A : State → State → Prop}
    (htrace : run.Traced s R A) (hR : ∀ u, R s u → Transferred s u) (hA : ∀ u, A s u → u.responses = s.responses)
    (h : finish cmd run = .next t) (hr : t.responses = s.responses ++ [r]) (hst : r.st = .eIo ∨ r.st = .ePendovf) :
    FaultTaken s t cmd r := by
  cases run with
  | done v u =>
    cases h
    obtain rfl := List.singleton_inj.mp (List.append_inj' hr rfl).2
    simp at hst
  | raised e u =>
    cases h
    obtain rfl := List.singleton_inj.mp (List.append_inj' hr rfl).2
    exact ⟨u, e, hR u htrace, rfl, rfl⟩
  | aborted u =>
    cases h
    obtain ⟨hleft, -⟩ := htrace
    simp [hA u hleft] at hr
  | stopped f => cases h

/-- Only a coding procedure that raised a sticky fault is answered with its code (R260). -/
theorem exec_faultTaken {i : Instr} {s t : State} {r : Response} (h : exec i s = .next t)
    (hr : t.responses = s.responses ++ [r]) (hst : r.st = .eIo ∨ r.st = .ePendovf) :
    FaultTaken s t (encode i).cmd r := by
  have hshape := exec_shape i s
  generalize exec i s = o at hshape h
  cases hshape with
  | refused e hfault hmode hoperand =>
    cases h
    obtain rfl := append_last_inj hr
    have hcode : e = .eFaulted ∨ e = .eMode ∨ e = .eOperand ∨ e = .eUninit := by tauto
    obtain rfl | rfl | rfl | rfl := hcode <;> simp at hst
  | reset =>
    cases h
    obtain rfl := append_last_inj hr
    simp at hst
  | answered u v =>
    cases h
    obtain rfl := List.singleton_inj.mp (List.append_inj' hr rfl).2
    simp at hst
  | encoded run _ _ _ htrace =>
    exact finish_faultTaken htrace (fun _ => EncMoved.transferred) (fun _ hu => hu.transferred.responses) h hr hst
  | decoded run _ _ _ htrace =>
    exact finish_faultTaken htrace (fun _ => DecMoved.transferred) (fun _ ⟨_, _, hresp, _⟩ => hresp) h hr hst

/-- Settles O13: the command word is the one that came, and fault entry moves no byte. -/
theorem stickyFaultEntry : Obligations.StickyFaultEntry := by
  intro s t p i rest r hinbox hdecode hstep hr hst
  rw [step_of_decoded hinbox hdecode] at hstep
  obtain ⟨u, e, hu, rfl, rfl⟩ := exec_faultTaken hstep hr hst
  have hcmd : (encode i).cmd = p.cmd := by
    rw [encode_of_decode hdecode]
    rfl
  have hcause : (BitVec.ofNat 8 e.status.code).toNat = e.status.code := by cases e <;> rfl
  exact ⟨rfl, rfl, hcause, hcmd, rfl, hu.par, hu.inbox, hu.out, hu.taken, hu.sink, hu.source⟩

/-- A flush whose first shift-out finds `PEND` full takes the fault before any byte moves (R160, R268). -/
theorem encDone_of_full {s : State} (hm : s.mode = .enc) (hr : ¬ Releases s) (hp : s.pend = 2 ^ s.par.pendBits - 1) :
    exec .encDone s = .next (takeFault s .pendovf 0x24000000) := by
  refine (guarded_enc hm).trans ?_
  rw [Config.flushBytes, shiftOuts, shiftOut_of_full hr hp]
  rfl

/-- Settles O20: a top byte of 0xFF without a carry defers, and fault entry leaves the host and the streams alone. -/
theorem pendingOverflow : Obligations.PendingOverflow := by
  intro s hm hp hcarry htop
  have hdefers : ¬ Releases s := by
    rw [releases_iff]
    omega
  exact ⟨_, encDone_of_full hm hdefers hp, rfl, rfl, rfl, rfl, rfl, rfl, rfl, rfl, rfl, rfl⟩

end Sys2Proof.Machine
end

section
/-! The reset state and the three ways to it: the machine's start, `SRST`, and the hard reset, between commands or during a
blocked transfer (R250, R290, R291). -/

namespace Sys2Proof.Machine

open Sys2Proof

/-! ### The hard reset during a blocked transfer -/

/-- What a decoding procedure had transferred where the hard reset abandons it. -/
theorem DecLeft.transferred {s u : State} (h : DecLeft s u) : Transferred s u := by
  obtain ⟨hpar, hinbox, hresp, hout, hsink, hsource, htaken⟩ := h
  exact ⟨hpar, hinbox, hresp, ⟨[], by simp [hout]⟩, htaken, ⟨0, hsink⟩, hsource⟩

/-- `t` is the block reset during a blocked transfer, after what was transferred (R291). -/
def Abandoned (s t : State) : Prop := ¬ s.Undisturbed ∧ ∃ u : State, Transferred s u ∧ t = resetBlock u

/-- A run that gave no response was abandoned: a return and a sticky fault respond (R260, R291). -/
theorem finish_abandoned {cmd : Word} {s t : State} {run : Run Word} {R A : State → State → Prop}
    (htrace : run.Traced s R A) (hR : ∀ u, R s u → u.responses = s.responses) (hA : ∀ u, A s u → Transferred s u)
    (h : finish cmd run = .next t) (hr : t.responses = s.responses) : Abandoned s t := by
  cases run with
  | done v u =>
    cases h
    simp [hR u htrace] at hr
  | raised e u =>
    cases h
    simp [hR u htrace] at hr
  | aborted u =>
    cases h
    obtain ⟨hleft, hdisturbed⟩ := htrace
    exact ⟨hdisturbed, u, hA u hleft, rfl⟩
  | stopped f => cases h

/-- Only a coding procedure can end without a response, and then it was abandoned. -/
theorem exec_abandoned {i : Instr} {s t : State} (h : exec i s = .next t) (hr : t.responses = s.responses) :
    Abandoned s t := by
  have hshape := exec_shape i s
  generalize exec i s = o at hshape h
  cases hshape with
  | refused e =>
    cases h
    simp at hr
  | reset =>
    cases h
    simp at hr
  | answered u v _ _ _ hresp =>
    cases h
    simp [hresp] at hr
  | encoded run _ _ _ htrace =>
    exact finish_abandoned htrace (fun _ hu => hu.transferred.responses) (fun _ => EncMoved.transferred) h hr
  | decoded run _ _ _ htrace =>
    exact finish_abandoned htrace (fun _ hu => hu.transferred.responses) (fun _ => DecLeft.transferred) h hr

/-- Settles O2: the command was abandoned, and the reset of the block leaves the streams as the transfers left them. -/
theorem resetDuringTransfer : Obligations.ResetDuringTransfer := by
  intro i s t h hr
  obtain ⟨hdisturbed, u, hu, rfl⟩ := exec_abandoned h hr
  exact ⟨resetBlock_isReset u, hdisturbed, hu.out, hu.taken, hu.sink, hu.source⟩

/-! ### The reset state -/

/-- The machine starts in the reset state of R290. -/
theorem reset_isReset : State.reset.IsReset := by
  refine ⟨rfl, rfl, rfl, rfl, by simp [State.carry, State.reset], rfl, rfl, rfl, rfl, List.length_replicate,
    List.length_replicate, List.length_replicate, fun sl h => ?_, fun sl h => ?_,
    fun inst h => List.eq_of_mem_replicate h, rfl⟩
  · rw [List.eq_of_mem_replicate h]
    rfl
  · rw [List.eq_of_mem_replicate h]
    rfl

/-- The reset of the block moves neither the host nor the byte stream (R291). -/
theorem resetBlock_sameOutside (s : State) : s.SameOutside (resetBlock s) := ⟨rfl, rfl, rfl, rfl, rfl, rfl⟩

/-- Settles O1: `SRST` and the hard reset are both the reset of the block, and only `SRST` responds. -/
theorem resetResults : Obligations.ResetResults := by
  refine ⟨reset_isReset, fun s => ?_, fun s rest hinbox => ?_⟩
  · exact ⟨resetBlock s, rfl, resetBlock_isReset s, resetBlock_sameOutside s, resetBlock_responses s⟩
  · exact ⟨resetBlock (s.setInbox rest), step_of_hardReset hinbox, resetBlock_isReset _, resetBlock_sameOutside _, rfl⟩

/-! ### The base of the invariant -/

/-- Every reset state satisfies the invariant: no slot is valid, no compressor is configured and no session is open. -/
theorem State.IsReset.inv {s : State} (hpar : s.par.Ok) (h : s.IsReset) : s.Inv := by
  obtain ⟨hmode, hcause, hfinfo, -, -, -, -, hpend, -, hsm, hbm, hic, hsmv, hbmv, hinst, -⟩ := h
  have hshaped : s.Shaped := ⟨hsm, hbm, hic, by rw [hpend]; positivity⟩
  have hfiles : s.FilesOk := by
    refine ⟨fun sl hmem hv => ?_, fun sl hmem hv => ?_, fun inst hmem => ?_⟩
    · simp [hsmv sl hmem] at hv
    · simp [hbmv sl hmem] at hv
    · rw [hinst inst hmem]
      rfl
  refine ⟨hpar, hshaped, ⟨fun _ => ⟨hcause, hfinfo⟩, fun hf => ?_⟩, fun _ => hfiles, fun he => ?_, fun hd => ?_⟩
  · simp [hmode] at hf
  · simp [hmode] at he
  · simp [hmode] at hd

/-- The default parameters meet the constraints of R5. -/
theorem defaultParams_ok : Params.default.Ok := by decide

/-- Settles O56: the machine starts in a reset state, with the default parameters. -/
theorem resetSatisfiesInvariant : Obligations.ResetSatisfiesInvariant := reset_isReset.inv defaultParams_ok

end Sys2Proof.Machine
end
